-- ==== Sys2Proof/Word.lean ====
section
/-! DEFINITION. The words of the EK-440: bytes, keys, versions, marks and the other fixed-width numbers of the formats chapter (R190, Table 11-1 to Table 11-12). -/

namespace Sys2Proof

/-- A byte of a frame, a buffer, a record or the array. -/
abbrev Byte := BitVec 8

/-- A key, 0000h to FFFFh (Table 1-1). -/
abbrev Key := BitVec 16

/-- A 16-bit field: a mark position, a CRC, an offset, a count (R190, R192). -/
abbrev Half := BitVec 16

/-- A version, 1 to 4,294,967,295 while a record has one (R3). -/
abbrev Version := BitVec 32

/-- A write sequence number (R10). -/
abbrev SeqNo := BitVec 32

/-- A format generation, 0 to 65,535 (R152). -/
abbrev Generation := BitVec 16

/-- A set of watch triggers: bit 0 APPEAR, bit 1 CHANGE, bit 2 VANISH (Table 11-1). -/
abbrev Triggers := BitVec 3

/-- A port's sticky flags, in the bit order of the flag mask of Table 11-1. -/
abbrev Flags := BitVec 5

/-- A port's notify enables, in the bit order of the enable mask of Table 11-1. -/
abbrev Enables := BitVec 3

/-- A segment, S0 to S255 (R14). -/
abbrev Seg := Fin 256

/-- A cell number within its segment, 0 to 31; cell 0 is the header (R14). -/
abbrev CellNo := Fin 32

end Sys2Proof
end

