-- ==== Sys2Proof/Config.lean ====
section
/-! DEFINITION. What the EK-440 fixes as numbers (Table 0-5, R192), and the one value its specification leaves open. -/

namespace Sys2Proof

/-- FREE VALUE: whether the degrade signal of a move's third failed attempt reaches the Store Controller before the trigger of R139 is evaluated for the abandoned pass. R143 and R146 name both and give no order between them. No body: nothing in Lean can evaluate it (log entry 13). -/
opaque Config.degradeBeforeTrigger : Bool

/-- Staging buffer size in bytes (R179). -/
def Config.bufferBytes : Nat := 2048

/-- Commands a command queue holds (R176). -/
def Config.commandPlaces : Nat := 4

/-- Results a result queue holds (R177). -/
def Config.resultPlaces : Nat := 4

/-- Events an event queue holds (R185). -/
def Config.eventPlaces : Nat := 8

/-- Entries other than the configuration entry that the directory holds (R40). -/
def Config.masterEntries : Nat := 4095

/-- Claims the table holds, and claims one port may hold (R105). -/
def Config.claimPlaces : Nat := 16

/-- Claims one port may hold (R105). -/
def Config.claimShare : Nat := 8

/-- Longest claim in milliseconds (R105). -/
def Config.longestClaim : Nat := 60000

/-- Entries a watch list holds (R115). -/
def Config.watchPlaces : Nat := 8

/-- Longest payload, which is also the payload area (R19). -/
def Config.payloadBytes : Nat := 480

/-- Bytes of a cell's data area (R14). -/
def Config.dataBytes : Nat := 512

/-- Bytes the model gives one cell: the data area and two mark positions of 2 bytes (R14, R192, log entry 7). -/
def Config.cellStride : Nat := 516

/-- Bytes the model gives one segment (R14, log entry 7). -/
def Config.segmentStride : Nat := 16512

/-- Bytes the model gives the whole array (R14, log entry 7). -/
def Config.arrayBytes : Nat := 4227072

/-- Erases after which a segment is retired (R149). -/
def Config.endurance : Nat := 50000

/-- Usable segments a READY store needs (R151, R163). -/
def Config.usableForReady : Nat := 136

/-- Attempts of an update, of a move and of a configuration write (R71, R143, R162). -/
def Config.attempts : Nat := 3

/-- Entries a scan examines in one slice (R98). -/
def Config.sliceLength : Nat := 8

/-- Times an erase may be suspended (R37). -/
def Config.suspensions : Nat := 12

/-- Running time in microseconds between suspensions (R35). -/
def Config.minimumRun : Nat := 400

/-- Time in microseconds within which a suspending erase stops (R35). -/
def Config.stopTime : Nat := 30

/-- Longest running time of an erase in microseconds (R31). -/
def Config.eraseTime : Nat := 9000

/-- Microseconds after reaching 0 within which an expiry is taken (R106). -/
def Config.expiryWindow : Nat := 1000

/-- Unlisted bytes of the array read erased (R15). -/
def Config.erasedByte : Byte := 0xFF#8

/-- Unlisted bytes of a staging buffer read 00h (R179). -/
def Config.bufferByte : Byte := 0x00#8

/-- The key that is not a key, used where no key applies (R1). -/
def Config.noKey : Key := 0xFFFF#16

/-- The configuration key (R9). -/
def Config.configKey : Key := 0x0000#16

/-- The none value of a 2-byte field (R191). -/
def Config.noneHalf : Half := 0xFFFF#16

/-- The highest version (R6). -/
def Config.lastVersion : Version := 0xFFFFFFFF#32

/-- The highest generation (R165). -/
def Config.lastGeneration : Generation := 0xFFFF#16

/-- The segment header signature (R192). -/
def Config.signature : BitVec 32 := 0x5A3C96E1#32

/-- A mark position that reads erased (R192). -/
def Config.markErased : Half := 0xFFFF#16

/-- A mark position that reads present (R192). -/
def Config.markPresent : Half := 0x0000#16

end Sys2Proof
end

