-- ==== Sys2Proof/Syntax.lean ====
section
/-! DEFINITION. The commands of the EK-440 as data: one constructor of Instr per row of spec/opcode_table.json. The table gives the rows no fields; the operands say which port, which moment of a frame, which bytes, or what an array operation left behind (log entries 3 and 8). -/

namespace Sys2Proof

/-- The four ports (00_scope.md 0.5). -/
inductive Port where
  | p0 | p1 | p2 | p3
  deriving DecidableEq, Repr

/-- A moment of one frame on a port's link (R171). A frame takes effect at its end, and the returning frames fix what they return earlier (R175, R178, R181, R186), so a frame reaches the machine as several moments. -/
inductive FrameMoment where
  /-- The select line is asserted: the frame begins. -/
  | select
  /-- The frame-kind byte has been clocked: STATUS READ, RESULT READ and EVENT READ fix their record here. -/
  | kindByte
  /-- A BUFFER READ's next returned byte begins to be clocked out (R181). -/
  | byteOut
  /-- The select line is released after `bytes` whole bytes; `whole` is false when the frame ends at a bit that is not a byte boundary (R173). -/
  | release (bytes : Nat) (whole : Bool)
  /-- The whole frame at once: select and release with nothing falling between them. -/
  | entire (bytes : Nat) (whole : Bool)
  deriving DecidableEq, Repr

/-- The commands: one constructor per row of the table of operations and events. -/
inductive Instr where
  /-- STATUS READ frame (R175). -/
  | statusRead (p : Port) (m : FrameMoment)
  /-- COMMAND frame with its command code, tag and 16 parameter bytes (R176). -/
  | command (p : Port) (m : FrameMoment) (code tag : Byte) (params : Vector Byte 16)
  /-- RESULT READ frame (R178). -/
  | resultRead (p : Port) (m : FrameMoment)
  /-- EVENT READ frame (R186). -/
  | eventRead (p : Port) (m : FrameMoment)
  /-- BUFFER WRITE frame with its offset and data bytes (R180). -/
  | bufferWrite (p : Port) (m : FrameMoment) (offset : Half) (data : List Byte)
  /-- BUFFER READ frame with its offset (R181). -/
  | bufferRead (p : Port) (m : FrameMoment) (offset : Half)
  /-- NOTIFY SET frame with its enable mask (R183). -/
  | notifySet (p : Port) (m : FrameMoment) (mask : Byte)
  /-- NOTIFY CLEAR frame with its enable mask (R183). -/
  | notifyClear (p : Port) (m : FrameMoment) (mask : Byte)
  /-- FLAGS CLEAR frame with its flag mask (R182). -/
  | flagsClear (p : Port) (m : FrameMoment) (mask : Byte)
  /-- PORT RESET frame (R187). -/
  | portReset (p : Port) (m : FrameMoment)
  /-- A frame whose kind byte names no kind, or in which no whole byte was clocked (`none`) (R173). -/
  | unknownFrameKind (p : Port) (m : FrameMoment) (kind : Option Byte)
  /-- RESET_N goes low; `cut` is what the operation in flight leaves in its part, `eraseCut` what a reclaim erase leaves in its segment (R38, R174). -/
  | resetNLow (cut eraseCut : List Host.Cell)
  /-- RESET_N returns high (R174). -/
  | resetNHigh
  /-- Power-on (R174). -/
  | powerOn
  /-- Power loss, with the same two residues as a hard reset (R38). -/
  | powerLoss (cut eraseCut : List Host.Cell)
  /-- GUARD_EN takes a level, true for high (R125). -/
  | guardEnChange (level : Bool)
  /-- The Engine executes the WRITE it has taken (R81). -/
  | write
  /-- The Engine executes the PATCH it has taken (R82). -/
  | patch
  /-- The Engine executes the REMOVE it has taken (R84). -/
  | remove
  /-- The Engine executes the READ it has taken (R85). -/
  | read
  /-- The Engine executes the STAT it has taken (R89). -/
  | stat
  /-- The Engine executes the SCAN it has taken (R90). -/
  | scan
  /-- The Engine executes the CLAIM it has taken (R108). -/
  | claim
  /-- The Engine executes the RELEASE it has taken (R110). -/
  | release
  /-- The Engine executes the WATCH SET it has taken (R116). -/
  | watchSet
  /-- The Engine executes the WATCH CLEAR it has taken (R117). -/
  | watchClear
  /-- The Engine executes the WATCH LIST it has taken (R118). -/
  | watchList
  /-- The Engine executes the GUARD SET it has taken (R127). -/
  | guardSet
  /-- The Engine executes the GUARD READ it has taken (R133). -/
  | guardRead
  /-- The Engine executes the RECLAIM it has taken (R150). -/
  | reclaim
  /-- The Engine executes the FORMAT it has taken (R165). -/
  | format
  /-- The Engine executes the STORE INFO it has taken (R170). -/
  | storeInfo
  /-- The Engine ends a command whose code names no command (R60). -/
  | badCommand
  /-- The parked scan whose port the arbiter has selected resumes (R99). -/
  | scanResume
  /-- The cell read in flight completes (R26). -/
  | cellReadDone
  /-- The body program in flight completes; `left` gives the bytes the program left otherwise than requested (R27). -/
  | bodyProgramDone (left : List Host.Cell)
  /-- The header program in flight completes; `left` as for a body program (R28). -/
  | headerProgramDone (left : List Host.Cell)
  /-- The mark program in flight completes; `fails` says that the mark did not take (R29). -/
  | markProgramDone (fails : Bool)
  /-- The segment erase in flight completes; `left` gives the bytes of the segment it left otherwise than requested (R30). -/
  | segmentEraseDone (left : List Host.Cell)
  /-- The suspension of a reclaim erase begins (R35). -/
  | eraseSuspendBegin
  /-- A suspending erase stops (R35). -/
  | eraseStop
  /-- The timer of the claim on `key` has reached 0 and its expiry is taken (R111). -/
  | claimExpiry (key : Key)
  /-- The Engine's held grant request is answered with a cell (R136). -/
  | heldGrantAnswered
  /-- The reset of port `p` proceeds (R188). -/
  | portResetProceed (p : Port)
  deriving DecidableEq, Repr

end Sys2Proof
end

