-- ==== Sys2Proof/Machine/State.lean ====
section
/-! DEFINITION. Every piece of state the specification gives the EK-440, as plain data, and the machine right after power-on. -/

namespace Sys2Proof.Machine

/-- Four like things, one for each port. -/
structure Quad (α : Type) where
  p0 : α
  p1 : α
  p2 : α
  p3 : α
  deriving DecidableEq, Repr

/-! ## Records and the array (chapters 1 and 2) -/

/-- A cell position (R14). -/
structure Pos where
  seg : Seg
  cell : CellNo
  deriving DecidableEq, Repr

/-- Who wrote a cell (R3). -/
inductive Author where
  | port (p : Port)
  | internal
  deriving DecidableEq, Repr

/-- Record kinds (R3). -/
inductive Kind where
  | data
  | tombstone
  | config
  deriving DecidableEq, Repr

/-- A body: the fields of Table 2-3 less the body check, which the Array Controller computes, and the payload (R19). -/
structure Body where
  key : Key
  version : Version
  seq : SeqNo
  length : Nat
  author : Author
  kind : Kind
  check : Half
  payload : List Byte
  deriving DecidableEq, Repr

/-- The two mark positions of a cell: commit (or retired, in cell 0) and supersede (R14). -/
inductive MarkKind where
  | first
  | second
  deriving DecidableEq, Repr

/-- How a mark position reads (R23). -/
inductive MarkReading where
  | erased
  | present
  | disturbed
  deriving DecidableEq, Repr

/-- Cell conditions of Table 2-4. -/
inductive CellCond where
  | erased
  | allocated
  | committed
  | superseded
  | torn
  deriving DecidableEq, Repr

/-- What a read of a data cell reports: the condition, the fields of a good body, the payload area as read and whether the payload check is good (R26). -/
structure CellRead where
  cond : CellCond
  body : Option Body
  area : List Byte
  payloadGood : Bool
  deriving DecidableEq, Repr

/-- Header conditions of Table 2-2. -/
inductive HeaderCond where
  | erased
  | valid
  | bad
  deriving DecidableEq, Repr

/-- What a read of cell 0 reports (R18). Generation and count are 0 unless the header is VALID. -/
structure HeaderRead where
  cond : HeaderCond
  generation : Generation
  count : Nat
  retired : Bool
  deriving DecidableEq, Repr

/-- The operations of Table 2-6, with what their requests carry (R25): a cell read says whether the payload is asked for; a header program is a body program aimed at cell 0 (R28). -/
inductive ArrayOp where
  | readCell (pos : Pos) (payload : Bool)
  | programBody (pos : Pos) (body : Body)
  | programHeader (seg : Seg) (generation : Generation) (count : Nat)
  | programMark (pos : Pos) (which : MarkKind)
  | eraseSegment (seg : Seg) (generation : Generation) (count : Nat)
  deriving DecidableEq, Repr

/-- The three requesters of the array (R25). -/
inductive Requester where
  | engine
  | space
  | store
  deriving DecidableEq, Repr

/-- The array operation in flight, with the microseconds since its grant (R31, R32). -/
structure InFlight where
  requester : Requester
  op : ArrayOp
  age : Nat
  deriving DecidableEq, Repr

/-- Erase states (R34). -/
inductive EraseState where
  | running
  | suspending
  | suspended
  deriving DecidableEq, Repr

/-- The erase context of a reclaim erase (R34); `stopAge` counts the microseconds since SUSPENDING began (R35). -/
structure EraseCtx where
  seg : Seg
  generation : Generation
  count : Nat
  state : EraseState
  accumulated : Nat
  sinceResume : Nat
  suspendCount : Nat
  stopAge : Nat
  deriving DecidableEq, Repr

/-- The Array Controller and the cell array. A reclaim erase stands in `erase`, every other operation in `inFlight` (R25, R32, R34). -/
structure ArrayCtl where
  cells : List Host.Cell
  inFlight : Option InFlight
  waitEngine : Option ArrayOp
  waitSpace : Option ArrayOp
  waitStore : Option ArrayOp
  erase : Option EraseCtx
  deriving DecidableEq, Repr

/-! ## Commands, results and events (chapters 4, 10 and 11) -/

/-- A command as its COMMAND frame delivered it (R59, R176). -/
structure Cmd where
  code : Byte
  tag : Byte
  params : Vector Byte 16
  deriving DecidableEq, Repr

/-- Termination classes of Table 0-2. -/
inductive Cls where
  | normal
  | abnormal
  | invalid
  | abandoned
  deriving DecidableEq, Repr

/-- Reasons of Table 11-6. -/
inductive Reason where
  | done | endOfRecord | bufferEnd | stopByte | rangeEnd | limit | created | renewed
  | notFormatted | readOnly | guarded | permanent | claimed | exists_ | versionMismatch
  | notFound | beyondEnd | directoryFull | versionExhausted | programFail | dataCheck
  | claimBusy | claimFull | notHolder | watchFull | locked | generationExhausted
  | badKey | badField | badRange | tooLong | badCommand
  | stateChanged
  deriving DecidableEq, Repr

/-- A result record (Table 11-5); the reason byte is a reason code or a packed field (Table 11-7). -/
structure Result where
  tag : Byte
  code : Byte
  cls : Cls
  reason : Byte
  key : Key
  version : Version
  count : Half
  aux : Half
  deriving DecidableEq, Repr

/-- Store states of Table 9-1. -/
inductive StoreState where
  | mounting
  | unformatted
  | formatting
  | ready
  | degraded
  deriving DecidableEq, Repr

/-- Lock modes (R123). -/
inductive LockMode where
  | opened
  | pin
  | fixed
  deriving DecidableEq, Repr

/-- Causes of a CLAIM_LOST event (R121). -/
inductive LossCause where
  | expired
  | format
  deriving DecidableEq, Repr

/-- Events of Table 11-8. -/
inductive Event where
  | watchHit (key : Key) (triggers : Triggers) (version : Version) (author : Author)
  | claimLost (key : Key) (holder : Port) (cause : LossCause)
  | storeState (state : StoreState) (generation : Generation)
  | guardChanged (target : Port) (mode : LockMode) (session : Bool) (version : Version)
  deriving DecidableEq, Repr

/-! ## The Record Engine (chapters 3, 4 and 5) -/

/-- States of a directory entry (R41). -/
inductive EntryState where
  | live
  | gone
  deriving DecidableEq, Repr

/-- A directory entry (Table 3-1). -/
structure Entry where
  key : Key
  state : EntryState
  cell : Pos
  version : Version
  length : Nat
  author : Author
  stale : Nat
  retry : Option Pos
  movePending : Bool
  deriving DecidableEq, Repr

/-- States of a key (R4). -/
inductive KeyState where
  | absent
  | live
  | gone
  deriving DecidableEq, Repr

/-- Overtaken states of the pending move (R48). -/
inductive Overtaken where
  | none
  | marked
  | unmarked
  deriving DecidableEq, Repr

/-- The pending move record (R48). -/
structure Move where
  key : Key
  version : Version
  victim : Pos
  copy : Pos
  overtaken : Overtaken
  deriving DecidableEq, Repr

/-- Relations of a scan (Table 5-2). -/
inductive Relation where
  | eq | ne | le | ge
  deriving DecidableEq, Repr

/-- A scan context (R91). -/
structure ScanCtx where
  high : Key
  windowOffset : Nat
  width : Nat
  relation : Relation
  limit : Nat
  outLast : Nat
  pattern : List Byte
  cursor : Key
  outPos : Nat
  matched : Nat
  short : Nat
  checkFailed : Nat
  examined : Nat
  slice : Nat
  deriving DecidableEq, Repr

/-- A port's current slot (R56). A parked scan keeps its command and its context. -/
inductive Slot where
  | none
  | executing
  | parked (cmd : Cmd) (ctx : ScanCtx)
  deriving DecidableEq, Repr

/-- Stages of an update (Table 4-5). DONE has no stage of its own: the context is discarded there. -/
inductive Stage where
  | oldRead
  | grantWait
  | body
  | commitMark
  | supersede
  | retryMark
  deriving DecidableEq, Repr

/-- The update context (R71). `payload` holds the payload bytes and their check once they are taken; `old` the old payload of a PATCH; `retryAtStart` the entry's retry cell as it stood when the update began, which R45 asks for. -/
structure Update where
  key : Key
  kind : Kind
  version : Version
  author : Author
  payload : Option (List Byte × Half)
  old : List Byte
  attempt : Nat
  granted : Option Pos
  stage : Stage
  retryAtStart : Option Pos
  deriving DecidableEq, Repr

/-- What the Engine is doing (R56): nothing, or one command of one port. `taken` and `resuming` stand between the arbiter's selection and the execution step of the command. -/
inductive Work where
  | idle
  | taken (p : Port) (c : Cmd)
  | resuming (p : Port) (c : Cmd) (k : ScanCtx)
  | updating (p : Port) (c : Cmd) (u : Update)
  | reading (p : Port) (c : Cmd) (version : Version) (length : Nat)
  | scanning (p : Port) (c : Cmd) (k : ScanCtx) (key : Key) (version : Version)
  | formatting (p : Port) (c : Cmd)
  deriving DecidableEq, Repr

/-- The Record Engine (Table 0-1): pointer, the command being executed, the directory in ascending key order, the pending move and the write sequence counter. -/
structure Engine where
  pointer : Port
  work : Work
  dir : List Entry
  move : Option Move
  seq : SeqNo
  deriving DecidableEq, Repr

/-! ## Coordination and guards (chapters 6 and 7) -/

/-- A claim with its timer: microseconds remaining, and microseconds since the timer reached 0 (R105, R106). -/
structure Claim where
  key : Key
  holder : Port
  remaining : Nat
  overdue : Nat
  deriving DecidableEq, Repr

/-- A watch entry (R115). -/
structure Watch where
  key : Key
  triggers : Triggers
  self : Bool
  deriving DecidableEq, Repr

/-- The Coordination Unit (R104). -/
structure Coord where
  claims : List Claim
  watches : Quad (List Watch)
  deriving DecidableEq, Repr

/-- A port's guard (R122). -/
structure Guard where
  upper : Bool
  size : Fin 10
  complement : Bool
  deriving DecidableEq, Repr

/-- What the configuration record holds (R130). -/
structure Settings where
  guards : Quad Guard
  mode : LockMode
  threshold : Nat
  deriving DecidableEq, Repr

/-- Configuration standing (R123). -/
inductive Standing where
  | loaded
  | defaulted
  | unreadable
  deriving DecidableEq, Repr

/-- The Guard Unit (R123). -/
structure GuardUnit where
  settings : Settings
  standing : Standing
  session : Bool
  deriving DecidableEq, Repr

/-! ## The Space Manager (chapter 8) -/

/-- Segment states of Table 8-1; `unlisted` is the empty table of hard reset (log entry 5). -/
inductive SegState where
  | unlisted
  | free
  | front
  | full
  | victim
  | erasing
  | retired
  | unknown
  deriving DecidableEq, Repr

/-- One row of the segment table (R134). -/
structure SegRow where
  state : SegState
  erases : Nat
  live : Nat
  dead : Nat
  free : Nat
  deriving DecidableEq, Repr

/-- Stages of a pass (R139). -/
inductive PassStage where
  | select
  | copying
  | erasing
  deriving DecidableEq, Repr

/-- What the pass awaits: the read of the cell at the cursor, a copy's body, a copy's commit mark, the supersede mark of a tombstone to be dropped, the erase, or the retired mark (R139, R143, R144, R149). -/
inductive Awaits where
  | victimRead
  | copyBody (copy : Pos)
  | copyCommit (copy : Pos)
  | dropMark
  | erase
  | retiredMark
  deriving DecidableEq, Repr

/-- A reclaim pass with its victim context (R139). `image` is the body its copies carry (R142), `noted` the noted cells with their keys (R145). -/
structure Pass where
  victim : Seg
  stage : PassStage
  cursor : CellNo
  image : Option Body
  attempt : Nat
  noted : List (CellNo × Key)
  awaits : Awaits
  deriving DecidableEq, Repr

/-- The Space Manager (R134, R136, R139): the segment table, the front's free cells in ascending order, the pass or none, and whether an Engine grant request is held. -/
structure Space where
  segs : Vector SegRow 256
  frontFree : List CellNo
  pass : Option Pass
  held : Bool
  deriving DecidableEq, Repr

/-! ## The Store Controller (chapter 9) -/

/-- Classes of Table 9-5; `fresh` is a BLANK segment that mount has given its header (R157). -/
inductive SegClass where
  | retired (count : Nat)
  | valid (generation : Generation) (count : Nat)
  | blank
  | damaged
  | fresh
  deriving DecidableEq, Repr

/-- A data cell that mount's step 3 found not ERASED (R158). -/
structure Found where
  pos : Pos
  cond : CellCond
  body : Option Body
  deriving DecidableEq, Repr

/-- The array operation mount awaits, by the step of Table 9-4 that requested it. -/
inductive MountAwaits where
  /-- step 1: the header of a segment -/
  | header (seg : Seg)
  /-- step 1: the retired mark of a VALID segment at erase count 50,000 -/
  | wornMark (seg : Seg)
  /-- step 1: a data cell of a segment whose header reads ERASED -/
  | blankCell (pos : Pos)
  /-- step 2: the header program of a blank segment -/
  | blankHeader (seg : Seg)
  /-- step 2: the retired mark of a blank segment whose header program failed -/
  | blankMark (seg : Seg)
  /-- step 3: a data cell of a current segment -/
  | dataCell (pos : Pos)
  /-- step 5: the supersede mark of the first repair target -/
  | repairMark
  /-- step 5: the erase of the first queued segment -/
  | repairErase
  /-- step 5: the retired mark of a segment whose repair erase retired it -/
  | repairRetire (seg : Seg)
  /-- step 6: the read of the configuration cell -/
  | configRead
  /-- step 6: the body of the defaults, with its attempt -/
  | configBody (pos : Pos) (attempt : Nat)
  /-- step 6: the commit mark of the defaults, with its attempt -/
  | configMark (pos : Pos) (attempt : Nat)
  deriving DecidableEq, Repr

/-- Mount's progress (R152): the classes found so far in segment order, the highest sequence number read, H of R157, the data cells found, the repair targets and the segments queued for a repair erase. -/
structure Mount where
  awaits : MountAwaits
  classes : List SegClass
  topSeq : Nat
  high : Nat
  found : List Found
  targets : List (Key × Pos)
  erases : List Seg
  deriving DecidableEq, Repr

/-- The array operation FORMAT awaits (R167, R168): the erase of a segment, with the segments whose retired mark the Store Controller presents after it; the retired mark of a segment, with the number at which the erases go on and the marks still to be presented (R17); the configuration write. -/
inductive FormatAwaits where
  | erase (seg : Seg) (owes : List Seg)
  | retireMark (seg : Seg) (next : Nat) (owes : List Seg)
  | configBody (pos : Pos) (attempt : Nat)
  | configMark (pos : Pos) (attempt : Nat)
  deriving DecidableEq, Repr

/-- The progress of mount or FORMAT (R152). -/
inductive Progress where
  | none
  | mounting (m : Mount)
  | formatting (f : FormatAwaits)
  deriving DecidableEq, Repr

/-- The Store Controller (R152). -/
structure Store where
  state : StoreState
  generation : Generation
  progress : Progress
  deriving DecidableEq, Repr

/-! ## The Port Units (chapter 10) -/

/-- Frame kinds of Table 10-1, and the kind byte that names none. -/
inductive FrameKind where
  | statusRead
  | command
  | resultRead
  | eventRead
  | bufferWrite
  | bufferRead
  | notifySet
  | notifyClear
  | flagsClear
  | portReset
  | unknown
  deriving DecidableEq, Repr

/-- The frame decoder during a frame: whether the port was RESETTING when the frame began (R173), the record fixed at the kind byte and whether it was a result or event (R178, R186), whether an offer has merged into the oldest event since (R186), and the buffer bytes returned so far (R181). -/
structure Frame where
  kind : FrameKind
  resetting : Bool
  record : Option (List Byte)
  removable : Bool
  merged : Bool
  out : List Byte
  deriving DecidableEq, Repr

/-- Port states (R174). -/
inductive PortState where
  | active
  | resetting
  deriving DecidableEq, Repr

/-- A Port Unit (10_master_ports.md, chapter head). `dataOut` records the bytes driven in the latest frame (R171). -/
structure PortUnit where
  state : PortState
  frame : Option Frame
  dataOut : List Byte
  buffer : List Host.Cell
  commands : List Cmd
  slot : Slot
  results : List Result
  events : List Event
  flags : Flags
  enables : Enables
  deriving DecidableEq, Repr

/-- Input lines and power (Table 10-6): power present, RESET_N high, GUARD_EN high. -/
structure Pins where
  power : Bool
  resetN : Bool
  guardEn : Bool
  deriving DecidableEq, Repr

/-- The whole machine. `pending` is the model's queue of commands, first in, first out. -/
structure State where
  ports : Quad PortUnit
  engine : Engine
  coord : Coord
  guard : GuardUnit
  space : Space
  array : ArrayCtl
  store : Store
  pins : Pins
  pending : List Instr
  deriving DecidableEq, Repr

/-- Why the machine stops with a fault. -/
inductive Fault where
  /-- Raised by UNKNOWN_FRAME_KIND when its operand is a byte that names a frame kind: no row of the table is such an event. Safe: the event does not exist. -/
  | illFormed
  deriving DecidableEq, Repr

/-- Why a command is refused. -/
inductive Refusal where
  /-- Raised by exec for a row that has no meaning yet. Safe. -/
  | notModelled (mnemonic : String)
  /-- Raised by a row of the table that is a step of an inner block, or power-on of a powered part, when that step cannot happen in the state it meets: a completion with no such operation in flight, the execution of a command the Engine has not taken, an expiry of a claim whose timer runs (log entry 2). Safe: the hardware has no such behaviour. -/
  | notDue
  deriving DecidableEq, Repr

/-- A guard that protects no page: LOWER, size code 0, complement off (Table 7-2). -/
def Guard.none : Guard := { upper := false, size := 0, complement := false }

/-- The default settings of Table 7-2. -/
def Settings.default : Settings :=
  { guards := ⟨Guard.none, Guard.none, Guard.none, Guard.none⟩, mode := .opened, threshold := 4 }

/-- A Port Unit after hard reset and power-on (R174). -/
def PortUnit.reset : PortUnit :=
  { state := .active, frame := Option.none, dataOut := [], buffer := [], commands := [], slot := .none, results := [], events := [],
    flags := 0, enables := 0 }

/-- The Record Engine after hard reset and power-on (R10, R54, R56; the counter's value is log entry 5). -/
def Engine.reset : Engine :=
  { pointer := .p0, work := .idle, dir := [], move := Option.none, seq := 0 }

/-- The Coordination Unit after hard reset and power-on (R104). -/
def Coord.reset : Coord := { claims := [], watches := ⟨[], [], [], []⟩ }

/-- The Guard Unit after hard reset and power-on (R123). -/
def GuardUnit.reset : GuardUnit :=
  { settings := Settings.default, standing := .defaulted, session := false }

/-- A row of the empty segment table (R134, log entry 5). -/
def SegRow.unlisted : SegRow := { state := .unlisted, erases := 0, live := 0, dead := 0, free := 0 }

/-- The Space Manager after hard reset and power-on (R134, R139). -/
def Space.reset : Space :=
  { segs := Vector.replicate 256 SegRow.unlisted, frontFree := [], pass := Option.none, held := false }

/-- Mount at its first step, the header of S0 (R152, R156). -/
def Mount.start : Mount :=
  { awaits := .header 0, classes := [], topSeq := 0, high := 0, found := [], targets := [], erases := [] }

/-- The Store Controller when mount begins (R152). -/
def Store.reset : Store := { state := .mounting, generation := 0, progress := .mounting Mount.start }

/-- The Array Controller when mount begins: the array as it is, no erase context, and mount's first read granted at its arrival (R32, R39). -/
def ArrayCtl.reset (cells : List Host.Cell) : ArrayCtl :=
  { cells := cells, inFlight := some { requester := .store, op := .readCell ⟨0, 0⟩ false, age := 0 },
    waitEngine := Option.none, waitSpace := Option.none, waitStore := Option.none, erase := Option.none }

/-- The machine right after power-on of a part fresh from manufacture: every block at its reset values, the array erased throughout, RESET_N high, GUARD_EN low, the store MOUNTING with mount's first read in flight (R39, R54, R56, R104, R123, R134, R152, R174; log entries 5 and 6). -/
def State.reset : State :=
  { ports := ⟨PortUnit.reset, PortUnit.reset, PortUnit.reset, PortUnit.reset⟩
    engine := Engine.reset
    coord := Coord.reset
    guard := GuardUnit.reset
    space := Space.reset
    array := ArrayCtl.reset []
    store := Store.reset
    pins := { power := true, resetN := true, guardEn := false }
    pending := [] }

end Sys2Proof.Machine
end

