-- ==== Sys2Proof/Machine/Bytes.lean ====
section
/-! DEFINITION. Byte order (R190), the 16-bit CRC (R20), and byte memories: lists of (address, byte) pairs in one canonical form, used for the cell array and the staging buffers (R14, R179; log entries 6 and 7). -/

namespace Sys2Proof.Machine

/-! ## Byte order -/

/-- The two bytes of a 16-bit field, most significant first (R190). -/
def bytes16 (x : BitVec 16) : List Byte := [x.extractLsb' 8 8, x.extractLsb' 0 8]

/-- The four bytes of a 32-bit field, most significant first (R190). -/
def bytes32 (x : BitVec 32) : List Byte :=
  [x.extractLsb' 24 8, x.extractLsb' 16 8, x.extractLsb' 8 8, x.extractLsb' 0 8]

/-- A 16-bit field from its bytes, most significant first (R190). -/
def join16 (hi lo : Byte) : BitVec 16 := hi ++ lo

/-- A 32-bit field from its bytes, most significant first (R190). -/
def join32 (a b c d : Byte) : BitVec 32 := (a ++ b) ++ (c ++ d)

/-- The 16-bit field at an offset of a byte string. -/
def half16 (bs : List Byte) (at_ : Nat) : BitVec 16 := join16 (bs.getD at_ 0) (bs.getD (at_ + 1) 0)

/-- The 32-bit field at an offset of a byte string. -/
def word32 (bs : List Byte) (at_ : Nat) : BitVec 32 :=
  join32 (bs.getD at_ 0) (bs.getD (at_ + 1) 0) (bs.getD (at_ + 2) 0) (bs.getD (at_ + 3) 0)

/-- A count as a 16-bit field. -/
def nat16 (n : Nat) : Half := BitVec.ofNat 16 n

/-- A byte string as an unsigned number, most significant byte first (R94). -/
def beNat (bs : List Byte) : Nat := bs.foldl (fun n b => n * 256 + b.toNat) 0

/-! ## The CRC of R20 -/

/-- One bit through the CRC with polynomial x^16 + x^12 + x^5 + 1 (R20). -/
def crcBit (c : Half) (b : Bool) : Half :=
  if c.msb ^^ b then (c <<< 1) ^^^ 0x1021#16 else c <<< 1

/-- One byte through the CRC, from its most significant bit (R20). -/
def crcByte (c : Half) (x : Byte) : Half :=
  [7, 6, 5, 4, 3, 2, 1, 0].foldl (fun c i => crcBit c (x.getLsbD i)) c

/-- The 16-bit CRC of a byte string: initial value FFFFh, bytes in order, no final inversion (R20). -/
def crc16 (bs : List Byte) : Half := bs.foldl crcByte 0xFFFF#16

/-! ## Byte memories -/

/-- The byte at an address; `d` is what an unlisted address reads as. -/
def Memory.read (d : Byte) (m : List Host.Cell) (a : Nat) : Byte :=
  match m.find? (fun e => e.1 == a) with
  | some e => e.2
  | none => d

/-- The part of a memory that lies in `n` bytes from `a`. -/
def Memory.window (m : List Host.Cell) (a n : Nat) : List Host.Cell :=
  m.filter (fun e => decide (a ≤ e.1) && decide (e.1 < a + n))

/-- `n` bytes from address `a`. -/
def Memory.readRange (d : Byte) (m : List Host.Cell) (a n : Nat) : List Byte :=
  let w := Memory.window m a n
  (List.range n).map (fun i => Memory.read d w (a + i))

/-- The entries that bytes from address `a` need: none for a byte equal to what an unlisted address reads as. -/
def Memory.entries (d : Byte) : Nat → List Byte → List Host.Cell
  | _, [] => []
  | a, b :: bs => if b = d then Memory.entries d (a + 1) bs else (a, b) :: Memory.entries d (a + 1) bs

/-- Bytes written from address `a` on; every other address keeps its byte. -/
def Memory.write (d : Byte) (m : List Host.Cell) (a : Nat) (bs : List Byte) : List Host.Cell :=
  m.filter (fun e => decide (e.1 < a)) ++ Memory.entries d a bs ++
    m.filter (fun e => decide (a + bs.length ≤ e.1))

/-- `n` bytes from address `a` set to what an unlisted address reads as. -/
def Memory.clear (m : List Host.Cell) (a n : Nat) : List Host.Cell :=
  m.filter (fun e => decide (e.1 < a)) ++ m.filter (fun e => decide (a + n ≤ e.1))

/-- The canonical form: addresses strictly rising and below `limit`, no entry equal to what an unlisted address reads as. -/
abbrev Memory.wf (d : Byte) (limit : Nat) (m : List Host.Cell) : Prop :=
  m.Pairwise (fun x y => x.1 < y.1) ∧ ∀ e ∈ m, e.1 < limit ∧ e.2 ≠ d

/-! ## Staging buffers (R179) -/

/-- A buffer byte; positions above 2047 read 00h (R181). -/
def bufferByteAt (b : List Host.Cell) (i : Nat) : Byte :=
  if i < Config.bufferBytes then Memory.read Config.bufferByte b i else 0

/-- `n` buffer bytes from an offset. -/
def bufferTake (b : List Host.Cell) (off n : Nat) : List Byte :=
  (List.range n).map (fun i => bufferByteAt b (off + i))

/-- Bytes stored from an offset on; a byte whose position would exceed 2047 is discarded (R180). -/
def bufferStore (b : List Host.Cell) (off : Nat) (bs : List Byte) : List Host.Cell :=
  Memory.write Config.bufferByte b off (bs.take (Config.bufferBytes - off))

end Sys2Proof.Machine
end

