-- ==== Sys2Proof/Machine/Cells.lean ====
section
/-! DEFINITION. Cells of the array as bytes: the layouts of bodies and headers (R16, R19, R192, Tables 11-10 and 11-11), how a cell reads (R18, R23, R26), and what the four array operations leave in it (R15, R27 to R30, Tables 2-5 and 2-10). -/

namespace Sys2Proof.Machine

/-! ## Codes of the body header (Table 11-1) -/

/-- Port code (Table 11-1). -/
def portCode : Port → Byte
  | .p0 => 0 | .p1 => 1 | .p2 => 2 | .p3 => 3

/-- The port of a code, if it is one of P0 to P3 (Table 11-1). -/
def portOf (b : Byte) : Option Port :=
  if b = 0 then some .p0 else if b = 1 then some .p1 else if b = 2 then some .p2
  else if b = 3 then some .p3 else none

/-- Author code: a port, or 4 for INTERNAL (Table 11-1). -/
def authorCode : Author → Byte
  | .port p => portCode p
  | .internal => 4

/-- The author of a code (Table 11-1). -/
def authorOf (b : Byte) : Option Author :=
  if b = 4 then some .internal else (portOf b).map .port

/-- Record kind code (Table 11-1). -/
def kindCode : Kind → Byte
  | .data => 1 | .tombstone => 2 | .config => 3

/-- The record kind of a code (Table 11-1). -/
def kindOf (b : Byte) : Option Kind :=
  if b = 1 then some .data else if b = 2 then some .tombstone else if b = 3 then some .config else none

/-! ## Layouts -/

/-- Body header bytes 0 to 29, the part the body check covers (Table 11-11, R192). -/
def bodyFields (b : Body) : List Byte :=
  bytes16 b.key ++ bytes32 b.version ++ bytes32 b.seq ++ bytes16 (nat16 b.length) ++
    [authorCode b.author, kindCode b.kind] ++ bytes16 b.check ++ List.replicate 14 0xFF#8

/-- The 512 bytes of a body: header with its body check, payload, FFh beyond it (R19, Table 11-11). -/
def bodyBytes (b : Body) : List Byte :=
  bodyFields b ++ bytes16 (crc16 (bodyFields b)) ++
    (b.payload ++ List.replicate (Config.payloadBytes - b.payload.length) 0xFF#8)

/-- Whether the fields of a body agree with one another (R19). -/
def bodyWellFormed (b : Body) : Bool :=
  b.key != Config.noKey && b.version != 0 && decide (b.length ≤ Config.payloadBytes) &&
    (match b.kind with
     | .data => true
     | .tombstone => b.length == 0
     | .config => b.key == Config.configKey)

/-- The body in a data area when it is good: its body check is good and it is well formed (R19, R20). -/
def parseBody (area : List Byte) : Option Body :=
  if crc16 (area.take 30) = half16 area 30 then
    match authorOf (area.getD 12 0), kindOf (area.getD 13 0) with
    | some a, some k =>
      let n := (half16 area 10).toNat
      let b : Body :=
        { key := half16 area 0, version := word32 area 2, seq := word32 area 6, length := n, author := a, kind := k,
          check := half16 area 14, payload := (area.drop 32).take n }
      if bodyWellFormed b then some b else none
    | _, _ => none
  else none

/-- Header bytes 0 to 7, the part the header check covers (Table 11-10, R192). -/
def headerFields (g : Generation) (count : Nat) : List Byte :=
  bytes32 Config.signature ++ bytes16 g ++ bytes16 (nat16 count)

/-- The 512 bytes of a segment header (Table 11-10). -/
def headerBytes (g : Generation) (count : Nat) : List Byte :=
  headerFields g count ++ bytes16 (crc16 (headerFields g count)) ++ List.replicate 502 0xFF#8

/-- Whether a data area holds a header whose signature, check and unassigned bytes are good (R18, R192). -/
def headerGood (area : List Byte) : Bool :=
  word32 area 0 == Config.signature && crc16 (area.take 8) == half16 area 8 &&
    (area.drop 10).all (· == 0xFF#8)

/-- Whether every byte reads ones. -/
def allOnes (bs : List Byte) : Bool := bs.all (· == 0xFF#8)

/-! ## Where cells stand in the byte array (log entry 7) -/

/-- First byte of a segment. -/
def segBase (g : Seg) : Nat := g.val * Config.segmentStride

/-- First byte of a cell's data area. -/
def cellBase (p : Pos) : Nat := segBase p.seg + p.cell.val * Config.cellStride

/-- First byte of a mark position. -/
def markBase (p : Pos) : MarkKind → Nat
  | .first => cellBase p + Config.dataBytes
  | .second => cellBase p + Config.dataBytes + 2

/-- A cell's data area as it reads. -/
def dataArea (cells : List Host.Cell) (p : Pos) : List Byte :=
  Memory.readRange Config.erasedByte cells (cellBase p) Config.dataBytes

/-- A mark position as it reads. -/
def markWord (cells : List Host.Cell) (p : Pos) (k : MarkKind) : Half :=
  half16 (Memory.readRange Config.erasedByte cells (markBase p k) 2) 0

/-- A mark position's reading (R23, R192). -/
def markReading (w : Half) : MarkReading :=
  if w = Config.markErased then .erased else if w = Config.markPresent then .present else .disturbed

/-! ## Reads (R18, R23, R26) -/

/-- The condition of a data cell (Table 2-4). -/
def cellCond (ones good : Bool) (commit supersede : MarkReading) : CellCond :=
  if ones && commit == .erased && supersede == .erased then .erased
  else if good && commit == .erased && supersede == .erased then .allocated
  else if good && commit == .present && supersede == .erased then .committed
  else if good && commit == .present && supersede == .present then .superseded
  else .torn

/-- The read of a data cell (R26). -/
def readData (cells : List Host.Cell) (p : Pos) : CellRead :=
  let area := dataArea cells p
  let body := parseBody area
  { cond := cellCond (allOnes area) body.isSome (markReading (markWord cells p .first)) (markReading (markWord cells p .second))
    body := body
    area := area.drop 32
    payloadGood := match body with
      | some b => crc16 b.payload == b.check
      | none => false }

/-- What a read that asks for the header only reports: no payload bytes, and the payload check not evaluated (R20, R26). -/
def CellRead.headerOnly (r : CellRead) : CellRead :=
  { cond := r.cond, body := r.body.map (fun b => { b with payload := [] }), area := [], payloadGood := false }

/-- What a read of a data cell delivers, by what its request asked for (R25, R26). -/
def readFor (cells : List Host.Cell) (p : Pos) (payload : Bool) : CellRead :=
  if payload then readData cells p else (readData cells p).headerOnly

/-- The read of cell 0 of a segment (R17, R18). -/
def readHeader (cells : List Host.Cell) (g : Seg) : HeaderRead :=
  let p : Pos := ⟨g, 0⟩
  let area := dataArea cells p
  let retired := decide (markWord cells p .first ≠ Config.markErased)
  let second := markWord cells p .second
  if allOnes area && !retired && second == Config.markErased then
    { cond := .erased, generation := 0, count := 0, retired := false }
  else if headerGood area && second == Config.markErased then
    { cond := .valid, generation := half16 area 4, count := (half16 area 6).toNat, retired := retired }
  else { cond := .bad, generation := 0, count := 0, retired := retired }

/-! ## Programs and erases

A program clears bits only (R15): what a part reads afterwards is the old bytes AND the attempted pattern. `left` lists the bytes in which the attempted pattern differed from the requested one, by their offset in the part. A residue that the specification rules out for a failed or cut operation is replaced by one that it allows: an area of zeros, or a mark position as it was (log entries 8 and 9). -/

/-- The attempted pattern: the requested one, with the bytes of `left` in place of its own. -/
def overlay (left : List Host.Cell) : Nat → List Byte → List Byte
  | _, [] => []
  | i, b :: bs =>
    (match left.find? (fun e => e.1 == i) with
     | some e => e.2
     | none => b) :: overlay left (i + 1) bs

/-- A data area after a program was attempted on it (R15). -/
def attempted (old pattern : List Byte) (left : List Host.Cell) : List Byte :=
  List.zipWith (· &&& ·) old (overlay left 0 pattern)

/-- A data area of zeros. -/
def zeroArea : List Byte := List.replicate Config.dataBytes 0x00#8

/-- Whether an area that is not the requested one may be what a body program left: TORN, or ALLOCATED with the requested header, whose payload check fails unless the program was cut (R24, Tables 2-5 and 2-10). -/
def bodyResidue (cut : Bool) (a pattern : List Byte) : Bool :=
  !allOnes a &&
    match parseBody a with
    | none => true
    | some b => decide (a.take 32 = pattern.take 32) && (cut || crc16 b.payload != b.check)

/-- What a body program leaves, completed or cut: the requested bytes, or a residue that the specification allows. -/
def bodyResult (cut : Bool) (old pattern : List Byte) (left : List Host.Cell) : List Byte :=
  let a := attempted old pattern left
  if a = pattern then a else if bodyResidue cut a pattern then a else zeroArea

/-- What a body program leaves at its completion (R24, R27, Table 2-5). -/
def bodyLeft (old pattern : List Byte) (left : List Host.Cell) : List Byte := bodyResult false old pattern left

/-- What a cut leaves of a body program; an ALLOCATED body may then fail its payload check or not (Table 2-10). -/
def bodyCut (old pattern : List Byte) (left : List Host.Cell) : List Byte := bodyResult true old pattern left

/-- What a failed or cut header program leaves: a header that reads BAD (R28, Table 2-10). -/
def badHeader (a : List Byte) : List Byte :=
  if headerGood a || allOnes a then zeroArea else a

/-- What a header program leaves at its completion (R28). -/
def headerLeft (old pattern : List Byte) (left : List Host.Cell) : List Byte :=
  let a := attempted old pattern left
  if a = pattern then a else badHeader a

/-- A mark position after a mark program: present when it was, present when it was erased and the program took, and otherwise as it was (R29). -/
def markLeft (old : Half) (fails : Bool) : Half :=
  match markReading old with
  | .present => old
  | .disturbed => old
  | .erased => if fails then old else Config.markPresent

/-- Whether a cut mark program may have left its position present: an update's marks (Table 4-6), a repair mark (R164) and a retired mark (R17) may; the commit mark of a configuration record that mount or FORMAT writes leaves its cell uncommitted (R164, R169), and the marks of a reclaim pass read erased or disturbed (Table 2-10; log entry 9). -/
def cutMayMark (r : Requester) (p : Pos) (k : MarkKind) : Bool :=
  p.cell == 0 ||
    match r, k with
    | .engine, _ => true
    | .store, .second => true
    | .store, .first => false
    | .space, _ => false

/-- The 2-byte pattern that a cut left in a mark position: bits cleared as `left` says, but present only if it was present, or was erased and may have been marked (Table 2-10, R29). -/
def markCut (may : Bool) (old : Half) (left : List Host.Cell) : Half :=
  let w := old &&& half16 (overlay left 0 [0xFF#8, 0xFF#8]) 0
  if w = Config.markPresent ∧ ¬ (old = Config.markErased ∧ may = true) then old else w

/-- A data area written whole. -/
def putArea (cells : List Host.Cell) (p : Pos) (area : List Byte) : List Host.Cell :=
  Memory.write Config.erasedByte cells (cellBase p) (area.take Config.dataBytes)

/-- A mark position written. -/
def putMark (cells : List Host.Cell) (p : Pos) (k : MarkKind) (w : Half) : List Host.Cell :=
  Memory.write Config.erasedByte cells (markBase p k) (bytes16 w)

/-- A segment set to ones and its header programmed: what an erase that succeeds leaves (R30). -/
def erasedSegment (cells : List Host.Cell) (g : Seg) (gen : Generation) (count : Nat) : List Host.Cell :=
  putArea (Memory.clear cells (segBase g) Config.segmentStride) ⟨g, 0⟩ (headerBytes gen count)

/-- One residue byte of an erase put into its segment; an offset beyond the segment names no byte. -/
def putResidue (g : Seg) (cells : List Host.Cell) (e : Host.Cell) : List Host.Cell :=
  if e.1 < Config.segmentStride then Memory.write Config.erasedByte cells (segBase g + e.1) [e.2] else cells

/-- What an erase that fails leaves: any reading of the segment's cells, with a header that reads BAD or ERASED and shows no retired indication (R17, R30). -/
def badSegment (cells : List Host.Cell) (g : Seg) : List Host.Cell :=
  let cells := putMark cells ⟨g, 0⟩ .first Config.markErased
  if (readHeader cells g).cond = .valid then putArea cells ⟨g, 0⟩ zeroArea else cells

/-- The data cells of a segment, ascending (R14). -/
def dataCells : List CellNo := (List.finRange 32).tail

/-- Whether a segment reads BLANK: an ERASED header and 31 ERASED data cells (Table 9-5). -/
def segmentBlank (cells : List Host.Cell) (g : Seg) : Bool :=
  (readHeader cells g).cond == .erased && dataCells.all (fun c => (readData cells ⟨g, c⟩).cond == .erased)

/-- What an erase that is cut leaves: as a failed one, but a segment that mount classes DAMAGED, never BLANK (Table 2-10, R164, R169). -/
def cutSegment (cells : List Host.Cell) (g : Seg) : List Host.Cell :=
  let cells := badSegment cells g
  if segmentBlank cells g then putArea cells ⟨g, 0⟩ zeroArea else cells

/-- What a segment erase leaves at its completion (R30). -/
def eraseLeft (cells : List Host.Cell) (g : Seg) (gen : Generation) (count : Nat) (left : List Host.Cell) : List Host.Cell :=
  let clean := erasedSegment cells g gen count
  let after := left.foldl (putResidue g) clean
  if after = clean then clean else badSegment after g

/-- Whether a segment erase ends with DONE: the erase and the header verify (R30). -/
def eraseVerifies (cells : List Host.Cell) (g : Seg) (gen : Generation) (count : Nat) (left : List Host.Cell) : Bool :=
  decide (left.foldl (putResidue g) (erasedSegment cells g gen count) = erasedSegment cells g gen count)

/-- What a cut leaves of the operation it cuts, by its requester (Table 2-10). -/
def cutOp (cells : List Host.Cell) (r : Requester) (left : List Host.Cell) : ArrayOp → List Host.Cell
  | .readCell _ _ => cells
  | .programBody p b => putArea cells p (bodyCut (dataArea cells p) (bodyBytes b) left)
  | .programHeader g gen count =>
    putArea cells ⟨g, 0⟩ (badHeader (attempted (dataArea cells ⟨g, 0⟩) (headerBytes gen count) left))
  | .programMark p k =>
    let w := markCut (cutMayMark r p k) (markWord cells p k) left
    putMark cells p k (if p.cell = 0 ∧ w = Config.markErased then Config.markPresent else w)
  | .eraseSegment g gen count => cutSegment (left.foldl (putResidue g) (erasedSegment cells g gen count)) g

/-- What a cut leaves of the operation in flight and of a reclaim erase, running or suspended (R38). -/
def cutArray (a : ArrayCtl) (cut eraseCut : List Host.Cell) : List Host.Cell :=
  let cells := match a.inFlight with
    | some f => cutOp a.cells f.requester cut f.op
    | none => a.cells
  match a.erase with
  | some e => cutOp cells .space eraseCut (.eraseSegment e.seg e.generation e.count)
  | none => cells

end Sys2Proof.Machine
end

