-- ==== Sys2Proof/Machine/Ops.lean ====
section
/-! DEFINITION. The named operations over the machine's registers: ports, directory, segment table, and one setter for each part of State, so that every meaning is written over them. -/

namespace Sys2Proof.Machine

/-! ## Four like things -/

/-- The one of four that belongs to a port. -/
def Quad.get {α : Type} (q : Quad α) : Port → α
  | .p0 => q.p0 | .p1 => q.p1 | .p2 => q.p2 | .p3 => q.p3

/-- The four with one replaced. -/
def Quad.set {α : Type} (q : Quad α) (p : Port) (x : α) : Quad α :=
  match p with
  | .p0 => { q with p0 := x }
  | .p1 => { q with p1 := x }
  | .p2 => { q with p2 := x }
  | .p3 => { q with p3 := x }

/-- The ports in ascending order. -/
def allPorts : List Port := [.p0, .p1, .p2, .p3]

/-- The port after a port, P0 following P3 (R58). -/
def nextPort : Port → Port
  | .p0 => .p1 | .p1 => .p2 | .p2 => .p3 | .p3 => .p0

/-! ## Setters of State -/

/-- The Port Unit of a port. -/
def State.port (s : State) (p : Port) : PortUnit := s.ports.get p

/-- The Port Unit of a port replaced. -/
def State.setPort (s : State) (p : Port) (u : PortUnit) : State := { s with ports := s.ports.set p u }

/-- What the Engine is doing, replaced (R56). -/
def State.setWork (s : State) (w : Work) : State := { s with engine := { s.engine with work := w } }

/-- The arbiter pointer replaced (R56). -/
def State.setPointer (s : State) (p : Port) : State := { s with engine := { s.engine with pointer := p } }

/-- The directory replaced (R40). -/
def State.setDir (s : State) (d : List Entry) : State := { s with engine := { s.engine with dir := d } }

/-- The pending move record replaced (R48). -/
def State.setMove (s : State) (m : Option Move) : State := { s with engine := { s.engine with move := m } }

/-- The write sequence counter replaced (R10). -/
def State.setSeq (s : State) (n : SeqNo) : State := { s with engine := { s.engine with seq := n } }

/-- The claim table replaced (R104). -/
def State.setClaims (s : State) (cs : List Claim) : State := { s with coord := { s.coord with claims := cs } }

/-- A port's watch list replaced (R115). -/
def State.setWatches (s : State) (p : Port) (ws : List Watch) : State :=
  { s with coord := { s.coord with watches := s.coord.watches.set p ws } }

/-- The Guard Unit replaced (R123). -/
def State.setGuard (s : State) (g : GuardUnit) : State := { s with guard := g }

/-- The segment table replaced (R134). -/
def State.setSegs (s : State) (v : Vector SegRow 256) : State := { s with space := { s.space with segs := v } }

/-- The front's free cells replaced (R136). -/
def State.setFrontFree (s : State) (l : List CellNo) : State := { s with space := { s.space with frontFree := l } }

/-- The reclaim pass replaced (R139). -/
def State.setPass (s : State) (p : Option Pass) : State := { s with space := { s.space with pass := p } }

/-- Whether an Engine grant request is held, replaced (R136). -/
def State.setHeld (s : State) (b : Bool) : State := { s with space := { s.space with held := b } }

/-- The cell array's bytes replaced (R14). -/
def State.setCells (s : State) (c : List Host.Cell) : State := { s with array := { s.array with cells := c } }

/-- The operation in flight replaced (R32). -/
def State.setInFlight (s : State) (f : Option InFlight) : State := { s with array := { s.array with inFlight := f } }

/-- The erase context replaced (R34). -/
def State.setErase (s : State) (e : Option EraseCtx) : State := { s with array := { s.array with erase := e } }

/-- The Engine presents an array request (R25). -/
def State.presentEngine (s : State) (op : ArrayOp) : State := { s with array := { s.array with waitEngine := some op } }

/-- The Space Manager presents an array request (R25). -/
def State.presentSpace (s : State) (op : ArrayOp) : State := { s with array := { s.array with waitSpace := some op } }

/-- The Store Controller presents an array request (R25). -/
def State.presentStore (s : State) (op : ArrayOp) : State := { s with array := { s.array with waitStore := some op } }

/-- A waiting request of the Space Manager is withdrawn (R146). -/
def State.withdrawSpace (s : State) : State := { s with array := { s.array with waitSpace := none } }

/-- The store state replaced, with no event (R152). -/
def State.setStoreState (s : State) (st : StoreState) : State := { s with store := { s.store with state := st } }

/-- The current generation replaced (R152). -/
def State.setGeneration (s : State) (g : Generation) : State := { s with store := { s.store with generation := g } }

/-- The progress of mount or FORMAT replaced (R152). -/
def State.setProgress (s : State) (x : Progress) : State := { s with store := { s.store with progress := x } }

/-- The input lines replaced. -/
def State.setPins (s : State) (x : Pins) : State := { s with pins := x }

/-! ## The directory (chapter 3) -/

/-- The entry of a key (R42). -/
def lookup (d : List Entry) (k : Key) : Option Entry := d.find? (fun e => e.key == k)

/-- An entry put in its place in key order, replacing the key's entry if it has one (R40). -/
def putEntry (d : List Entry) (e : Entry) : List Entry :=
  match d with
  | [] => [e]
  | x :: xs =>
    if x.key = e.key then e :: xs
    else if e.key < x.key then e :: x :: xs
    else x :: putEntry xs e

/-- The entry of a key removed. -/
def dropEntry (d : List Entry) (k : Key) : List Entry := d.filter (fun e => e.key != k)

/-- The entry of a key changed. -/
def mapEntry (d : List Entry) (k : Key) (f : Entry → Entry) : List Entry :=
  d.map (fun e => if e.key = k then f e else e)

/-- The entry that names a cell, if any (R141). -/
def namedBy (d : List Entry) (pos : Pos) : Option Entry := d.find? (fun e => decide (e.cell = pos))

/-- The version of a key's entry, LIVE or GONE, or 0 when it has none (Table 4-4). -/
def entryVersion (d : List Entry) (k : Key) : Version :=
  match lookup d k with
  | some e => e.version
  | none => 0

/-- The state of a key (R4). -/
def keyState (d : List Entry) (k : Key) : KeyState :=
  match lookup d k with
  | some e => match e.state with
    | .live => .live
    | .gone => .gone
  | none => .absent

/-- Whether a key is permanent (Table 1-1). -/
def isPermanent (k : Key) : Bool := decide (0xFF00#16 ≤ k) && k != Config.noKey

/-- Entries other than the configuration entry (R40). -/
def masterCount (d : List Entry) : Nat := (d.filter (fun e => e.key != Config.configKey)).length

/-- The next sequence number, and the counter after it is used: it rises by one and stays at its maximum (R10). -/
def State.bumpSeq (s : State) : State :=
  s.setSeq (if s.engine.seq = 0xFFFFFFFF#32 then s.engine.seq else s.engine.seq + 1)

/-! ## The segment table (chapter 8) -/

/-- The segments in ascending order. -/
def allSegs : List Seg := List.finRange 256

/-- A row of the segment table (R134). -/
def State.seg (s : State) (g : Seg) : SegRow := s.space.segs[g]

/-- A row of the segment table replaced. -/
def State.setSeg (s : State) (g : Seg) (r : SegRow) : State := s.setSegs (s.space.segs.set g.val r g.isLt)

/-- The state of a segment replaced, its erase count and cell counts kept. -/
def State.setSegState (s : State) (g : Seg) (st : SegState) : State :=
  s.setSeg g { s.seg g with state := st }

/-- Segments in a state. -/
def State.countSegs (s : State) (st : SegState) : Nat := s.space.segs.toList.countP (fun r => r.state == st)

/-- The FREE count (R134). -/
def State.freeCount (s : State) : Nat := s.countSegs .free

/-- The usable count: 256 less the RETIRED segments (R134). -/
def State.usableCount (s : State) : Nat := 256 - s.countSegs .retired

/-- The front, the one segment in FRONT, or none (R134). -/
def State.front (s : State) : Option Seg := allSegs.find? (fun g => (s.seg g).state == .front)

/-- Whether the table keeps cell counts for a segment (R134). -/
def SegState.counted : SegState → Bool
  | .front | .full | .victim => true
  | _ => false

/-- A row with one cell moved from free to live (Table 8-2, a grant). -/
def SegRow.grant (r : SegRow) : SegRow :=
  match r.free with
  | 0 => r
  | n + 1 => { r with free := n, live := r.live + 1 }

/-- A row with one cell moved from live to dead (Table 8-2); counts are kept in FRONT, FULL and VICTIM only. -/
def SegRow.die (r : SegRow) : SegRow :=
  if r.state.counted then
    match r.live with
    | 0 => r
    | n + 1 => { r with live := n, dead := r.dead + 1 }
  else r

/-- A cell counted dead in its segment (R135). -/
def State.countDead (s : State) (pos : Pos) : State := s.setSeg pos.seg (s.seg pos.seg).die

/-! ## The store is open -/

/-- Whether the store is in a state in which the Engine takes commands (R57). -/
def State.isOpen (s : State) : Bool :=
  match s.store.state with
  | .mounting => false
  | .formatting => false
  | .unformatted => true
  | .ready => true
  | .degraded => true

/-- Whether the part is powered and not held in hard reset (R174). -/
def State.running (s : State) : Bool := s.pins.power && s.pins.resetN

end Sys2Proof.Machine
end

