-- ==== Sys2Proof/Machine/Flags.lean ====
section
/-! DEFINITION. Sticky flags and notify enables, the notify line, and the status bytes (R175, R182 to R184, Tables 10-2 and 11-3). -/

namespace Sys2Proof.Machine

/-- REFUSED, bit 0 of the flag mask (Table 11-1). -/
def flagRefused : Flags := 0b00001#5

/-- QUEUE_FULL, bit 1 (Table 11-1). -/
def flagQueueFull : Flags := 0b00010#5

/-- EVENT_LOST, bit 2 (Table 11-1). -/
def flagEventLost : Flags := 0b00100#5

/-- BUFFER_EDGE, bit 3 (Table 11-1). -/
def flagBufferEdge : Flags := 0b01000#5

/-- GUARD_HIT, bit 4 (Table 11-1). -/
def flagGuardHit : Flags := 0b10000#5

/-- A port's flag set, whether or not it was already set (R182). -/
def State.setFlag (s : State) (p : Port) (f : Flags) : State :=
  s.setPort p { s.port p with flags := (s.port p).flags ||| f }

/-- The flags a FLAGS CLEAR leaves: every named flag cleared, mask bits that name no flag not examined (R182). -/
def clearFlags (fl : Flags) (mask : Byte) : Flags := fl &&& ~~~(mask.setWidth 5)

/-- The enables a NOTIFY SET leaves (R183). -/
def addEnables (en : Enables) (mask : Byte) : Enables := en ||| mask.setWidth 3

/-- The enables a NOTIFY CLEAR leaves (R183). -/
def removeEnables (en : Enables) (mask : Byte) : Enables := en &&& ~~~(mask.setWidth 3)

/-- Whether a port's notify line is active: an enabled condition holds (R184). -/
def PortUnit.notifyActive (u : PortUnit) : Bool :=
  (u.enables.getLsbD 0 && !u.results.isEmpty) ||
  (u.enables.getLsbD 1 && !u.events.isEmpty) ||
  (u.enables.getLsbD 2 && u.flags != 0)

/-- The level of NOTIFY0 to NOTIFY3: pulled low while active, else left undriven and high (R184). -/
def PortUnit.notifyLevel (u : PortUnit) : Bool := !u.notifyActive

/-- Store state code (Table 11-1). -/
def storeCode : StoreState → Byte
  | .mounting => 0 | .unformatted => 1 | .formatting => 2 | .ready => 3 | .degraded => 4

/-- Port state bit of status byte 1 (Table 11-3). -/
def portStateBit : PortState → Byte
  | .active => 0 | .resetting => 8

/-- Current slot code of status byte 1 (Table 11-3). -/
def slotCode : Slot → Byte
  | .none => 0 | .executing => 1 | .parked _ _ => 2

/-- The four status bytes (R175, Table 11-3). -/
def statusBytes (s : State) (p : Port) : List Byte :=
  let u := s.port p
  [ (storeCode s.store.state <<< 4) ||| portStateBit u.state ||| slotCode u.slot,
    (BitVec.ofNat 8 u.commands.length <<< 4) ||| BitVec.ofNat 8 u.results.length,
    (BitVec.ofNat 8 u.events.length <<< 4) ||| u.enables.setWidth 8,
    u.flags.setWidth 8 ]

end Sys2Proof.Machine
end

