-- ==== Sys2Proof/Machine/Operands.lean ====
section
/-! DEFINITION. The parameters of every command, read from its 16 parameter bytes (Table 11-4), and their parameter checks (R1, R60, R63, R85, R90, R108, R116 to R118, R127, R133, R165, R170, R190). Parameter byte n of Table 11-4 is index n - 1. -/

namespace Sys2Proof.Machine

/-- A one-byte parameter. -/
def Cmd.byte (c : Cmd) (i : Fin 16) : Byte := c.params[i]

/-- A two-byte parameter, most significant byte first (R190). -/
def Cmd.half (c : Cmd) (i j : Fin 16) : Half := join16 (c.byte i) (c.byte j)

/-! ## Command codes (Table 11-4) -/

def codeWrite : Byte := 0x01
def codePatch : Byte := 0x02
def codeRemove : Byte := 0x03
def codeRead : Byte := 0x04
def codeStat : Byte := 0x05
def codeScan : Byte := 0x08
def codeClaim : Byte := 0x10
def codeRelease : Byte := 0x11
def codeWatchSet : Byte := 0x12
def codeWatchClear : Byte := 0x13
def codeWatchList : Byte := 0x14
def codeGuardSet : Byte := 0x18
def codeGuardRead : Byte := 0x19
def codeReclaim : Byte := 0x20
def codeFormat : Byte := 0x21
def codeStoreInfo : Byte := 0x22

/-- The codes that name a command (Table 11-4). -/
def knownCodes : List Byte :=
  [codeWrite, codePatch, codeRemove, codeRead, codeStat, codeScan, codeClaim, codeRelease, codeWatchSet, codeWatchClear,
   codeWatchList, codeGuardSet, codeGuardRead, codeReclaim, codeFormat, codeStoreInfo]

/-! ## Keys (R1) -/

/-- The key a single-key command names: parameter bytes 1 and 2. -/
def Cmd.key (c : Cmd) : Key := c.half 0 1

/-- Whether a single-key command may name a key: neither 0000h nor FFFFh (R1). -/
def keyOk (k : Key) : Bool := k != Config.configKey && k != Config.noKey

/-- The first failure of a list of checks. -/
def firstFail : List (Bool × Reason) → Option Reason
  | [] => none
  | (ok, r) :: rest => if ok then firstFail rest else some r

/-! ## WRITE, PATCH and REMOVE (Table 4-3) -/

/-- Condition kind, byte 3: 00h ANY, 01h EXPECT. -/
def Cmd.condKind (c : Cmd) : Byte := c.byte 2

/-- Expected version, bytes 4 to 7. -/
def Cmd.expected (c : Cmd) : Version := join32 (c.byte 3) (c.byte 4) (c.byte 5) (c.byte 6)

/-- Buffer offset, bytes 8 and 9. -/
def Cmd.bufOffset (c : Cmd) : Nat := (c.half 7 8).toNat

/-- Data length, bytes 10 and 11. -/
def Cmd.dataLength (c : Cmd) : Nat := (c.half 9 10).toNat

/-- PATCH payload offset, bytes 12 and 13. -/
def Cmd.patchOffset (c : Cmd) : Nat := (c.half 11 12).toNat

/-- The condition kind has a defined value (R60). -/
def Cmd.condOk (c : Cmd) : Bool := c.condKind == 0 || c.condKind == 1

/-- A range of the buffer of `n` bytes from `off` lies within it; no byte needs only the offset to (R63). -/
def bufferRangeOk (off n : Nat) : Bool := decide (off < 2048) && (n == 0 || decide (off + n - 1 < 2048))

/-- Step 1 of a WRITE (R63). -/
def checkWrite (c : Cmd) : Option Reason :=
  firstFail [(keyOk c.key, .badKey), (c.condOk, .badField), (decide (c.dataLength ≤ 480), .tooLong),
    (bufferRangeOk c.bufOffset c.dataLength, .badRange)]

/-- Step 1 of a PATCH (R63). -/
def checkPatch (c : Cmd) : Option Reason :=
  firstFail [(keyOk c.key, .badKey), (c.condOk, .badField),
    (decide (c.dataLength ≤ 480) && decide (c.patchOffset + c.dataLength ≤ 480), .tooLong),
    (bufferRangeOk c.bufOffset c.dataLength, .badRange)]

/-- Step 1 of a REMOVE (R63). -/
def checkRemove (c : Cmd) : Option Reason := firstFail [(keyOk c.key, .badKey), (c.condOk, .badField)]

/-! ## READ (R85) -/

/-- Payload offset, bytes 3 and 4. -/
def Cmd.readOffset (c : Cmd) : Nat := (c.half 2 3).toNat

/-- Buffer first offset, bytes 5 and 6. -/
def Cmd.readFirst (c : Cmd) : Nat := (c.half 4 5).toNat

/-- Buffer last offset, bytes 7 and 8. -/
def Cmd.readLast (c : Cmd) : Nat := (c.half 6 7).toNat

/-- The stop byte, if the stop enable is on: bytes 9 and 10. -/
def Cmd.readStop (c : Cmd) : Option Byte := if c.byte 8 = 1 then some (c.byte 9) else none

/-- The parameter checks of READ (R85). -/
def checkRead (c : Cmd) : Option Reason :=
  firstFail [(keyOk c.key, .badKey), ((c.byte 8 == 0 || c.byte 8 == 1) && decide (c.readOffset ≤ 480), .badField),
    (decide (c.readFirst < 2048) && decide (c.readLast < 2048), .badRange)]

/-- The parameter check of STAT and RELEASE: the key (R89, R110). -/
def checkKey (c : Cmd) : Option Reason := firstFail [(keyOk c.key, .badKey)]

/-! ## SCAN (Table 5-1) -/

/-- Low key, bytes 1 and 2. -/
def Cmd.scanLow (c : Cmd) : Key := c.half 0 1

/-- High key, bytes 3 and 4. -/
def Cmd.scanHigh (c : Cmd) : Key := c.half 2 3

/-- Window offset, bytes 5 and 6. -/
def Cmd.scanWindow (c : Cmd) : Nat := (c.half 4 5).toNat

/-- Window width, byte 7. -/
def Cmd.scanWidth (c : Cmd) : Nat := (c.byte 6).toNat

/-- Relation, byte 8. -/
def Cmd.scanRelation (c : Cmd) : Option Relation :=
  if c.byte 7 = 1 then some .eq else if c.byte 7 = 2 then some .ne else if c.byte 7 = 3 then some .le
  else if c.byte 7 = 4 then some .ge else none

/-- Match limit, byte 9. -/
def Cmd.scanLimit (c : Cmd) : Nat := (c.byte 8).toNat

/-- Pattern offset, bytes 10 and 11. -/
def Cmd.scanPattern (c : Cmd) : Nat := (c.half 9 10).toNat

/-- Output first, bytes 12 and 13. -/
def Cmd.scanOutFirst (c : Cmd) : Nat := (c.half 11 12).toNat

/-- Output last, bytes 14 and 15. -/
def Cmd.scanOutLast (c : Cmd) : Nat := (c.half 13 14).toNat

/-- The parameter check of SCAN (R90). -/
def checkScan (c : Cmd) : Option Reason :=
  firstFail
    [(decide (c.scanLow ≤ c.scanHigh) && decide (c.scanWindow ≤ 479) && decide (1 ≤ c.scanWidth) &&
        decide (c.scanWidth ≤ 16) && decide (c.scanWindow + c.scanWidth ≤ 480) && c.scanRelation.isSome &&
        decide (1 ≤ c.scanLimit) && decide (c.scanLimit ≤ 64), .badField),
     (decide (c.scanPattern < 2048) && decide (c.scanPattern + c.scanWidth - 1 < 2048) &&
        decide (c.scanOutFirst < 2048) && decide (c.scanOutLast < 2048), .badRange)]

/-! ## CLAIM, WATCH SET, WATCH CLEAR, WATCH LIST (chapter 6) -/

/-- CLAIM duration in milliseconds, bytes 3 and 4. -/
def Cmd.duration (c : Cmd) : Nat := (c.half 2 3).toNat

/-- The parameter checks of CLAIM (R108). -/
def checkClaim (c : Cmd) : Option Reason :=
  firstFail [(keyOk c.key, .badKey),
    (decide (1 ≤ c.duration) && decide (c.duration ≤ Config.longestClaim), .badField)]

/-- The trigger set of a watch command, byte 3. -/
def Cmd.triggers (c : Cmd) : Triggers := (c.byte 2).setWidth 3

/-- The trigger byte names a trigger and nothing but APPEAR, CHANGE and VANISH (R116, R190). -/
def Cmd.triggersOk (c : Cmd) : Bool := c.byte 2 != 0 && decide ((c.byte 2).toNat < 8)

/-- The self flag of a WATCH SET, byte 4. -/
def Cmd.selfFlag (c : Cmd) : Bool := c.byte 3 == 1

/-- The parameter checks of WATCH SET (R116). -/
def checkWatchSet (c : Cmd) : Option Reason :=
  firstFail [(keyOk c.key, .badKey), (c.triggersOk && (c.byte 3 == 0 || c.byte 3 == 1), .badField)]

/-- The parameter checks of WATCH CLEAR (R117). -/
def checkWatchClear (c : Cmd) : Option Reason :=
  firstFail [(keyOk c.key, .badKey), (c.triggersOk, .badField)]

/-- WATCH LIST buffer first, bytes 1 and 2. -/
def Cmd.listFirst (c : Cmd) : Nat := (c.half 0 1).toNat

/-- WATCH LIST buffer last, bytes 3 and 4. -/
def Cmd.listLast (c : Cmd) : Nat := (c.half 2 3).toNat

/-- The parameter check of WATCH LIST (R118). -/
def checkWatchList (c : Cmd) : Option Reason :=
  firstFail [(decide (c.listFirst < 2048) && decide (c.listLast < 2048), .badRange)]

/-! ## GUARD SET, GUARD READ, FORMAT, STORE INFO -/

/-- The guard of a guard byte, when its bits 5 and 4 are clear and its size code is 0 to 9 (Table 11-1). -/
def guardOf (b : Byte) : Option Guard :=
  let size := (b.extractLsb' 0 4).toNat
  if h : size < 10 then
    if b.getLsbD 4 || b.getLsbD 5 then none
    else some { upper := b.getLsbD 7, size := ⟨size, h⟩, complement := b.getLsbD 6 }
  else none

/-- The guard byte of a guard (Table 11-1). -/
def guardByte (g : Guard) : Byte :=
  (if g.upper then 0x80#8 else 0) ||| (if g.complement then 0x40#8 else 0) ||| BitVec.ofNat 8 g.size.val

/-- The port a GUARD SET or GUARD READ names, byte 1. -/
def Cmd.target (c : Cmd) : Option Port := portOf (c.byte 0)

/-- The new guard of a GUARD SET, byte 2. -/
def Cmd.newGuard (c : Cmd) : Option Guard := guardOf (c.byte 1)

/-- The lock mode a GUARD SET stores, given the mode it finds: KEEP and SESSION leave it (R128); byte 3. -/
def Cmd.lockMode (c : Cmd) (old : LockMode) : LockMode :=
  if c.byte 2 = 1 then .opened else if c.byte 2 = 2 then .pin else if c.byte 2 = 3 then .fixed else old

/-- Whether the lock request is SESSION (R129). -/
def Cmd.lockSession (c : Cmd) : Bool := c.byte 2 == 4

/-- Step 1 of a GUARD SET (Table 7-4). -/
def checkGuardSet (c : Cmd) : Option Reason :=
  firstFail [(c.target.isSome && c.newGuard.isSome && decide ((c.byte 2).toNat < 5), .badField)]

/-- The parameter check of GUARD READ (R133). -/
def checkGuardRead (c : Cmd) : Option Reason := firstFail [(c.target.isSome, .badField)]

/-- FORMAT's keep-guards flag, byte 1: 00h KEEP. -/
def Cmd.keepGuards (c : Cmd) : Bool := c.byte 0 == 0

/-- FORMAT's reclaim threshold, byte 2. -/
def Cmd.threshold (c : Cmd) : Nat := (c.byte 1).toNat

/-- Step 1 of a FORMAT (Table 9-6). -/
def checkFormat (c : Cmd) : Option Reason :=
  firstFail [((c.byte 0 == 0 || c.byte 0 == 1) && decide (2 ≤ c.threshold) && decide (c.threshold ≤ 16), .badField)]

/-- STORE INFO buffer offset, bytes 1 and 2. -/
def Cmd.infoOffset (c : Cmd) : Nat := (c.half 0 1).toNat

/-- The parameter check of STORE INFO (R170). -/
def checkStoreInfo (c : Cmd) : Option Reason := firstFail [(decide (c.infoOffset ≤ 2016), .badRange)]

/-! ## Guards (R122) -/

/-- Pages that a size code gives (Table 7-1). -/
def guardPages (size : Fin 10) : Nat :=
  if size.val = 0 then 0 else 2 ^ (size.val - 1)

/-- Whether a page lies in a guard's protected set (R122). -/
def guardProtects (g : Guard) (page : Byte) : Bool :=
  let inside := if g.upper then decide (256 - guardPages g.size ≤ page.toNat) else decide (page.toNat < guardPages g.size)
  inside != g.complement

/-- The two guards that protect no page (R122). -/
def guardEmpty (g : Guard) : Bool := (g.size == 0 && !g.complement) || (g.size == 9 && g.complement)

/-- The page of a key, its high byte (R2). -/
def pageOf (k : Key) : Byte := k.extractLsb' 8 8

/-- The guard of a port. -/
def State.guardOfPort (s : State) (p : Port) : Guard := s.guard.settings.guards.get p

/-- The lock mode in force (R123). -/
def GuardUnit.modeInForce (g : GuardUnit) : LockMode :=
  match g.standing with
  | .unreadable => .fixed
  | .loaded => g.settings.mode
  | .defaulted => g.settings.mode

end Sys2Proof.Machine
end

