-- ==== Sys2Proof/Machine/Records.lean ====
section
/-! DEFINITION. Results and events as records (Tables 11-5 to 11-8), the configuration payload (R130, Table 11-12), the offer of an event (R185), the end of a command (R61), and the results a command ends with (R62). -/

namespace Sys2Proof.Machine

/-! ## Codes -/

/-- Class byte of a result (Table 11-5). -/
def classCode : Cls → Byte
  | .normal => 0x00 | .abnormal => 0x01 | .invalid => 0x02 | .abandoned => 0x03

/-- Reason code (Table 11-6). -/
def reasonCode : Reason → Byte
  | .done => 0x00 | .endOfRecord => 0x01 | .bufferEnd => 0x02 | .stopByte => 0x03
  | .rangeEnd => 0x04 | .limit => 0x05 | .created => 0x06 | .renewed => 0x07
  | .notFormatted => 0x10 | .readOnly => 0x11 | .guarded => 0x12 | .permanent => 0x13
  | .claimed => 0x14 | .exists_ => 0x15 | .versionMismatch => 0x16 | .notFound => 0x17
  | .beyondEnd => 0x18 | .directoryFull => 0x19 | .versionExhausted => 0x1A | .programFail => 0x1B
  | .dataCheck => 0x1C | .claimBusy => 0x1D | .claimFull => 0x1E | .notHolder => 0x1F
  | .watchFull => 0x20 | .locked => 0x21 | .generationExhausted => 0x22
  | .badKey => 0x30 | .badField => 0x31 | .badRange => 0x32 | .tooLong => 0x33 | .badCommand => 0x34
  | .stateChanged => 0x40

/-- Lock mode code (Table 11-1). -/
def lockCode : LockMode → Byte
  | .opened => 0 | .pin => 1 | .fixed => 2

/-- The lock mode of a code (Table 11-1). -/
def lockOf (b : Byte) : Option LockMode :=
  if b = 0 then some .opened else if b = 1 then some .pin else if b = 2 then some .fixed else none

/-- Configuration standing code (Table 11-1). -/
def standingCode : Standing → Byte
  | .loaded => 0 | .defaulted => 1 | .unreadable => 2

/-- Claim-loss cause (Table 11-8). -/
def causeCode : LossCause → Byte
  | .expired => 1 | .format => 2

/-- A generation in a 4-byte version field: its low two bytes (11_frame_and_record_formats.md, below Table 11-7). -/
def generationField (g : Generation) : Version := g.setWidth 32

/-- A port code in a 2-byte field (Table 11-7). -/
def portHalf (p : Port) : Half := (portCode p).setWidth 16

/-! ## Records -/

/-- The 14 bytes of a result (Table 11-5). -/
def resultBytes (r : Result) : List Byte :=
  [r.tag, r.code, classCode r.cls, r.reason] ++ bytes16 r.key ++ bytes32 r.version ++ bytes16 r.count ++ bytes16 r.aux

/-- What a RESULT READ returns of an empty queue: class FFh and every other field 0 (R178, R191). -/
def emptyResultBytes : List Byte := [0, 0, 0xFF, 0, 0, 0, 0, 0, 0, 0, 0, 0, 0, 0]

/-- The 10 bytes of an event (Table 11-8). -/
def eventBytes : Event → List Byte
  | .watchHit k t v a => [0x01, t.setWidth 8] ++ bytes16 k ++ bytes32 v ++ [authorCode a, 0]
  | .claimLost k h c => [0x02, 0] ++ bytes16 k ++ bytes32 0 ++ [portCode h, causeCode c]
  | .storeState st g => [0x03, 0] ++ bytes16 Config.noKey ++ bytes32 (generationField g) ++ [0, storeCode st]
  | .guardChanged p m session v =>
    [0x04, if session then 1 else 0] ++ bytes16 Config.configKey ++ bytes32 v ++ [portCode p, lockCode m]

/-- What an EVENT READ returns of an empty queue (R186, R191). -/
def emptyEventBytes : List Byte := List.replicate 10 0

/-! ## The configuration payload (R130, Table 11-12) -/

/-- The 6 bytes of the configuration payload. -/
def settingsBytes (x : Settings) : List Byte :=
  [guardByte x.guards.p0, guardByte x.guards.p1, guardByte x.guards.p2, guardByte x.guards.p3,
   lockCode x.mode, BitVec.ofNat 8 x.threshold]

/-- The settings in a configuration payload that is readable (R131, last part; below Table 11-12). -/
def parseSettings : List Byte → Option Settings
  | [a, b, c, d, m, t] =>
    match guardOf a, guardOf b, guardOf c, guardOf d, lockOf m with
    | some ga, some gb, some gc, some gd, some lm =>
      if 2 ≤ t.toNat ∧ t.toNat ≤ 16 then some { guards := ⟨ga, gb, gc, gd⟩, mode := lm, threshold := t.toNat } else none
    | _, _, _, _, _ => none
  | _ => none

/-! ## Events (R185, Table 10-3) -/

/-- The held event after an offer has merged into it, if the two merge. -/
def Event.merge (held offered : Event) : Option Event :=
  match held, offered with
  | .watchHit k t _ _, .watchHit k' t' v a => if k = k' then some (.watchHit k (t ||| t') v a) else none
  | .claimLost k h _, .claimLost k' _ c => if k = k' then some (.claimLost k h c) else none
  | .storeState _ _, .storeState st g => some (.storeState st g)
  | .guardChanged _ _ _ _, .guardChanged p m session v => some (.guardChanged p m session v)
  | _, _ => none

/-- A queue after an offer has merged into the event it merges with, if there is one; the event keeps its place. -/
def mergeInto : List Event → Event → Option (List Event)
  | [], _ => none
  | h :: rest, e =>
    match h.merge e with
    | some m => some (m :: rest)
    | none => (mergeInto rest e).map (h :: ·)

/-- Whether an offer merges into the oldest event. -/
def mergesOldest (es : List Event) (e : Event) : Bool :=
  match es with
  | [] => false
  | h :: _ => (h.merge e).isSome

/-- A frame told that an offer has merged into the oldest event: an EVENT READ whose record is fixed keeps note of it (R186). -/
def Frame.noteMerge (f : Frame) : Frame :=
  match f.kind, f.record with
  | .eventRead, some _ => { f with merged := true }
  | _, _ => f

/-- A port after an offer: merged, placed as the newest, or discarded with EVENT_LOST; a RESETTING port is offered nothing (R185). -/
def PortUnit.offer (u : PortUnit) (e : Event) : PortUnit :=
  match u.state with
  | .resetting => u
  | .active =>
    match mergeInto u.events e with
    | some es =>
      { u with events := es, frame := if mergesOldest u.events e then u.frame.map Frame.noteMerge else u.frame }
    | none =>
      if u.events.length < Config.eventPlaces then { u with events := u.events ++ [e] }
      else { u with flags := u.flags ||| flagEventLost }

/-- An event offered to one port (R185). -/
def State.offer (s : State) (p : Port) (e : Event) : State := s.setPort p ((s.port p).offer e)

/-- An event offered to every port; RESETTING ports take none (R154). -/
def State.offerAll (s : State) (e : Event) : State :=
  allPorts.foldl (fun s p => s.offer p e) s

/-- The store enters a state and STORE_STATE is offered to every ACTIVE port (R154). -/
def State.enterStore (s : State) (st : StoreState) : State :=
  (s.setStoreState st).offerAll (.storeState st s.store.generation)

/-! ## Ending a command (R61, R62) -/

/-- A result of a command. -/
def Cmd.result (c : Cmd) (cls : Cls) (reason : Byte) (key : Key) (version : Version) (count aux : Half) : Result :=
  { tag := c.tag, code := c.code, cls := cls, reason := reason, key := key, version := version, count := count, aux := aux }

/-- An NT result. -/
def Cmd.nt (c : Cmd) (r : Reason) (key : Key) (version : Version) (count aux : Half) : Result :=
  c.result .normal (reasonCode r) key version count aux

/-- An AT result. -/
def Cmd.at_ (c : Cmd) (r : Reason) (key : Key) (version : Version) (count aux : Half) : Result :=
  c.result .abnormal (reasonCode r) key version count aux

/-- An IC result: version, count and aux are 0 where the command's rule gives none (R62). -/
def Cmd.ic (c : Cmd) (r : Reason) (key : Key) : Result :=
  c.result .invalid (reasonCode r) key 0 0 0

/-- A port whose current command has ended: its slot is NONE, and the result is held while the port is ACTIVE and discarded while it is RESETTING (R61, R177). -/
def PortUnit.deposit (u : PortUnit) (r : Result) : PortUnit :=
  match u.state with
  | .active => { u with slot := .none, results := u.results ++ [r] }
  | .resetting => { u with slot := .none }

/-- A command ends with its result and the Engine becomes IDLE (R61). -/
def State.endCommand (s : State) (p : Port) (r : Result) : State :=
  (s.setPort p ((s.port p).deposit r)).setWork .idle

/-- The entry version that refusals report (Table 4-4). -/
def State.versionOf (s : State) (k : Key) : Version := entryVersion s.engine.dir k

/-- The issuing port's GUARD_HIT set, and its command ended (R65, R126). -/
def State.endGuarded (s : State) (p : Port) (r : Result) : State :=
  (s.setFlag p flagGuardHit).endCommand p r

end Sys2Proof.Machine
end

