-- ==== Sys2Proof/Machine/Space.lean ====
section
/-! DEFINITION. The Space Manager's table at work: choice of the front and grants of cells (R136, R137), dead-cell reports (R138, R145), choice of the victim and start of a pass (R139, R140), and the degrade signal (R151, R155, R73). -/

namespace Sys2Proof.Machine

/-! ## The front (R137) -/

/-- The better of two FREE segments for the next front: the lower erase count, then the lower number. -/
def betterFree (s : State) (best : Option Seg) (g : Seg) : Option Seg :=
  if (s.seg g).state = .free then
    match best with
    | none => some g
    | some b => if (s.seg g).erases < (s.seg b).erases then some g else some b
  else best

/-- The FREE segment with the lowest erase count, ties to the lowest number (R137). -/
def State.bestFree (s : State) : Option Seg := allSegs.foldl (betterFree s) none

/-- The previous front, if any, becomes FULL (R137). -/
def State.closeFront (s : State) : State :=
  match s.front with
  | some f => s.setSegState f .full
  | none => s

/-- A FREE segment becomes the front with live 0, dead 0 and free 31 (R137). -/
def State.openFront (s : State) (g : Seg) : State :=
  let s := s.closeFront
  (s.setSeg g { state := .front, erases := (s.seg g).erases, live := 0, dead := 0, free := 31 }).setFrontFree dataCells

/-- The front's lowest free cell granted (R136). -/
def State.takeFront (s : State) : Option (Pos × State) :=
  match s.front, s.space.frontFree with
  | some f, c :: rest => some (⟨f, c⟩, (s.setSeg f (s.seg f).grant).setFrontFree rest)
  | _, _ => none

/-- A new front opened and its cell 1 granted (R137). -/
def State.takeNewFront (s : State) : Option (Pos × State) :=
  match s.bestFree with
  | some g => (s.openFront g).takeFront
  | none => none

/-- A copy grant: the front's lowest free cell, or a new front from any FREE segment, or none (R137). -/
def State.copyGrant (s : State) : Option (Pos × State) :=
  match s.takeFront with
  | some x => some x
  | none => s.takeNewFront

/-- Whether the rule of R136 would now grant the Engine a cell. -/
def State.canGrant (s : State) : Bool :=
  (s.front.isSome && !s.space.frontFree.isEmpty) || decide (2 ≤ s.freeCount)

/-- Whether a held grant request is to be answered before anything else happens (R136). -/
def State.heldDue (s : State) : Bool :=
  s.running && s.space.held && s.store.state != .degraded && s.canGrant

/-! ## Degrade (R73, R151, R155) -/

/-- An update ends AT READ_ONLY at a refused grant, with the attempts that reached the body program in aux (R73). -/
def State.endReadOnly (s : State) (p : Port) (c : Cmd) (u : Update) : State :=
  s.endCommand p (c.at_ .readOnly u.key (s.versionOf u.key) 0 (nat16 (u.attempt - 1)))

/-- A held grant request refused at the entry to DEGRADED (R73). -/
def State.refuseHeld (s : State) : State :=
  if s.space.held then
    match s.engine.work with
    | .updating p c u => (s.setHeld false).endReadOnly p c u
    | _ => s.setHeld false
  else s

/-- The degrade signal: in READY the store enters DEGRADED, and in every other state nothing changes (R155). -/
def State.degrade (s : State) : State :=
  match s.store.state with
  | .ready => (s.enterStore .degraded).refuseHeld
  | _ => s

/-! ## Starting a pass (R139, R140) -/

/-- The better of two FULL segments for the victim: more dead cells, then the lower erase count, then the lower number (R140). -/
def betterVictim (s : State) (best : Option Seg) (g : Seg) : Option Seg :=
  let r := s.seg g
  if r.state = .full ∧ 1 ≤ r.dead then
    match best with
    | none => some g
    | some b =>
      let q := s.seg b
      if q.dead < r.dead ∨ (q.dead = r.dead ∧ r.erases < q.erases) then some g else some b
  else best

/-- The victim of R140, or none. -/
def State.victim (s : State) : Option Seg := allSegs.foldl (betterVictim s) none

/-- The starting condition: the victim's live count is no greater than the front's free cells plus 31 times the FREE count (R140). -/
def State.passFits (s : State) (v : Seg) : Bool :=
  decide ((s.seg v).live ≤ s.space.frontFree.length + 31 * s.freeCount)

/-- A pass starts: the victim's state is VICTIM, the context has cursor 1 and no noted cells, the stage is SELECT, and the read of cell 1 is presented (R140). -/
def State.startPass (s : State) (v : Seg) : State :=
  ((s.setSegState v .victim).setPass
    (some { victim := v, stage := .select, cursor := 1, image := none, attempt := 1, noted := [], awaits := .victimRead })
  ).presentSpace (.readCell ⟨v, 1⟩ true)

/-- The trigger of R139: when it holds, a pass starts, or its starting condition fails and the store degrades. While a held grant request is due its answer comes first (R148, log entry 10). -/
def State.trigger (s : State) : State :=
  if s.store.state = .ready ∧ s.space.pass = none ∧ s.freeCount ≤ s.guard.settings.threshold ∧ s.heldDue = false then
    match s.victim with
    | none => s
    | some v => if s.passFits v then s.startPass v else s.degrade
  else s

/-! ## Dead-cell reports (R138, R145) -/

/-- Whether the pass has read a cell of its victim (R145). -/
def Pass.hasRead (q : Pass) (c : CellNo) : Bool :=
  match q.stage with
  | .select => false
  | .copying => decide (c < q.cursor) || (c == q.cursor && q.awaits != .victimRead)
  | .erasing => true

/-- A cell added to the noted set, where it appears at most once (R145). -/
def Pass.note (q : Pass) (c : CellNo) (k : Key) : Pass :=
  if q.noted.any (fun n => n.1 == c) then q else { q with noted := q.noted ++ [(c, k)] }

/-- A cell removed from the noted set (R145). -/
def Pass.unnote (q : Pass) (c : CellNo) : Pass := { q with noted := q.noted.filter (fun n => n.1 != c) }

/-- What a supersede report does to the noted cells of the pass whose victim holds the cell (R138, R145, log entry 14). -/
def Pass.supersedeReport (q : Pass) (pos : Pos) (key : Key) (done : Bool) : Pass :=
  if pos.seg = q.victim then
    if done then q.unnote pos.cell
    else if q.hasRead pos.cell then q.note pos.cell key else q
  else q

/-- The Engine's dead-cell report of a failed body or commit mark: the cell is counted dead and the trigger is evaluated (R138, R139). -/
def State.reportDead (s : State) (pos : Pos) : State := (s.countDead pos).trigger

/-- The Engine's report of a supersede outcome: the cell is counted dead, the noted cells follow, and the trigger is evaluated (R138, R145). -/
def State.reportSuperseded (s : State) (pos : Pos) (key : Key) (done : Bool) : State :=
  ((s.countDead pos).setPass (s.space.pass.map (fun q => q.supersedeReport pos key done))).trigger

end Sys2Proof.Machine
end

