-- ==== Sys2Proof/Machine/Settle.lean ====
section
/-! DEFINITION. What every event ends with: the array arbiter's grant (R32, R33, R36) and the port arbiter's selection (R57 to R59); and the shape of the Engine's rows. -/

namespace Sys2Proof.Machine

/-! ## The array arbiter -/

/-- Urgent reclaim: the FREE count is 1 and the pass is COPYING (R33). -/
def State.urgent (s : State) : Bool :=
  s.freeCount == 1 &&
    match s.space.pass with
    | some q => q.stage == .copying
    | none => false

/-- A request granted: it is in flight from now (R32). -/
def State.grantOp (s : State) (r : Requester) (op : ArrayOp) : State :=
  s.setInFlight (some { requester := r, op := op, age := 0 })

/-- The Engine's waiting request granted (R32). -/
def State.grantEngine (s : State) (op : ArrayOp) : State :=
  let s : State := { s with array := { s.array with waitEngine := none } }
  s.grantOp .engine op

/-- The Space Manager's waiting request granted; an erase gets its context (R32, R34). -/
def State.grantSpace (s : State) (op : ArrayOp) : State :=
  let s := s.withdrawSpace
  match op with
  | .eraseSegment g gen count =>
    s.setErase (some
      { seg := g, generation := gen, count := count, state := .running, accumulated := 0, sinceResume := 0,
        suspendCount := 0, stopAge := 0 })
  | _ => s.grantOp .space op

/-- The Store Controller's waiting request granted (R32). -/
def State.grantStore (s : State) (op : ArrayOp) : State :=
  let s : State := { s with array := { s.array with waitStore := none } }
  s.grantOp .store op

/-- With no operation in flight: the Store Controller's request first, then the Engine's, unless urgent reclaim puts the Space Manager's before it (R32, R33). -/
def State.arbitrateFree (s : State) : State :=
  match s.array.waitStore, s.array.waitEngine, s.array.waitSpace with
  | some op, _, _ => s.grantStore op
  | none, some op, none => s.grantEngine op
  | none, some op, some op' => if s.urgent then s.grantSpace op' else s.grantEngine op
  | none, none, some op => s.grantSpace op
  | none, none, none => s

/-- With a suspended erase: the Engine's request is granted, or the erase resumes (R36). -/
def State.arbitrateSuspended (s : State) (e : EraseCtx) : State :=
  match s.array.waitEngine with
  | some op => s.grantEngine op
  | none => s.setErase (some { e with state := .running, sinceResume := 0 })

/-- The arbiter at an event: it grants when no operation is in flight (R32, R36). -/
def State.arbitrate (s : State) : State :=
  match s.array.inFlight, s.array.erase with
  | some _, _ => s
  | none, none => s.arbitrateFree
  | none, some e =>
    match e.state with
    | .suspended => s.arbitrateSuspended e
    | .running => s
    | .suspending => s

/-! ## The port arbiter -/

/-- Whether a slot and the queues behind it make a port eligible (R57). -/
def PortUnit.hasWork (u : PortUnit) : Bool :=
  match u.slot with
  | .parked _ _ => true
  | .executing => false
  | .none => !u.commands.isEmpty && decide (u.results.length < Config.resultPlaces)

/-- Whether a port is eligible (R57). -/
def State.eligible (s : State) (p : Port) : Bool :=
  (s.port p).state == .active && s.isOpen && (s.port p).hasWork

/-- The ports in the order of a search that begins at a port (R58). -/
def searchFrom (p : Port) : List Port := [p, nextPort p, nextPort (nextPort p), nextPort (nextPort (nextPort p))]

/-- Whether the reset of a port is to proceed: it is RESETTING with no current command (R187). -/
def PortUnit.resetDue (u : PortUnit) : Bool :=
  u.state == .resetting && u.slot == .none

/-- The Engine takes a port: it resumes the parked scan, or takes the oldest command into the slot; the pointer names the port after it (R58, R59). -/
def State.takePort (s : State) (p : Port) : State :=
  let u := s.port p
  match u.slot, u.commands with
  | .parked c k, _ => (((s.setPort p { u with slot := .executing }).setWork (.resuming p c k)).setPointer (nextPort p))
  | .none, c :: rest =>
    (((s.setPort p { u with slot := .executing, commands := rest }).setWork (.taken p c)).setPointer (nextPort p))
  | _, _ => s

/-- The Engine, when IDLE, takes the first eligible port from its pointer on (R58, R61). -/
def State.select (s : State) : State :=
  if s.engine.work = .idle then
    match (searchFrom s.engine.pointer).find? s.eligible with
    | some p => s.takePort p
    | none => s
  else s

/-- What every event ends with. While a held grant request is due, its answer comes first (R136, log entry 10); the Engine is BUSY with the held update then, so no selection falls due. -/
def State.settle (s : State) : State := if s.heldDue then s else s.arbitrate.select

/-! ## The Engine's rows -/

/-- The command the Engine has taken and not yet executed, if its code is the one asked for. -/
def State.takenCmd (s : State) (code : Byte) : Option (Port × Cmd) :=
  match s.engine.work with
  | .taken p c => if c.code = code ∧ s.running = true ∧ s.isOpen = true then some (p, c) else none
  | _ => none

/-- A row that executes the command the Engine has taken; it cannot happen when the Engine has taken no such command (log entry 2). -/
def State.perform (s : State) (code : Byte) (f : Port → Cmd → State) : Host.Outcome State Fault Refusal :=
  match s.takenCmd code with
  | some (p, c) => .next (f p c).settle
  | none => .refused .notDue

/-- A row that happens only when it is due (log entry 2). -/
def State.whenDue (due : Bool) (t : State) : Host.Outcome State Fault Refusal :=
  if due then .next t.settle else .refused .notDue

end Sys2Proof.Machine
end

