-- ==== Sys2Proof/Machine/Update.lean ====
section
/-! DEFINITION. Carrying out an update: grant, payload take-up, body, commit, supersede and retry (R43 to R45, R71 to R78, R129, R132). -/

namespace Sys2Proof.Machine

/-! ## Payload take-up (R74, R83) -/

/-- The new payload of a PATCH: the taken bytes replace the old ones from the payload offset on (R83). -/
def patchPayload (old : List Byte) (offset : Nat) (taken : List Byte) : List Byte :=
  old.take offset ++ taken ++ old.drop (offset + taken.length)

/-- The payload an update takes at its first grant, from its port's buffer as it stands (R74). -/
def State.takeUp (s : State) (p : Port) (c : Cmd) (u : Update) : List Byte :=
  let taken := bufferTake (s.port p).buffer c.bufOffset c.dataLength
  if c.code = codePatch then patchPayload u.old c.patchOffset taken else taken

/-- A payload with its check (R20). -/
def withCheck (bs : List Byte) : List Byte × Half := (bs, crc16 bs)

/-- The payload of an update, empty before it is taken. -/
def Update.bytes (u : Update) : List Byte :=
  match u.payload with
  | some x => x.1
  | none => []

/-- The payload check of an update (R74). -/
def Update.check (u : Update) : Half :=
  match u.payload with
  | some x => x.2
  | none => crc16 []

/-- The body an update programs (R75). -/
def Update.body (u : Update) (seq : SeqNo) : Body :=
  { key := u.key, version := u.version, seq := seq, length := u.bytes.length, author := u.author, kind := u.kind,
    check := u.check, payload := u.bytes }

/-! ## Grant and body (R72, R73, R75) -/

/-- The context with its payload, taken now if it is still absent (R74). -/
def State.withPayload (s : State) (p : Port) (c : Cmd) (u : Update) : Update :=
  match u.payload with
  | some _ => u
  | none => { u with payload := some (withCheck (s.takeUp p c u)) }

/-- The granted cell arrives: the payload is taken if it is attempt 1's, and the body is presented with the next sequence number (R72, R74, R75, R10). -/
def State.grantGiven (s : State) (p : Port) (c : Cmd) (u : Update) (pos : Pos) : State :=
  let u := { s.withPayload p c u with granted := some pos, stage := .body }
  ((s.setWork (.updating p c u)).bumpSeq).presentEngine (.programBody pos (u.body s.engine.seq))

/-- The grant request of an attempt, decided at its arrival: refused in DEGRADED, granted, or held (R72, R73, R136). -/
def State.requestGrant (s : State) (p : Port) (c : Cmd) (u : Update) : State :=
  let u := { u with granted := none, stage := .grantWait }
  let s := s.setWork (.updating p c u)
  if s.store.state = .degraded then s.endReadOnly p c u
  else
    match s.takeFront with
    | some (pos, s) => s.grantGiven p c u pos
    | none =>
      if 2 ≤ s.freeCount then
        match s.takeNewFront with
        | some (pos, s) => (s.grantGiven p c u pos).trigger
        | none => s.setHeld true
      else s.setHeld true

/-- A held grant request answered with the front's lowest free cell, or cell 1 of a new front (R136). -/
def State.answerHeld (s : State) : State :=
  match s.engine.work with
  | .updating p c u =>
    let s := s.setHeld false
    match s.copyGrant with
    | some (pos, s) => (s.grantGiven p c u pos).trigger
    | none => s
  | _ => (s.setHeld false).trigger

/-- An update ends AT PROGRAM_FAIL after its third attempt (R77). -/
def State.endProgramFail (s : State) (p : Port) (c : Cmd) (u : Update) : State :=
  s.endCommand p (c.at_ .programFail u.key (s.versionOf u.key) 0 3)

/-- An attempt has failed: the granted cell is reported dead, and a further attempt requests a new cell or the update ends (R75 to R77). -/
def State.attemptFailed (s : State) (p : Port) (c : Cmd) (u : Update) (pos : Pos) : State :=
  let s := s.reportDead pos
  if u.attempt < Config.attempts then s.requestGrant p c { u with attempt := u.attempt + 1 }
  else s.endProgramFail p c u

/-- The outcome of an update's body program (R75). -/
def State.updateBody (s : State) (p : Port) (c : Cmd) (u : Update) (pos : Pos) (ok : Bool) : State :=
  if ok then (s.setWork (.updating p c { u with stage := .commitMark })).presentEngine (.programMark pos .first)
  else s.attemptFailed p c u pos

/-! ## The commit report (R43, R119, R120) -/

/-- The trigger a commit fires: APPEAR, CHANGE or VANISH (Table 6-4). -/
def firedTrigger (before after : KeyState) : Triggers :=
  match before, after with
  | .absent, .live => 0b001#3
  | .gone, .live => 0b001#3
  | .live, .live => 0b010#3
  | .live, .gone => 0b100#3
  | _, _ => 0

/-- A commit report at one port's watch list (R120). -/
def State.offerWatch (s : State) (k : Key) (t : Triggers) (v : Version) (a : Author) (p : Port) : State :=
  match (s.coord.watches.get p).find? (fun w => w.key == k) with
  | some w => if w.triggers &&& t ≠ 0 ∧ (a ≠ .port p ∨ w.self = true) then s.offer p (.watchHit k t v a) else s
  | none => s

/-- A commit report at every port's watch list (R119, R120). -/
def State.reportCommit (s : State) (k : Key) (before after : KeyState) (v : Version) (a : Author) : State :=
  allPorts.foldl (fun s p => s.offerWatch k (firedTrigger before after) v a p) s

/-- The state an entry takes from the kind of its cell (R4, R43). -/
def entryStateOf : Kind → EntryState
  | .tombstone => .gone
  | .data => .live
  | .config => .live

/-- The key state that goes with an entry state (R4). -/
def keyStateOf : EntryState → KeyState
  | .live => .live
  | .gone => .gone

/-- The entry after a commit: the new cell and the new body's fields, move-pending clear, and the old entry's stale count and retry cell (R43). -/
def committedEntry (old : Option Entry) (b : Body) (pos : Pos) : Entry :=
  { key := b.key, state := entryStateOf b.kind, cell := pos, version := b.version, length := b.length, author := b.author,
    stale := match old with
      | some e => e.stale
      | none => 0
    retry := match old with
      | some e => e.retry
      | none => none
    movePending := false }

/-- A body commits: the directory is changed and the commit is reported (R43). -/
def State.commitBody (s : State) (b : Body) (pos : Pos) : State :=
  let before := keyState s.engine.dir b.key
  let s := s.setDir (putEntry s.engine.dir (committedEntry (lookup s.engine.dir b.key) b pos))
  s.reportCommit b.key before (keyStateOf (entryStateOf b.kind)) b.version b.author

/-! ## Adoption of a configuration record (R129, R132) -/

/-- The ports offered GUARD_CHANGED at a GUARD SET's commit (Table 7-6). -/
def guardRecipients (issuing target : Port) (modeChanged : Bool) : List Port :=
  if modeChanged then allPorts.filter (fun p => p != issuing)
  else if target = issuing then [] else [target]

/-- The Guard Unit adopts a committed configuration payload with a standing (R129, R162). -/
def GuardUnit.adopt (g : GuardUnit) (payload : List Byte) (standing : Standing) : GuardUnit :=
  match parseSettings payload with
  | some x => { g with settings := x, standing := standing }
  | none => { g with standing := standing }

/-- At a GUARD SET's commit the Guard Unit adopts the record, a SESSION request sets the session lock, and GUARD_CHANGED is offered (R129, R132). -/
def State.adoptGuardSet (s : State) (p : Port) (c : Cmd) (u : Update) : State :=
  let old := s.guard
  let adopted := old.adopt u.bytes .loaded
  let new := { adopted with session := adopted.session || c.lockSession }
  let changed := old.settings.mode != new.settings.mode || c.lockSession
  match c.target with
  | some t =>
    (guardRecipients p t changed).foldl
      (fun s q => s.offer q (.guardChanged t new.modeInForce new.session u.version)) (s.setGuard new)
  | none => s.setGuard new

/-! ## After the commit (R44, R45, R78) -/

/-- The NT result: the committed version, the new length and the attempts used (R78, R128). -/
def State.finishUpdate (s : State) (p : Port) (c : Cmd) (u : Update) : State :=
  s.endCommand p (c.nt .done u.key u.version (nat16 u.bytes.length) (nat16 u.attempt))

/-- Whether a segment is under reclaim (R45). -/
def SegState.underReclaim : SegState → Bool
  | .victim => true
  | .erasing => true
  | _ => false

/-- After the supersede step: the retry cell is tried when it was set before the update began and its segment is not under reclaim, and otherwise the update ends (R45, R78). -/
def State.retryStep (s : State) (p : Port) (c : Cmd) (u : Update) : State :=
  match (lookup s.engine.dir u.key).bind (fun e => e.retry) with
  | some r =>
    if u.retryAtStart = some r ∧ (s.seg r.seg).state.underReclaim = false then
      (s.setWork (.updating p c { u with stage := .retryMark })).presentEngine (.programMark r .second)
    else s.finishUpdate p c u
  | none => s.finishUpdate p c u

/-- The update commits in a cell: directory, commit report, adoption of a configuration record, and then the supersede mark on the previous cell if there is one (R43, R44, R76, R129). -/
def State.updateCommitted (s : State) (p : Port) (c : Cmd) (u : Update) (pos : Pos) : State :=
  let previous := (lookup s.engine.dir u.key).map (fun e => e.cell)
  let s := s.commitBody (u.body s.engine.seq) pos
  let s := if u.kind = .config then s.adoptGuardSet p c u else s
  match previous with
  | some cell => (s.setWork (.updating p c { u with stage := .supersede })).presentEngine (.programMark cell .second)
  | none => s.retryStep p c u

/-- The outcome of an update's commit mark (R76). -/
def State.updateCommitMark (s : State) (p : Port) (c : Cmd) (u : Update) (pos : Pos) (ok : Bool) : State :=
  if ok then s.updateCommitted p c u pos else s.attemptFailed p c u pos

/-- A failed supersede mark raises the stale count, and the cell becomes the retry cell if there is none (R44). -/
def Entry.markFailed (e : Entry) (pos : Pos) : Entry :=
  { e with stale := e.stale + 1, retry := match e.retry with
      | some r => some r
      | none => some pos }

/-- A successful retry lowers the stale count and makes the retry cell absent (R45); an entry whose retry cell is no longer that cell keeps both (log entry 26). -/
def Entry.retried (e : Entry) (pos : Pos) : Entry :=
  if e.retry = some pos then { e with stale := e.stale - 1, retry := none } else e

/-- The overtaken state of the pending move after a supersede outcome on its copy (R51). -/
def Move.overtake (m : Move) (pos : Pos) (ok : Bool) : Move :=
  if m.copy = pos then { m with overtaken := if ok then .marked else .unmarked } else m

/-- The outcome of the supersede mark on the previous cell (R44, R51, R138). -/
def State.updateSuperseded (s : State) (p : Port) (c : Cmd) (u : Update) (pos : Pos) (ok : Bool) : State :=
  let s := if ok then s else s.setDir (mapEntry s.engine.dir u.key (fun e => e.markFailed pos))
  let s := s.setMove (s.engine.move.map (fun m => m.overtake pos ok))
  (s.reportSuperseded pos u.key ok).retryStep p c u

/-- The outcome of a retried supersede mark (R45). -/
def State.updateRetried (s : State) (p : Port) (c : Cmd) (u : Update) (pos : Pos) (ok : Bool) : State :=
  let s :=
    if ok then
      (s.setDir (mapEntry s.engine.dir u.key (fun e => e.retried pos))).setMove
        (s.engine.move.map (fun m => m.overtake pos true))
    else s
  s.finishUpdate p c u

/-- The outcome of a mark program of an update, by its stage (Table 4-5). -/
def State.updateMark (s : State) (p : Port) (c : Cmd) (u : Update) (pos : Pos) (ok : Bool) : State :=
  match u.stage with
  | .commitMark => s.updateCommitMark p c u pos ok
  | .supersede => s.updateSuperseded p c u pos ok
  | .retryMark => s.updateRetried p c u pos ok
  | .oldRead => s
  | .grantWait => s
  | .body => s

end Sys2Proof.Machine
end

