-- ==== Sys2Proof/Machine/RecordCommands.lean ====
section
/-! DEFINITION. WRITE, PATCH, REMOVE, READ and STAT: their checks in order, the start of an update, and the reads they make (R63 to R71, R81 to R89). -/

namespace Sys2Proof.Machine

/-! ## Conditions and claims -/

/-- The claim on a key (R107). -/
def State.claimOn (s : State) (k : Key) : Option Claim := s.coord.claims.find? (fun x => x.key == k)

/-- The holder of a claim on a key (R107). -/
def State.holderOf (s : State) (k : Key) : Option Port := (s.claimOn k).map (fun x => x.holder)

/-- A failed condition with the version it reports, or none when it passes (R7, Table 1-4). -/
def conditionFailure (c : Cmd) (entry : Option Entry) : Option (Reason × Version) :=
  if c.condKind = 0 then none
  else
    match entry with
    | some e =>
      match e.state with
      | .live =>
        if c.expected = 0 then some (.exists_, e.version)
        else if c.expected = e.version then none else some (.versionMismatch, e.version)
      | .gone => if c.expected = 0 then none else some (.versionMismatch, 0)
    | none => if c.expected = 0 then none else some (.versionMismatch, 0)

/-! ## The update checks (Table 4-2) -/

/-- Step 4: a permanent key with a LIVE entry (R66). -/
def State.failPermanent (s : State) (c : Cmd) : Option Result :=
  if isPermanent c.key = true ∧ keyState s.engine.dir c.key = .live then
    some (c.at_ .permanent c.key (s.versionOf c.key) 0 0)
  else none

/-- Step 5: a claim of another port (R67). -/
def State.failClaimed (s : State) (p : Port) (c : Cmd) : Option Result :=
  match s.holderOf c.key with
  | some h => if h = p then none else some (c.at_ .claimed c.key (s.versionOf c.key) 0 (portHalf h))
  | none => none

/-- Step 6: the condition (R68). -/
def State.failCondition (s : State) (c : Cmd) : Option Result :=
  (conditionFailure c (lookup s.engine.dir c.key)).map (fun x => c.at_ x.1 c.key x.2 0 0)

/-- Step 7: PATCH and REMOVE need a LIVE entry, and PATCH an offset within its length (R68). -/
def State.failMissing (s : State) (c : Cmd) : Option Result :=
  if c.code = codeWrite then none
  else
    match lookup s.engine.dir c.key with
    | none => some (c.at_ .notFound c.key 0 0 0)
    | some e =>
      match e.state with
      | .gone => some (c.at_ .notFound c.key e.version 0 0)
      | .live =>
        if c.code = codePatch ∧ e.length < c.patchOffset then
          some (c.at_ .beyondEnd c.key e.version 0 (nat16 e.length))
        else none

/-- Step 8: a key with no entry needs a free directory slot (R69). -/
def State.failFull (s : State) (c : Cmd) : Option Result :=
  if (lookup s.engine.dir c.key).isNone = true ∧ Config.masterEntries ≤ masterCount s.engine.dir then
    some (c.at_ .directoryFull c.key 0 0 0)
  else none

/-- Step 9: the next version must exist (R6, R69). -/
def State.failVersion (s : State) (c : Cmd) (k : Key) : Option Result :=
  if s.versionOf k = Config.lastVersion then some (c.at_ .versionExhausted k (s.versionOf k) 0 0) else none

/-- Steps 4 to 9 of the update checks: the first failure (Table 4-2). -/
def State.failUpdate (s : State) (p : Port) (c : Cmd) : Option Result :=
  (s.failPermanent c).or ((s.failClaimed p c).or ((s.failCondition c).or ((s.failMissing c).or
    ((s.failFull c).or (s.failVersion c c.key)))))

/-- The version an update is assigned: one more than its entry's, or 1 when it has none (R5). -/
def State.nextVersion (s : State) (k : Key) : Version := s.versionOf k + 1

/-- The retry cell of a key's entry as it stands (R45). -/
def State.retryOf (s : State) (k : Key) : Option Pos := (lookup s.engine.dir k).bind (fun e => e.retry)

/-- The update context of a WRITE, PATCH or REMOVE (R71); a REMOVE's payload is empty from the start (R74). -/
def State.newUpdate (s : State) (p : Port) (c : Cmd) : Update :=
  { key := c.key
    kind := if c.code = codeRemove then .tombstone else .data
    version := s.nextVersion c.key
    author := .port p
    payload := if c.code = codeRemove then some (withCheck []) else none
    old := []
    attempt := 1
    granted := none
    stage := .grantWait
    retryAtStart := s.retryOf c.key }

/-- An update that has passed its checks begins: PATCH with the read of the old payload, the others with their grant request (R71, R82). -/
def State.beginUpdate (s : State) (p : Port) (c : Cmd) : State :=
  let u := s.newUpdate p c
  if c.code = codePatch then
    match lookup s.engine.dir c.key with
    | some e => (s.setWork (.updating p c { u with stage := .oldRead })).presentEngine (.readCell e.cell true)
    | none => s
  else s.requestGrant p c u

/-- Steps 2 to 9 and the start of an update (R64 to R69). -/
def State.admitUpdate (s : State) (p : Port) (c : Cmd) : State :=
  match s.store.state with
  | .unformatted => s.endCommand p (c.at_ .notFormatted c.key 0 0 0)
  | .degraded => s.endCommand p (c.at_ .readOnly c.key (s.versionOf c.key) 0 0)
  | _ =>
    if guardProtects (s.guardOfPort p) (pageOf c.key) then
      s.endGuarded p (c.at_ .guarded c.key (s.versionOf c.key) 0 0)
    else
      match s.failUpdate p c with
      | some r => s.endCommand p r
      | none => s.beginUpdate p c

/-- A command with its parameter check: a failure ends it IC, with the key field given (R62, R63). -/
def State.checked (s : State) (p : Port) (c : Cmd) (fail : Option Reason) (key : Key) (go : State) : State :=
  match fail with
  | some r => s.endCommand p (c.ic r key)
  | none => go

/-- WRITE (R81). -/
def State.doWrite (s : State) (p : Port) (c : Cmd) : State :=
  s.checked p c (checkWrite c) c.key (s.admitUpdate p c)

/-- PATCH (R82). -/
def State.doPatch (s : State) (p : Port) (c : Cmd) : State :=
  s.checked p c (checkPatch c) c.key (s.admitUpdate p c)

/-- REMOVE (R84). -/
def State.doRemove (s : State) (p : Port) (c : Cmd) : State :=
  s.checked p c (checkRemove c) c.key (s.admitUpdate p c)

/-! ## Reads -/

/-- The body of a read that is accepted: a good body with the entry's key and version and a good payload check (R82, R86). -/
def CellRead.accept (r : CellRead) (k : Key) (v : Version) : Option Body :=
  match r.body with
  | some b => if b.key = k ∧ b.version = v ∧ r.payloadGood = true then some b else none
  | none => none

/-- The length a key's entry gives. -/
def State.lengthOf (s : State) (k : Key) : Nat :=
  match lookup s.engine.dir k with
  | some e => e.length
  | none => 0

/-- The old payload of a PATCH has been read: it is kept and the grant requested, or the PATCH ends AT DATA_CHECK (R82). -/
def State.patchOldRead (s : State) (p : Port) (c : Cmd) (u : Update) (r : CellRead) : State :=
  match r.accept u.key (s.versionOf u.key) with
  | some b => s.requestGrant p c { u with old := b.payload }
  | none => s.endCommand p (c.at_ .dataCheck u.key (s.versionOf u.key) 0 (nat16 (s.lengthOf u.key)))

/-- The bytes a READ copies into `room` buffer positions, and the termination that ends it (R87). -/
def readCopy (stop : Option Byte) : Nat → List Byte → List Byte × Reason
  | 0, _ => ([], .bufferEnd)
  | _ + 1, [] => ([], .endOfRecord)
  | room + 1, b :: rest =>
    if stop = some b then ([b], .stopByte)
    else if rest = [] then ([b], .endOfRecord)
    else if room = 0 then ([b], .bufferEnd)
    else
      let (bs, r) := readCopy stop room rest
      (b :: bs, r)

/-- Bytes written into a port's staging buffer (R179). -/
def State.storeBuffer (s : State) (p : Port) (off : Nat) (bs : List Byte) : State :=
  s.setPort p { s.port p with buffer := bufferStore (s.port p).buffer off bs }

/-- The cell read of a READ has completed (R86 to R88). -/
def State.readDone (s : State) (p : Port) (c : Cmd) (v : Version) (len : Nat) (r : CellRead) : State :=
  match r.accept c.key v with
  | some b =>
    let (bs, why) := readCopy c.readStop (c.readLast + 1 - c.readFirst) (b.payload.drop c.readOffset)
    (s.storeBuffer p c.readFirst bs).endCommand p (c.nt why c.key v (nat16 bs.length) (nat16 len))
  | none => s.endCommand p (c.at_ .dataCheck c.key v 0 (nat16 len))

/-- A LIVE entry of a key. -/
def State.liveEntry (s : State) (k : Key) : Option Entry :=
  match lookup s.engine.dir k with
  | some e => match e.state with
    | .live => some e
    | .gone => none
  | none => none

/-- READ after its parameter check: the state, the entry and the offset, and then the cell read (R85, R86). -/
def State.admitRead (s : State) (p : Port) (c : Cmd) : State :=
  if s.store.state = .unformatted then s.endCommand p (c.at_ .notFormatted c.key 0 0 0)
  else
    match s.liveEntry c.key with
    | none => s.endCommand p (c.at_ .notFound c.key 0 0 0)
    | some e =>
      if e.length < c.readOffset then
        s.endCommand p (c.result .invalid (reasonCode .badField) c.key 0 0 (nat16 e.length))
      else (s.setWork (.reading p c e.version e.length)).presentEngine (.readCell e.cell true)

/-- READ (R85). -/
def State.doRead (s : State) (p : Port) (c : Cmd) : State :=
  s.checked p c (checkRead c) c.key (s.admitRead p c)

/-! ## STAT -/

/-- Code of a key state in the STAT reason (Table 11-7). -/
def keyStateCode : KeyState → Byte
  | .absent => 0 | .live => 1 | .gone => 2

/-- A holder in a 3-bit subfield, 7 for none (R191, Table 11-7). -/
def holderBits : Option Port → Byte
  | some p => portCode p
  | none => 7

/-- The packed reason of a STAT (Table 11-7). -/
def statReason (st : KeyState) (author : Byte) (holder : Option Port) : Byte :=
  (keyStateCode st <<< 6) ||| (author <<< 3) ||| holderBits holder

/-- The NT result of a STAT (Table 4-9). -/
def State.statResult (s : State) (c : Cmd) : Result :=
  let holder := s.holderOf c.key
  match lookup s.engine.dir c.key with
  | some e =>
    c.result .normal (statReason (keyStateOf e.state) (authorCode e.author) holder) c.key e.version
      (match e.state with
       | .live => nat16 e.length
       | .gone => 0)
      (nat16 e.stale)
  | none => c.result .normal (statReason .absent 7 holder) c.key 0 0 0

/-- STAT (R89). -/
def State.doStat (s : State) (p : Port) (c : Cmd) : State :=
  s.checked p c (checkKey c) c.key
    (if s.store.state = .unformatted then s.endCommand p (c.at_ .notFormatted c.key 0 0 0)
     else s.endCommand p (s.statResult c))

/-! ## BAD_COMMAND (R60) -/

/-- A code that names no command ends at once (R60). -/
def State.doBadCommand (s : State) (p : Port) (c : Cmd) : State := s.endCommand p (c.ic .badCommand Config.noKey)

/-! ## The rows -/

/-- WRITE (R81). -/
def execWrite (s : State) : Host.Outcome State Fault Refusal := s.perform codeWrite s.doWrite

/-- PATCH (R82). -/
def execPatch (s : State) : Host.Outcome State Fault Refusal := s.perform codePatch s.doPatch

/-- REMOVE (R84). -/
def execRemove (s : State) : Host.Outcome State Fault Refusal := s.perform codeRemove s.doRemove

/-- READ (R85). -/
def execRead (s : State) : Host.Outcome State Fault Refusal := s.perform codeRead s.doRead

/-- STAT (R89). -/
def execStat (s : State) : Host.Outcome State Fault Refusal := s.perform codeStat s.doStat

/-- BAD_COMMAND: the command the Engine has taken has a code that names none (R60). -/
def execBadCommand (s : State) : Host.Outcome State Fault Refusal :=
  match s.engine.work with
  | .taken p c =>
    if c.code ∉ knownCodes ∧ s.running = true ∧ s.isOpen = true then .next (s.doBadCommand p c).settle
    else .refused .notDue
  | _ => .refused .notDue

end Sys2Proof.Machine
end

