-- ==== Sys2Proof/Machine/Coordination.lean ====
section
/-! DEFINITION. The Coordination Unit's commands and the expiry of a claim (R104 to R118). -/

namespace Sys2Proof.Machine

/-! ## Claims -/

/-- A remaining time as reported: the whole milliseconds not yet elapsed, rounded up, at least 1 (R106). -/
def Claim.remainingMs (x : Claim) : Nat := max 1 ((x.remaining + 999) / 1000)

/-- A claim put in the table in key order, replacing the key's claim if it has one (R105). -/
def putClaim (cs : List Claim) (x : Claim) : List Claim :=
  match cs with
  | [] => [x]
  | y :: ys =>
    if y.key = x.key then x :: ys
    else if x.key < y.key then x :: y :: ys
    else y :: putClaim ys x

/-- The claim of a key removed. -/
def dropClaim (cs : List Claim) (k : Key) : List Claim := cs.filter (fun x => x.key != k)

/-- The number of claims a port holds (R105). -/
def State.share (s : State) (p : Port) : Nat := s.coord.claims.countP (fun x => x.holder == p)

/-- A claim of a port for a duration in milliseconds (R105, R106). -/
def newClaim (k : Key) (p : Port) (ms : Nat) : Claim := { key := k, holder := p, remaining := ms * 1000, overdue := 0 }

/-- A claim created or renewed, and the result that says so (Table 6-2). -/
def State.grantClaim (s : State) (p : Port) (c : Cmd) (why : Reason) : State :=
  let s := s.setClaims (putClaim s.coord.claims (newClaim c.key p c.duration))
  s.endCommand p (c.nt why c.key (s.versionOf c.key) (nat16 c.duration) (nat16 (s.share p)))

/-- A claim request decided at the claim table (R109, Table 6-1). -/
def State.claimRequest (s : State) (p : Port) (c : Cmd) : State :=
  match s.claimOn c.key with
  | some x =>
    if x.holder = p then s.grantClaim p c .renewed
    else s.endCommand p (c.at_ .claimBusy c.key (s.versionOf c.key) (nat16 x.remainingMs) (portHalf x.holder))
  | none =>
    if Config.claimPlaces ≤ s.coord.claims.length ∨ Config.claimShare ≤ s.share p then
      s.endCommand p (c.at_ .claimFull c.key (s.versionOf c.key) (nat16 (s.share p)) (nat16 s.coord.claims.length))
    else s.grantClaim p c .created

/-- A command that UNFORMATTED refuses and every other open state admits (Table 9-2). -/
def State.formatted (s : State) (p : Port) (c : Cmd) (key : Key) (go : State) : State :=
  if s.store.state = .unformatted then s.endCommand p (c.at_ .notFormatted key 0 0 0) else go

/-- CLAIM (R108). -/
def State.doClaim (s : State) (p : Port) (c : Cmd) : State :=
  s.checked p c (checkClaim c) c.key (s.formatted p c c.key (s.claimRequest p c))

/-- A release request decided at the claim table (R110). -/
def State.releaseRequest (s : State) (p : Port) (c : Cmd) : State :=
  match s.claimOn c.key with
  | some x =>
    if x.holder = p then
      let s := s.setClaims (dropClaim s.coord.claims c.key)
      s.endCommand p (c.nt .done c.key (s.versionOf c.key) (nat16 x.remainingMs) (nat16 (s.share p)))
    else s.endCommand p (c.at_ .notHolder c.key (s.versionOf c.key) 0 (portHalf x.holder))
  | none => s.endCommand p (c.at_ .notHolder c.key (s.versionOf c.key) 0 Config.noneHalf)

/-- RELEASE (R110). -/
def State.doRelease (s : State) (p : Port) (c : Cmd) : State :=
  s.checked p c (checkKey c) c.key (s.formatted p c c.key (s.releaseRequest p c))

/-- CLAIM_LOST offered for a claim to its holder (R121). -/
def State.offerLoss (s : State) (cause : LossCause) (x : Claim) : State :=
  s.offer x.holder (.claimLost x.key x.holder cause)

/-- The expiry of a claim: it is removed, and CLAIM_LOST is offered to its holder unless RESETTING (R111). -/
def State.expire (s : State) (x : Claim) : State :=
  (s.setClaims (dropClaim s.coord.claims x.key)).offerLoss .expired x

/-! ## Watches -/

/-- A watch put in the list in key order, replacing the key's entry if it has one (R115). -/
def putWatch (ws : List Watch) (w : Watch) : List Watch :=
  match ws with
  | [] => [w]
  | x :: xs =>
    if x.key = w.key then w :: xs
    else if w.key < x.key then w :: x :: xs
    else x :: putWatch xs w

/-- The watch of a key removed. -/
def dropWatch (ws : List Watch) (k : Key) : List Watch := ws.filter (fun w => w.key != k)

/-- The watch of a key in a list. -/
def watchOf (ws : List Watch) (k : Key) : Option Watch := ws.find? (fun w => w.key == k)

/-- The number of triggers in a set. -/
def triggerCount (t : Triggers) : Nat := (t.getLsbD 0).toNat + (t.getLsbD 1).toNat + (t.getLsbD 2).toNat

/-- The trigger byte of an entry, with its self flag in bit 7 (Table 11-1). -/
def watchByte (t : Triggers) (self : Bool) : Byte := (if self then 0x80#8 else 0) ||| t.setWidth 8

/-- The aux field of the watch commands: trigger byte, then the entries in the list (Table 11-7). -/
def watchAux (b : Byte) (n : Nat) : Half := b ++ BitVec.ofNat 8 n

/-- An entry set in a port's list, and the result that says which triggers are new (R116). -/
def State.setWatch (s : State) (p : Port) (c : Cmd) (old : Triggers) : State :=
  let t := old ||| c.triggers
  let s := s.setWatches p (putWatch (s.coord.watches.get p) { key := c.key, triggers := t, self := c.selfFlag })
  s.endCommand p (c.nt .done c.key (s.versionOf c.key) (nat16 (triggerCount (c.triggers &&& ~~~old)))
    (watchAux (watchByte t c.selfFlag) (s.coord.watches.get p).length))

/-- A watch request of WATCH SET decided (R116). -/
def State.watchSetRequest (s : State) (p : Port) (c : Cmd) : State :=
  match watchOf (s.coord.watches.get p) c.key with
  | some w => s.setWatch p c w.triggers
  | none =>
    if (s.coord.watches.get p).length < Config.watchPlaces then s.setWatch p c 0
    else s.endCommand p (c.at_ .watchFull c.key (s.versionOf c.key) 0 (watchAux 0 (s.coord.watches.get p).length))

/-- WATCH SET (R116). -/
def State.doWatchSet (s : State) (p : Port) (c : Cmd) : State :=
  s.checked p c (checkWatchSet c) c.key (s.formatted p c c.key (s.watchSetRequest p c))

/-- A port's list after triggers are removed from a key's entry; an entry with none left is deleted (R117). -/
def clearWatch (ws : List Watch) (k : Key) (t : Triggers) : List Watch :=
  match watchOf ws k with
  | some w =>
    if w.triggers &&& ~~~t = 0 then dropWatch ws k else putWatch ws { w with triggers := w.triggers &&& ~~~t }
  | none => ws

/-- The trigger byte a list gives for a key, 0 when it has no entry (R117). -/
def watchByteOf (ws : List Watch) (k : Key) : Byte :=
  match watchOf ws k with
  | some w => watchByte w.triggers w.self
  | none => 0

/-- The number of triggers a clear removes (R117). -/
def clearedCount (ws : List Watch) (k : Key) (t : Triggers) : Nat :=
  match watchOf ws k with
  | some w => triggerCount (w.triggers &&& t)
  | none => 0

/-- A watch request of WATCH CLEAR decided (R117). -/
def State.watchClearRequest (s : State) (p : Port) (c : Cmd) : State :=
  let ws := s.coord.watches.get p
  let ws' := clearWatch ws c.key c.triggers
  (s.setWatches p ws').endCommand p (c.nt .done c.key (s.versionOf c.key) (nat16 (clearedCount ws c.key c.triggers))
    (watchAux (watchByteOf ws' c.key) ws'.length))

/-- WATCH CLEAR (R117). -/
def State.doWatchClear (s : State) (p : Port) (c : Cmd) : State :=
  s.checked p c (checkWatchClear c) c.key (s.formatted p c c.key (s.watchClearRequest p c))

/-- The 3 bytes that WATCH LIST writes for an entry (R118). -/
def watchBytes (w : Watch) : List Byte := bytes16 w.key ++ [watchByte w.triggers w.self]

/-- The entries that fit from `first` to `last`, 3 bytes each (R118). -/
def listFits (first last : Nat) (ws : List Watch) : List Watch := ws.take ((last + 1 - first) / 3)

/-- WATCH LIST after its checks (R118). -/
def State.watchListRequest (s : State) (p : Port) (c : Cmd) : State :=
  let ws := s.coord.watches.get p
  let fit := listFits c.listFirst c.listLast ws
  (s.storeBuffer p c.listFirst (fit.flatMap watchBytes)).endCommand p
    (c.nt .done Config.noKey 0 (nat16 fit.length) (nat16 ws.length))

/-- WATCH LIST (R118). -/
def State.doWatchList (s : State) (p : Port) (c : Cmd) : State :=
  s.checked p c (checkWatchList c) Config.noKey (s.formatted p c Config.noKey (s.watchListRequest p c))

/-! ## The rows -/

/-- CLAIM (R108). -/
def execClaim (s : State) : Host.Outcome State Fault Refusal := s.perform codeClaim s.doClaim

/-- RELEASE (R110). -/
def execRelease (s : State) : Host.Outcome State Fault Refusal := s.perform codeRelease s.doRelease

/-- WATCH SET (R116). -/
def execWatchSet (s : State) : Host.Outcome State Fault Refusal := s.perform codeWatchSet s.doWatchSet

/-- WATCH CLEAR (R117). -/
def execWatchClear (s : State) : Host.Outcome State Fault Refusal := s.perform codeWatchClear s.doWatchClear

/-- WATCH LIST (R118). -/
def execWatchList (s : State) : Host.Outcome State Fault Refusal := s.perform codeWatchList s.doWatchList

/-- CLAIM_EXPIRY: the timer of the claim on a key has reached 0 (R111). -/
def execClaimExpiry (k : Key) (s : State) : Host.Outcome State Fault Refusal :=
  match s.claimOn k with
  | some x => if s.running = true ∧ x.remaining = 0 then .next (s.expire x).settle else .refused .notDue
  | none => .refused .notDue

end Sys2Proof.Machine
end

