-- ==== Sys2Proof/Machine/Guards.lean ====
section
/-! DEFINITION. GUARD SET and GUARD READ: the lock check, the configuration write, and the report of the guards (R124 to R128, R133). -/

namespace Sys2Proof.Machine

/-- A port is unguarded when its protected set is empty (R122, R126). -/
def State.unguarded (s : State) (p : Port) : Bool := guardEmpty (s.guardOfPort p)

/-- The lock check: the aux code of the first condition that refuses, or none when the command proceeds (R124, Tables 7-3 and 11-7). -/
def State.lockCheck (s : State) : Option Half :=
  if s.guard.modeInForce = .fixed then some 1
  else if s.guard.session then some 2
  else if s.guard.modeInForce = .pin ∧ s.pins.guardEn = false then some 3
  else none

/-- The version of the configuration entry, 0 when there is none. -/
def State.configVersion (s : State) : Version := s.versionOf Config.configKey

/-- The configuration that a GUARD SET writes (R128). -/
def Settings.change (x : Settings) (target : Port) (g : Guard) (mode : LockMode) : Settings :=
  { guards := x.guards.set target g, mode := mode, threshold := x.threshold }

/-- The update context of an accepted GUARD SET, from GRANT WAIT on (R71, R128). -/
def State.newConfigUpdate (s : State) (p : Port) (x : Settings) : Update :=
  { key := Config.configKey
    kind := .config
    version := s.nextVersion Config.configKey
    author := .port p
    payload := some (withCheck (settingsBytes x))
    old := []
    attempt := 1
    granted := none
    stage := .grantWait
    retryAtStart := s.retryOf Config.configKey }

/-- Steps 3 to 5 of a GUARD SET and the start of its write (Table 7-4). -/
def State.guardSetReady (s : State) (p : Port) (c : Cmd) (t : Port) (g : Guard) : State :=
  if s.unguarded p = false then s.endGuarded p (c.at_ .guarded Config.configKey s.configVersion 0 0)
  else
    match s.lockCheck with
    | some aux => s.endCommand p (c.at_ .locked Config.configKey s.configVersion 0 aux)
    | none =>
      match s.failVersion c Config.configKey with
      | some r => s.endCommand p r
      | none =>
        s.requestGrant p c (s.newConfigUpdate p (s.guard.settings.change t g (c.lockMode s.guard.settings.mode)))

/-- GUARD SET after its parameter check, by the order of Table 7-4: a refusal at the state check consults no guard and sets no flag, whatever the configuration standing (R127, R153, Table 9-2; beside R131's last paragraph: log entry 29). -/
def State.admitGuardSet (s : State) (p : Port) (c : Cmd) (t : Port) (g : Guard) : State :=
  match s.store.state with
  | .unformatted => s.endCommand p (c.at_ .notFormatted Config.configKey s.configVersion 0 0)
  | .degraded => s.endCommand p (c.at_ .readOnly Config.configKey s.configVersion 0 0)
  | _ => s.guardSetReady p c t g

/-- GUARD SET (R127). -/
def State.doGuardSet (s : State) (p : Port) (c : Cmd) : State :=
  match checkGuardSet c, c.target, c.newGuard with
  | none, some t, some g => s.admitGuardSet p c t g
  | _, _, _ => s.endCommand p (c.result .invalid (reasonCode .badField) Config.configKey s.configVersion 0 0)

/-- The count field of a GUARD READ (Table 11-7). -/
def State.guardCount (s : State) : Half :=
  ((lockCode s.guard.modeInForce <<< 6) ||| (if s.guard.session then 0x20#8 else 0) |||
      (if s.pins.guardEn then 0x10#8 else 0)) ++ standingCode s.guard.standing

/-- The NT result of a GUARD READ (R133). -/
def State.guardResult (s : State) (c : Cmd) (t : Port) : Result :=
  c.result .normal (guardByte (s.guardOfPort t)) Config.configKey s.configVersion s.guardCount
    (nat16 s.guard.settings.threshold)

/-- GUARD READ (R133). -/
def State.doGuardRead (s : State) (p : Port) (c : Cmd) : State :=
  match c.target with
  | some t => s.endCommand p (s.guardResult c t)
  | none => s.endCommand p (c.ic .badField Config.noKey)

/-- GUARD SET (R127). -/
def execGuardSet (s : State) : Host.Outcome State Fault Refusal := s.perform codeGuardSet s.doGuardSet

/-- GUARD READ (R133). -/
def execGuardRead (s : State) : Host.Outcome State Fault Refusal := s.perform codeGuardRead s.doGuardRead

/-- GUARD_EN_CHANGE: the level is an input and nothing else changes (R125). -/
def execGuardEnChange (level : Bool) (s : State) : Host.Outcome State Fault Refusal :=
  .next (s.setPins { s.pins with guardEn := level })

end Sys2Proof.Machine
end

