-- ==== Sys2Proof/Machine/Reclaim.lean ====
section
/-! DEFINITION. The reclaim pass: handling of victim cells, moves, drops, the erase and retirement, and the RECLAIM command (R47 to R53, R141 to R151). -/

namespace Sys2Proof.Machine

/-! ## Ends of a pass -/

/-- A pass ended: the process is IDLE and the trigger is evaluated (R148, R149). -/
def State.endPass (s : State) : State := (s.setPass none).trigger

/-- The victim of an abandoned pass returns to FULL and the process is IDLE (R146). -/
def State.abandon (s : State) (q : Pass) : State := (s.setSegState q.victim .full).setPass none

/-- A pass abandoned because a copy grant found no cell; the trigger is evaluated (R146). -/
def State.abandonNoCell (s : State) (q : Pass) : State := (s.abandon q).trigger

/-- A pass abandoned at a third failed attempt, with its degrade signal; the specification gives the signal and the trigger no order (R143, R146, R151, log entry 13). -/
def State.abandonFailed (s : State) (q : Pass) : State :=
  if Config.degradeBeforeTrigger then (s.abandon q).degrade.trigger else (s.abandon q).trigger.degrade

/-! ## Going on to the next cell, and the erase (R147) -/

/-- The read of the cell at the cursor presented (R141). -/
def State.readVictim (s : State) (q : Pass) : State :=
  (s.setPass (some { q with image := none, attempt := 1, awaits := .victimRead })).presentSpace (.readCell ⟨q.victim, q.cursor⟩ true)

/-- The segment-clear query: no entry names a cell of the segment and no move is pending (R53). -/
def State.segmentClear (s : State) (g : Seg) : Bool :=
  s.engine.dir.all (fun e => e.cell.seg != g) && s.engine.move.isNone

/-- The erase of the victim requested with the current generation and its erase count + 1 (R147). -/
def State.requestErase (s : State) (q : Pass) : State :=
  ((s.setSegState q.victim .erasing).setPass (some { q with stage := .erasing, image := none, awaits := .erase })
  ).presentSpace (.eraseSegment q.victim s.store.generation ((s.seg q.victim).erases + 1))

/-- The cell at the cursor has been handled: the next is read, or after cell 31 the segment-clear query decides between the erase and a second round (R141, R147). -/
def State.advance (s : State) (q : Pass) : State :=
  if h : q.cursor.val + 1 < 32 then s.readVictim { q with cursor := ⟨q.cursor.val + 1, h⟩ }
  else if s.segmentClear q.victim then s.requestErase q
  else s.readVictim { q with cursor := 1 }

/-! ## Moves (R142, R143, R49, R50) -/

/-- The victim cell at the cursor. -/
def Pass.cell (q : Pass) : Pos := ⟨q.victim, q.cursor⟩

/-- The record kind of a cell whose body cannot be read, from the entry that names it (R142). -/
def entryKind (e : Entry) : Kind :=
  if e.key = Config.configKey then .config
  else match e.state with
    | .live => .data
    | .gone => .tombstone

/-- The body that copies of a victim cell carry, but for the sequence number: as read when the body is good, and otherwise rebuilt from the entry with a payload check that fails (R142). -/
def copyImage (e : Entry) (r : CellRead) : Body :=
  match r.body with
  | some b => b
  | none =>
    let payload := r.area.take e.length
    { key := e.key, version := e.version, seq := 0, length := e.length, author := e.author, kind := entryKind e,
      check := ~~~(crc16 payload), payload := payload }

/-- An attempt of a move: the copy grant, and the copy's body with the next sequence number; with no cell the pass is abandoned (R143, R146). -/
def State.startCopy (s : State) (q : Pass) (b : Body) : State :=
  match s.copyGrant with
  | some (pos, s) =>
    ((s.setPass (some { q with image := some b, awaits := .copyBody pos })).bumpSeq).presentSpace
      (.programBody pos { b with seq := s.engine.seq })
  | none => s.abandonNoCell q

/-- A move's attempt has failed: a further one is made from the contents held, or the pass is abandoned (R143). -/
def State.copyFailed (s : State) (q : Pass) (b : Body) : State :=
  if q.attempt < Config.attempts then s.startCopy { q with attempt := q.attempt + 1 } b else s.abandonFailed q

/-- A cell of the directory named by an entry changed, the move accepted (R49). -/
def Entry.moveTo (e : Entry) (copy : Pos) : Entry :=
  { e with cell := copy, movePending := true, stale := e.stale + 1 }

/-- Whether the Engine accepts a move: the key's entry names the victim cell at the version read (R49). -/
def State.acceptsMove (s : State) (b : Body) (victim : Pos) : Bool :=
  match lookup s.engine.dir b.key with
  | some e => e.cell == victim && e.version == b.version
  | none => false

/-- An accepted move: the entry names the copy, and the pending move record is created (R49). -/
def State.acceptMove (s : State) (b : Body) (victim copy : Pos) : State :=
  (s.setDir (mapEntry s.engine.dir b.key (fun e => e.moveTo copy))).setMove
    (some { key := b.key, version := b.version, victim := victim, copy := copy, overtaken := .none })

/-- The outcome of a copy's body program, and the move request that follows DONE (R143). -/
def State.copyBodyDone (s : State) (q : Pass) (b : Body) (copy : Pos) (ok : Bool) : State :=
  if ok then
    if s.acceptsMove b q.cell then
      ((s.acceptMove b q.cell copy).setPass (some { q with awaits := .copyCommit copy })).presentSpace (.programMark copy .first)
    else (s.countDead copy).advance q
  else (s.countDead copy).copyFailed q b

/-- An entry whose move is resolved: move-pending is cleared where it names the copy (Table 3-3). -/
def Entry.settleMove (e : Entry) (copy : Pos) : Entry :=
  if e.cell = copy then { e with movePending := false } else e

/-- An entry returned to its victim cell (Table 3-3). -/
def Entry.revert (e : Entry) (m : Move) : Entry :=
  { e with cell := m.victim, movePending := false, stale := e.stale - 1 }

/-- A cell that the stale count counted does so no longer: the copy of an overtaken move with a failed supersede mark that ends uncommitted (Table 3-3), and a noted tombstone cell that its drop mark has made SUPERSEDED (log entry 30). -/
def Entry.uncount (e : Entry) (cell : Pos) : Entry :=
  { e with stale := e.stale - 1, retry := if e.retry = some cell then none else e.retry }

/-- Whether an update's commit has taken the entry from the copy without its supersede outcome yet (R50, log entry 25). -/
def State.stillNamed (s : State) (m : Move) : Bool :=
  match lookup s.engine.dir m.key with
  | some e => e.cell == m.copy
  | none => false

/-- The directory after a copy's commit outcome, and whether the answer is REVERTED (R50, Table 3-3). -/
def State.resolveMove (s : State) (m : Move) (ok : Bool) : List Entry × Bool :=
  let d := s.engine.dir
  if ok then
    match m.overtaken with
    | .none => (mapEntry d m.key (fun e => e.settleMove m.copy), false)
    | .marked => (d, false)
    | .unmarked => (d, false)
  else
    match m.overtaken with
    | .none => if s.stillNamed m then (mapEntry d m.key (fun e => e.revert m), true) else (d, false)
    | .marked => (d, false)
    | .unmarked => (mapEntry d m.key (fun e => e.uncount m.copy), false)

/-- The copy's commit outcome delivered: RESOLVED counts the victim cell dead and notes it, REVERTED counts the copy dead and fails the attempt (R50, R143, R145). -/
def State.copyCommitDone (s : State) (q : Pass) (b : Body) (copy : Pos) (ok : Bool) : State :=
  match s.engine.move with
  | some m =>
    let (d, reverted) := s.resolveMove m ok
    let s := (s.setDir d).setMove none
    if reverted then (s.countDead copy).copyFailed q b
    else (s.countDead q.cell).advance (q.note q.cursor b.key)
  | none => s.advance q

/-! ## Tombstones (R52, R144) -/

/-- Whether the Engine accepts a drop: a GONE entry that names the cell with stale count 0 (R52). -/
def State.acceptsDrop (s : State) (k : Key) (pos : Pos) : Bool :=
  match lookup s.engine.dir k with
  | some e => e.state == .gone && e.cell == pos && e.stale == 0
  | none => false

/-- The outcome of the supersede mark on a tombstone to be dropped, and the drop request that follows DONE (R144, R52). A noted cell, whose earlier supersede mark failed, now reads SUPERSEDED: when the drop is answered KEPT it leaves the noted cells and its key's stale count, as R46, R145 and R193 define both (log entry 30). -/
def State.dropMarkDone (s : State) (q : Pass) (b : Body) (ok : Bool) : State :=
  if ok = true ∧ s.acceptsDrop b.key q.cell = true then
    ((s.setDir (dropEntry s.engine.dir b.key)).countDead q.cell).advance q
  else if ok = true ∧ q.noted.any (fun n => n.1 == q.cursor) = true then
    (s.setDir (mapEntry s.engine.dir b.key (fun e => e.uncount q.cell))).startCopy { q.unnote q.cursor with attempt := 1 } b
  else s.startCopy { q with attempt := 1 } b

/-! ## The read of a victim cell (R141) -/

/-- A victim cell named by an entry: a GONE entry with stale count 0 is dropped, every other is moved (Table 8-3). -/
def State.handleNamed (s : State) (q : Pass) (e : Entry) (r : CellRead) : State :=
  let b := copyImage e r
  if e.state = .gone ∧ e.stale = 0 ∧ e.key ≠ Config.configKey then
    (s.setPass (some { q with image := some b, awaits := .dropMark })).presentSpace (.programMark q.cell .second)
  else s.startCopy q b

/-- A victim cell that no entry names: dead, and noted with its key when it reads COMMITTED (Table 8-3, R145). -/
def State.handleUnnamed (s : State) (q : Pass) (r : CellRead) : State :=
  match r.cond, r.body with
  | .committed, some b => s.advance (q.note q.cursor b.key)
  | _, _ => s.advance q

/-- The read of a victim cell has completed: the stage is COPYING, and the naming query decides (R140, R141). -/
def State.victimRead (s : State) (q : Pass) (r : CellRead) : State :=
  let q := { q with stage := .copying, attempt := 1 }
  match namedBy s.engine.dir q.cell with
  | some e => s.handleNamed q e r
  | none => s.handleUnnamed q r

/-! ## The erase (R47, R148, R149) -/

/-- One item of an erase report at one entry (R47). -/
def Entry.reportErased (e : Entry) (g : Seg) : Entry :=
  { e with stale := e.stale - 1, retry := match e.retry with
      | some r => if r.seg = g then none else some r
      | none => none }

/-- The erase report taken by the Engine, one item for each noted cell (R47, R145). -/
def eraseReport (d : List Entry) (g : Seg) (keys : List Key) : List Entry :=
  keys.foldl (fun d k => mapEntry d k (fun e => e.reportErased g)) d

/-- The row of a segment after its erase: FREE with its new count, or RETIRED (R148, R149). -/
def SegRow.erased (r : SegRow) (count : Nat) (ok : Bool) : SegRow :=
  { state := if ok = true ∧ count < Config.endurance then .free else .retired
    erases := if ok then count else r.erases
    live := 0, dead := 0, free := 0 }

/-- A segment's erase outcome recorded in the table. -/
def State.recordErase (s : State) (g : Seg) (count : Nat) (ok : Bool) : State := s.setSeg g ((s.seg g).erased count ok)

/-- The degrade signal of retirement, below 136 usable segments (R149, R151). -/
def State.degradeIfWorn (s : State) : State := if s.usableCount < Config.usableForReady then s.degrade else s

/-- The completion of a pass's erase: the outcome recorded, the erase report delivered, and then the pass ends, or retires the segment and presents its retired mark (R148, R149). -/
def State.eraseDone (s : State) (q : Pass) (g : Seg) (count : Nat) (ok : Bool) : State :=
  let s := s.recordErase g count ok
  let s := s.setDir (eraseReport s.engine.dir g (q.noted.map (fun n => n.2)))
  if (s.seg g).state = .free then s.endPass
  else
    ((s.setPass (some { q with noted := [], awaits := .retiredMark })).degradeIfWorn).presentSpace (.programMark ⟨g, 0⟩ .first)

/-! ## Outcomes of the pass's programs -/

/-- The outcome of a body program of the pass. -/
def State.passBody (s : State) (q : Pass) (ok : Bool) : State :=
  match q.awaits, q.image with
  | .copyBody copy, some b => s.copyBodyDone q b copy ok
  | _, _ => s

/-- The outcome of a mark program of the pass. -/
def State.passMark (s : State) (q : Pass) (ok : Bool) : State :=
  match q.awaits, q.image with
  | .copyCommit copy, some b => s.copyCommitDone q b copy ok
  | .dropMark, some b => s.dropMarkDone q b ok
  | .retiredMark, _ => s.endPass
  | _, _ => s

/-! ## The RECLAIM command (R150) -/

/-- The NT result of a RECLAIM that starts no pass (R150, Table 11-7). -/
def Cmd.noPass (c : Cmd) (why : Half) : Result := c.nt .done Config.noKey 0 Config.noneHalf why

/-- RECLAIM in READY, answered by the Space Manager (R150). -/
def State.reclaimReady (s : State) (p : Port) (c : Cmd) : State :=
  match s.space.pass, s.victim with
  | some _, _ => s.endCommand p (c.noPass 0xFF01#16)
  | none, none => s.endCommand p (c.noPass 0xFF02#16)
  | none, some v =>
    if s.passFits v then
      (s.startPass v).endCommand p (c.nt .done Config.noKey 0 (nat16 v.val) (nat16 (s.seg v).live))
    else s.degrade.endCommand p (c.noPass 0xFF03#16)

/-- RECLAIM (R150). -/
def State.doReclaim (s : State) (p : Port) (c : Cmd) : State :=
  match s.store.state with
  | .unformatted => s.endCommand p (c.at_ .notFormatted Config.noKey 0 0 0)
  | .degraded => s.endCommand p (c.at_ .readOnly Config.noKey 0 0 0)
  | _ => s.reclaimReady p c

/-- RECLAIM (R150). -/
def execReclaim (s : State) : Host.Outcome State Fault Refusal := s.perform codeReclaim s.doReclaim

/-- HELD_GRANT_ANSWERED: the Engine's held grant request is answered with a cell (R136, log entry 10). -/
def execHeldGrantAnswered (s : State) : Host.Outcome State Fault Refusal :=
  State.whenDue s.heldDue s.answerHeld

end Sys2Proof.Machine
end

