-- ==== Sys2Proof/Machine/Mount.lean ====
section
/-! DEFINITION. Mount: the seven steps of Table 9-4, each continued at the completion of the array operation it awaits (R54, R131, R156 to R163). It builds the directory and the segment table in their places (log entry 18). -/

namespace Sys2Proof.Machine

/-- Mount presents an operation and awaits it. -/
def State.mountNext (s : State) (m : Mount) (a : MountAwaits) (op : ArrayOp) : State :=
  (s.setProgress (.mounting { m with awaits := a })).presentStore op

/-- The counter value that follows the highest sequence number read, 1 when none was (R10). -/
def seqAfter (top : Nat) : SeqNo := if 4294967295 ≤ top then 0xFFFFFFFF#32 else BitVec.ofNat 32 (top + 1)

/-- The highest sequence number after a body has been read. -/
def topWith (top : Nat) (b : Option Body) : Nat :=
  match b with
  | some b => max top b.seq.toNat
  | none => top

/-- The class of a segment; a segment not classed yet counts as DAMAGED. -/
def Mount.classOf (m : Mount) (g : Seg) : SegClass := (m.classes[g.val]?).getD .damaged

/-! ## Step 7: handover (R159, R163) -/

/-- The entries mount keeps: all when at most 4,095 are not the configuration entry, else every permanent key and of the others the lowest keys (R163). -/
def limitDir (d : List Entry) : List Entry :=
  if masterCount d ≤ Config.masterEntries then d
  else
    let kept := Config.masterEntries - (d.filter (fun e => isPermanent e.key)).length
    let ordinary := (d.filter (fun e => !isPermanent e.key && e.key != Config.configKey)).take kept
    d.filter (fun e => e.key == Config.configKey || isPermanent e.key || ordinary.any (fun o => o.key == e.key))

/-- The cell counts of a segment against a directory: live cells are those an entry names, free cells the front's, and dead every other (R159). -/
def countRow (d : List Entry) (frontFree : Nat) (g : Seg) (r : SegRow) : SegRow :=
  let live := d.countP (fun e => e.cell.seg == g)
  match r.state with
  | .front => { r with live := live, free := frontFree, dead := 31 - live - frontFree }
  | .full => { r with live := live, free := 0, dead := 31 - live }
  | _ => { r with live := 0, dead := 0, free := 0 }

/-- The segment table with its counts (R159). -/
def State.countTable (s : State) : State :=
  s.setSegs (Vector.ofFn (fun g : Fin 256 => countRow s.engine.dir s.space.frontFree.length g (s.seg g)))

/-- Whether mount ends in DEGRADED: too few usable segments, an unreadable configuration, or keys removed (R163). -/
def State.degradeCause (s : State) (removed : Bool) : Bool :=
  decide (s.usableCount < Config.usableForReady) || s.guard.standing == .unreadable || removed

/-- Step 7: the directory limited, the table handed over with its counts, and the closing state entered; READY evaluates the trigger (R163, R154, R139). -/
def State.mountHandover (s : State) : State :=
  let kept := limitDir s.engine.dir
  let removed := decide (kept.length < s.engine.dir.length)
  let s := ((s.setDir kept).countTable).setProgress .none
  if s.degradeCause removed then s.enterStore .degraded else (s.enterStore .ready).trigger

/-! ## Step 6: the configuration (R131, R162) -/

/-- The settings of an unreadable configuration record (Table 7-5). -/
def Settings.closed : Settings :=
  let all : Guard := { upper := false, size := 9, complement := false }
  { guards := ⟨all, all, all, all⟩, mode := .fixed, threshold := 4 }

/-- A configuration record written at version 1 (R130, R162, R168). -/
def configBody (author : Author) (x : Settings) : Body :=
  { key := Config.configKey, version := 1, seq := 0, length := 6, author := author, kind := .config,
    check := crc16 (settingsBytes x), payload := settingsBytes x }

/-- The settings of a configuration cell judged readable (R131). -/
def readableConfig (r : CellRead) : Option Settings :=
  match r.body with
  | some b => if b.kind = .config ∧ r.payloadGood = true ∧ b.length = 6 then parseSettings b.payload else none
  | none => none

/-- Mount's defaults write cannot be committed: the directory is emptied and the store enters UNFORMATTED (R162). -/
def State.mountUnformatted (s : State) : State :=
  (((s.setDir []).setGuard { s.guard with settings := Settings.default, standing := .defaulted }).countTable.setProgress .none).enterStore
    .unformatted

/-- An attempt of mount's defaults write: a cell as a copy grant would take it, and the body with the next sequence number (R162). -/
def State.mountWriteDefaults (s : State) (m : Mount) (attempt : Nat) : State :=
  match s.copyGrant with
  | some (pos, s) =>
    (s.bumpSeq).mountNext m (.configBody pos attempt)
      (.programBody pos { configBody .internal Settings.default with seq := s.engine.seq })
  | none => s.mountUnformatted

/-- A failed attempt of mount's defaults write: the next one, or the end in UNFORMATTED (R162). -/
def State.mountDefaultsFailed (s : State) (m : Mount) (pos : Pos) (attempt : Nat) : State :=
  if attempt < Config.attempts then (s.countDead pos).mountWriteDefaults m (attempt + 1)
  else (s.countDead pos).mountUnformatted

/-- The commit of mount's defaults: the entry for 0000h is created and the Guard Unit adopts them with standing DEFAULTED (R162, R43). -/
def State.mountConfigCommitted (s : State) (pos : Pos) : State :=
  let b := configBody .internal Settings.default
  let s := s.commitBody b pos
  (s.setGuard (s.guard.adopt b.payload .defaulted)).mountHandover

/-- The configuration cell has been read: its settings with standing LOADED, or the closed settings with standing UNREADABLE (R131, Table 7-5). -/
def State.mountConfigRead (s : State) (r : CellRead) : State :=
  match readableConfig r with
  | some x => (s.setGuard { s.guard with settings := x, standing := .loaded }).mountHandover
  | none => (s.setGuard { s.guard with settings := Settings.closed, standing := .unreadable }).mountHandover

/-- Step 6: the configuration is read when an entry for 0000h was built, and written when none was (R162). -/
def State.mountConfig (s : State) (m : Mount) : State :=
  match lookup s.engine.dir Config.configKey with
  | some e => s.mountNext m .configRead (.readCell e.cell true)
  | none => s.mountWriteDefaults m 1

/-! ## Step 5: repairs (R160, R161) -/

/-- The erase count a repair erase supplies: the segment's own + 1 for a lower generation, H for a DAMAGED segment (R161). -/
def Mount.repairCount (m : Mount) (g : Seg) : Nat :=
  match m.classOf g with
  | .valid _ count => count + 1
  | _ => m.high

/-- The next repair erase, or step 6 when none is left (R161). -/
def State.mountErases (s : State) (m : Mount) : State :=
  match m.erases with
  | g :: _ => s.mountNext m .repairErase (.eraseSegment g s.store.generation (m.repairCount g))
  | [] => s.mountConfig m

/-- The next repair mark, or the repair erases when none is left (R160). -/
def State.mountTargets (s : State) (m : Mount) : State :=
  match m.targets with
  | (_, pos) :: _ => s.mountNext m .repairMark (.programMark pos .second)
  | [] => s.mountErases m

/-- The outcome of a repair mark: a failure raises the key's stale count and gives it a retry cell if it has none (R160, R54). -/
def State.mountMarked (s : State) (m : Mount) (ok : Bool) : State :=
  match m.targets with
  | (k, pos) :: rest =>
    let s := if ok then s else s.setDir (mapEntry s.engine.dir k (fun e => e.markFailed pos))
    s.mountTargets { m with targets := rest }
  | [] => s.mountTargets m

/-- The outcome of a repair erase: FREE, or RETIRED with its retired mark presented once (R161), before the next repair erase (log entry 31). -/
def State.mountErased (s : State) (m : Mount) (count : Nat) (ok : Bool) : State :=
  match m.erases with
  | g :: rest =>
    let s := s.recordErase g count ok
    let m := { m with erases := rest }
    if (s.seg g).state = .free then s.mountErases m else s.mountNext m (.repairRetire g) (.programMark ⟨g, 0⟩ .first)
  | [] => s.mountErases m

/-! ## Step 4: the segment table (R159) -/

/-- The data cells of a segment that were found not ERASED. -/
def Mount.foundIn (m : Mount) (g : Seg) : List Found := m.found.filter (fun f => f.pos.seg == g)

/-- Whether a segment of the current generation is partly filled (R159). -/
def Mount.partly (m : Mount) (gen : Generation) (g : Seg) : Bool :=
  match m.classOf g with
  | .valid h _ => h == gen && !(m.foundIn g).isEmpty && decide ((m.foundIn g).length < 31)
  | _ => false

/-- The highest sequence number of a good body in a segment, or none when it holds no good body. -/
def Mount.topIn (m : Mount) (g : Seg) : Option Nat :=
  (m.foundIn g).foldl (fun t f => match f.body with
    | some b => some (max (t.getD 0) b.seq.toNat)
    | none => t) none

/-- The better of two partly filled segments for the front: the higher sequence number, any good body before none, then the lower segment number (R159). -/
def Mount.betterFront (m : Mount) (gen : Generation) (best : Option Seg) (g : Seg) : Option Seg :=
  if m.partly gen g then
    match best with
    | none => some g
    | some b =>
      match m.topIn b, m.topIn g with
      | some x, some y => if x < y then some g else some b
      | none, some _ => some g
      | _, none => some b
  else best

/-- The front that mount chooses, or none (R159). -/
def Mount.chooseFront (m : Mount) (gen : Generation) : Option Seg := allSegs.foldl (m.betterFront gen) none

/-- A row of the table that mount builds; counts are set at handover (R157, R159). -/
def Mount.row (m : Mount) (gen : Generation) (front : Option Seg) (g : Seg) : SegRow :=
  let row (st : SegState) (n : Nat) : SegRow := { state := st, erases := n, live := 0, dead := 0, free := 0 }
  match m.classOf g with
  | .retired count => row .retired count
  | .fresh => row .free m.high
  | .blank => row .unknown 0
  | .damaged => row .erasing 0
  | .valid h count =>
    if h = gen then
      if front = some g then row .front count
      else if (m.foundIn g).isEmpty then row .free count else row .full count
    else row .erasing count

/-- The data cells of a segment that were found ERASED, ascending (R159). -/
def Mount.erasedIn (m : Mount) (g : Seg) : List CellNo :=
  dataCells.filter (fun c => (m.foundIn g).all (fun f => f.pos.cell != c))

/-- Step 4, and on to the repairs (R159). -/
def State.mountTable (s : State) (m : Mount) : State :=
  let gen := s.store.generation
  let front := m.chooseFront gen
  let s := s.setSegs (Vector.ofFn (fun g : Fin 256 => m.row gen front g))
  let s := s.setFrontFree (match front with
    | some g => m.erasedIn g
    | none => [])
  s.mountTargets m

/-! ## Step 3: the current cells (R158) -/

/-- The COMMITTED bodies found. -/
def Mount.committed (m : Mount) : List (Pos × Body) :=
  m.found.filterMap (fun f => match f.cond, f.body with
    | .committed, some b => some (f.pos, b)
    | _, _ => none)

/-- Whether a cell position comes before another in ascending segment and cell order (R158). -/
def Pos.before (a b : Pos) : Bool := decide (a.seg < b.seg) || (a.seg == b.seg && decide (a.cell < b.cell))

/-- Whether a committed cell gives way to another of its key: a higher version, or the same version and a higher sequence number (R11, R158); with both equal, the cell read later (log entry 27). -/
def losesTo (x y : Pos × Body) : Bool :=
  x.2.key == y.2.key &&
    (decide (x.2.version < y.2.version) ||
      (x.2.version == y.2.version && (decide (x.2.seq < y.2.seq) || (x.2.seq == y.2.seq && x.1.before y.1))))

/-- The current cell of each key. -/
def currentCells (cs : List (Pos × Body)) : List (Pos × Body) := cs.filter (fun x => !cs.any (fun y => losesTo x y))

/-- The repair targets in ascending key order, and within a key in segment and cell order (R158, R160). -/
def repairTargets (cs : List (Pos × Body)) : List (Key × Pos) :=
  ((cs.filter (fun x => cs.any (fun y => losesTo x y))).map (fun x => (x.2.key, x.1))).insertionSort
    (fun a b => a.1.toNat ≤ b.1.toNat)

/-- The directory built from the current cells (R54, R158). -/
def buildDir (cs : List (Pos × Body)) : List Entry :=
  (currentCells cs).foldl (fun d x => putEntry d (committedEntry none x.2 x.1)) []

/-- The end of step 3: the directory built, the targets listed, the counter set (R158). -/
def State.mountChoose (s : State) (m : Mount) : State :=
  ((s.setDir (buildDir m.committed)).setSeq (seqAfter m.topSeq)).mountTable
    { m with targets := repairTargets m.committed }

/-- Whether a segment's data cells are read at step 3: VALID and of the current generation (R158). -/
def Mount.isCurrent (m : Mount) (gen : Generation) (g : Seg) : Bool :=
  match m.classOf g with
  | .valid h _ => h == gen
  | _ => false

/-- The first current segment at or above a number. -/
def Mount.currentFrom (m : Mount) (gen : Generation) (n : Nat) : Option Seg :=
  allSegs.find? (fun g => decide (n ≤ g.val) && m.isCurrent gen g)

/-- The reads of step 3 go on at the first current segment at or above a number, or step 3 ends (R158). -/
def State.mountReadFrom (s : State) (m : Mount) (n : Nat) : State :=
  match m.currentFrom s.store.generation n with
  | some g => s.mountNext m (.dataCell ⟨g, 1⟩) (.readCell ⟨g, 1⟩ false)
  | none => s.mountChoose m

/-- A data cell of step 3 has been read: kept unless ERASED, and on to the next (R158). -/
def State.mountDataRead (s : State) (m : Mount) (pos : Pos) (r : CellRead) : State :=
  let m := { m with topSeq := topWith m.topSeq r.body }
  let m := if r.cond = .erased then m else { m with found := m.found ++ [{ pos := pos, cond := r.cond, body := r.body }] }
  if h : pos.cell.val + 1 < 32 then
    let next : Pos := ⟨pos.seg, ⟨pos.cell.val + 1, h⟩⟩
    s.mountNext m (.dataCell next) (.readCell next false)
  else s.mountReadFrom m (pos.seg.val + 1)

/-! ## Step 2: the generation (R157) -/

/-- The generations and counts of the VALID segments. -/
def Mount.valids (m : Mount) : List (Generation × Nat) :=
  m.classes.filterMap (fun c => match c with
    | .valid g n => some (g, n)
    | _ => none)

/-- G: the highest generation among the VALID segments. -/
def Mount.topGeneration (m : Mount) : Generation :=
  m.valids.foldl (fun t x => if t < x.1 then x.1 else t) 0

/-- H: the highest erase count among the VALID segments of a generation. -/
def Mount.topCount (m : Mount) (gen : Generation) : Nat :=
  m.valids.foldl (fun t x => if x.1 = gen then max t x.2 else t) 0

/-- The segments queued for a repair erase: VALID of a lower generation, or DAMAGED (R157). -/
def Mount.repairs (m : Mount) (gen : Generation) : List Seg :=
  allSegs.filter (fun g => match m.classOf g with
    | .valid h _ => h != gen
    | .damaged => true
    | _ => false)

/-- The class of a segment replaced. -/
def Mount.reclass (m : Mount) (g : Seg) (c : SegClass) : Mount := { m with classes := m.classes.set g.val c }

/-- The next blank segment's header, or step 3 when none is left (R157). -/
def State.mountBlanks (s : State) (m : Mount) : State :=
  match allSegs.find? (fun g => m.classOf g == .blank) with
  | some g => s.mountNext m (.blankHeader g) (.programHeader g s.store.generation m.high)
  | none => s.mountReadFrom { m with topSeq := 0 } 0

/-- The outcome of a blank segment's header program: FREE, or RETIRED with its mark presented once (R157), before the next blank segment's header (log entry 31). -/
def State.mountHeaderDone (s : State) (m : Mount) (g : Seg) (ok : Bool) : State :=
  if ok then s.mountBlanks (m.reclass g .fresh)
  else s.mountNext (m.reclass g (.retired 0)) (.blankMark g) (.programMark ⟨g, 0⟩ .first)

/-- The row of a segment when no segment is VALID (R156). -/
def Mount.bareRow (m : Mount) (g : Seg) : SegRow :=
  match m.classOf g with
  | .retired count => { state := .retired, erases := count, live := 0, dead := 0, free := 0 }
  | _ => { state := .unknown, erases := 0, live := 0, dead := 0, free := 0 }

/-- No segment is VALID: mount ends and the store enters UNFORMATTED (R156). -/
def State.mountNothing (s : State) (m : Mount) : State :=
  (((s.setSegs (Vector.ofFn (fun g : Fin 256 => m.bareRow g))).setSeq (seqAfter m.topSeq)).setProgress .none).enterStore
    .unformatted

/-- Step 1 has ended: the generation is chosen and the repair erases queued, or mount ends (R156, R157). -/
def State.mountClassified (s : State) (m : Mount) : State :=
  if m.valids.isEmpty then s.mountNothing m
  else
    let gen := m.topGeneration
    (s.setGeneration gen).mountBlanks { m with high := m.topCount gen, erases := m.repairs gen }

/-! ## Step 1: the headers (R156) -/

/-- The header of the next segment, or the end of step 1 (R156). -/
def State.mountHeaders (s : State) (m : Mount) : State :=
  if h : m.classes.length < 256 then
    let g : Seg := ⟨m.classes.length, h⟩
    s.mountNext m (.header g) (.readCell ⟨g, 0⟩ false)
  else s.mountClassified m

/-- The next segment has its class. -/
def Mount.class (m : Mount) (c : SegClass) : Mount := { m with classes := m.classes ++ [c] }

/-- A header has been read: the segment is classed by the first row of Table 9-5 that applies, its data cells being read when the header reads ERASED (R156). Those reads, and the retired mark of a VALID segment at 50,000, come before the next segment's header: the model's choice (log entry 31). -/
def State.mountHeaderRead (s : State) (m : Mount) (g : Seg) (r : HeaderRead) : State :=
  if r.retired then s.mountHeaders (m.class (.retired r.count))
  else
    match r.cond with
    | .valid =>
      if r.count = Config.endurance then
        s.mountNext (m.class (.retired r.count)) (.wornMark g) (.programMark ⟨g, 0⟩ .first)
      else s.mountHeaders (m.class (.valid r.generation r.count))
    | .erased => s.mountNext m (.blankCell ⟨g, 1⟩) (.readCell ⟨g, 1⟩ true)
    | .bad => s.mountHeaders (m.class .damaged)

/-- A data cell of a segment whose header reads ERASED has been read: BLANK needs every cell ERASED (R156). -/
def State.mountBlankRead (s : State) (m : Mount) (pos : Pos) (r : CellRead) : State :=
  let m := { m with topSeq := topWith m.topSeq r.body }
  if r.cond = .erased then
    if h : pos.cell.val + 1 < 32 then
      let next : Pos := ⟨pos.seg, ⟨pos.cell.val + 1, h⟩⟩
      s.mountNext m (.blankCell next) (.readCell next true)
    else s.mountHeaders (m.class .blank)
  else s.mountHeaders (m.class .damaged)

/-! ## Completions delivered to mount -/

/-- A cell read of mount has completed; the cells are read as they stand. -/
def State.mountRead (s : State) (m : Mount) : State :=
  match m.awaits with
  | .header g => s.mountHeaderRead m g (readHeader s.array.cells g)
  | .blankCell pos => s.mountBlankRead m pos (readData s.array.cells pos)
  | .dataCell pos => s.mountDataRead m pos (readFor s.array.cells pos false)
  | .configRead =>
    match lookup s.engine.dir Config.configKey with
    | some e => s.mountConfigRead (readData s.array.cells e.cell)
    | none => s
  | _ => s

/-- A body program of mount has completed: the defaults' body (R162). -/
def State.mountBody (s : State) (m : Mount) (ok : Bool) : State :=
  match m.awaits with
  | .configBody pos attempt =>
    if ok then s.mountNext m (.configMark pos attempt) (.programMark pos .first) else s.mountDefaultsFailed m pos attempt
  | _ => s

/-- A header program of mount has completed (R157). -/
def State.mountHeader (s : State) (m : Mount) (ok : Bool) : State :=
  match m.awaits with
  | .blankHeader g => s.mountHeaderDone m g ok
  | _ => s

/-- A mark program of mount has completed; the outcome of a retired mark is ignored (R156, R157, R160 to R162). -/
def State.mountMark (s : State) (m : Mount) (ok : Bool) : State :=
  match m.awaits with
  | .wornMark _ => s.mountHeaders m
  | .blankMark _ => s.mountBlanks m
  | .repairMark => s.mountMarked m ok
  | .repairRetire _ => s.mountErases m
  | .configMark pos attempt => if ok then s.mountConfigCommitted pos else s.mountDefaultsFailed m pos attempt
  | _ => s

/-- A segment erase of mount has completed (R161). -/
def State.mountErase (s : State) (m : Mount) (count : Nat) (ok : Bool) : State :=
  match m.awaits with
  | .repairErase => s.mountErased m count ok
  | _ => s

end Sys2Proof.Machine
end

