-- ==== Sys2Proof/Machine/Scan.lean ====
section
/-! DEFINITION. SCAN: its context, its search of the directory, its examinations, and how it ends, parks and resumes (R90 to R103). -/

namespace Sys2Proof.Machine

/-- The key after a key, FFFFh after FFFEh (R92). -/
def nextKey (k : Key) : Key := k + 1

/-- Whether the relation holds between window and pattern (R94, Table 5-2). -/
def Relation.holds (r : Relation) (window pattern : List Byte) : Bool :=
  match r with
  | .eq => beNat window == beNat pattern
  | .ne => beNat window != beNat pattern
  | .le => decide (beNat window ≤ beNat pattern)
  | .ge => decide (beNat pattern ≤ beNat window)

/-- The context of a scan that has passed its checks, with the pattern captured from the buffer (R91). -/
def State.newScan (s : State) (p : Port) (c : Cmd) (r : Relation) : ScanCtx :=
  { high := c.scanHigh, windowOffset := c.scanWindow, width := c.scanWidth, relation := r, limit := c.scanLimit,
    outLast := c.scanOutLast, pattern := bufferTake (s.port p).buffer c.scanPattern c.scanWidth, cursor := c.scanLow,
    outPos := c.scanOutFirst, matched := 0, short := 0, checkFailed := 0, examined := 0, slice := 0 }

/-- What a scan does next when it cannot go on by itself: it ends, reads an entry's cell, parks, or is dropped. -/
inductive ScanStep where
  | finish (r : Reason) (k : ScanCtx)
  | examine (k : ScanCtx) (e : Entry)
  | park (k : ScanCtx)
  | drop
  deriving DecidableEq, Repr

/-- After an examination: the end of R96, the parking point of R98, or none when the scan makes its next search; the context carries the slice count on. -/
def ScanCtx.afterExam (k : ScanCtx) (resetting others : Bool) : Option ScanStep :=
  if k.matched = k.limit then some (.finish .limit k)
  else if k.outLast < k.outPos + 1 then some (.finish .bufferEnd k)
  else if k.slice < Config.sliceLength then none
  else if resetting then some .drop
  else if others then some (.park { k with slice := 0 })
  else none

/-- The context with which the next search is made: a slice that is full begins again (R98). -/
def ScanCtx.nextSlice (k : ScanCtx) : ScanCtx := if k.slice < Config.sliceLength then k else { k with slice := 0 }

/-- An examination counted (R93). -/
def ScanCtx.count (k : ScanCtx) : ScanCtx := { k with examined := k.examined + 1, slice := k.slice + 1 }

/-- Whether a scan visits an entry: at or above the cursor, LIVE, and not the configuration entry (R92). -/
def ScanCtx.visits (k : ScanCtx) (e : Entry) : Bool :=
  decide (k.cursor ≤ e.key) && e.state == .live && e.key != Config.configKey

/-- The searches of a scan over the entries of the directory in key order, passing SHORT entries, up to the next thing that takes it out of its search (R92, R93, R96, R98). -/
def scanSearch (resetting others : Bool) : List Entry → ScanCtx → ScanStep
  | [], k => .finish .rangeEnd k
  | e :: rest, k =>
    if k.visits e then
      if k.high < e.key then .finish .rangeEnd k
      else
        let k := { k with cursor := nextKey e.key }
        if e.length < k.windowOffset + k.width then
          let k := { k.count with short := k.short + 1 }
          match k.afterExam resetting others with
          | some step => step
          | none => scanSearch resetting others rest k.nextSlice
        else .examine k e
    else scanSearch resetting others rest k

/-- The key field of a scan's result: FFFFh at RANGE_END, else the cursor (R97). -/
def ScanCtx.resumeKey (k : ScanCtx) (r : Reason) : Key := if r = .rangeEnd then Config.noKey else k.cursor

/-- The result of a scan (Table 5-3, Table 11-7). -/
def ScanCtx.result (k : ScanCtx) (c : Cmd) (cls : Cls) (r : Reason) : Result :=
  c.result cls (reasonCode r) (k.resumeKey r) (nat16 k.short ++ nat16 k.checkFailed) (nat16 k.matched) (nat16 k.examined)

/-- A slot emptied with no result (R102). -/
def State.dropSlot (s : State) (p : Port) : State := s.setPort p { s.port p with slot := .none }

/-- What a scan's step does to the machine. -/
def State.takeScanStep (s : State) (p : Port) (c : Cmd) (x : ScanStep) : State :=
  match x with
  | .finish r k => s.endCommand p (k.result c .normal r)
  | .examine k e => (s.setWork (.scanning p c k e.key e.version)).presentEngine (.readCell e.cell true)
  | .park k => (s.setPort p { s.port p with slot := .parked c k }).setWork .idle
  | .drop => (s.dropSlot p).setWork .idle

/-- Whether the port is RESETTING (R98). -/
def State.isResetting (s : State) (p : Port) : Bool := (s.port p).state == .resetting

/-- Whether any port other than this one is eligible (R98). -/
def State.othersEligible (s : State) (p : Port) : Bool := allPorts.any (fun q => q != p && s.eligible q)

/-- The scan makes its next search (R92). -/
def State.searchOn (s : State) (p : Port) (c : Cmd) (k : ScanCtx) : State :=
  s.takeScanStep p c (scanSearch (s.isResetting p) (s.othersEligible p) s.engine.dir k)

/-- The scan after an examination by a read (R96, R98). -/
def State.scanOn (s : State) (p : Port) (c : Cmd) (k : ScanCtx) : State :=
  match k.afterExam (s.isResetting p) (s.othersEligible p) with
  | some step => s.takeScanStep p c step
  | none => s.searchOn p c k.nextSlice

/-- The window of a payload (R94). -/
def ScanCtx.window (k : ScanCtx) (payload : List Byte) : List Byte := (payload.drop k.windowOffset).take k.width

/-- A match: the key is written at the output position, which rises by 2 (R95). -/
def State.scanMatch (s : State) (p : Port) (c : Cmd) (k : ScanCtx) (key : Key) : State :=
  (s.storeBuffer p k.outPos (bytes16 key)).scanOn p c { k with outPos := k.outPos + 2, matched := k.matched + 1 }

/-- The cell read of an examination has completed: check failure, match or no match (R93). -/
def State.scanRead (s : State) (p : Port) (c : Cmd) (k : ScanCtx) (key : Key) (v : Version) (r : CellRead) : State :=
  let k := k.count
  match r.accept key v with
  | none => s.scanOn p c { k with checkFailed := k.checkFailed + 1 }
  | some b =>
    if k.relation.holds (k.window b.payload) k.pattern then s.scanMatch p c k key else s.scanOn p c k

/-- A scan begins: an output range with no room ends it, else it makes its first search (R96). -/
def State.beginScan (s : State) (p : Port) (c : Cmd) (k : ScanCtx) : State :=
  if k.outLast < k.outPos + 1 then s.endCommand p (k.result c .normal .bufferEnd) else s.searchOn p c k

/-- SCAN after its parameter check (R90, R91). -/
def State.admitScan (s : State) (p : Port) (c : Cmd) : State :=
  if s.store.state = .unformatted then s.endCommand p (c.at_ .notFormatted c.scanLow 0 0 0)
  else
    match c.scanRelation with
    | some r => s.beginScan p c (s.newScan p c r)
    | none => s.endCommand p (c.ic .badField c.scanLow)

/-- SCAN (R90). -/
def State.doScan (s : State) (p : Port) (c : Cmd) : State :=
  s.checked p c (checkScan c) c.scanLow (s.admitScan p c)

/-- SCAN (R90). -/
def execScan (s : State) : Host.Outcome State Fault Refusal := s.perform codeScan s.doScan

/-- SCAN_RESUME: the parked scan whose port the Engine has taken makes its search from the cursor (R99). -/
def execScanResume (s : State) : Host.Outcome State Fault Refusal :=
  match s.engine.work with
  | .resuming p c k =>
    if s.running = true ∧ s.isOpen = true then .next (s.searchOn p c k).settle else .refused .notDue
  | _ => .refused .notDue

end Sys2Proof.Machine
end

