-- ==== Sys2Proof/Machine/Format.lean ====
section
/-! DEFINITION. FORMAT: its checks, its acceptance, its erases and its configuration write (R165 to R168); and STORE INFO (R170). -/

namespace Sys2Proof.Machine

/-! ## The end of FORMAT (R168) -/

/-- The port and command of the FORMAT being carried out. -/
def State.formatCmd (s : State) : Option (Port × Cmd) :=
  match s.engine.work with
  | .formatting p c => some (p, c)
  | _ => none

/-- FORMAT's result deposited (R168). -/
def State.endFormat (s : State) (r : Cmd → Result) : State :=
  match s.formatCmd with
  | some (p, c) => s.endCommand p (r c)
  | none => s

/-- FORMAT's configuration write cannot be committed: the defaults with standing DEFAULTED, UNFORMATTED, and AT PROGRAM_FAIL (R168). -/
def State.formatFailed (s : State) (aux : Half) : State :=
  let s := (s.setGuard { s.guard with settings := Settings.default, standing := .defaulted }).setProgress .none
  (s.enterStore .unformatted).endFormat
    (fun c => c.at_ .programFail Config.noKey (generationField s.store.generation) 0 aux)

/-- FORMAT's configuration has committed: READY or DEGRADED by the usable count, NT DONE, and READY evaluates the trigger (R168, R139). -/
def State.formatDone (s : State) (attempt : Nat) : State :=
  let s := s.setProgress .none
  let usable := s.usableCount
  let s := s.enterStore (if usable < Config.usableForReady then .degraded else .ready)
  (s.endFormat
    (fun c => c.nt .done Config.noKey (generationField s.store.generation) (nat16 usable) (nat16 attempt))).trigger

/-- The settings that FORMAT writes (R168). -/
def Cmd.formatSettings (c : Cmd) (old : Settings) : Settings :=
  { guards := if c.keepGuards then old.guards else Settings.default.guards
    mode := if c.keepGuards then old.mode else Settings.default.mode
    threshold := c.threshold }

/-- The configuration record of the FORMAT being carried out (R168). -/
def State.formatBody (s : State) : Body :=
  match s.formatCmd with
  | some (p, c) => configBody (.port p) (c.formatSettings s.guard.settings)
  | none => configBody .internal Settings.default

/-- FORMAT presents an operation and awaits it. -/
def State.formatNext (s : State) (a : FormatAwaits) (op : ArrayOp) : State :=
  (s.setProgress (.formatting a)).presentStore op

/-- An attempt of FORMAT's configuration write (R168). -/
def State.formatWrite (s : State) (attempt : Nat) : State :=
  let b := s.formatBody
  match s.copyGrant with
  | some (pos, s) => (s.bumpSeq).formatNext (.configBody pos attempt) (.programBody pos { b with seq := s.engine.seq })
  | none => s.formatFailed 0

/-- A failed attempt of FORMAT's configuration write (R168). -/
def State.formatWriteFailed (s : State) (pos : Pos) (attempt : Nat) : State :=
  if attempt < Config.attempts then (s.countDead pos).formatWrite (attempt + 1) else (s.countDead pos).formatFailed 3

/-- The commit of FORMAT's configuration: the entry is created and the Guard Unit adopts the record with standing LOADED (R129, R168). -/
def State.formatCommitted (s : State) (pos : Pos) (attempt : Nat) : State :=
  let b := s.formatBody
  let s := s.commitBody b pos
  (s.setGuard (s.guard.adopt b.payload .loaded)).formatDone attempt

/-! ## The erases (R167) -/

/-- The first segment at or above a number that the table does not hold as RETIRED. -/
def State.erasableFrom (s : State) (n : Nat) : Option Seg :=
  allSegs.find? (fun g => decide (n ≤ g.val) && (s.seg g).state != .retired)

/-- FORMAT goes on: the retired mark of the first segment that owes one, or the next erase at or above a number, or its configuration write when none is left (R17, R167). -/
def State.formatErases (s : State) (n : Nat) (owes : List Seg) : State :=
  match owes with
  | g :: rest => s.formatNext (.retireMark g n rest) (.programMark ⟨g, 0⟩ .first)
  | [] =>
    match s.erasableFrom n with
    | some g => s.formatNext (.erase g []) (.eraseSegment g s.store.generation ((s.seg g).erases + 1))
    | none => s.formatWrite 1

/-- The retired mark a segment owes once its erase is recorded: its own when it is RETIRED (R17, R167). -/
def State.owesMark (s : State) (g : Seg) : List Seg := if (s.seg g).state = .free then [] else [g]

/-- An erase of FORMAT has completed: FREE, or RETIRED with its mark presented once (R167), before the next erase (log entry 31). -/
def State.formatErased (s : State) (g : Seg) (owes : List Seg) (count : Nat) (ok : Bool) : State :=
  let s := s.recordErase g count ok
  s.formatErases (g.val + 1) (owes ++ s.owesMark g)

/-- The reclaim erase that was in flight at FORMAT's acceptance has completed: its outcome is recorded (R146). A request of FORMAT for the same segment takes the new count from the table, or gives way when the segment is RETIRED; one for another segment stands and is granted now (R36, R167, log entry 19). The retired mark of a segment that this erase retires is the Store Controller's (R17): it is presented once, as the next request that the Store Controller makes (R25, log entry 28). -/
def State.formatAfterReclaim (s : State) (g : Seg) (count : Nat) (ok : Bool) : State :=
  let s := s.recordErase g count ok
  match s.store.progress with
  | .formatting (.erase h _) =>
    if h = g then s.formatErases 0 (s.owesMark g) else s.setProgress (.formatting (.erase h (s.owesMark g)))
  | _ => s

/-! ## Acceptance (R166) -/

/-- A parked scan ended AX STATE_CHANGED (R101). -/
def State.endParked (s : State) (p : Port) : State :=
  match (s.port p).slot with
  | .parked c k => s.setPort p ((s.port p).deposit (k.result c .abandoned .stateChanged))
  | _ => s

/-- Every parked scan ended and every claim removed, with the CLAIM_LOST offers in ascending key order (R101, R114). -/
def State.endScansAndClaims (s : State) : State :=
  let s := allPorts.foldl State.endParked s
  s.coord.claims.foldl (fun s x => s.offerLoss .format x) (s.setClaims [])

/-- Any reclaim pass abandoned: its waiting request withdrawn, its victim FULL again unless its erase has been requested (R146, R166). -/
def State.formatAbandon (s : State) : State :=
  match s.space.pass with
  | some q =>
    let s := s.withdrawSpace.setPass none
    if (s.seg q.victim).state = .victim then s.setSegState q.victim .full else s
  | none => s

/-- An accepted FORMAT, in the order of R166, and its first erase request (R167). -/
def State.acceptFormat (s : State) (p : Port) (c : Cmd) : State :=
  let s := (s.setWork (.formatting p c)).enterStore .formatting
  let s := s.endScansAndClaims.formatAbandon
  let s := ((s.setDir []).setMove none).setGeneration (s.store.generation + 1)
  (s.setFrontFree []).formatErases 0 []

/-- The permanent keys with a LIVE entry, ascending (Table 9-6). -/
def livePermanent (d : List Entry) : List Entry := d.filter (fun e => isPermanent e.key && e.state == .live)

/-- Steps 3 to 6 of FORMAT's checks, and its acceptance (Table 9-6). -/
def State.formatChecks (s : State) (p : Port) (c : Cmd) : State :=
  let gen := generationField s.store.generation
  if s.unguarded p = false then s.endGuarded p (c.at_ .guarded Config.noKey gen 0 0)
  else
    match s.lockCheck with
    | some aux => s.endCommand p (c.at_ .locked Config.noKey gen 0 aux)
    | none =>
      match livePermanent s.engine.dir with
      | e :: rest => s.endCommand p (c.at_ .permanent e.key gen (nat16 (rest.length + 1)) 0)
      | [] =>
        if s.store.generation = Config.lastGeneration then
          s.endCommand p (c.at_ .generationExhausted Config.noKey gen 0 0)
        else s.acceptFormat p c

/-- FORMAT (R165). -/
def State.doFormat (s : State) (p : Port) (c : Cmd) : State :=
  match checkFormat c with
  | some r => s.endCommand p (c.result .invalid (reasonCode r) Config.noKey (generationField s.store.generation) 0 0)
  | none => s.formatChecks p c

/-- FORMAT (R165). -/
def execFormat (s : State) : Host.Outcome State Fault Refusal := s.perform codeFormat s.doFormat

/-! ## Completions delivered to FORMAT -/

/-- A body program of FORMAT has completed (R168). -/
def State.formatBodyDone (s : State) (f : FormatAwaits) (ok : Bool) : State :=
  match f with
  | .configBody pos attempt =>
    if ok then s.formatNext (.configMark pos attempt) (.programMark pos .first) else s.formatWriteFailed pos attempt
  | _ => s

/-- A mark program of FORMAT has completed; the outcome of a retired mark is ignored (R167, R168). -/
def State.formatMark (s : State) (f : FormatAwaits) (ok : Bool) : State :=
  match f with
  | .retireMark _ next owes => s.formatErases next owes
  | .configMark pos attempt => if ok then s.formatCommitted pos attempt else s.formatWriteFailed pos attempt
  | _ => s

/-- A segment erase of FORMAT has completed (R167). -/
def State.formatErase (s : State) (f : FormatAwaits) (count : Nat) (ok : Bool) : State :=
  match f with
  | .erase g owes => s.formatErased g owes count ok
  | _ => s

/-! ## STORE INFO (R170) -/

/-- Reclaim stage code (Table 11-1). -/
def stageCode (q : Option Pass) : Byte :=
  match q with
  | none => 0
  | some q => match q.stage with
    | .select => 1
    | .copying => 2
    | .erasing => 3

/-- A segment number in a 2-byte field, FFFFh for none (R191). -/
def segHalf (g : Option Seg) : Half :=
  match g with
  | some g => nat16 g.val
  | none => Config.noneHalf

/-- Whether a segment's erase count is known and the segment usable. -/
def SegRow.known (r : SegRow) : Bool :=
  r.state != .retired && r.state != .unknown && r.state != .unlisted

/-- The erase counts of the usable segments whose count is known (R170). -/
def State.knownCounts (s : State) : List Nat := (s.space.segs.toList.filter SegRow.known).map (fun r => r.erases)

/-- The lowest of some counts, 0 when there are none. -/
def lowest (l : List Nat) : Nat :=
  match l with
  | [] => 0
  | x :: xs => xs.foldl min x

/-- The highest of some counts, 0 when there are none. -/
def highest (l : List Nat) : Nat := l.foldl max 0

/-- Entries of the directory in a state. -/
def State.countEntries (s : State) (st : EntryState) : Nat := s.engine.dir.countP (fun e => e.state == st)

/-- The front as STORE INFO reports it, none in UNFORMATTED (R170). -/
def State.shownFront (s : State) : Option Seg := if s.store.state = .unformatted then none else s.front

/-- The 32 bytes of the STORE INFO block (Table 11-9). -/
def State.infoBlock (s : State) : List Byte :=
  [storeCode s.store.state, stageCode s.space.pass] ++ bytes16 s.store.generation ++
    bytes16 (nat16 (s.countEntries .live)) ++ bytes16 (nat16 (s.countEntries .gone)) ++
    bytes16 (nat16 s.freeCount) ++ bytes16 (nat16 (s.countSegs .full)) ++ bytes16 (nat16 (s.countSegs .retired)) ++
    bytes16 (segHalf s.shownFront) ++ bytes16 (segHalf (s.space.pass.map (fun q => q.victim))) ++
    bytes16 (nat16 (lowest s.knownCounts)) ++ bytes16 (nat16 (highest s.knownCounts)) ++ bytes32 s.engine.seq ++
    [BitVec.ofNat 8 s.guard.settings.threshold, 0, 0, 0, 0, 0]

/-- STORE INFO (R170). -/
def State.doStoreInfo (s : State) (p : Port) (c : Cmd) : State :=
  s.checked p c (checkStoreInfo c) Config.noKey
    ((s.storeBuffer p c.infoOffset s.infoBlock).endCommand p
      (c.nt .done Config.noKey (generationField s.store.generation) 32 (nat16 s.usableCount)))

/-- STORE INFO (R170). -/
def execStoreInfo (s : State) : Host.Outcome State Fault Refusal := s.perform codeStoreInfo s.doStoreInfo

end Sys2Proof.Machine
end

