-- ==== Sys2Proof/Machine/Array.lean ====
section
/-! DEFINITION. Completions of array operations and their delivery to the requester (R25 to R30), and erase suspension (R34 to R37). -/

namespace Sys2Proof.Machine

/-! ## Delivery (R25) -/

/-- A completed cell read delivered to the Engine. -/
def State.engineRead (s : State) (r : CellRead) : State :=
  match s.engine.work with
  | .updating p c u => s.patchOldRead p c u r
  | .reading p c v len => s.readDone p c v len r
  | .scanning p c k key v => s.scanRead p c k key v r
  | _ => s

/-- A completed cell read delivered to the reclaim pass; a pass that FORMAT has abandoned takes nothing (R146). -/
def State.spaceRead (s : State) (r : CellRead) : State :=
  match s.space.pass with
  | some q => if q.awaits = .victimRead then s.victimRead q r else s
  | none => s

/-- A completed cell read delivered to the Store Controller. -/
def State.storeRead (s : State) : State :=
  match s.store.progress with
  | .mounting m => s.mountRead m
  | _ => s

/-- A completed cell read delivered to its requester (R25, R26). -/
def State.deliverRead (s : State) (r : Requester) (pos : Pos) (payload : Bool) : State :=
  match r with
  | .engine => s.engineRead (readFor s.array.cells pos payload)
  | .space => s.spaceRead (readFor s.array.cells pos payload)
  | .store => s.storeRead

/-- The outcome of a body program delivered to its requester (R25, R27). -/
def State.deliverBody (s : State) (r : Requester) (pos : Pos) (ok : Bool) : State :=
  match r with
  | .engine =>
    match s.engine.work with
    | .updating p c u => s.updateBody p c u pos ok
    | _ => s
  | .space =>
    match s.space.pass with
    | some q => s.passBody q ok
    | none => s
  | .store =>
    match s.store.progress with
    | .mounting m => s.mountBody m ok
    | .formatting f => s.formatBodyDone f ok
    | .none => s

/-- The outcome of a header program delivered to mount (R28). -/
def State.deliverHeader (s : State) (ok : Bool) : State :=
  match s.store.progress with
  | .mounting m => s.mountHeader m ok
  | _ => s

/-- The outcome of a mark program delivered to its requester (R25, R29). -/
def State.deliverMark (s : State) (r : Requester) (pos : Pos) (ok : Bool) : State :=
  match r with
  | .engine =>
    match s.engine.work with
    | .updating p c u => s.updateMark p c u pos ok
    | _ => s
  | .space =>
    match s.space.pass with
    | some q => s.passMark q ok
    | none => s
  | .store =>
    match s.store.progress with
    | .mounting m => s.mountMark m ok
    | .formatting f => s.formatMark f ok
    | .none => s

/-- The outcome of the Store Controller's erase delivered (R30). -/
def State.deliverErase (s : State) (count : Nat) (ok : Bool) : State :=
  match s.store.progress with
  | .mounting m => s.mountErase m count ok
  | .formatting f => s.formatErase f count ok
  | .none => s

/-- The outcome of a reclaim erase delivered to the pass, or only recorded when FORMAT has abandoned the pass (R148, R146). -/
def State.deliverReclaimErase (s : State) (g : Seg) (count : Nat) (ok : Bool) : State :=
  match s.space.pass with
  | some q => s.eraseDone q g count ok
  | none => s.formatAfterReclaim g count ok

/-! ## What the operation leaves and reports -/

/-- No operation is in flight any longer. -/
def State.landed (s : State) : State := s.setInFlight none

/-- A body program completed: the cell as it is left, and DONE exactly when every byte verifies (R27). -/
def State.completeBody (s : State) (r : Requester) (pos : Pos) (b : Body) (left : List Host.Cell) : State :=
  let area := bodyLeft (dataArea s.array.cells pos) (bodyBytes b) left
  ((s.setCells (putArea s.array.cells pos area)).landed).deliverBody r pos (decide (area = bodyBytes b))

/-- A header program completed (R28). -/
def State.completeHeader (s : State) (g : Seg) (gen : Generation) (count : Nat) (left : List Host.Cell) : State :=
  let area := headerLeft (dataArea s.array.cells ⟨g, 0⟩) (headerBytes gen count) left
  ((s.setCells (putArea s.array.cells ⟨g, 0⟩ area)).landed).deliverHeader (decide (area = headerBytes gen count))

/-- A mark program completed: DONE exactly when the position verifies present (R29). -/
def State.completeMark (s : State) (r : Requester) (pos : Pos) (which : MarkKind) (fails : Bool) : State :=
  let w := markLeft (markWord s.array.cells pos which) fails
  ((s.setCells (putMark s.array.cells pos which w)).landed).deliverMark r pos (decide (w = Config.markPresent))

/-- The bytes of the array after a segment erase (R30). -/
def State.erasedCells (s : State) (g : Seg) (gen : Generation) (count : Nat) (left : List Host.Cell) : State :=
  s.setCells (eraseLeft s.array.cells g gen count left)

/-- A segment erase of the Store Controller completed (R30). -/
def State.completeErase (s : State) (g : Seg) (gen : Generation) (count : Nat) (left : List Host.Cell) : State :=
  (((s.erasedCells g gen count left).landed).deliverErase count (eraseVerifies s.array.cells g gen count left))

/-- A reclaim erase completed: its context is discarded (R30, R34). -/
def State.completeReclaimErase (s : State) (e : EraseCtx) (left : List Host.Cell) : State :=
  ((s.erasedCells e.seg e.generation e.count left).setErase none).deliverReclaimErase e.seg e.count
    (eraseVerifies s.array.cells e.seg e.generation e.count left)

/-! ## The rows -/

/-- CELL_READ_DONE (R26). -/
def execCellReadDone (s : State) : Host.Outcome State Fault Refusal :=
  match s.running, s.array.inFlight with
  | true, some { requester := r, op := .readCell pos payload, age := _ } => .next (s.landed.deliverRead r pos payload).settle
  | _, _ => .refused .notDue

/-- BODY_PROGRAM_DONE (R27). -/
def execBodyProgramDone (left : List Host.Cell) (s : State) : Host.Outcome State Fault Refusal :=
  match s.running, s.array.inFlight with
  | true, some { requester := r, op := .programBody pos b, age := _ } => .next (s.completeBody r pos b left).settle
  | _, _ => .refused .notDue

/-- HEADER_PROGRAM_DONE (R28). -/
def execHeaderProgramDone (left : List Host.Cell) (s : State) : Host.Outcome State Fault Refusal :=
  match s.running, s.array.inFlight with
  | true, some { requester := _, op := .programHeader g gen count, age := _ } => .next (s.completeHeader g gen count left).settle
  | _, _ => .refused .notDue

/-- MARK_PROGRAM_DONE (R29). -/
def execMarkProgramDone (fails : Bool) (s : State) : Host.Outcome State Fault Refusal :=
  match s.running, s.array.inFlight with
  | true, some { requester := r, op := .programMark pos which, age := _ } => .next (s.completeMark r pos which fails).settle
  | _, _ => .refused .notDue

/-- Whether an erase context's erase can complete now: it runs, or is still stopping (R35). -/
def EraseCtx.moving (e : EraseCtx) : Bool := e.state != .suspended

/-- SEGMENT_ERASE_DONE: the Store Controller's erase, or a reclaim erase that is RUNNING or SUSPENDING (R30, R35). -/
def execSegmentEraseDone (left : List Host.Cell) (s : State) : Host.Outcome State Fault Refusal :=
  match s.running, s.array.inFlight, s.array.erase with
  | true, some { requester := _, op := .eraseSegment g gen count, age := _ }, _ => .next (s.completeErase g gen count left).settle
  | true, none, some e => if e.moving then .next (s.completeReclaimErase e left).settle else .refused .notDue
  | _, _, _ => .refused .notDue

/-- Whether the suspension of a reclaim erase begins now (R35). -/
def State.suspendDue (s : State) : Bool :=
  s.running &&
    match s.array.erase with
    | some e =>
      e.state == .running && s.array.waitEngine.isSome && decide (Config.minimumRun ≤ e.sinceResume) &&
        decide (e.suspendCount < Config.suspensions)
    | none => false

/-- The suspend count rises by 1 and the state becomes SUSPENDING (R35). -/
def EraseCtx.beginSuspension (e : EraseCtx) : EraseCtx :=
  { e with state := .suspending, suspendCount := e.suspendCount + 1, stopAge := 0 }

/-- ERASE_SUSPEND_BEGIN (R35). -/
def execEraseSuspendBegin (s : State) : Host.Outcome State Fault Refusal :=
  State.whenDue s.suspendDue (s.setErase (s.array.erase.map EraseCtx.beginSuspension))

/-- Whether a reclaim erase is SUSPENDING (R35). -/
def State.stopDue (s : State) : Bool :=
  s.running &&
    match s.array.erase with
    | some e => e.state == .suspending
    | none => false

/-- ERASE_STOP: the erase stops and is SUSPENDED, and the Engine's waiting request is granted (R35, R36). -/
def execEraseStop (s : State) : Host.Outcome State Fault Refusal :=
  State.whenDue s.stopDue (s.setErase (s.array.erase.map (fun e => { e with state := .suspended })))

end Sys2Proof.Machine
end

