-- ==== Sys2Proof/Machine/Frames.lean ====
section
/-! DEFINITION. Frames at a port: their moments, what they return, when they are refused, and what each does at its end (R171 to R188; log entries 3 and 4). -/

namespace Sys2Proof.Machine

/-! ## What a frame returns -/

/-- The record a returning frame fixes at its kind byte, and whether it is a result or event (R175, R178, R186, R191). -/
def State.recordFor (s : State) (p : Port) (k : FrameKind) : Option (List Byte × Bool) :=
  match k with
  | .statusRead => some (statusBytes s p, false)
  | .resultRead =>
    match (s.port p).results with
    | r :: _ => some (resultBytes r, true)
    | [] => some (emptyResultBytes, false)
  | .eventRead =>
    match (s.port p).events with
    | e :: _ => some (eventBytes e, true)
    | [] => some (emptyEventBytes, false)
  | _ => none

/-- Whether a frame is refused for RESETTING: the port was RESETTING during it and it is no STATUS READ (R173). -/
def Frame.inReset (f : Frame) : Bool := f.resetting && f.kind != .statusRead

/-- A frame whose kind byte has been clocked: its record is fixed once, and a frame refused for RESETTING fixes none (R173, R175, R178, R186). -/
def State.fixRecord (s : State) (p : Port) (f : Frame) : Frame :=
  match f.record with
  | some _ => f
  | none =>
    if f.inReset then f
    else
      match s.recordFor p f.kind with
      | some (bs, removable) => { f with record := some bs, removable := removable }
      | none => f

/-- The buffer bytes a BUFFER READ has returned by its end: those already driven, and the rest as the buffer stands (R181). -/
def State.bufferOut (s : State) (p : Port) (f : Frame) (offset n : Nat) : List Byte :=
  if f.inReset then []
  else f.out ++ bufferTake (s.port p).buffer (offset + f.out.length) (n - 3 - f.out.length)

/-- The first `n` bytes of a list, with 00h beyond its end. -/
def padTo (n : Nat) (bs : List Byte) : List Byte := (bs ++ List.replicate n 0x00#8).take n

/-- The bytes driven on data-out in a frame of `n` whole bytes (R171, R173). -/
def State.driven (s : State) (p : Port) (f : Frame) (offset n : Nat) : List Byte :=
  match f.kind with
  | .bufferRead => padTo n ([0, 0, 0] ++ s.bufferOut p f offset n)
  | _ => padTo n (0 :: f.record.getD [])

/-! ## Refusal (R172, R173) -/

/-- Minimum length in whole bytes, from the frame-kind byte (Table 10-1); the kind that is none has none that serves. -/
def FrameKind.minimum : FrameKind → Nat
  | .statusRead => 1 | .command => 19 | .resultRead => 1 | .eventRead => 1 | .bufferWrite => 3 | .bufferRead => 3
  | .notifySet => 2 | .notifyClear => 2 | .flagsClear => 2 | .portReset => 1 | .unknown => 0

/-- Whether a frame is refused at its end (R173). -/
def Frame.refused (f : Frame) (n : Nat) (whole : Bool) : Bool :=
  !whole || decide (n < f.kind.minimum) || f.kind == .unknown || f.inReset

/-- REFUSED set for a refused frame while the port is ACTIVE, unless the port was RESETTING during it (R173). -/
def State.refuseFrame (s : State) (p : Port) (f : Frame) : State :=
  if (s.port p).state = .active ∧ f.inReset = false then s.setFlag p flagRefused else s

/-! ## Moments of a frame -/

/-- The frame decoder at the start of a frame (R171, R173). -/
def Frame.begun (k : FrameKind) (resetting : Bool) : Frame :=
  { kind := k, resetting := resetting, record := none, removable := false, merged := false, out := [] }

/-- The select line is asserted: the frame decoder begins a frame (R171). -/
def State.openFrame (s : State) (p : Port) (k : FrameKind) : State :=
  let u := s.port p
  match u.frame with
  | some _ => s
  | none => s.setPort p { u with frame := some (Frame.begun k (u.state == .resetting)) }

/-- The kind byte has been clocked in a frame of this kind. -/
def State.clockKind (s : State) (p : Port) (k : FrameKind) : State :=
  match (s.port p).frame with
  | some f => if f.kind = k then s.setPort p { s.port p with frame := some (s.fixRecord p f) } else s
  | none => s

/-- A BUFFER READ's next byte begins to be clocked out (R181). -/
def State.clockOut (s : State) (p : Port) (k : FrameKind) (offset : Nat) : State :=
  match (s.port p).frame with
  | some f =>
    if f.kind = k ∧ k = .bufferRead ∧ f.inReset = false then
      s.setPort p
        { s.port p with frame := some { f with out := f.out ++ [bufferByteAt (s.port p).buffer (offset + f.out.length)] } }
    else s
  | none => s

/-- What a well-formed frame does at its end, given its length and the frame as it stood. -/
abbrev FrameEffect := Nat → Frame → State → State

/-- The record fixed by the end of a frame in which a byte was clocked. -/
def State.frameAtEnd (s : State) (p : Port) (f : Frame) (n : Nat) : Frame := if n = 0 then f else s.fixRecord p f

/-- A port after a frame that drove `out`, before the frame's effect. -/
def State.ended (s : State) (p : Port) (out : List Byte) : State :=
  s.setPort p { s.port p with frame := none, dataOut := out }

/-- A frame ends as one event, with its effect or refused (R171, R173). -/
def State.frameEnd (s : State) (p : Port) (f : Frame) (offset n : Nat) (whole : Bool) (effect : FrameEffect) : State :=
  let t := s.ended p (s.driven p f offset n)
  if f.refused n whole then t.refuseFrame p f else effect n f t

/-- The select line is released in a frame of this kind (R171). -/
def State.closeFrame (s : State) (p : Port) (k : FrameKind) (offset n : Nat) (whole : Bool) (effect : FrameEffect) : State :=
  match (s.port p).frame with
  | some f => if f.kind = k then s.frameEnd p (s.frameAtEnd p f n) offset n whole effect else s
  | none => s

/-- One moment of a frame; a part without power or held in reset ignores its select lines, and a moment of a frame that is not in progress has no effect (R174, log entry 4). -/
def State.frameMoment (s : State) (p : Port) (k : FrameKind) (m : FrameMoment) (offset : Nat) (effect : FrameEffect) : State :=
  if s.running then
    match m with
    | .select => s.openFrame p k
    | .kindByte => s.clockKind p k
    | .byteOut => s.clockOut p k offset
    | .release n whole => s.closeFrame p k offset n whole effect
    | .entire n whole =>
      if (s.port p).frame = none then (s.openFrame p k).closeFrame p k offset n whole effect else s
  else s

/-! ## Effects at the frame's end -/

/-- A frame that changes nothing (R175). -/
def noEffect : FrameEffect := fun _ _ s => s

/-- A COMMAND frame's command placed as the newest, or QUEUE_FULL set when the queue holds 4 (R176). -/
def State.queueCommand (s : State) (p : Port) (c : Cmd) : State :=
  if (s.port p).commands.length < Config.commandPlaces then
    (s.setPort p { s.port p with commands := (s.port p).commands ++ [c] }).settle
  else s.setFlag p flagQueueFull

/-- The oldest result removed when a result was read whole (R178). -/
def resultEffect (p : Port) : FrameEffect := fun n f s =>
  if f.removable = true ∧ 15 ≤ n then (s.setPort p { s.port p with results := (s.port p).results.tail }).settle else s

/-- The oldest event removed when it was read whole and no offer has merged into it (R186). -/
def eventEffect (p : Port) : FrameEffect := fun n f s =>
  if f.removable = true ∧ 11 ≤ n ∧ f.merged = false then s.setPort p { s.port p with events := (s.port p).events.tail } else s

/-- Data bytes stored in one act, and BUFFER_EDGE set when at least one was discarded (R180). -/
def State.storeFrame (s : State) (p : Port) (offset : Nat) (data : List Byte) : State :=
  let s' := s.setPort p { s.port p with buffer := bufferStore (s.port p).buffer offset data }
  if data ≠ [] ∧ Config.bufferBytes < offset + data.length then s'.setFlag p flagBufferEdge else s'

/-- The data bytes of a BUFFER WRITE are those clocked after its third byte (R180). -/
def bufferWriteEffect (p : Port) (offset : Nat) (data : List Byte) : FrameEffect := fun n _ s =>
  s.storeFrame p offset (data.take (n - 3))

/-- BUFFER_EDGE when a position above 2047 was clocked out (R181). -/
def bufferReadEffect (p : Port) (offset : Nat) : FrameEffect := fun n _ s =>
  if 3 < n ∧ Config.bufferBytes < offset + (n - 3) then s.setFlag p flagBufferEdge else s

/-- Enables changed (R183). -/
def State.setEnables (s : State) (p : Port) (f : Enables → Enables) : State :=
  s.setPort p { s.port p with enables := f (s.port p).enables }

/-- Flags cleared (R182). -/
def State.clearPortFlags (s : State) (p : Port) (mask : Byte) : State :=
  s.setPort p { s.port p with flags := clearFlags (s.port p).flags mask }

/-! ## Port reset (R187, R188) -/

/-- A port whose reset proceeds: queues, flags and enables are cleared and it is ACTIVE again; its buffer is kept (R188). -/
def PortUnit.afterReset (u : PortUnit) : PortUnit :=
  { u with state := .active, results := [], events := [], flags := 0, enables := 0 }

/-- A port reset proceeds, in one act at the Port Unit and the Coordination Unit (R188, R113, R115). -/
def State.proceedReset (s : State) (p : Port) : State :=
  ((s.setPort p (s.port p).afterReset).setClaims (s.coord.claims.filter (fun x => x.holder != p))).setWatches p []

/-- A slot at the arrival of a port reset: a parked scan is dropped (R102, R187). -/
def Slot.atReset : Slot → Slot
  | .parked _ _ => .none
  | .executing => .executing
  | .none => .none

/-- A port reset arrives: RESETTING, its queued commands discarded, a parked scan dropped; with no current command it proceeds at once (R187). -/
def State.arriveReset (s : State) (p : Port) : State :=
  let u := s.port p
  let slot := u.slot.atReset
  let s := s.setPort p { u with state := .resetting, commands := [], slot := slot }
  if slot = .none then s.proceedReset p else s

/-! ## The rows -/

/-- STATUS READ (R175). -/
def execStatusRead (p : Port) (m : FrameMoment) (s : State) : Host.Outcome State Fault Refusal :=
  .next (s.frameMoment p .statusRead m 0 noEffect)

/-- COMMAND (R176). -/
def execCommand (p : Port) (m : FrameMoment) (code tag : Byte) (params : Vector Byte 16) (s : State) : Host.Outcome State Fault Refusal :=
  .next (s.frameMoment p .command m 0 (fun _ _ s => s.queueCommand p { code := code, tag := tag, params := params }))

/-- RESULT READ (R178). -/
def execResultRead (p : Port) (m : FrameMoment) (s : State) : Host.Outcome State Fault Refusal :=
  .next (s.frameMoment p .resultRead m 0 (resultEffect p))

/-- EVENT READ (R186). -/
def execEventRead (p : Port) (m : FrameMoment) (s : State) : Host.Outcome State Fault Refusal :=
  .next (s.frameMoment p .eventRead m 0 (eventEffect p))

/-- BUFFER WRITE (R180). -/
def execBufferWrite (p : Port) (m : FrameMoment) (offset : Half) (data : List Byte) (s : State) : Host.Outcome State Fault Refusal :=
  .next (s.frameMoment p .bufferWrite m offset.toNat (bufferWriteEffect p offset.toNat data))

/-- BUFFER READ (R181). -/
def execBufferRead (p : Port) (m : FrameMoment) (offset : Half) (s : State) : Host.Outcome State Fault Refusal :=
  .next (s.frameMoment p .bufferRead m offset.toNat (bufferReadEffect p offset.toNat))

/-- NOTIFY SET (R183). -/
def execNotifySet (p : Port) (m : FrameMoment) (mask : Byte) (s : State) : Host.Outcome State Fault Refusal :=
  .next (s.frameMoment p .notifySet m 0 (fun _ _ s => s.setEnables p (fun en => addEnables en mask)))

/-- NOTIFY CLEAR (R183). -/
def execNotifyClear (p : Port) (m : FrameMoment) (mask : Byte) (s : State) : Host.Outcome State Fault Refusal :=
  .next (s.frameMoment p .notifyClear m 0 (fun _ _ s => s.setEnables p (fun en => removeEnables en mask)))

/-- FLAGS CLEAR (R182). -/
def execFlagsClear (p : Port) (m : FrameMoment) (mask : Byte) (s : State) : Host.Outcome State Fault Refusal :=
  .next (s.frameMoment p .flagsClear m 0 (fun _ _ s => s.clearPortFlags p mask))

/-- PORT RESET (R187). -/
def execPortReset (p : Port) (m : FrameMoment) (s : State) : Host.Outcome State Fault Refusal :=
  .next (s.frameMoment p .portReset m 0 (fun _ _ s => s.arriveReset p))

/-- The kind codes of Table 11-2. -/
def knownKinds : List Byte := [0x01, 0x10, 0x20, 0x21, 0x30, 0x31, 0x40, 0x41, 0x42, 0x5A]

/-- Whether an UNKNOWN_FRAME_KIND names no kind (R173). -/
def unknownKind (kind : Option Byte) : Bool :=
  match kind with
  | some b => !knownKinds.contains b
  | none => true

/-- UNKNOWN_FRAME_KIND: refused, with REFUSED set while the port is ACTIVE (R173); a byte that names a kind is no such event (log entry 2). -/
def execUnknownFrameKind (p : Port) (m : FrameMoment) (kind : Option Byte) (s : State) : Host.Outcome State Fault Refusal :=
  if unknownKind kind then .next (s.frameMoment p .unknown m 0 noEffect) else .fault .illFormed

/-- PORT_RESET_PROCEED: the reset that waited for the port's current command proceeds (R188, log entry 11). -/
def execPortResetProceed (p : Port) (s : State) : Host.Outcome State Fault Refusal :=
  State.whenDue (s.running && (s.port p).resetDue) (s.proceedReset p)

end Sys2Proof.Machine
end

