-- ==== Sys2Proof/Machine/Lines.lean ====
section
/-! DEFINITION. RESET_N and power (R38, R39, R174; log entry 17). -/

namespace Sys2Proof.Machine

/-- Every volatile block at its reset values over an array, with no operation in flight and mount not begun (R39, R54, R56, R104, R123, R134, R152, R174). -/
def State.volatileReset (s : State) (cells : List Host.Cell) : State :=
  { ports := ⟨PortUnit.reset, PortUnit.reset, PortUnit.reset, PortUnit.reset⟩
    engine := Engine.reset
    coord := Coord.reset
    guard := GuardUnit.reset
    space := Space.reset
    array := { cells := cells, inFlight := none, waitEngine := none, waitSpace := none, waitStore := none, erase := none }
    store := { state := .mounting, generation := 0, progress := .none }
    pins := s.pins
    pending := s.pending }

/-- Mount begins at its first step, its first read granted at its arrival (R39, R152). -/
def State.startMount (s : State) : State :=
  { s with array := ArrayCtl.reset s.array.cells, store := Store.reset }

/-- Everything volatile is lost and the array keeps what the cut left (R38, R39, R174). -/
def State.cutShort (s : State) (cut eraseCut : List Host.Cell) : State := s.volatileReset (cutArray s.array cut eraseCut)

/-- RESET_N goes low: a running part is cut and held in hard reset (R174). -/
def execResetNLow (cut eraseCut : List Host.Cell) (s : State) : Host.Outcome State Fault Refusal :=
  let t := if s.running then s.cutShort cut eraseCut else s
  .next (t.setPins { s.pins with resetN := false })

/-- RESET_N returns high: a powered part that was held begins mount (R174). -/
def execResetNHigh (s : State) : Host.Outcome State Fault Refusal :=
  let t := if s.pins.power = true ∧ s.pins.resetN = false then s.startMount else s
  .next (t.setPins { s.pins with resetN := true })

/-- Power-on: every block at its reset values, and mount begins unless RESET_N holds the part; the power of a powered part cannot come on (R174, log entry 2). -/
def execPowerOn (s : State) : Host.Outcome State Fault Refusal :=
  if s.pins.power then .refused .notDue
  else
    let t := (s.volatileReset s.array.cells).setPins { s.pins with power := true }
    .next (if t.pins.resetN then t.startMount else t)

/-- Power loss: the array operation in flight is cut and all volatile state ends; a part without power cannot lose it (R38, log entry 2). -/
def execPowerLoss (cut eraseCut : List Host.Cell) (s : State) : Host.Outcome State Fault Refusal :=
  if s.pins.power then .next ((s.cutShort cut eraseCut).setPins { s.pins with power := false }) else .refused .notDue

end Sys2Proof.Machine
end

