-- ==== Sys2Proof/Machine/Dispatch.lean ====
section
/-! DEFINITION. exec: one arm per constructor of Instr, each one direct call of its meaning. -/

namespace Sys2Proof.Machine

/-- A command's effect on everything but the queue. -/
def exec (i : Instr) (s : State) : Host.Outcome State Fault Refusal :=
  match i with
  | .statusRead p m => Sys2Proof.Machine.execStatusRead p m s
  | .command p m code tag params => Sys2Proof.Machine.execCommand p m code tag params s
  | .resultRead p m => Sys2Proof.Machine.execResultRead p m s
  | .eventRead p m => Sys2Proof.Machine.execEventRead p m s
  | .bufferWrite p m offset data => Sys2Proof.Machine.execBufferWrite p m offset data s
  | .bufferRead p m offset => Sys2Proof.Machine.execBufferRead p m offset s
  | .notifySet p m mask => Sys2Proof.Machine.execNotifySet p m mask s
  | .notifyClear p m mask => Sys2Proof.Machine.execNotifyClear p m mask s
  | .flagsClear p m mask => Sys2Proof.Machine.execFlagsClear p m mask s
  | .portReset p m => Sys2Proof.Machine.execPortReset p m s
  | .unknownFrameKind p m kind => Sys2Proof.Machine.execUnknownFrameKind p m kind s
  | .resetNLow cut eraseCut => Sys2Proof.Machine.execResetNLow cut eraseCut s
  | .resetNHigh => Sys2Proof.Machine.execResetNHigh s
  | .powerOn => Sys2Proof.Machine.execPowerOn s
  | .powerLoss cut eraseCut => Sys2Proof.Machine.execPowerLoss cut eraseCut s
  | .guardEnChange level => Sys2Proof.Machine.execGuardEnChange level s
  | .write => Sys2Proof.Machine.execWrite s
  | .patch => Sys2Proof.Machine.execPatch s
  | .remove => Sys2Proof.Machine.execRemove s
  | .read => Sys2Proof.Machine.execRead s
  | .stat => Sys2Proof.Machine.execStat s
  | .scan => Sys2Proof.Machine.execScan s
  | .claim => Sys2Proof.Machine.execClaim s
  | .release => Sys2Proof.Machine.execRelease s
  | .watchSet => Sys2Proof.Machine.execWatchSet s
  | .watchClear => Sys2Proof.Machine.execWatchClear s
  | .watchList => Sys2Proof.Machine.execWatchList s
  | .guardSet => Sys2Proof.Machine.execGuardSet s
  | .guardRead => Sys2Proof.Machine.execGuardRead s
  | .reclaim => Sys2Proof.Machine.execReclaim s
  | .format => Sys2Proof.Machine.execFormat s
  | .storeInfo => Sys2Proof.Machine.execStoreInfo s
  | .badCommand => Sys2Proof.Machine.execBadCommand s
  | .scanResume => Sys2Proof.Machine.execScanResume s
  | .cellReadDone => Sys2Proof.Machine.execCellReadDone s
  | .bodyProgramDone left => Sys2Proof.Machine.execBodyProgramDone left s
  | .headerProgramDone left => Sys2Proof.Machine.execHeaderProgramDone left s
  | .markProgramDone fails => Sys2Proof.Machine.execMarkProgramDone fails s
  | .segmentEraseDone left => Sys2Proof.Machine.execSegmentEraseDone left s
  | .eraseSuspendBegin => Sys2Proof.Machine.execEraseSuspendBegin s
  | .eraseStop => Sys2Proof.Machine.execEraseStop s
  | .claimExpiry key => Sys2Proof.Machine.execClaimExpiry key s
  | .heldGrantAnswered => Sys2Proof.Machine.execHeldGrantAnswered s
  | .portResetProceed p => Sys2Proof.Machine.execPortResetProceed p s

end Sys2Proof.Machine
end

