-- ==== Sys2Proof/Machine/Time.lean ====
section
/-! DEFINITION. The tick: what one microsecond does when no command waits (R31, R34, R35, R106; log entry 1). -/

namespace Sys2Proof.Machine

/-- The longest time of an operation in flight, in microseconds (Table 2-7). -/
def ArrayOp.longest : ArrayOp → Nat
  | .readCell _ _ => 25
  | .programBody _ _ => 600
  | .programHeader _ _ _ => 600
  | .programMark _ _ => 40
  | .eraseSegment _ _ _ => Config.eraseTime

/-- An operation in flight that must complete before time goes on (R31). -/
def InFlight.overdue (f : InFlight) : Bool := decide (f.op.longest ≤ f.age)

/-- A reclaim erase that must complete, or stop, before time goes on (R31, R35). -/
def EraseCtx.overdue (e : EraseCtx) : Bool :=
  e.moving && (decide (Config.eraseTime ≤ e.accumulated) || (e.state == .suspending && decide (Config.stopTime ≤ e.stopAge)))

/-- A claim whose expiry must be taken before time goes on (R106). -/
def Claim.late (x : Claim) : Bool := x.remaining == 0 && decide (Config.expiryWindow ≤ x.overdue)

/-- Whether the Engine is about to execute a command it has taken. -/
def Work.atStart : Work → Bool
  | .taken _ _ => true
  | .resuming _ _ _ => true
  | _ => false

/-- Whether the reset of some port is to proceed, which it does before any time passes (R187, log entry 11). -/
def State.anyResetDue (s : State) : Bool := s.running && allPorts.any (fun p => (s.port p).resetDue)

/-- Whether an event is to be taken before any time passes (log entry 1). -/
def State.urgentEvent (s : State) : Bool :=
  s.heldDue || s.anyResetDue || s.engine.work.atStart || s.suspendDue || s.coord.claims.any Claim.late ||
    s.array.inFlight.any InFlight.overdue || s.array.erase.any EraseCtx.overdue

/-- A claim's timer after a microsecond (R106). -/
def Claim.tick (x : Claim) : Claim :=
  match x.remaining with
  | 0 => { x with overdue := x.overdue + 1 }
  | n + 1 => { x with remaining := n }

/-- An erase context after a microsecond: both running times advance while RUNNING or SUSPENDING (R34). -/
def EraseCtx.tick (e : EraseCtx) : EraseCtx :=
  match e.state with
  | .suspended => e
  | .running => { e with accumulated := e.accumulated + 1, sinceResume := e.sinceResume + 1 }
  | .suspending => { e with accumulated := e.accumulated + 1, sinceResume := e.sinceResume + 1, stopAge := e.stopAge + 1 }

/-- An operation in flight after a microsecond (R31). -/
def InFlight.tick (f : InFlight) : InFlight := { f with age := f.age + 1 }

/-- The machine after a microsecond in which nothing else happens. -/
def State.microsecond (s : State) : State :=
  ((s.setClaims (s.coord.claims.map Claim.tick)).setErase (s.array.erase.map EraseCtx.tick)).setInFlight
    (s.array.inFlight.map InFlight.tick)

/-- A tick: a microsecond passes in a running part, unless an event is to be taken first (log entry 1). -/
def State.tick (s : State) : State :=
  if s.running = true ∧ s.urgentEvent = false then s.microsecond else s

end Sys2Proof.Machine
end

