-- ==== Sys2Proof/Machine/Step.lean ====
section
/-! DEFINITION. One step of the block: the command at the front of the queue, or a tick when none waits. -/

namespace Sys2Proof.Machine

/-- The state with the queue replaced. -/
def State.setPending (s : State) (q : List Instr) : State := { s with pending := q }

/-- One step: the command at the front of the queue is taken with the queue's rest left, and on an empty queue a microsecond passes (log entry 1). -/
def step (s : State) : Host.Outcome State Fault Refusal :=
  match s.pending with
  | [] => .next s.tick
  | c :: rest => exec c (s.setPending rest)

/-- The state with the command a word spells put at the front of the queue; the table gives no row any bits, so no word spells one and the state is unchanged (log entry 20). -/
def State.withFetchWord (s : State) (_nbits _w : Nat) : State := s

end Sys2Proof.Machine
end

