-- ==== Sys2Proof/Safety.lean ====
section
/-! DEFINITION. What it means for a run to be safe, and the invariants of the machine: properties of a state that every step keeps. -/

namespace Sys2Proof.Machine

/-- A step that stops with a fault. -/
def Faults (s : State) : Prop := ∃ f, step s = .fault f

/-- A step that answers a next state. -/
def Steps (s t : State) : Prop := step s = .next t

/-- One state reaches another in some number of steps. -/
inductive Reaches : State → State → Prop where
  | refl (s : State) : Reaches s s
  | tail {s t u : State} : Reaches s t → Steps t u → Reaches s u

/-- No state reached from here faults. -/
def Safe (s : State) : Prop := ∀ t, Reaches s t → ¬ Faults t

/-! ## Families of rows -/

/-- The port at whose link a row is a moment of a frame, if it is one. -/
def framePort : Instr → Option Port
  | .statusRead p _ => some p
  | .command p _ _ _ _ => some p
  | .resultRead p _ => some p
  | .eventRead p _ => some p
  | .bufferWrite p _ _ _ => some p
  | .bufferRead p _ _ => some p
  | .notifySet p _ _ => some p
  | .notifyClear p _ _ => some p
  | .flagsClear p _ _ => some p
  | .portReset p _ => some p
  | .unknownFrameKind p _ _ => some p
  | _ => none

/-- The kind of frame and the moment of it that a row is, if it is one. -/
def frameOf : Instr → Option (FrameKind × FrameMoment)
  | .statusRead _ m => some (.statusRead, m)
  | .command _ m _ _ _ => some (.command, m)
  | .resultRead _ m => some (.resultRead, m)
  | .eventRead _ m => some (.eventRead, m)
  | .bufferWrite _ m _ _ => some (.bufferWrite, m)
  | .bufferRead _ m _ => some (.bufferRead, m)
  | .notifySet _ m _ => some (.notifySet, m)
  | .notifyClear _ m _ => some (.notifyClear, m)
  | .flagsClear _ m _ => some (.flagsClear, m)
  | .portReset _ m => some (.portReset, m)
  | .unknownFrameKind _ m _ => some (.unknown, m)
  | _ => none

/-- The same frame at another moment; rows that are no frame stay as they are. -/
def atMoment (m : FrameMoment) : Instr → Instr
  | .statusRead p _ => .statusRead p m
  | .command p _ code tag params => .command p m code tag params
  | .resultRead p _ => .resultRead p m
  | .eventRead p _ => .eventRead p m
  | .bufferWrite p _ offset data => .bufferWrite p m offset data
  | .bufferRead p _ offset => .bufferRead p m offset
  | .notifySet p _ mask => .notifySet p m mask
  | .notifyClear p _ mask => .notifyClear p m mask
  | .flagsClear p _ mask => .flagsClear p m mask
  | .portReset p _ => .portReset p m
  | .unknownFrameKind p _ kind => .unknownFrameKind p m kind
  | i => i

/-- A running part whose port `p` is ACTIVE with no frame in progress. -/
def State.listens (s : State) (p : Port) : Prop :=
  s.running = true ∧ (s.port p).frame = none ∧ (s.port p).state = .active

/-- Whether a row ends all volatile state: hard reset, power loss and power-on (R174). -/
def hardReset : Instr → Bool
  | .resetNLow _ _ => true
  | .powerOn => true
  | .powerLoss _ _ => true
  | _ => false

/-- Whether a row may clear flags of a port: FLAGS CLEAR, a port reset, a hard reset (R182). -/
def clearsFlags (p : Port) : Instr → Bool
  | .flagsClear q _ _ => q == p
  | .portReset q _ => q == p
  | .portResetProceed q => q == p
  | i => hardReset i

/-- Whether a row may change enables of a port: NOTIFY SET and NOTIFY CLEAR, a port reset, a hard reset (R183). -/
def changesEnables (p : Port) : Instr → Bool
  | .notifySet q _ _ => q == p
  | .notifyClear q _ _ => q == p
  | .portReset q _ => q == p
  | .portResetProceed q => q == p
  | i => hardReset i

/-- Whether a row is a line or power event. -/
def lineRow : Instr → Bool
  | .resetNLow _ _ => true
  | .resetNHigh => true
  | .powerOn => true
  | .powerLoss _ _ => true
  | .guardEnChange _ => true
  | _ => false

/-- Whether a row is a port reset that proceeds. -/
def resetRow : Instr → Bool
  | .portResetProceed _ => true
  | _ => false

/-- Whether a row is a step of an inner block: the Engine's execution, a completion, an erase suspension, an expiry or a held grant. -/
def innerRow (i : Instr) : Bool := (framePort i).isNone && !lineRow i && !resetRow i

/-! ## The Engine's rows -/

/-- The Engine has taken a command of a port and is about to execute it, in a running part whose store is open. -/
def State.starts (s : State) (p : Port) (c : Cmd) : Prop :=
  s.engine.work = .taken p c ∧ s.running = true ∧ s.isOpen = true

/-- The row that executes a command with a code (Table 11-4). -/
def rowOf (code : Byte) : Instr :=
  if code = codeWrite then .write else if code = codePatch then .patch else if code = codeRemove then .remove
  else if code = codeRead then .read else if code = codeStat then .stat else if code = codeScan then .scan
  else if code = codeClaim then .claim else if code = codeRelease then .release
  else if code = codeWatchSet then .watchSet else if code = codeWatchClear then .watchClear
  else if code = codeWatchList then .watchList else if code = codeGuardSet then .guardSet
  else if code = codeGuardRead then .guardRead else if code = codeReclaim then .reclaim
  else if code = codeFormat then .format else if code = codeStoreInfo then .storeInfo else .badCommand

/-- The commands that name a single key (R1). -/
def singleKeyCodes : List Byte :=
  [codeWrite, codePatch, codeRemove, codeRead, codeStat, codeClaim, codeRelease, codeWatchSet, codeWatchClear]

/-- The updates (Table 4-2). -/
def updateCodes : List Byte := [codeWrite, codePatch, codeRemove]

/-- The parameter check of an update (R63). -/
def checkUpdate (c : Cmd) : Option Reason :=
  if c.code = codeWrite then checkWrite c else if c.code = codePatch then checkPatch c else checkRemove c

/-- An array operation in flight for a requester in a running part. -/
def State.carries (s : State) (r : Requester) (op : ArrayOp) : Prop :=
  s.running = true ∧ ∃ age, s.array.inFlight = some { requester := r, op := op, age := age }

/-- The bytes of the array an operation acts on: the first, and how many. -/
def ArrayOp.part : ArrayOp → Nat × Nat
  | .readCell pos _ => (cellBase pos, 0)
  | .programBody pos _ => (cellBase pos, Config.dataBytes)
  | .programHeader g _ _ => (segBase g, Config.dataBytes)
  | .programMark pos k => (markBase pos k, 2)
  | .eraseSegment g _ _ => (segBase g, Config.segmentStride)

/-- Whether an address lies outside an operation's part. -/
def ArrayOp.spares (op : ArrayOp) (a : Nat) : Prop := a < op.part.1 ∨ op.part.1 + op.part.2 ≤ a

/-- A byte of the array as it reads. -/
def arrayByte (cells : List Host.Cell) (a : Nat) : Byte := Memory.read Config.erasedByte cells a

/-- The bytes of the array after a row: a completion leaves what its operation does, a hard reset or power loss what the cut does, and every other row leaves them as they are (R27 to R30, R38). -/
def State.cellsAfter (s : State) (i : Instr) : List Host.Cell :=
  match i, s.array.inFlight, s.array.erase with
  | .bodyProgramDone left, some { requester := _, op := .programBody pos b, age := _ }, _ =>
    putArea s.array.cells pos (bodyLeft (dataArea s.array.cells pos) (bodyBytes b) left)
  | .headerProgramDone left, some { requester := _, op := .programHeader g gen n, age := _ }, _ =>
    putArea s.array.cells ⟨g, 0⟩ (headerLeft (dataArea s.array.cells ⟨g, 0⟩) (headerBytes gen n) left)
  | .markProgramDone fails, some { requester := _, op := .programMark pos k, age := _ }, _ =>
    putMark s.array.cells pos k (markLeft (markWord s.array.cells pos k) fails)
  | .segmentEraseDone left, some { requester := _, op := .eraseSegment g gen n, age := _ }, _ => eraseLeft s.array.cells g gen n left
  | .segmentEraseDone left, none, some e => eraseLeft s.array.cells e.seg e.generation e.count left
  | .resetNLow cut eraseCut, _, _ => if s.running then cutArray s.array cut eraseCut else s.array.cells
  | .powerLoss cut eraseCut, _, _ => cutArray s.array cut eraseCut
  | _, _, _ => s.array.cells

/-! ## Completions, before their outcome reaches the requester -/

/-- A body program has left its cell and the array is free (R27). -/
def State.afterBody (s : State) (pos : Pos) (b : Body) (left : List Host.Cell) : State :=
  (s.setCells (putArea s.array.cells pos (bodyLeft (dataArea s.array.cells pos) (bodyBytes b) left))).setInFlight none

/-- A body program verifies: every byte of its cell reads as requested (R27). -/
def State.bodyTakes (s : State) (pos : Pos) (b : Body) (left : List Host.Cell) : Prop :=
  bodyLeft (dataArea s.array.cells pos) (bodyBytes b) left = bodyBytes b

/-- A header program has left its cell and the array is free (R28). -/
def State.afterHeader (s : State) (g : Seg) (gen : Generation) (n : Nat) (left : List Host.Cell) : State :=
  (s.setCells (putArea s.array.cells ⟨g, 0⟩ (headerLeft (dataArea s.array.cells ⟨g, 0⟩) (headerBytes gen n) left))).setInFlight none

/-- A header program verifies (R28). -/
def State.headerTakes (s : State) (g : Seg) (gen : Generation) (n : Nat) (left : List Host.Cell) : Prop :=
  headerLeft (dataArea s.array.cells ⟨g, 0⟩) (headerBytes gen n) left = headerBytes gen n

/-- A mark program has left its position and the array is free (R29). -/
def State.afterMark (s : State) (pos : Pos) (k : MarkKind) (fails : Bool) : State :=
  (s.setCells (putMark s.array.cells pos k (markLeft (markWord s.array.cells pos k) fails))).setInFlight none

/-- A mark program verifies: its position reads present (R29). -/
def State.markTakes (s : State) (pos : Pos) (k : MarkKind) (fails : Bool) : Prop :=
  markLeft (markWord s.array.cells pos k) fails = Config.markPresent

/-- A segment erase of the Store Controller has left its segment and the array is free (R30). -/
def State.afterErase (s : State) (g : Seg) (gen : Generation) (n : Nat) (left : List Host.Cell) : State :=
  (s.setCells (eraseLeft s.array.cells g gen n left)).setInFlight none

/-- A reclaim erase has left its segment and its context is discarded (R30, R34). -/
def State.afterReclaimErase (s : State) (e : EraseCtx) (left : List Host.Cell) : State :=
  (s.setCells (eraseLeft s.array.cells e.seg e.generation e.count left)).setErase none

/-- A segment's erase outcome is recorded: FREE with its new count below 50,000, and otherwise RETIRED, the count kept at a failure (R148, R149, R161, R167). -/
def State.withErased (s : State) (g : Seg) (n : Nat) (done : Bool) : State :=
  s.setSeg g
    { state := if done = true ∧ n < 50000 then .free else .retired, erases := if done = true then n else (s.seg g).erases, live := 0,
      dead := 0, free := 0 }

/-- The level of GUARD_EN replaced, and nothing else. -/
def State.atLevel (s : State) (level : Bool) : State := s.setPins { s.pins with guardEn := level }

/-- An outcome with the level of GUARD_EN replaced in its next state. -/
def outcomeAtLevel (level : Bool) : Host.Outcome State Fault Refusal → Host.Outcome State Fault Refusal
  | .next t => .next (t.atLevel level)
  | .fault f => .fault f
  | .refused r => .refused r

/-! ## What stays true of each part -/

/-- A staging buffer in its canonical form (R179, log entry 7). -/
abbrev BufferOk (b : List Host.Cell) : Prop := Memory.wf Config.bufferByte Config.bufferBytes b

/-- The array's bytes in their canonical form (log entries 6 and 7). -/
abbrev CellsOk (c : List Host.Cell) : Prop := Memory.wf Config.erasedByte Config.arrayBytes c

/-- A port's command queue holds at most 4 commands, its event queue at most 8 events, and no two of its events merge: never two of the same kind for the same key (R176, R185). -/
def PortUnit.queuesOk (u : PortUnit) : Prop :=
  u.commands.length ≤ Config.commandPlaces ∧ u.events.length ≤ Config.eventPlaces ∧
    u.events.Pairwise (fun x y => x.merge y = none)

/-- A RESETTING port holds no queued command and no parked scan, and a frame that did not begin in RESETTING is in progress only at an ACTIVE port (R173, R187). -/
def PortUnit.resetOk (u : PortUnit) : Prop :=
  (u.state = .resetting → u.commands = [] ∧ u.slot.atReset = u.slot) ∧
    ∀ f, u.frame = some f → f.resetting = false → u.state = .active

/-- A directory in strictly ascending key order, so that a key has at most one entry (R40). -/
def DirOk (d : List Entry) : Prop := d.Pairwise (fun x y => x.key < y.key)

/-- Room in a directory for the commit of a key: a key that is not the configuration key and has no entry finds fewer than 4,095 entries of such keys (R40, R69). -/
def HasRoom (d : List Entry) (k : Key) : Prop :=
  k ≠ Config.configKey → lookup d k = none → masterCount d < Config.masterEntries

/-- Whether mount is still at its first step, before it has read a data cell for the directory (Table 9-4, R156). -/
def MountAwaits.atFirstStep : MountAwaits → Bool
  | .header _ => true
  | .wornMark _ => true
  | .blankCell _ => true
  | _ => false

/-- The number of claims of a table that a port holds. -/
def claimsOf (cs : List Claim) (p : Port) : Nat := cs.countP (fun x => x.holder == p)

/-- A claim table in strictly ascending key order, with at most 16 claims and at most 8 of any port (R105). -/
def ClaimTableOk (cs : List Claim) : Prop :=
  cs.Pairwise (fun x y => x.key < y.key) ∧ cs.length ≤ Config.claimPlaces ∧ ∀ p, claimsOf cs p ≤ Config.claimShare

/-- A watch list in strictly ascending key order, with at most 8 entries (R115). -/
def WatchListOk (ws : List Watch) : Prop :=
  ws.Pairwise (fun x y => x.key < y.key) ∧ ws.length ≤ Config.watchPlaces

/-- The erase context: at most 12 suspensions, and while its erase moves no other operation is in flight (R32, R37). -/
def ArrayCtl.eraseOk (a : ArrayCtl) : Prop :=
  ∀ e, a.erase = some e → e.suspendCount ≤ Config.suspensions ∧ (e.moving = true → a.inFlight = none)

/-- At most one segment is the front (R134). -/
def OneFront (v : Vector SegRow 256) : Prop :=
  ∀ g h : Seg, v[g].state = .front → v[h].state = .front → g = h

/-- The front's free cells: ascending, and none of them cell 0 (R14, R136). -/
def FreeCellsOk (l : List CellNo) : Prop := l.Pairwise (· < ·) ∧ ∀ c ∈ l, c ≠ 0

/-- The port whose command the Engine executes, if any (R56). -/
def Work.port : Work → Option Port
  | .idle => none
  | .taken p _ => some p
  | .resuming p _ _ => some p
  | .updating p _ _ => some p
  | .reading p _ _ _ => some p
  | .scanning p _ _ _ _ => some p
  | .formatting p _ => some p

/-- Whether the Engine awaits an array operation: an update beyond its grant, a READ or a SCAN. -/
def Work.awaitsArray : Work → Bool
  | .updating _ _ u => u.stage != .grantWait
  | .reading _ _ _ _ => true
  | .scanning _ _ _ _ _ => true
  | _ => false

/-- Whether the Engine awaits a grant (R72). -/
def Work.awaitsGrant : Work → Bool
  | .updating _ _ u => u.stage == .grantWait
  | _ => false

/-- Whether the operation in flight is the Engine's. -/
def ArrayCtl.servesEngine (a : ArrayCtl) : Bool := a.inFlight.any (fun f => f.requester == .engine)

/-- A port has places for its results: those held, and one for its current command (R59, R177). -/
def PortUnit.resultsOk (u : PortUnit) : Prop :=
  u.results.length + (if u.slot = .none then 0 else 1) ≤ Config.resultPlaces

/-- The reclaim threshold lies from 2 to 16 (R123). -/
def Settings.thresholdOk (x : Settings) : Prop := 2 ≤ x.threshold ∧ x.threshold ≤ 16

/-! ## Invariants of the machine -/

/-- The array and the staging buffers keep their canonical form. -/
def MemoryOk (s : State) : Prop := CellsOk s.array.cells ∧ ∀ p, BufferOk (s.port p).buffer

/-- Every port's queues keep their bounds. -/
def QueuesOk (s : State) : Prop := ∀ p, (s.port p).queuesOk

/-- Every RESETTING port is as its reset left it. -/
def ResettingOk (s : State) : Prop := ∀ p, (s.port p).resetOk

/-- The directory keeps its order. -/
def DirectoryOk (s : State) : Prop := DirOk s.engine.dir

/-- The store state and what goes with it: a part that is down is MOUNTING, where the Engine takes no command; an update is carried out in READY or DEGRADED only; and the progress of mount or of FORMAT belongs to its own state (R57, R64, R152, R174). -/
def StoreOk (s : State) : Prop :=
  (s.running = false → s.store.state = .mounting) ∧
  (s.store.state = .mounting → s.engine.work = .idle) ∧
  (∀ p c u, s.engine.work = .updating p c u → s.store.state = .ready ∨ s.store.state = .degraded) ∧
  (∀ m, s.store.progress = .mounting m → s.store.state = .mounting) ∧
  ∀ f, s.store.progress = .formatting f → s.store.state = .formatting

/-- The directory keeps within its places: in READY and DEGRADED at most 4,095 entries are not the configuration entry, and the key of an update under way has room; it is empty in UNFORMATTED and FORMATTING, in a part that is down, and while mount is at its first step (R40, R54, R55, R69, R156). -/
def DirectoryFits (s : State) : Prop :=
  (s.store.state = .ready ∨ s.store.state = .degraded → masterCount s.engine.dir ≤ Config.masterEntries) ∧
  (∀ p c u, s.engine.work = .updating p c u → HasRoom s.engine.dir u.key) ∧
  (s.store.state = .unformatted ∨ s.store.state = .formatting → s.engine.dir = []) ∧
  (s.running = false → s.engine.dir = []) ∧
  ∀ m, s.store.progress = .mounting m → m.awaits.atFirstStep = true → s.engine.dir = []

/-- The claim table keeps its order and its bounds. -/
def ClaimsOk (s : State) : Prop := ClaimTableOk s.coord.claims

/-- Every watch list keeps its order and its bound. -/
def WatchesOk (s : State) : Prop := ∀ p, WatchListOk (s.coord.watches.get p)

/-- The erase context keeps its bound and the array to itself. -/
def EraseOk (s : State) : Prop := s.array.eraseOk

/-- The segment table keeps to one front, and the front's free cells keep their order. -/
def FrontOk (s : State) : Prop := OneFront s.space.segs ∧ FreeCellsOk s.space.frontFree

/-- The slot of the port whose command the Engine executes is EXECUTING; an array request of the Engine, waiting or in flight, is one at a time and belongs to a command that awaits it; and a held grant request to an update that awaits its grant (R25, R56, R72, R136). -/
def EngineOk (s : State) : Prop :=
  (∀ p, s.engine.work.port = some p → (s.port p).slot = .executing) ∧
  (s.array.waitEngine.isSome = true ∨ s.array.servesEngine = true → s.engine.work.awaitsArray = true) ∧
  (s.array.waitEngine.isSome = true → s.array.servesEngine = false) ∧
  (s.space.held = true → s.engine.work.awaitsGrant = true)

/-- Every port has places for its results. -/
def ResultsOk (s : State) : Prop := ∀ p, (s.port p).resultsOk

/-- The reclaim threshold keeps its range. -/
def ThresholdOk (s : State) : Prop := s.guard.settings.thresholdOk

end Sys2Proof.Machine
end

