-- ==== Sys2Proof/WellFormed.lean ====
section
/-! DEFINITION. Which terms of Instr spell an event that a link, a line or the array can bring about. exec is total on all terms; this check says which of them mean something. -/

namespace Sys2Proof

/-- The whole bytes a moment of a frame clocks, when it is the frame's end. -/
def FrameMoment.bytes : FrameMoment → Option Nat
  | .release n _ => some n
  | .entire n _ => some n
  | .select => none
  | .kindByte => none
  | .byteOut => none

/-- A returned byte begins only in a BUFFER READ (R181). -/
def FrameMoment.isByteOut : FrameMoment → Bool
  | .byteOut => true
  | _ => false

/-- A moment of a frame other than a BUFFER READ. -/
def FrameMoment.plain (m : FrameMoment) : Bool := !m.isByteOut

/-- A BUFFER WRITE's end clocks exactly its data after the third byte (R180). -/
def FrameMoment.carries (m : FrameMoment) (n : Nat) : Bool :=
  match m.bytes with
  | some k => k == n + 3 || (k < 3 && n == 0)
  | none => true

/-- An unknown kind byte is clocked in a frame of at least one byte, and a frame with no kind byte clocks none (R173). -/
def FrameMoment.kindFits (m : FrameMoment) (kind : Option Byte) : Bool :=
  match m.bytes, kind with
  | some n, some _ => decide (1 ≤ n)
  | some n, none => n == 0
  | none, _ => true

/-- The kind codes of Table 11-2. -/
def kindCodes : List Byte := [0x01, 0x10, 0x20, 0x21, 0x30, 0x31, 0x40, 0x41, 0x42, 0x5A]

/-- A residue names only bytes of the part it is left in. -/
def residueIn (limit : Nat) (left : List Host.Cell) : Bool := left.all (fun e => decide (e.1 < limit))

/-- Whether a term spells an event of the table. -/
def Instr.wellFormed : Instr → Bool
  | .statusRead _ m => m.plain
  | .command _ m _ _ _ => m.plain
  | .resultRead _ m => m.plain
  | .eventRead _ m => m.plain
  | .bufferWrite _ m _ data => m.plain && m.carries data.length
  | .bufferRead _ _ _ => true
  | .notifySet _ m _ => m.plain
  | .notifyClear _ m _ => m.plain
  | .flagsClear _ m _ => m.plain
  | .portReset _ m => m.plain
  | .unknownFrameKind _ m kind =>
    m.plain && m.kindFits kind && (match kind with
      | some b => !kindCodes.contains b
      | none => true)
  | .resetNLow cut eraseCut => residueIn Config.segmentStride cut && residueIn Config.segmentStride eraseCut
  | .powerLoss cut eraseCut => residueIn Config.segmentStride cut && residueIn Config.segmentStride eraseCut
  | .bodyProgramDone left => residueIn Config.dataBytes left
  | .headerProgramDone left => residueIn Config.dataBytes left
  | .segmentEraseDone left => residueIn Config.segmentStride left
  | .claimExpiry key => key != Config.configKey && key != Config.noKey
  | _ => true

end Sys2Proof
end

