-- ==== Sys2Proof/Certificates/Slice0/Obligations.lean ====
section
/-! DEFINITION. The statements for the provers. -/

open Sys2Proof Sys2Proof.Machine

/-! ## The machine -/

/-- A step takes the command at the front of the queue and is exec of it with the queue's rest. -/
def Obligations.StepRunsTheFrontCommand : Prop :=
  ∀ (c : Instr) (q : List Instr) (s : State), step (s.setPending (c :: q)) = exec c (s.setPending q)

/-- With no command waiting a step is a tick of one microsecond: each claim's remaining time falls by 1, and at 0 its overdue time rises (R106); both running times of an erase rise by 1 while it is RUNNING or SUSPENDING and stand still while it is SUSPENDED (R34); the age of the operation in flight rises by 1; and nothing else changes. Nothing at all changes while the part is down or an event is to be taken first: a held grant or a port reset that is due, a command the Engine has taken, a suspension that is due, a claim 1,000 µs past 0, an operation at its longest time, an erase at 9,000 µs or 30 µs into its stop. That a tick is the step of an empty queue, and that these events come first, is the model's choice (log entry 1). -/
def Obligations.EmptyQueueIsATick : Prop :=
  (∀ s : State, s.pending = [] → ∃ t, step s = .next t ∧
    t.ports = s.ports ∧ t.engine = s.engine ∧ t.coord.watches = s.coord.watches ∧ t.guard = s.guard ∧ t.space = s.space ∧
    t.store = s.store ∧ t.pins = s.pins ∧ t.pending = [] ∧ t.array.cells = s.array.cells ∧
    t.array.waitEngine = s.array.waitEngine ∧ t.array.waitSpace = s.array.waitSpace ∧ t.array.waitStore = s.array.waitStore ∧
    (s.running = false ∨ s.urgentEvent = true → t = s) ∧
    (s.running = true → s.urgentEvent = false →
      t.coord.claims = s.coord.claims.map Claim.tick ∧ t.array.erase = s.array.erase.map EraseCtx.tick ∧
      t.array.inFlight = s.array.inFlight.map InFlight.tick)) ∧
  (∀ s : State, s.running = true ↔ s.pins.power = true ∧ s.pins.resetN = true) ∧
  (∀ x : Claim,
    (∀ n, x.remaining = n + 1 → x.tick = { x with remaining := n }) ∧
    (x.remaining = 0 → x.tick = { x with overdue := x.overdue + 1 })) ∧
  (∀ e : EraseCtx,
    (e.state = .running → e.tick = { e with accumulated := e.accumulated + 1, sinceResume := e.sinceResume + 1 }) ∧
    (e.state = .suspending →
      e.tick = { e with accumulated := e.accumulated + 1, sinceResume := e.sinceResume + 1, stopAge := e.stopAge + 1 }) ∧
    (e.state = .suspended → e.tick = e)) ∧
  (∀ f : InFlight, f.tick = { f with age := f.age + 1 }) ∧
  (∀ s : State, s.urgentEvent = true ↔
    s.heldDue = true ∨ s.anyResetDue = true ∨ (∃ p c, s.engine.work = .taken p c) ∨ (∃ p c k, s.engine.work = .resuming p c k) ∨
    (s.running = true ∧ ∃ e, s.array.erase = some e ∧ e.state = .running ∧ s.array.waitEngine ≠ none ∧ 400 ≤ e.sinceResume ∧
      e.suspendCount < 12) ∨
    (∃ x ∈ s.coord.claims, x.remaining = 0 ∧ 1000 ≤ x.overdue) ∨
    (∃ f, s.array.inFlight = some f ∧ f.op.longest ≤ f.age) ∨
    (∃ e, s.array.erase = some e ∧ e.state ≠ .suspended ∧ (9000 ≤ e.accumulated ∨ (e.state = .suspending ∧ 30 ≤ e.stopAge)))) ∧
  (∀ (pos : Pos) (payload : Bool) (b : Body) (g : Seg) (gen : Generation) (n : Nat) (k : MarkKind),
    (ArrayOp.readCell pos payload).longest = 25 ∧ (ArrayOp.programBody pos b).longest = 600 ∧
    (ArrayOp.programHeader g gen n).longest = 600 ∧ (ArrayOp.programMark pos k).longest = 40 ∧
    (ArrayOp.eraseSegment g gen n).longest = 9000)

/-- The machine right after reset, where the specification gives the value: every Port Unit with every byte of its staging buffer (R174, R179); the Engine (R54, R56), whose write sequence counter has no value there; the Coordination Unit (R104); the Guard Unit (R123); the Space Manager, whose table is empty, with no front, no FREE segment, reclaim IDLE and no held request (R134, R136, R139); the Array Controller, with no request of any requester waiting, no erase context, and mount's first read in flight, which R32 grants at its arrival (R39); and the Store Controller, with mount at its first step (R152). The row that stands for the empty table, UNLISTED with counts 0, is the model's choice (log entry 5). And the invariants that the statements below keep hold there. -/
def Obligations.ResetStateIsAsGivenAndInOrder : Prop :=
  (∀ p : Port,
    (State.reset.port p).state = .active ∧ (State.reset.port p).commands = [] ∧ (State.reset.port p).results = [] ∧
    (State.reset.port p).events = [] ∧ (State.reset.port p).slot = .none ∧ (State.reset.port p).flags = 0 ∧
    (State.reset.port p).enables = 0 ∧ (State.reset.port p).notifyActive = false ∧ (State.reset.port p).frame = none ∧
    (∀ i, bufferByteAt (State.reset.port p).buffer i = 0) ∧ State.reset.coord.watches.get p = [] ∧
    guardEmpty (State.reset.guardOfPort p) = true) ∧
  State.reset.engine.work = .idle ∧ State.reset.engine.pointer = .p0 ∧ State.reset.engine.dir = [] ∧ State.reset.engine.move = none ∧
  State.reset.coord.claims = [] ∧
  State.reset.guard.settings.mode = .opened ∧ State.reset.guard.settings.threshold = 4 ∧ State.reset.guard.standing = .defaulted ∧
  State.reset.guard.session = false ∧
  (∀ g : Seg, State.reset.seg g = { state := .unlisted, erases := 0, live := 0, dead := 0, free := 0 }) ∧
  State.reset.front = none ∧ State.reset.freeCount = 0 ∧ State.reset.space.frontFree = [] ∧
  State.reset.space.pass = none ∧ State.reset.space.held = false ∧
  State.reset.array.waitEngine = none ∧ State.reset.array.waitSpace = none ∧ State.reset.array.waitStore = none ∧
  State.reset.array.erase = none ∧ State.reset.array.inFlight = some { requester := .store, op := .readCell ⟨0, 0⟩ false, age := 0 } ∧
  State.reset.store.state = .mounting ∧ State.reset.store.generation = 0 ∧
  State.reset.store.progress = .mounting
    { awaits := .header 0, classes := [], topSeq := 0, high := 0, found := [], targets := [], erases := [] } ∧
  MemoryOk State.reset ∧ QueuesOk State.reset ∧ ResettingOk State.reset ∧ DirectoryOk State.reset ∧ StoreOk State.reset ∧
    DirectoryFits State.reset ∧ ClaimsOk State.reset ∧ WatchesOk State.reset ∧ EraseOk State.reset ∧ FrontOk State.reset ∧ ThresholdOk State.reset ∧
    EngineOk State.reset ∧ ResultsOk State.reset

/-- Every step keeps the array and the staging buffers in canonical form: addresses rising and inside the memory, no entry equal to what an unlisted address reads as. -/
def Obligations.MemoryStaysCanonical : Prop :=
  ∀ s t : State, MemoryOk s → step s = .next t → MemoryOk t

/-- Every step keeps at most 4 commands and 8 events in every port's queues, and never two events of the same kind for the same key. -/
def Obligations.QueuesStayBounded : Prop :=
  ∀ s t : State, QueuesOk s → step s = .next t → QueuesOk t

/-- Every step keeps a RESETTING port without queued commands and without a parked scan. -/
def Obligations.ResettingPortsStayDrained : Prop :=
  ∀ s t : State, ResettingOk s → step s = .next t → ResettingOk t

/-- Every step keeps the directory in strictly ascending key order, so that a key has at most one entry, and within its places: in READY and DEGRADED at most 4,095 entries besides that of the configuration key, and fewer while an update of another key that has no entry is under way, so that its commit finds a place; none in UNFORMATTED, in FORMATTING, in a part that is down and while mount is at its first step; so at most 4,095 and, with the configuration entry, 4,096 in every state but MOUNTING (R40). With it goes what this rests on: a part that is down is MOUNTING, the Engine is IDLE in MOUNTING, an update is under way in READY or DEGRADED only, and the progress of mount or FORMAT belongs to its own store state. Every step keeps the claim table in key order with at most one claim on a key, at most 16 claims and at most 8 of any port; and every watch list in key order with at most 8 entries. -/
def Obligations.OrderedTablesStayInOrder : Prop :=
  (∀ s t : State, DirectoryOk s → step s = .next t → DirectoryOk t) ∧
  (∀ s t : State, DirectoryOk s → StoreOk s → DirectoryFits s → step s = .next t → StoreOk t ∧ DirectoryFits t) ∧
  (∀ s : State, DirectoryOk s → DirectoryFits s → s.store.state ≠ .mounting →
    masterCount s.engine.dir ≤ 4095 ∧ s.engine.dir.length ≤ 4096) ∧
  (∀ d : List Entry, masterCount d = d.countP (fun e => e.key != 0x0000#16)) ∧
  (∀ s t : State, ClaimsOk s → step s = .next t → ClaimsOk t) ∧ ∀ s t : State, WatchesOk s → step s = .next t → WatchesOk t

/-- Every step keeps an erase at no more than 12 suspensions, with no other operation in flight while the erase moves; at most one segment in FRONT, with the front's free cells in ascending order and cell 0 not among them, so that the first of them is the lowest; and the reclaim threshold from 2 to 16. -/
def Obligations.EraseFrontAndThresholdStayInRange : Prop :=
  (∀ s t : State, EraseOk s → step s = .next t → EraseOk t) ∧
  (∀ s t : State, FrontOk s → step s = .next t → FrontOk t) ∧ ∀ s t : State, ThresholdOk s → step s = .next t → ThresholdOk t

/-- Every step keeps, at every port, at most 4 results, one place being kept for the port's current command, so that a result always finds its place (R59, R177), together with what this rests on: the slot of the port whose command the Engine executes is EXECUTING, an array request of the Engine is one at a time and belongs to a command that awaits it, and a held grant request belongs to an update that awaits its grant. -/
def Obligations.ResultsStayBounded : Prop :=
  ∀ s t : State, EngineOk s → ResultsOk s → step s = .next t → EngineOk t ∧ ResultsOk t

/-- A set flag stays set, and the enables stand, at every row but those that may clear or change them; and the session lock lasts until the next hard reset or power-on. -/
def Obligations.FlagsEnablesAndSessionLockStand : Prop :=
  (∀ (i : Instr) (s t : State) (p : Port), exec i s = .next t →
    (clearsFlags p i = false → (t.port p).flags &&& (s.port p).flags = (s.port p).flags) ∧
    (changesEnables p i = false → (t.port p).enables = (s.port p).enables)) ∧
  ∀ (i : Instr) (s t : State), exec i s = .next t → hardReset i = false → s.guard.session = true → t.guard.session = true

/-- What a row leaves alone. No row touches the queue behind it. A frame reaches no block behind its port and no other port's registers: the directory, the array's bytes, guards, segment table, store and lines stand, the claims and watches too unless it is a PORT RESET, and at the other ports at most the slot and command queue of a port the Engine takes then change. A step of an inner block leaves the lines, every port's state and enables, and what the port last drove. And each named update of one field, which the other statements use, replaces that field and leaves all else. -/
def Obligations.RowsKeepToTheirBlocks : Prop :=
  (∀ (c : Instr) (s t : State), exec c s = .next t → t.pending = s.pending) ∧
  (∀ (i : Instr) (p : Port) (s t : State), framePort i = some p → exec i s = .next t →
    t.engine.dir = s.engine.dir ∧ t.engine.move = s.engine.move ∧ t.engine.seq = s.engine.seq ∧ t.guard = s.guard ∧
    t.space = s.space ∧ t.store = s.store ∧ t.pins = s.pins ∧ t.array.cells = s.array.cells ∧
    ((∀ m, i ≠ .portReset p m) → t.coord = s.coord) ∧
    ∀ q, q ≠ p →
      t.coord.watches.get q = s.coord.watches.get q ∧ (t.port q).state = (s.port q).state ∧ (t.port q).frame = (s.port q).frame ∧
      (t.port q).dataOut = (s.port q).dataOut ∧ (t.port q).buffer = (s.port q).buffer ∧ (t.port q).results = (s.port q).results ∧
      (t.port q).events = (s.port q).events ∧ (t.port q).flags = (s.port q).flags ∧ (t.port q).enables = (s.port q).enables) ∧
  (∀ (i : Instr) (s t : State), innerRow i = true → exec i s = .next t →
    t.pins = s.pins ∧
    ∀ p, (t.port p).state = (s.port p).state ∧ (t.port p).enables = (s.port p).enables ∧ (t.port p).dataOut = (s.port p).dataOut) ∧
  (∀ (s : State) (p q : Port) (u : PortUnit) (ws : List Watch),
    (s.setPort p u).port q = (if q = p then u else s.port q) ∧ s.setPort p u = { s with ports := (s.setPort p u).ports } ∧
    (s.setWatches p ws).coord.watches.get q = (if q = p then ws else s.coord.watches.get q) ∧
    s.setWatches p ws = { s with coord := { s.coord with watches := (s.setWatches p ws).coord.watches } }) ∧
  (∀ (s : State) (w : Work) (p : Port) (d : List Entry) (m : Option Move) (n : SeqNo),
    s.setWork w = { s with engine := { s.engine with work := w } } ∧ s.setPointer p = { s with engine := { s.engine with pointer := p } } ∧
    s.setDir d = { s with engine := { s.engine with dir := d } } ∧ s.setMove m = { s with engine := { s.engine with move := m } } ∧
    s.setSeq n = { s with engine := { s.engine with seq := n } }) ∧
  (∀ (s : State) (cs : List Claim) (g : GuardUnit) (v : Vector SegRow 256) (l : List CellNo) (q : Option Pass) (b : Bool),
    s.setClaims cs = { s with coord := { s.coord with claims := cs } } ∧ s.setGuard g = { s with guard := g } ∧
    s.setSegs v = { s with space := { s.space with segs := v } } ∧ s.setFrontFree l = { s with space := { s.space with frontFree := l } } ∧
    s.setPass q = { s with space := { s.space with pass := q } } ∧ s.setHeld b = { s with space := { s.space with held := b } }) ∧
  (∀ (s : State) (g h : Seg) (r : SegRow) (st : SegState),
    (s.setSeg g r).seg h = (if h = g then r else s.seg h) ∧ s.setSeg g r = s.setSegs (s.setSeg g r).space.segs ∧
    s.setSegState g st = s.setSeg g { s.seg g with state := st } ∧ s.seg h = s.space.segs[h]) ∧
  (∀ (s : State) (c : List Host.Cell) (f : Option InFlight) (e : Option EraseCtx) (op : ArrayOp),
    s.setCells c = { s with array := { s.array with cells := c } } ∧ s.setInFlight f = { s with array := { s.array with inFlight := f } } ∧
    s.setErase e = { s with array := { s.array with erase := e } } ∧
    s.presentEngine op = { s with array := { s.array with waitEngine := some op } } ∧
    s.presentSpace op = { s with array := { s.array with waitSpace := some op } } ∧
    s.presentStore op = { s with array := { s.array with waitStore := some op } }) ∧
  (∀ (s : State) (st : StoreState) (g : Generation) (x : Progress) (y : Pins) (l : List Instr),
    s.setStoreState st = { s with store := { s.store with state := st } } ∧
    s.setGeneration g = { s with store := { s.store with generation := g } } ∧
    s.setProgress x = { s with store := { s.store with progress := x } } ∧ s.setPins y = { s with pins := y } ∧
    s.setPending l = { s with pending := l }) ∧
  (∀ (α : Type) (q : Quad α) (p r : Port) (x : α), q.get .p0 = q.p0 ∧ q.get .p1 = q.p1 ∧ q.get .p2 = q.p2 ∧ q.get .p3 = q.p3 ∧
    (q.set p x).get r = if r = p then x else q.get r) ∧
  (∀ (s : State) (p : Port), s.port p = s.ports.get p)

/-- GUARD_EN is sampled only where it is said to be (R125): at every row but GUARD READ and the line's own change, GUARD SET and FORMAT included unless the lock mode in force is PIN with the session lock not set, what happens does not depend on its level, and no row but its own changes it. -/
def Obligations.GuardEnIsSampledOnlyWhereSaid : Prop :=
  (∀ (i : Instr) (s : State) (level : Bool), i ≠ .guardRead → (∀ l, i ≠ .guardEnChange l) →
    (i = .guardSet ∨ i = .format → s.guard.modeInForce ≠ .pin ∨ s.guard.session = true) →
    exec i (s.atLevel level) = outcomeAtLevel level (exec i s)) ∧
  (∀ (i : Instr) (s t : State), (∀ l, i ≠ .guardEnChange l) → exec i s = .next t → t.pins.guardEn = s.pins.guardEn) ∧
  (∀ (s t : State) (level : Bool), s.pending = [] → step s = .next t → step (s.atLevel level) = .next (t.atLevel level))

/-! ## Frames -/

/-- STATUS READ (R175): its bytes are fixed at the end of the kind byte from the state as it stands, they hold the eight things the rule lists, later bytes read 00h, and it is answered in every state and changes nothing but what the port drives. -/
def Obligations.StatusReadReturnsTheState : Prop :=
  (∀ (s : State) (p : Port) (n : Nat), s.running = true → (s.port p).frame = none → 1 ≤ n →
    exec (.statusRead p (.entire n true)) s = .next (s.ended p (padTo n (0 :: statusBytes s p)))) ∧
  (∀ (s : State) (p : Port) (f : Frame), s.running = true → (s.port p).frame = some f → f.kind = .statusRead → f.record = none →
    exec (.statusRead p .kindByte) s =
      .next (s.setPort p { s.port p with frame := some { f with record := some (statusBytes s p), removable := false } })) ∧
  (∀ (s : State) (p : Port) (f : Frame) (bs : List Byte) (n : Nat), s.running = true → (s.port p).frame = some f →
    f.kind = .statusRead → f.record = some bs → 1 ≤ n →
    exec (.statusRead p (.release n true)) s = .next (s.ended p (padTo n (0 :: bs)))) ∧
  (∀ (s : State) (p : Port), (s.port p).commands.length ≤ 4 → (s.port p).results.length ≤ 4 → (s.port p).events.length ≤ 8 →
    ∃ b1 b2 b3 b4 : Byte, statusBytes s p = [b1, b2, b3, b4] ∧
      b1.toNat / 16 = (storeCode s.store.state).toNat ∧ b1.getLsbD 3 = ((s.port p).state == .resetting) ∧
      b1.toNat % 8 = (slotCode (s.port p).slot).toNat ∧
      b2.toNat = 16 * (s.port p).commands.length + (s.port p).results.length ∧
      b3.toNat = 16 * (s.port p).events.length + (s.port p).enables.toNat ∧
      b4.toNat = (s.port p).flags.toNat) ∧
  (∀ c k, slotCode .none = 0 ∧ slotCode .executing = 1 ∧ slotCode (.parked c k) = 2) ∧
  (storeCode .mounting = 0 ∧ storeCode .unformatted = 1 ∧ storeCode .formatting = 2 ∧ storeCode .ready = 3 ∧ storeCode .degraded = 4) ∧
  (∀ (n : Nat) (bs : List Byte), (padTo n bs).length = n ∧ ∀ i, i < n → (padTo n bs).getD i 0 = bs.getD i 0) ∧
  (∀ (s : State) (p : Port) (out : List Byte), s.ended p out = s.setPort p { s.port p with frame := none, dataOut := out })

/-- A well-formed COMMAND frame at an ACTIVE port queues its command as the newest when the queue holds fewer than 4, and otherwise sets QUEUE_FULL and queues nothing. -/
def Obligations.CommandFrameQueuesItsCommand : Prop :=
  ∀ (s : State) (p : Port) (code tag : Byte) (params : Vector Byte 16) (n : Nat), s.listens p → 19 ≤ n →
    exec (.command p (.entire n true) code tag params) s =
      .next (if (s.port p).commands.length < 4 then
          State.settle (s.setPort p
            { s.port p with dataOut := List.replicate n 0,
                            commands := (s.port p).commands ++ [{ code := code, tag := tag, params := params }] })
        else
          s.setPort p { s.port p with dataOut := List.replicate n 0, flags := (s.port p).flags ||| flagQueueFull })

/-- RESULT READ (R178): the record is fixed at the end of the kind byte, a copy of the oldest result or EMPTY; later bytes read 00h; at the end the oldest result is removed exactly when the record was a result, all 14 bytes were clocked and the frame is not refused; and the removal is followed by the arbiter's look for an eligible port. The record is laid out as Table 11-5 gives it, most significant byte first, with the class codes there and the reason codes of Table 11-6. -/
def Obligations.ResultReadRemovesWhatItReturned : Prop :=
  (∀ (s : State) (p : Port) (f : Frame), s.running = true → (s.port p).frame = some f → f.kind = .resultRead → f.resetting = false →
    f.record = none →
    exec (.resultRead p .kindByte) s =
      .next (s.setPort p { s.port p with
        frame := some (match (s.port p).results with
          | r :: _ => { f with record := some (resultBytes r), removable := true }
          | [] => { f with record := some emptyResultBytes, removable := false }) })) ∧
  (∀ (s : State) (p : Port) (f : Frame) (bs : List Byte) (n : Nat), s.running = true → (s.port p).frame = some f →
    f.kind = .resultRead → f.resetting = false → f.record = some bs → 1 ≤ n →
    exec (.resultRead p (.release n true)) s =
      .next (if f.removable = true ∧ 15 ≤ n then
          State.settle (s.setPort p
            { s.port p with frame := none, dataOut := padTo n (0 :: bs), results := (s.port p).results.tail })
        else s.ended p (padTo n (0 :: bs)))) ∧
  (∀ (s t : State) (p : Port) (n : Nat), exec (.resultRead p (.release n false)) s = .next t →
    (t.port p).results = (s.port p).results) ∧
  (∀ (s : State) (p : Port) (n : Nat), s.listens p → 1 ≤ n →
    exec (.resultRead p (.entire n true)) s =
      .next (match (s.port p).results with
        | r :: rest =>
          if 15 ≤ n then
            State.settle (s.setPort p { s.port p with dataOut := padTo n (0 :: resultBytes r), results := rest })
          else s.ended p (padTo n (0 :: resultBytes r))
        | [] => s.ended p (padTo n (0 :: emptyResultBytes)))) ∧
  (∀ r : Result, (resultBytes r).length = 14) ∧ emptyResultBytes.length = 14 ∧ emptyResultBytes.getD 2 0 = 0xFF ∧
  (∀ i, i ≠ 2 → emptyResultBytes.getD i 0 = 0) ∧
  (∀ r : Result, resultBytes r =
    [r.tag, r.code, (match r.cls with
        | .normal => 0x00
        | .abnormal => 0x01
        | .invalid => 0x02
        | .abandoned => 0x03), r.reason, r.key.extractLsb' 8 8, r.key.extractLsb' 0 8, r.version.extractLsb' 24 8,
      r.version.extractLsb' 16 8, r.version.extractLsb' 8 8, r.version.extractLsb' 0 8, r.count.extractLsb' 8 8, r.count.extractLsb' 0 8,
      r.aux.extractLsb' 8 8, r.aux.extractLsb' 0 8]) ∧
  (reasonCode .done = 0x00 ∧ reasonCode .endOfRecord = 0x01 ∧ reasonCode .bufferEnd = 0x02 ∧ reasonCode .stopByte = 0x03 ∧
    reasonCode .rangeEnd = 0x04 ∧ reasonCode .limit = 0x05 ∧ reasonCode .created = 0x06 ∧ reasonCode .renewed = 0x07) ∧
  (reasonCode .notFormatted = 0x10 ∧ reasonCode .readOnly = 0x11 ∧ reasonCode .guarded = 0x12 ∧ reasonCode .permanent = 0x13 ∧
    reasonCode .claimed = 0x14 ∧ reasonCode .exists_ = 0x15 ∧ reasonCode .versionMismatch = 0x16 ∧ reasonCode .notFound = 0x17 ∧
    reasonCode .beyondEnd = 0x18 ∧ reasonCode .directoryFull = 0x19 ∧ reasonCode .versionExhausted = 0x1A ∧
    reasonCode .programFail = 0x1B ∧ reasonCode .dataCheck = 0x1C ∧ reasonCode .claimBusy = 0x1D ∧ reasonCode .claimFull = 0x1E ∧
    reasonCode .notHolder = 0x1F ∧ reasonCode .watchFull = 0x20 ∧ reasonCode .locked = 0x21 ∧ reasonCode .generationExhausted = 0x22) ∧
  (reasonCode .badKey = 0x30 ∧ reasonCode .badField = 0x31 ∧ reasonCode .badRange = 0x32 ∧ reasonCode .tooLong = 0x33 ∧
    reasonCode .badCommand = 0x34 ∧ reasonCode .stateChanged = 0x40)

/-- EVENT READ (R186): the record is fixed at the end of the kind byte, a copy of the oldest event or EMPTY; later bytes read 00h; at the end the oldest event is removed exactly when the record was an event, all 10 bytes were clocked, the frame is not refused and no offer has merged into that event since the record was fixed. An offer that merges into the oldest event before that, one that merges into another event, and one placed as the newest prevent nothing, and an offer changes no other frame. The record has the layout of the four columns of Table 11-8, with the codes of Table 11-1. -/
def Obligations.EventReadRemovesWhatItReturned : Prop :=
  (∀ (s : State) (p : Port) (f : Frame), s.running = true → (s.port p).frame = some f → f.kind = .eventRead → f.resetting = false →
    f.record = none →
    exec (.eventRead p .kindByte) s =
      .next (s.setPort p { s.port p with
        frame := some (match (s.port p).events with
          | e :: _ => { f with record := some (eventBytes e), removable := true }
          | [] => { f with record := some emptyEventBytes, removable := false }) })) ∧
  (∀ (s : State) (p : Port) (f : Frame) (bs : List Byte) (n : Nat), s.running = true → (s.port p).frame = some f →
    f.kind = .eventRead → f.resetting = false → f.record = some bs → 1 ≤ n →
    exec (.eventRead p (.release n true)) s =
      .next (if f.removable = true ∧ 11 ≤ n ∧ f.merged = false then
          s.setPort p { s.port p with frame := none, dataOut := padTo n (0 :: bs), events := (s.port p).events.tail }
        else s.ended p (padTo n (0 :: bs)))) ∧
  (∀ (s t : State) (p : Port) (n : Nat), exec (.eventRead p (.release n false)) s = .next t →
    (t.port p).events = (s.port p).events) ∧
  (∀ (s : State) (p : Port) (n : Nat), s.listens p → 1 ≤ n →
    exec (.eventRead p (.entire n true)) s =
      .next (match (s.port p).events with
        | e :: rest =>
          if 11 ≤ n then s.setPort p { s.port p with dataOut := padTo n (0 :: eventBytes e), events := rest }
          else s.ended p (padTo n (0 :: eventBytes e))
        | [] => s.ended p (padTo n (0 :: emptyEventBytes)))) ∧
  (∀ (u : PortUnit) (f : Frame) (bs : List Byte) (h e m : Event) (rest : List Event), u.state = .active → u.frame = some f →
    f.kind = .eventRead → f.record = some bs → u.events = h :: rest → h.merge e = some m →
    (u.offer e).frame = some { f with merged := true } ∧ (u.offer e).events = m :: rest) ∧
  (∀ (u : PortUnit) (e h : Event) (rest : List Event), u.events = h :: rest → h.merge e = none →
    (u.offer e).frame = u.frame ∧ (u.offer e).events.head? = some h) ∧
  (∀ (u : PortUnit) (f : Frame) (e : Event), u.frame = some f → f.kind ≠ .eventRead ∨ f.record = none → (u.offer e).frame = some f) ∧
  (∀ e : Event, (eventBytes e).length = 10) ∧ emptyEventBytes = List.replicate 10 0 ∧
  (∀ (k : Key) (t : Triggers) (v : Version) (a : Author), eventBytes (.watchHit k t v a) =
    [0x01, t.setWidth 8, k.extractLsb' 8 8, k.extractLsb' 0 8, v.extractLsb' 24 8, v.extractLsb' 16 8, v.extractLsb' 8 8,
      v.extractLsb' 0 8, authorCode a, 0]) ∧
  (∀ (k : Key) (h : Port) (c : LossCause), eventBytes (.claimLost k h c) =
    [0x02, 0, k.extractLsb' 8 8, k.extractLsb' 0 8, 0, 0, 0, 0, portCode h, (match c with
      | .expired => 0x01
      | .format => 0x02)]) ∧
  (∀ (st : StoreState) (g : Generation), eventBytes (.storeState st g) =
    [0x03, 0, 0xFF, 0xFF, 0, 0, g.extractLsb' 8 8, g.extractLsb' 0 8, 0, storeCode st]) ∧
  (∀ (p : Port) (m : LockMode) (session : Bool) (v : Version), eventBytes (.guardChanged p m session v) =
    [0x04, if session then 1 else 0, 0, 0, v.extractLsb' 24 8, v.extractLsb' 16 8, v.extractLsb' 8 8, v.extractLsb' 0 8, portCode p,
      lockCode m]) ∧
  (portCode .p0 = 0 ∧ portCode .p1 = 1 ∧ portCode .p2 = 2 ∧ portCode .p3 = 3 ∧ (∀ p, authorCode (.port p) = portCode p) ∧
    authorCode .internal = 4 ∧ lockCode .opened = 0 ∧ lockCode .pin = 1 ∧ lockCode .fixed = 2 ∧ storeCode .mounting = 0 ∧
    storeCode .unformatted = 1 ∧ storeCode .formatting = 2 ∧ storeCode .ready = 3 ∧ storeCode .degraded = 4)

/-- BUFFER WRITE (R180): at a well-formed frame's end the data are stored in one act, the first at the offset and each following one at the next position; a byte whose position would exceed 2047 is discarded and sets BUFFER_EDGE at the same moment; every other position keeps its byte; nothing else changes. A frame with no data stores nothing and sets no flag, and a refused one stores nothing. -/
def Obligations.BufferWriteStoresItsData : Prop :=
  (∀ (s : State) (p : Port) (offset : Half) (data : List Byte), s.listens p →
    ∃ b : List Host.Cell,
      exec (.bufferWrite p (.entire (data.length + 3) true) offset data) s =
        .next (s.setPort p
          { s.port p with
            dataOut := List.replicate (data.length + 3) 0
            buffer := b
            flags := if data ≠ [] ∧ 2048 < offset.toNat + data.length then (s.port p).flags ||| flagBufferEdge else (s.port p).flags }) ∧
      ∀ x, bufferByteAt b x =
        if offset.toNat ≤ x ∧ x < offset.toNat + data.length ∧ x < 2048 then data.getD (x - offset.toNat) 0
        else bufferByteAt (s.port p).buffer x) ∧
  (∀ (s : State) (p : Port) (n : Nat) (whole : Bool) (offset : Half) (data : List Byte), s.listens p → (whole = false ∨ n < 3) →
    exec (.bufferWrite p (.entire n whole) offset data) s =
      .next (s.setPort p { s.port p with dataOut := List.replicate n 0, flags := (s.port p).flags ||| flagRefused })) ∧
  (∀ (b : List Host.Cell) (offset : Nat) (bs : List Byte) (x : Nat),
    bufferByteAt (bufferStore b offset bs) x =
      if offset ≤ x ∧ x < offset + bs.length ∧ x < 2048 then bs.getD (x - offset) 0 else bufferByteAt b x)

/-- BUFFER READ (R181): from its fourth byte on the port returns the buffer from the offset, each byte as it stands when it begins to be clocked out; positions above 2047 return 00h; BUFFER_EDGE is set at the end when such a position was clocked out and the frame is not refused; no buffer byte changes. -/
def Obligations.BufferReadReturnsTheBuffer : Prop :=
  (∀ (s : State) (p : Port) (offset : Half) (n : Nat), s.listens p → 3 ≤ n →
    exec (.bufferRead p (.entire n true) offset) s =
      .next (s.setPort p
        { s.port p with
          dataOut := [0, 0, 0] ++ bufferTake (s.port p).buffer offset.toNat (n - 3)
          flags := if 3 < n ∧ 2048 < offset.toNat + (n - 3) then (s.port p).flags ||| flagBufferEdge else (s.port p).flags })) ∧
  (∀ (s : State) (p : Port) (f : Frame) (offset : Half), s.running = true → (s.port p).frame = some f → f.kind = .bufferRead →
    f.resetting = false →
    exec (.bufferRead p .byteOut offset) s =
      .next (s.setPort p { s.port p with
        frame := some { f with out := f.out ++ [bufferByteAt (s.port p).buffer (offset.toNat + f.out.length)] } })) ∧
  (∀ (s : State) (p : Port) (f : Frame) (offset : Half) (n : Nat), s.running = true → (s.port p).frame = some f → f.kind = .bufferRead →
    f.resetting = false → n = 3 + f.out.length →
    exec (.bufferRead p (.release n true) offset) s =
      .next (s.setPort p
        { s.port p with
          frame := none
          dataOut := [0, 0, 0] ++ f.out
          flags := if 3 < n ∧ 2048 < offset.toNat + (n - 3) then (s.port p).flags ||| flagBufferEdge else (s.port p).flags })) ∧
  (∀ (b : List Host.Cell) (x : Nat), 2048 ≤ x → bufferByteAt b x = 0) ∧
  (∀ (s : State) (p : Port) (offset : Half) (n : Nat) (whole : Bool), s.listens p → (whole = false ∨ n < 3) →
    ∃ out, exec (.bufferRead p (.entire n whole) offset) s =
      .next (s.setPort p { s.port p with dataOut := out, flags := (s.port p).flags ||| flagRefused })) ∧
  (∀ (b : List Host.Cell) (offset n : Nat), bufferTake b offset n = (List.range n).map (fun i => bufferByteAt b (offset + i)))

/-- NOTIFY SET and NOTIFY CLEAR (R183): each named enable is added or removed at the frame's end, the others are kept, mask bits that name no enable are not examined; the set is emptied when a port reset proceeds and at hard reset. A sticky flag (R182) is set by its cause whether or not it was set, leaving the other four, and stays set at every row but those that clear flags; FLAGS CLEAR clears every named flag, keeps the others, and examines no other mask bit; all five are clear when a port reset proceeds and at hard reset. None of the three frames changes anything else. -/
def Obligations.MaskFramesChangeTheNamedBits : Prop :=
  (∀ (s : State) (p : Port) (n : Nat) (mask : Byte), s.listens p → 2 ≤ n →
    exec (.notifySet p (.entire n true) mask) s =
        .next (s.setPort p { s.port p with dataOut := List.replicate n 0, enables := addEnables (s.port p).enables mask }) ∧
    exec (.notifyClear p (.entire n true) mask) s =
        .next (s.setPort p { s.port p with dataOut := List.replicate n 0, enables := removeEnables (s.port p).enables mask })) ∧
  (∀ (en : Enables) (mask : Byte) (i : Nat), i < 3 →
    (addEnables en mask).getLsbD i = (en.getLsbD i || mask.getLsbD i) ∧
    (removeEnables en mask).getLsbD i = (en.getLsbD i && !mask.getLsbD i)) ∧
  (∀ (s : State) (p : Port), ((s.proceedReset p).port p).enables = 0 ∧ ((s.proceedReset p).port p).flags = 0) ∧
  (∀ (s : State) (p : Port) (cut eraseCut : List Host.Cell), s.running = true →
    ∃ t, exec (.resetNLow cut eraseCut) s = .next t ∧ (t.port p).enables = 0 ∧ (t.port p).flags = 0) ∧
  (∀ (s : State) (p : Port) (f : Flags), s.setFlag p f = s.setPort p { s.port p with flags := (s.port p).flags ||| f }) ∧
  (flagRefused = 0b00001#5 ∧ flagQueueFull = 0b00010#5 ∧ flagEventLost = 0b00100#5 ∧ flagBufferEdge = 0b01000#5 ∧
    flagGuardHit = 0b10000#5) ∧
  (∀ (i : Instr) (s t : State) (p : Port), exec i s = .next t → clearsFlags p i = false →
    (t.port p).flags &&& (s.port p).flags = (s.port p).flags) ∧
  (∀ (s : State) (p : Port) (n : Nat) (mask : Byte), s.listens p → 2 ≤ n →
    exec (.flagsClear p (.entire n true) mask) s =
      .next (s.setPort p { s.port p with dataOut := List.replicate n 0, flags := clearFlags (s.port p).flags mask })) ∧
  ∀ (fl : Flags) (mask : Byte) (i : Nat), i < 5 → (clearFlags fl mask).getLsbD i = (fl.getLsbD i && !mask.getLsbD i)

/-- A PORT RESET frame at an ACTIVE port: the queued commands are discarded and a parked scan is dropped with no result; while a command executes the port is RESETTING and all else stands; otherwise the reset proceeds at once. A port reset proceeds (R188) when the port is RESETTING with no current command: result and event queue emptied, flags and enables cleared, every claim of the port removed with no event at any port, its watch list emptied, the port ACTIVE; buffer and the other ports stand, and the arbiter looks again. The premise that a RESETTING port has no queued command is an invariant of the model. -/
def Obligations.PortResetArrivesAndProceeds : Prop :=
  (∀ (s : State) (p : Port) (n : Nat), s.listens p → 1 ≤ n →
    ((s.port p).slot = .executing →
      exec (.portReset p (.entire n true)) s =
        .next (s.setPort p { s.port p with dataOut := List.replicate n 0, state := .resetting, commands := [] })) ∧
    ((s.port p).slot ≠ .executing →
      exec (.portReset p (.entire n true)) s =
        .next (((s.setPort p
          { s.port p with
            dataOut := List.replicate n 0, state := .active, commands := [], slot := .none, results := [], events := [], flags := 0,
            enables := 0 }).setClaims (s.coord.claims.filter (fun x => x.holder != p))).setWatches p []))) ∧
  (∀ (s : State) (p : Port), s.running = true → (s.port p).state = .resetting → (s.port p).slot = .none → ResettingOk s →
    ∃ t : State, exec (.portResetProceed p) s = .next t.settle ∧
      t.port p = { s.port p with state := .active, results := [], events := [], flags := 0, enables := 0 } ∧
      (t.port p).commands = [] ∧ (t.port p).notifyActive = false ∧ t.eligible p = false ∧
      (∀ q, q ≠ p → t.port q = s.port q) ∧
      t.coord.claims = s.coord.claims.filter (fun x => x.holder != p) ∧
      t.coord.watches.get p = [] ∧ (∀ q, q ≠ p → t.coord.watches.get q = s.coord.watches.get q) ∧
      t.engine = s.engine ∧ t.guard = s.guard ∧ t.space = s.space ∧ t.array = s.array ∧ t.store = s.store ∧ t.pins = s.pins)

/-- A frame that is cut mid-byte, shorter than its kind's minimum, or of an unknown kind has no effect at an ACTIVE port but REFUSED; at a RESETTING port every frame but STATUS READ is refused, drives 00h and sets no flag, and so is one during which the port was RESETTING, also when the reset has proceeded before its end; a part without power or held in hard reset ignores its select lines. -/
def Obligations.RefusedFramesHaveNoEffect : Prop :=
  (∀ (i : Instr) (p : Port) (k : FrameKind) (n : Nat) (whole : Bool) (s : State),
    framePort i = some p → frameOf i = some (k, .entire n whole) → i.wellFormed = true → s.running = true → (s.port p).frame = none →
    ((s.port p).state = .active → whole = false ∨ n < k.minimum ∨ k = .unknown →
      ∃ out, exec i s = .next ((s.ended p out).setFlag p flagRefused) ∧ (k = .unknown → out = List.replicate n 0)) ∧
    ((s.port p).state = .resetting → k ≠ .statusRead → exec i s = .next (s.ended p (List.replicate n 0)))) ∧
  (∀ (i : Instr) (p : Port) (k : FrameKind) (f : Frame) (n : Nat) (whole : Bool) (s : State),
    framePort i = some p → frameOf i = some (k, .release n whole) → i.wellFormed = true → s.running = true →
    (s.port p).frame = some f → f.kind = k → f.resetting = true → k ≠ .statusRead →
    ∃ out, exec i s = .next (s.ended p out) ∧ (f.record = none → out = List.replicate n 0)) ∧
  (∀ (i : Instr) (p : Port) (k : FrameKind) (m : FrameMoment) (f : Frame) (s : State),
    framePort i = some p → frameOf i = some (k, m) → i.wellFormed = true → s.running = true → m = .kindByte ∨ m = .byteOut →
    (s.port p).frame = some f → f.kind = k → f.resetting = true → k ≠ .statusRead → exec i s = .next s) ∧
  (FrameKind.statusRead.minimum = 1 ∧ FrameKind.command.minimum = 19 ∧ FrameKind.resultRead.minimum = 1 ∧
    FrameKind.eventRead.minimum = 1 ∧ FrameKind.bufferWrite.minimum = 3 ∧ FrameKind.bufferRead.minimum = 3 ∧
    FrameKind.notifySet.minimum = 2 ∧ FrameKind.notifyClear.minimum = 2 ∧ FrameKind.flagsClear.minimum = 2 ∧
    FrameKind.portReset.minimum = 1) ∧
  ∀ (i : Instr) (p : Port) (s : State), framePort i = some p → i.wellFormed = true → s.running = false → exec i s = .next s

/-- The notify line (R184): active exactly while an enabled condition holds, in either port state; pulled low while active and left high otherwise. -/
def Obligations.NotifyLineFollowsItsConditions : Prop :=
  ∀ u : PortUnit,
    (u.notifyActive = true ↔
      (u.enables.getLsbD 0 = true ∧ 1 ≤ u.results.length) ∨ (u.enables.getLsbD 1 = true ∧ 1 ≤ u.events.length) ∨
        (u.enables.getLsbD 2 = true ∧ ∃ i, i < 5 ∧ u.flags.getLsbD i = true)) ∧
    (u.notifyLevel = false ↔ u.notifyActive = true)

/-- A frame taken in its moments, select, kind byte and release, with nothing between them, does what the whole frame does (log entry 3). -/
def Obligations.FrameInMomentsIsTheWholeFrame : Prop :=
  ∀ (i : Instr) (p : Port) (n : Nat) (whole : Bool) (s a b : State),
    framePort i = some p → s.running = true → (s.port p).frame = none →
    exec (atMoment .select i) s = .next a →
    ((1 ≤ n → exec (atMoment .kindByte i) a = .next b →
        exec (atMoment (.release n whole) i) b = exec (atMoment (.entire n whole) i) s) ∧
      exec (atMoment (.release 0 whole) i) a = exec (atMoment (.entire 0 whole) i) s)

/-! ## Lines and power -/

/-- RESET_N low and power loss cut a running part and end all volatile state; RESET_N high and power-on begin mount; the other levels of the two lines change nothing but the line. A part that is already down keeps what it holds, and power cannot come on or go twice: the model's choice (log entries 2 and 17). -/
def Obligations.HardResetAndPowerEndVolatileState : Prop :=
  (∀ (s : State) (cut eraseCut : List Host.Cell),
    exec (.resetNLow cut eraseCut) s = .next
      ((if s.running = true then s.volatileReset (cutArray s.array cut eraseCut) else s).setPins { s.pins with resetN := false })) ∧
  (∀ s : State,
    exec .resetNHigh s = .next
      ((if s.pins.power = true ∧ s.pins.resetN = false then s.startMount else s).setPins { s.pins with resetN := true })) ∧
  (∀ (s : State) (cut eraseCut : List Host.Cell), s.pins.power = true →
    exec (.powerLoss cut eraseCut) s =
      .next ((s.volatileReset (cutArray s.array cut eraseCut)).setPins { s.pins with power := false })) ∧
  (∀ (s : State) (cut eraseCut : List Host.Cell), s.pins.power = false → exec (.powerLoss cut eraseCut) s = .refused .notDue) ∧
  (∀ s : State, s.pins.power = true → exec .powerOn s = .refused .notDue) ∧
  (∀ s : State, s.pins.power = false →
    ∃ t, exec .powerOn s = .next t ∧ t.pins = { s.pins with power := true } ∧ t.array.cells = s.array.cells ∧
      t.ports = State.reset.ports ∧ t.engine = State.reset.engine ∧ t.coord = State.reset.coord ∧ t.guard = State.reset.guard ∧
      t.space = State.reset.space ∧ (s.pins.resetN = true → t.store = State.reset.store ∧ t.array = ArrayCtl.reset s.array.cells)) ∧
  (∀ (s : State) (cells : List Host.Cell),
    (s.volatileReset cells).ports = State.reset.ports ∧ (s.volatileReset cells).engine = State.reset.engine ∧
    (s.volatileReset cells).coord = State.reset.coord ∧ (s.volatileReset cells).guard = State.reset.guard ∧
    (s.volatileReset cells).space = State.reset.space ∧ (s.volatileReset cells).store.state = .mounting ∧
    (s.volatileReset cells).store.generation = 0 ∧ (s.volatileReset cells).array.cells = cells ∧
    (s.volatileReset cells).array.inFlight = none ∧ (s.volatileReset cells).array.erase = none ∧
    (s.volatileReset cells).array.waitEngine = none ∧ (s.volatileReset cells).array.waitSpace = none ∧
    (s.volatileReset cells).array.waitStore = none) ∧
  (∀ s : State,
    s.startMount.ports = s.ports ∧ s.startMount.engine = s.engine ∧ s.startMount.coord = s.coord ∧ s.startMount.guard = s.guard ∧
    s.startMount.space = s.space ∧ s.startMount.store = State.reset.store ∧ s.startMount.array = ArrayCtl.reset s.array.cells)

/-- A cut leaves every byte of the array outside the operation's part; a cut header reads BAD; a cut erase leaves a segment that mount classes DAMAGED, with no retired indication; a cut retired mark reads as retired; a body cut in a cell whose marks read erased leaves it ALLOCATED or TORN; a cut commit or supersede mark leaves a position that reads erased or disturbed, or present where an update's mark or a repair mark was cut: never the commit mark of mount's or FORMAT's configuration record, nor a mark of a reclaim pass (Table 2-10, R80, R164, R169; log entry 9). -/
def Obligations.CutLeavesTheRestOfTheArray : Prop :=
  (∀ (cells left : List Host.Cell) (r : Requester) (op : ArrayOp) (a : Nat), op.spares a →
    arrayByte (cutOp cells r left op) a = arrayByte cells a) ∧
  (∀ (cells left : List Host.Cell) (r : Requester) (g : Seg) (gen : Generation) (count : Nat),
    (readHeader (cutOp cells r left (.programHeader g gen count)) g).cond = .bad) ∧
  (∀ (cells left : List Host.Cell) (r : Requester) (g : Seg) (gen : Generation) (count : Nat),
    (readHeader (cutOp cells r left (.eraseSegment g gen count)) g).retired = false ∧
    ((readHeader (cutOp cells r left (.eraseSegment g gen count)) g).cond = .bad ∨
      ((readHeader (cutOp cells r left (.eraseSegment g gen count)) g).cond = .erased ∧
        ∃ c : CellNo, c ≠ 0 ∧ (readData (cutOp cells r left (.eraseSegment g gen count)) ⟨g, c⟩).cond ≠ .erased))) ∧
  (∀ (cells left : List Host.Cell) (r : Requester) (g : Seg),
    markWord (cutOp cells r left (.programMark ⟨g, 0⟩ .first)) ⟨g, 0⟩ .first ≠ Config.markErased) ∧
  (∀ (cells left : List Host.Cell) (r : Requester) (pos : Pos) (b : Body), markWord cells pos .first = Config.markErased →
    markWord cells pos .second = Config.markErased →
    (readData (cutOp cells r left (.programBody pos b)) pos).cond = .allocated ∨
      (readData (cutOp cells r left (.programBody pos b)) pos).cond = .torn) ∧
  (∀ (cells left : List Host.Cell) (r : Requester) (pos : Pos) (k : MarkKind), pos.cell ≠ 0 → markWord cells pos k ≠ Config.markPresent →
    markWord (cutOp cells r left (.programMark pos k)) pos k = Config.markPresent →
    markWord cells pos k = Config.markErased ∧ (r = .engine ∨ (r = .store ∧ k = .second))) ∧
  (∀ (cells left : List Host.Cell) (r : Requester) (pos : Pos) (payload : Bool), cutOp cells r left (.readCell pos payload) = cells) ∧
  (∀ (a : ArrayCtl) (cut eraseCut : List Host.Cell),
    ∃ cells : List Host.Cell,
      (∀ f, a.inFlight = some f → cells = cutOp a.cells f.requester cut f.op) ∧ (a.inFlight = none → cells = a.cells) ∧
      (∀ e, a.erase = some e → cutArray a cut eraseCut = cutOp cells .space eraseCut (.eraseSegment e.seg e.generation e.count)) ∧
      (a.erase = none → cutArray a cut eraseCut = cells))

/-! ## Ends and refusals of commands -/

/-- A command ends: its port's slot becomes NONE and the Engine IDLE; its result is the newest of the queue at an ACTIVE port and is discarded at a RESETTING one; nothing else changes. A result carries its command's tag and code; an IC result has version, count and aux 0. A code that names no command ends IC BAD_COMMAND with key FFFFh; each of the nine single-key commands ends IC BAD_KEY, repeating the key, when the key is 0000h or FFFFh; and nothing else changes. The command codes are those of Table 11-4. -/
def Obligations.CommandsEndAndBadOnesAreRefused : Prop :=
  (∀ (s : State) (p : Port) (r : Result),
    s.endCommand p r = (s.setPort p
      { s.port p with
        slot := .none
        results := if (s.port p).state = .active then (s.port p).results ++ [r] else (s.port p).results }).setWork .idle) ∧
  (∀ (c : Cmd) (x : Reason) (k : Key) (v : Version) (n a : Half),
    c.nt x k v n a =
        { tag := c.tag, code := c.code, cls := .normal, reason := reasonCode x, key := k, version := v, count := n, aux := a } ∧
    c.at_ x k v n a =
        { tag := c.tag, code := c.code, cls := .abnormal, reason := reasonCode x, key := k, version := v, count := n, aux := a } ∧
    c.ic x k =
        { tag := c.tag, code := c.code, cls := .invalid, reason := reasonCode x, key := k, version := 0, count := 0, aux := 0 }) ∧
  (∀ (s : State) (p : Port) (c : Cmd), s.starts p c → c.code ∉ knownCodes →
    exec .badCommand s = .next (s.endCommand p (c.ic .badCommand 0xFFFF#16)).settle) ∧
  (∀ (s : State) (p : Port) (c : Cmd), s.starts p c → c.code ∈ singleKeyCodes → c.key = 0x0000#16 ∨ c.key = 0xFFFF#16 →
    exec (rowOf c.code) s = .next (s.endCommand p (c.ic .badKey c.key)).settle) ∧
  (codeWrite = 0x01 ∧ codePatch = 0x02 ∧ codeRemove = 0x03 ∧ codeRead = 0x04 ∧ codeStat = 0x05 ∧ codeScan = 0x08 ∧ codeClaim = 0x10 ∧
    codeRelease = 0x11 ∧ codeWatchSet = 0x12 ∧ codeWatchClear = 0x13 ∧ codeWatchList = 0x14 ∧ codeGuardSet = 0x18 ∧
    codeGuardRead = 0x19 ∧ codeReclaim = 0x20 ∧ codeFormat = 0x21 ∧ codeStoreInfo = 0x22) ∧
  knownCodes = [0x01, 0x02, 0x03, 0x04, 0x05, 0x08, 0x10, 0x11, 0x12, 0x13, 0x14, 0x18, 0x19, 0x20, 0x21, 0x22]

/-- The parameter check of the updates (R63): the key, then the fields with defined values, then the payload length, then the buffer range; the first failure is the result, IC, and nothing else changes. Each parameter is read from its bytes of Table 11-4, most significant byte first. -/
def Obligations.UpdateParametersAreChecked : Prop :=
  (∀ c : Cmd,
    checkWrite c =
        (if c.key = 0x0000#16 ∨ c.key = 0xFFFF#16 then some .badKey
        else if c.condKind ≠ 0 ∧ c.condKind ≠ 1 then some .badField
        else if 480 < c.dataLength then some .tooLong
        else if 2047 < c.bufOffset ∨ (1 ≤ c.dataLength ∧ 2047 < c.bufOffset + c.dataLength - 1) then some .badRange
        else none) ∧
    checkPatch c =
        (if c.key = 0x0000#16 ∨ c.key = 0xFFFF#16 then some .badKey
        else if c.condKind ≠ 0 ∧ c.condKind ≠ 1 then some .badField
        else if 480 < c.dataLength ∨ 480 < c.patchOffset + c.dataLength then some .tooLong
        else if 2047 < c.bufOffset ∨ (1 ≤ c.dataLength ∧ 2047 < c.bufOffset + c.dataLength - 1) then some .badRange
        else none) ∧
    checkRemove c =
        (if c.key = 0x0000#16 ∨ c.key = 0xFFFF#16 then some .badKey
        else if c.condKind ≠ 0 ∧ c.condKind ≠ 1 then some .badField
        else none)) ∧
  (∀ (s : State) (p : Port) (c : Cmd) (r : Reason), s.starts p c → c.code ∈ updateCodes → checkUpdate c = some r →
    exec (rowOf c.code) s = .next (s.endCommand p (c.ic r c.key)).settle) ∧
  (∀ c : Cmd, (∀ i, c.byte i = c.params[i]) ∧ c.key = c.byte 0 ++ c.byte 1 ∧ c.condKind = c.byte 2 ∧
    c.expected = (c.byte 3 ++ c.byte 4) ++ (c.byte 5 ++ c.byte 6) ∧ c.bufOffset = (c.byte 7 ++ c.byte 8).toNat ∧
    c.dataLength = (c.byte 9 ++ c.byte 10).toNat ∧ c.patchOffset = (c.byte 11 ++ c.byte 12).toNat)

/-- The parameter checks of the other commands: the first failure ends the command IC and nothing else changes. The key fields and version of the refusals of GUARD SET, GUARD READ and FORMAT are those of log entry 15. Each parameter is read from its bytes of Table 11-4, most significant byte first. -/
def Obligations.OtherParametersAreChecked : Prop :=
  (∀ c : Cmd,
    checkRead c =
        (if c.key = 0x0000#16 ∨ c.key = 0xFFFF#16 then some .badKey
        else if (c.byte 8 ≠ 0 ∧ c.byte 8 ≠ 1) ∨ 480 < c.readOffset then some .badField
        else if 2047 < c.readFirst ∨ 2047 < c.readLast then some .badRange
        else none) ∧
    checkKey c = (if c.key = 0x0000#16 ∨ c.key = 0xFFFF#16 then some .badKey else none) ∧
    checkScan c =
        (if c.scanHigh < c.scanLow ∨ 479 < c.scanWindow ∨ c.scanWidth = 0 ∨ 16 < c.scanWidth ∨ 480 < c.scanWindow + c.scanWidth ∨
            c.byte 7 = 0 ∨ 4 < c.byte 7 ∨ c.scanLimit = 0 ∨ 64 < c.scanLimit then some .badField
        else if 2047 < c.scanPattern ∨ 2047 < c.scanPattern + c.scanWidth - 1 ∨ 2047 < c.scanOutFirst ∨ 2047 < c.scanOutLast then
          some .badRange
        else none) ∧
    checkClaim c =
        (if c.key = 0x0000#16 ∨ c.key = 0xFFFF#16 then some .badKey
        else if c.duration = 0 ∨ 60000 < c.duration then some .badField
        else none) ∧
    checkWatchSet c =
        (if c.key = 0x0000#16 ∨ c.key = 0xFFFF#16 then some .badKey
        else if c.byte 2 = 0 ∨ 7 < c.byte 2 ∨ 1 < c.byte 3 then some .badField
        else none) ∧
    checkWatchClear c =
        (if c.key = 0x0000#16 ∨ c.key = 0xFFFF#16 then some .badKey
        else if c.byte 2 = 0 ∨ 7 < c.byte 2 then some .badField
        else none) ∧
    checkWatchList c = (if 2047 < c.listFirst ∨ 2047 < c.listLast then some .badRange else none) ∧
    checkFormat c = (if 1 < c.byte 0 ∨ c.threshold < 2 ∨ 16 < c.threshold then some .badField else none) ∧
    checkStoreInfo c = (if 2016 < c.infoOffset then some .badRange else none) ∧
    (c.target = none ↔ 3 < c.byte 0) ∧
    (c.newGuard = none ↔ (c.byte 1).getLsbD 4 = true ∨ (c.byte 1).getLsbD 5 = true ∨ 9 < (c.byte 1).toNat % 16)) ∧
  (∀ (s : State) (p : Port) (c : Cmd) (r : Reason), s.starts p c →
    (c.code = codeRead → checkRead c = some r → exec .read s = .next (s.endCommand p (c.ic r c.key)).settle) ∧
    (c.code = codeStat → checkKey c = some r → exec .stat s = .next (s.endCommand p (c.ic r c.key)).settle) ∧
    (c.code = codeScan → checkScan c = some r → exec .scan s = .next (s.endCommand p (c.ic r c.scanLow)).settle) ∧
    (c.code = codeClaim → checkClaim c = some r → exec .claim s = .next (s.endCommand p (c.ic r c.key)).settle) ∧
    (c.code = codeRelease → checkKey c = some r → exec .release s = .next (s.endCommand p (c.ic r c.key)).settle) ∧
    (c.code = codeWatchSet → checkWatchSet c = some r → exec .watchSet s = .next (s.endCommand p (c.ic r c.key)).settle) ∧
    (c.code = codeWatchClear → checkWatchClear c = some r → exec .watchClear s = .next (s.endCommand p (c.ic r c.key)).settle) ∧
    (c.code = codeWatchList → checkWatchList c = some r → exec .watchList s = .next (s.endCommand p (c.ic r 0xFFFF#16)).settle) ∧
    (c.code = codeStoreInfo → checkStoreInfo c = some r → exec .storeInfo s = .next (s.endCommand p (c.ic r 0xFFFF#16)).settle) ∧
    (c.code = codeGuardSet → c.target = none ∨ c.newGuard = none ∨ 4 < c.byte 2 →
      exec .guardSet s = .next
        (s.endCommand p
          { tag := c.tag, code := c.code, cls := .invalid, reason := reasonCode .badField, key := 0x0000#16, version := s.configVersion,
            count := 0, aux := 0 }).settle) ∧
    (c.code = codeGuardRead → c.target = none → exec .guardRead s = .next (s.endCommand p (c.ic .badField 0xFFFF#16)).settle) ∧
    (c.code = codeFormat → checkFormat c = some r →
      exec .format s = .next
        (s.endCommand p
          { tag := c.tag, code := c.code, cls := .invalid, reason := reasonCode r, key := 0xFFFF#16,
            version := generationField s.store.generation, count := 0, aux := 0 }).settle)) ∧
  (∀ c : Cmd, c.readOffset = (c.byte 2 ++ c.byte 3).toNat ∧ c.readFirst = (c.byte 4 ++ c.byte 5).toNat ∧
    c.readLast = (c.byte 6 ++ c.byte 7).toNat ∧ c.scanLow = c.byte 0 ++ c.byte 1 ∧ c.scanHigh = c.byte 2 ++ c.byte 3 ∧
    c.scanWindow = (c.byte 4 ++ c.byte 5).toNat ∧ c.scanWidth = (c.byte 6).toNat ∧ c.scanLimit = (c.byte 8).toNat ∧
    c.scanPattern = (c.byte 9 ++ c.byte 10).toNat ∧ c.scanOutFirst = (c.byte 11 ++ c.byte 12).toNat ∧
    c.scanOutLast = (c.byte 13 ++ c.byte 14).toNat ∧
    (c.scanRelation = some .eq ↔ c.byte 7 = 1) ∧ (c.scanRelation = some .ne ↔ c.byte 7 = 2) ∧ (c.scanRelation = some .le ↔ c.byte 7 = 3) ∧
    (c.scanRelation = some .ge ↔ c.byte 7 = 4) ∧
    c.duration = (c.byte 2 ++ c.byte 3).toNat ∧ c.triggers = (c.byte 2).extractLsb' 0 3 ∧
    c.listFirst = (c.byte 0 ++ c.byte 1).toNat ∧ c.listLast = (c.byte 2 ++ c.byte 3).toNat ∧
    (∀ p, c.target = some p ↔ c.byte 0 = portCode p) ∧ (∀ g, c.newGuard = some g ↔ c.byte 1 = guardByte g) ∧
    c.threshold = (c.byte 1).toNat ∧ c.infoOffset = (c.byte 0 ++ c.byte 1).toNat)

/-- What the store state refuses (Table 9-2): in UNFORMATTED every command but GUARD READ, FORMAT and STORE INFO ends AT NOT_FORMATTED, in DEGRADED the updates, GUARD SET and RECLAIM end AT READ_ONLY, each after its parameter check; no guard or claim is consulted, no flag is set and nothing else changes. That this holds of a GUARD SET in a store of standing UNREADABLE too, where R131 speaks of AT GUARDED, is log entry 29. -/
def Obligations.StoreStateRefuses : Prop :=
  (∀ (s : State) (p : Port) (c : Cmd), s.starts p c → s.store.state = .unformatted →
    (c.code ∈ updateCodes → checkUpdate c = none → exec (rowOf c.code) s = .next (s.endCommand p (c.at_ .notFormatted c.key 0 0 0)).settle) ∧
    (c.code = codeRead → checkRead c = none → exec .read s = .next (s.endCommand p (c.at_ .notFormatted c.key 0 0 0)).settle) ∧
    (c.code = codeStat → checkKey c = none → exec .stat s = .next (s.endCommand p (c.at_ .notFormatted c.key 0 0 0)).settle) ∧
    (c.code = codeScan → checkScan c = none → exec .scan s = .next (s.endCommand p (c.at_ .notFormatted c.scanLow 0 0 0)).settle) ∧
    (c.code = codeClaim → checkClaim c = none → exec .claim s = .next (s.endCommand p (c.at_ .notFormatted c.key 0 0 0)).settle) ∧
    (c.code = codeRelease → checkKey c = none → exec .release s = .next (s.endCommand p (c.at_ .notFormatted c.key 0 0 0)).settle) ∧
    (c.code = codeWatchSet → checkWatchSet c = none → exec .watchSet s = .next (s.endCommand p (c.at_ .notFormatted c.key 0 0 0)).settle) ∧
    (c.code = codeWatchClear → checkWatchClear c = none →
      exec .watchClear s = .next (s.endCommand p (c.at_ .notFormatted c.key 0 0 0)).settle) ∧
    (c.code = codeWatchList → checkWatchList c = none →
      exec .watchList s = .next (s.endCommand p (c.at_ .notFormatted 0xFFFF#16 0 0 0)).settle) ∧
    (c.code = codeGuardSet → c.target ≠ none → c.newGuard ≠ none → c.byte 2 ≤ 4 →
      exec .guardSet s = .next (s.endCommand p (c.at_ .notFormatted 0x0000#16 s.configVersion 0 0)).settle) ∧
    (c.code = codeReclaim → exec .reclaim s = .next (s.endCommand p (c.at_ .notFormatted 0xFFFF#16 0 0 0)).settle)) ∧
  (∀ (s : State) (p : Port) (c : Cmd), s.starts p c → s.store.state = .degraded →
    (c.code ∈ updateCodes → checkUpdate c = none →
      exec (rowOf c.code) s = .next (s.endCommand p (c.at_ .readOnly c.key (s.versionOf c.key) 0 0)).settle) ∧
    (c.code = codeGuardSet → c.target ≠ none → c.newGuard ≠ none → c.byte 2 ≤ 4 →
      exec .guardSet s = .next (s.endCommand p (c.at_ .readOnly 0x0000#16 s.configVersion 0 0)).settle) ∧
    (c.code = codeReclaim → exec .reclaim s = .next (s.endCommand p (c.at_ .readOnly 0xFFFF#16 0 0 0)).settle))

/-! ## Updates -/

/-- The condition (R7, Table 1-4): ANY passes; EXPECT 0 passes on a key with no LIVE entry and fails with EXISTS on a LIVE one; EXPECT v passes on a LIVE entry at version v and fails with VERSION_MISMATCH otherwise; the version reported is the LIVE one, or 0. Steps 3 to 9 of the update checks in READY, in their order (Table 4-2): the guard with GUARD_HIT, a permanent key with a LIVE entry, another port's claim, the condition, the entry PATCH and REMOVE need, the directory's room, the next version. The first that fails ends the update with the fields of Table 4-4 and nothing else changes. -/
def Obligations.UpdateChecksComeInOrder : Prop :=
  (∀ c : Cmd,
    (∀ entry, c.condKind = 0 → conditionFailure c entry = none) ∧
    (c.condKind ≠ 0 → c.expected = 0 →
      conditionFailure c none = none ∧
      ∀ e : Entry, (e.state = .gone → conditionFailure c (some e) = none) ∧
        (e.state = .live → conditionFailure c (some e) = some (.exists_, e.version))) ∧
    (c.condKind ≠ 0 → c.expected ≠ 0 →
      conditionFailure c none = some (.versionMismatch, 0) ∧
      ∀ e : Entry, (e.state = .gone → conditionFailure c (some e) = some (.versionMismatch, 0)) ∧
        (e.state = .live → c.expected = e.version → conditionFailure c (some e) = none) ∧
        (e.state = .live → c.expected ≠ e.version → conditionFailure c (some e) = some (.versionMismatch, e.version)))) ∧
  (∀ (s : State) (p : Port) (c : Cmd), s.starts p c → c.code ∈ updateCodes → checkUpdate c = none → s.store.state = .ready →
    (guardProtects (s.guardOfPort p) (pageOf c.key) = true →
      exec (rowOf c.code) s =
        .next ((s.setFlag p flagGuardHit).endCommand p (c.at_ .guarded c.key (entryVersion s.engine.dir c.key) 0 0)).settle) ∧
    (guardProtects (s.guardOfPort p) (pageOf c.key) = false →
      (∀ r, s.failUpdate p c = some r → exec (rowOf c.code) s = .next (s.endCommand p r).settle) ∧
      (∀ e, isPermanent c.key = true → lookup s.engine.dir c.key = some e → e.state = .live →
        s.failUpdate p c = some (c.at_ .permanent c.key e.version 0 0)) ∧
      (isPermanent c.key = false ∨ (∀ e, lookup s.engine.dir c.key = some e → e.state = .gone) →
        (∀ q, s.holderOf c.key = some q → q ≠ p →
          s.failUpdate p c = some (c.at_ .claimed c.key (entryVersion s.engine.dir c.key) 0 (portHalf q))) ∧
        ((∀ q, s.holderOf c.key = some q → q = p) →
          (∀ x v, conditionFailure c (lookup s.engine.dir c.key) = some (x, v) →
            s.failUpdate p c = some (c.at_ x c.key v 0 0)) ∧
          (conditionFailure c (lookup s.engine.dir c.key) = none →
            (c.code ≠ codeWrite →
              (lookup s.engine.dir c.key = none → s.failUpdate p c = some (c.at_ .notFound c.key 0 0 0)) ∧
              ∀ e, lookup s.engine.dir c.key = some e →
                (e.state = .gone → s.failUpdate p c = some (c.at_ .notFound c.key e.version 0 0)) ∧
                (e.state = .live → c.code = codePatch → e.length < c.patchOffset →
                  s.failUpdate p c = some (c.at_ .beyondEnd c.key e.version 0 (nat16 e.length)))) ∧
            (c.code = codeWrite → lookup s.engine.dir c.key = none → 4095 ≤ masterCount s.engine.dir →
              s.failUpdate p c = some (c.at_ .directoryFull c.key 0 0 0)) ∧
            (∀ e, lookup s.engine.dir c.key = some e → c.code = codeWrite ∨ (e.state = .live ∧ (c.code = codePatch → c.patchOffset ≤ e.length)) →
              s.failUpdate p c =
                if e.version = 0xFFFFFFFF#32 then some (c.at_ .versionExhausted c.key e.version 0 0) else none) ∧
            (c.code = codeWrite → lookup s.engine.dir c.key = none → masterCount s.engine.dir < 4095 → s.failUpdate p c = none)))))) ∧
  (∀ (d : List Entry) (k : Key), lookup d k = d.find? (fun e => e.key == k) ∧
    (lookup d k = none → entryVersion d k = 0) ∧ (∀ e, lookup d k = some e → entryVersion d k = e.version)) ∧
  (∀ k : Key, (isPermanent k = true ↔ 0xFF00#16 ≤ k ∧ k ≤ 0xFFFE#16) ∧ pageOf k = k.extractLsb' 8 8) ∧
  (∀ d : List Entry, masterCount d = d.countP (fun e => e.key != 0x0000#16)) ∧
  (∀ (s : State) (k : Key), s.versionOf k = entryVersion s.engine.dir k ∧
    s.holderOf k = (s.coord.claims.find? (fun x => x.key == k)).map Claim.holder) ∧
  (∀ (s : State) (p : Port), s.guardOfPort p = s.guard.settings.guards.get p)

/-- An update that passes its checks begins: its context has the key, the kind, the entry's version + 1 (1 without an entry), the issuing port as author and attempt 1; a PATCH presents the read of the cell its entry names; a WRITE or REMOVE presents its grant request. A PATCH's read of the old payload: accepted when the body is good, agrees with the entry's key and version and its payload check is good, and then the grant is requested; otherwise AT DATA_CHECK with the entry's version and length. In the payload it forms the taken bytes replace the old ones from the payload offset on, the bytes before and beyond them stay, and the length is the greater of the old length and the offset plus the data length. -/
def Obligations.UpdatesBegin : Prop :=
  (∀ (s : State) (p : Port) (c : Cmd), s.starts p c → c.code ∈ updateCodes → checkUpdate c = none → s.store.state = .ready →
    guardProtects (s.guardOfPort p) (pageOf c.key) = false → s.failUpdate p c = none →
    (c.code = codeWrite →
      exec .write s = .next (s.requestGrant p c
        { key := c.key, kind := .data, version := entryVersion s.engine.dir c.key + 1, author := .port p, payload := none, old := [],
          attempt := 1, granted := none, stage := .grantWait, retryAtStart := s.retryOf c.key }).settle) ∧
    (c.code = codeRemove →
      exec .remove s = .next (s.requestGrant p c
        { key := c.key, kind := .tombstone, version := entryVersion s.engine.dir c.key + 1, author := .port p,
          payload := some ([], crc16 []), old := [], attempt := 1, granted := none, stage := .grantWait,
          retryAtStart := s.retryOf c.key }).settle) ∧
    (∀ e, c.code = codePatch → lookup s.engine.dir c.key = some e →
      exec .patch s = .next ((s.setWork (.updating p c
        { key := c.key, kind := .data, version := e.version + 1, author := .port p, payload := none, old := [], attempt := 1,
          granted := none, stage := .oldRead, retryAtStart := e.retry })).presentEngine (.readCell e.cell true)).settle)) ∧
  (∀ (s : State) (p : Port) (c : Cmd) (u : Update) (pos : Pos), s.carries .engine (.readCell pos true) → s.engine.work = .updating p c u →
    (∀ b, (readData s.array.cells pos).body = some b → b.key = u.key → b.version = entryVersion s.engine.dir u.key →
      (readData s.array.cells pos).payloadGood = true →
      exec .cellReadDone s = .next ((s.setInFlight none).requestGrant p c { u with old := b.payload }).settle) ∧
    ((∀ b, (readData s.array.cells pos).body = some b → b.key = u.key → b.version = entryVersion s.engine.dir u.key →
        (readData s.array.cells pos).payloadGood = false) →
      exec .cellReadDone s = .next ((s.setInFlight none).endCommand p
        (c.at_ .dataCheck u.key (entryVersion s.engine.dir u.key) 0 (nat16 (s.lengthOf u.key)))).settle)) ∧
  (∀ (old taken : List Byte) (offset : Nat), offset ≤ old.length →
    (patchPayload old offset taken).length = max old.length (offset + taken.length) ∧
    ∀ i, i < max old.length (offset + taken.length) →
      (patchPayload old offset taken).getD i 0 =
        if offset ≤ i ∧ i < offset + taken.length then taken.getD (i - offset) 0 else old.getD i 0) ∧
  (∀ (s : State) (k : Key), s.retryOf k = (lookup s.engine.dir k).bind Entry.retry ∧
    s.lengthOf k = ((lookup s.engine.dir k).map Entry.length).getD 0)

/-- A grant request of an update: refused AT READ_ONLY in DEGRADED with the attempts that reached the body program; else the front's lowest free cell is granted, the payload taken at that moment if it is still absent, and the body presented with the next sequence number, the write sequence counter rising by one and staying at 4,294,967,295 (R10); else with 2 FREE segments or more a new front is opened; else the request is held. -/
def Obligations.GrantRequestIsDecided : Prop :=
  (∀ (s : State) (p : Port) (c : Cmd) (u : Update), s.store.state = .degraded →
    ∃ w, s.requestGrant p c u =
      (s.setWork w).endCommand p (c.at_ .readOnly u.key (entryVersion s.engine.dir u.key) 0 (nat16 (u.attempt - 1)))) ∧
  (∀ (s : State) (p : Port) (c : Cmd) (u : Update) (f : Seg) (cell : CellNo) (rest : List CellNo), s.store.state ≠ .degraded →
    s.front = some f → s.space.frontFree = cell :: rest →
    ∃ bytes check,
      (∀ b, u.payload = some b → (bytes, check) = b) ∧
      (u.payload = none → check = crc16 bytes ∧
        bytes = if c.code = codePatch then patchPayload u.old c.patchOffset (bufferTake (s.port p).buffer c.bufOffset c.dataLength)
          else bufferTake (s.port p).buffer c.bufOffset c.dataLength) ∧
      s.requestGrant p c u =
        (((((s.setSeg f (s.seg f).grant).setFrontFree rest).setWork
          (.updating p c { u with payload := some (bytes, check), granted := some ⟨f, cell⟩, stage := .body }))).bumpSeq).presentEngine
          (.programBody ⟨f, cell⟩
            { key := u.key, version := u.version, seq := s.engine.seq, length := bytes.length, author := u.author, kind := u.kind,
              check := check, payload := bytes })) ∧
  (∀ (s : State) (p : Port) (c : Cmd) (u : Update), s.store.state ≠ .degraded → s.front = none ∨ s.space.frontFree = [] →
    s.freeCount < 2 →
    s.requestGrant p c u = (s.setWork (.updating p c { u with granted := none, stage := .grantWait })).setHeld true) ∧
  (∀ (s : State) (p : Port) (c : Cmd) (u : Update), FrontOk s → s.store.state ≠ .degraded →
    s.front = none ∨ s.space.frontFree = [] → 2 ≤ s.freeCount →
    ∃ g, (s.seg g).state = .free ∧
      (∀ h, (s.seg h).state = .free → (s.seg g).erases < (s.seg h).erases ∨ ((s.seg g).erases = (s.seg h).erases ∧ g ≤ h)) ∧
      (s.requestGrant p c u).array.waitEngine.map ArrayOp.part = some (cellBase ⟨g, 1⟩, Config.dataBytes) ∧
      ((s.requestGrant p c u).seg g).state = .front ∧ ((s.requestGrant p c u).seg g).live = 1 ∧
      ((s.requestGrant p c u).seg g).dead = 0 ∧ ((s.requestGrant p c u).seg g).free = 30 ∧
      (s.requestGrant p c u).space.frontFree = dataCells.tail ∧
      ∃ (segs : Vector SegRow 256) (bytes : List Byte) (check : Half),
        (∀ h : Seg, segs[h] =
          if h = g then { state := .front, erases := (s.seg g).erases, live := 1, dead := 0, free := 30 }
          else if s.front = some h then { s.seg h with state := .full } else s.seg h) ∧
        (∀ b, u.payload = some b → (bytes, check) = b) ∧
        (u.payload = none → check = crc16 bytes ∧
          bytes = if c.code = codePatch then patchPayload u.old c.patchOffset (bufferTake (s.port p).buffer c.bufOffset c.dataLength)
            else bufferTake (s.port p).buffer c.bufOffset c.dataLength) ∧
        s.requestGrant p c u =
          ((((((s.setSegs segs).setFrontFree dataCells.tail).setWork
            (.updating p c { u with payload := some (bytes, check), granted := some ⟨g, 1⟩, stage := .body })).bumpSeq).presentEngine
              (.programBody ⟨g, 1⟩
                { key := u.key, version := u.version, seq := s.engine.seq, length := bytes.length, author := u.author, kind := u.kind,
                  check := check, payload := bytes }))).trigger) ∧
  (∀ s : State, s.bumpSeq =
    { s with engine := { s.engine with seq := if s.engine.seq = 0xFFFFFFFF#32 then 0xFFFFFFFF#32 else s.engine.seq + 1 } }) ∧
  (∀ r : SegRow, (r.free = 0 → r.grant = r) ∧ ∀ n, r.free = n + 1 → r.grant = { r with free := n, live := r.live + 1 }) ∧
  dataCells = (List.finRange 32).tail

/-- The outcome of an update's body program, and a commit mark that fails: DONE presents the commit mark; a failed attempt reports the cell dead and, below attempt 3, requests a new cell; a third one ends the update AT PROGRAM_FAIL with aux 3, the key's entry as it was. A cell reported dead moves from its segment's live count to the dead one, and the trigger is evaluated (Table 8-2, R138). -/
def Obligations.UpdateProgramsEnd : Prop :=
  (∀ (s : State) (p : Port) (c : Cmd) (u : Update) (pos : Pos) (b : Body) (left : List Host.Cell),
    s.carries .engine (.programBody pos b) → s.engine.work = .updating p c u →
    ∃ t : State, t = (s.setCells (putArea s.array.cells pos (bodyLeft (dataArea s.array.cells pos) (bodyBytes b) left))).setInFlight none ∧
      (bodyLeft (dataArea s.array.cells pos) (bodyBytes b) left = bodyBytes b →
        exec (.bodyProgramDone left) s =
          .next ((t.setWork (.updating p c { u with stage := .commitMark })).presentEngine (.programMark pos .first)).settle) ∧
      (bodyLeft (dataArea s.array.cells pos) (bodyBytes b) left ≠ bodyBytes b →
        (u.attempt < 3 →
          exec (.bodyProgramDone left) s = .next ((t.reportDead pos).requestGrant p c { u with attempt := u.attempt + 1 }).settle) ∧
        (3 ≤ u.attempt →
          exec (.bodyProgramDone left) s = .next
            ((t.reportDead pos).endCommand p (c.at_ .programFail u.key (entryVersion s.engine.dir u.key) 0 3)).settle))) ∧
  (∀ (s : State) (p : Port) (c : Cmd) (u : Update) (pos : Pos) (fails : Bool),
    s.carries .engine (.programMark pos .first) → s.engine.work = .updating p c u → u.stage = .commitMark →
    markLeft (markWord s.array.cells pos .first) fails ≠ Config.markPresent →
    ∃ t : State, t = (s.setCells (putMark s.array.cells pos .first (markLeft (markWord s.array.cells pos .first) fails))).setInFlight none ∧
      (u.attempt < 3 →
        exec (.markProgramDone fails) s = .next ((t.reportDead pos).requestGrant p c { u with attempt := u.attempt + 1 }).settle) ∧
      (3 ≤ u.attempt →
        exec (.markProgramDone fails) s = .next
          ((t.reportDead pos).endCommand p (c.at_ .programFail u.key (entryVersion s.engine.dir u.key) 0 3)).settle)) ∧
  (∀ (s : State) (pos : Pos),
    s.reportDead pos = (s.setSeg pos.seg
      (if ((s.seg pos.seg).state = .front ∨ (s.seg pos.seg).state = .full ∨ (s.seg pos.seg).state = .victim) ∧ 1 ≤ (s.seg pos.seg).live then
        { s.seg pos.seg with live := (s.seg pos.seg).live - 1, dead := (s.seg pos.seg).dead + 1 }
      else s.seg pos.seg)).trigger ∧
    (s.reportDead pos).engine.dir = s.engine.dir ∧ (s.reportDead pos).coord = s.coord) ∧
  (∀ (s : State) (pos : Pos), s.countDead pos = s.setSeg pos.seg
    (if ((s.seg pos.seg).state = .front ∨ (s.seg pos.seg).state = .full ∨ (s.seg pos.seg).state = .victim) ∧ 1 ≤ (s.seg pos.seg).live then
      { s.seg pos.seg with live := (s.seg pos.seg).live - 1, dead := (s.seg pos.seg).dead + 1 }
    else s.seg pos.seg))

/-- A commit: when the commit mark verifies present the entry names the new cell with the body's version, length, author and state, move-pending clear, stale count and retry cell kept, or is created; every other key's entry stands; each ACTIVE port that watches the key for the fired trigger, and is not the author unless its self flag is on, is offered WATCH_HIT; then the supersede mark of the previous cell is presented, or the update ends NT DONE. -/
def Obligations.CommitChangesTheDirectory : Prop :=
  (∀ (s : State) (p : Port) (c : Cmd) (u : Update) (pos : Pos) (fails : Bool),
    s.carries .engine (.programMark pos .first) → s.engine.work = .updating p c u → u.stage = .commitMark → u.kind ≠ .config →
    markLeft (markWord s.array.cells pos .first) fails = Config.markPresent →
    ∃ t : State, t = ((s.setCells (putMark s.array.cells pos .first Config.markPresent)).setInFlight none).commitBody (u.body s.engine.seq) pos ∧
      (∀ e, lookup s.engine.dir u.key = some e →
        exec (.markProgramDone fails) s =
          .next ((t.setWork (.updating p c { u with stage := .supersede })).presentEngine (.programMark e.cell .second)).settle) ∧
      (lookup s.engine.dir u.key = none →
        exec (.markProgramDone fails) s =
          .next (t.endCommand p (c.nt .done u.key u.version (nat16 u.bytes.length) (nat16 u.attempt))).settle)) ∧
  (∀ (s : State) (b : Body) (pos : Pos),
    lookup (s.commitBody b pos).engine.dir b.key = some
      { key := b.key, state := if b.kind = .tombstone then .gone else .live, cell := pos, version := b.version, length := b.length,
        author := b.author, stale := ((lookup s.engine.dir b.key).map Entry.stale).getD 0,
        retry := (lookup s.engine.dir b.key).bind Entry.retry, movePending := false }) ∧
  (∀ (s : State) (b : Body) (pos : Pos) (k : Key), k ≠ b.key →
    lookup (s.commitBody b pos).engine.dir k = lookup s.engine.dir k) ∧
  (∀ (s : State) (b : Body) (pos : Pos) (q : Port),
    (∀ w, (s.coord.watches.get q).find? (fun w => w.key == b.key) = some w →
      w.triggers &&& firedTrigger (keyState s.engine.dir b.key) (if b.kind = .tombstone then .gone else .live) ≠ 0 →
      b.author ≠ .port q ∨ w.self = true →
      (s.commitBody b pos).port q = (s.port q).offer
        (.watchHit b.key (firedTrigger (keyState s.engine.dir b.key) (if b.kind = .tombstone then .gone else .live)) b.version b.author)) ∧
    ((∀ w, (s.coord.watches.get q).find? (fun w => w.key == b.key) = some w →
        w.triggers &&& firedTrigger (keyState s.engine.dir b.key) (if b.kind = .tombstone then .gone else .live) = 0 ∨
          (b.author = .port q ∧ w.self = false)) →
      (s.commitBody b pos).port q = s.port q)) ∧
  firedTrigger .absent .live = 0b001#3 ∧ firedTrigger .gone .live = 0b001#3 ∧ firedTrigger .live .live = 0b010#3 ∧
  firedTrigger .live .gone = 0b100#3 ∧
  (∀ (d : List Entry) (k : Key), (lookup d k = none → keyState d k = .absent) ∧
    ∀ e, lookup d k = some e → keyState d k = if e.state = .live then .live else .gone) ∧
  (∀ (s : State) (b : Body) (pos : Pos), ∃ (ports : Quad PortUnit) (d : List Entry), s.commitBody b pos = ({ s with ports := ports }).setDir d) ∧
  (∀ (u : Update) (seq : SeqNo),
    u.body seq = { key := u.key, version := u.version, seq := seq, length := u.bytes.length, author := u.author, kind := u.kind,
                   check := ((u.payload.map Prod.snd).getD (crc16 [])), payload := u.bytes } ∧
    u.bytes = (u.payload.map Prod.fst).getD [])

/-- The outcome of a supersede mark: DONE leaves the entry, MARK_FAIL raises its stale count and gives it the previous cell as retry cell if it has none; the cell is counted dead either way. A retried mark that succeeds lowers the count and makes the retry cell absent, one that fails keeps both, and either ends the update NT DONE with its version, length and attempts; a retried mark that succeeds on the pending move's copy makes the move MARKED, and none is reported to the Space Manager. A supersede report counts the cell dead with a pass and without; in the pass's victim a supersede mark that is DONE takes the cell from the noted ones, and a failed one notes it when the pass is beyond it or erasing (R138, R145, log entry 14; the retried mark's entry: log entry 26). -/
def Obligations.SupersedeOutcomesAreRecorded : Prop :=
  (∀ (s : State) (p : Port) (c : Cmd) (u : Update) (pos : Pos) (fails : Bool),
    s.carries .engine (.programMark pos .second) → s.engine.work = .updating p c u → u.stage = .supersede →
    ∃ (t : State) (d : List Entry),
      t = ((((s.setCells (putMark s.array.cells pos .second (markLeft (markWord s.array.cells pos .second) fails))).setInFlight none).setDir d
        ).setMove (s.engine.move.map (fun m =>
          if m.copy = pos then
            { m with overtaken := if markLeft (markWord s.array.cells pos .second) fails = Config.markPresent then .marked else .unmarked }
          else m))).reportSuperseded pos u.key (decide (markLeft (markWord s.array.cells pos .second) fails = Config.markPresent)) ∧
      exec (.markProgramDone fails) s = .next (t.retryStep p c u).settle ∧
      (markLeft (markWord s.array.cells pos .second) fails = Config.markPresent → d = s.engine.dir) ∧
      (markLeft (markWord s.array.cells pos .second) fails ≠ Config.markPresent →
        d = s.engine.dir.map (fun e =>
          if e.key = u.key then { e with stale := e.stale + 1, retry := some (e.retry.getD pos) } else e))) ∧
  (∀ (s : State) (p : Port) (c : Cmd) (u : Update),
    (∀ r, (lookup s.engine.dir u.key).bind Entry.retry = some r → u.retryAtStart = some r → (s.seg r.seg).state ≠ .victim →
      (s.seg r.seg).state ≠ .erasing →
      s.retryStep p c u = (s.setWork (.updating p c { u with stage := .retryMark })).presentEngine (.programMark r .second)) ∧
    ((∀ r, (lookup s.engine.dir u.key).bind Entry.retry = some r →
        u.retryAtStart ≠ some r ∨ (s.seg r.seg).state = .victim ∨ (s.seg r.seg).state = .erasing) →
      s.retryStep p c u = s.endCommand p (c.nt .done u.key u.version (nat16 u.bytes.length) (nat16 u.attempt)))) ∧
  (∀ (s : State) (p : Port) (c : Cmd) (u : Update) (pos : Pos) (fails : Bool),
    s.carries .engine (.programMark pos .second) → s.engine.work = .updating p c u → u.stage = .retryMark →
    ∃ t : State, exec (.markProgramDone fails) s =
        .next (t.endCommand p (c.nt .done u.key u.version (nat16 u.bytes.length) (nat16 u.attempt))).settle ∧
      t.space = s.space ∧
      (¬ s.markTakes pos .second fails → t = s.afterMark pos .second fails) ∧
      (s.markTakes pos .second fails →
        t = ((s.afterMark pos .second fails).setDir (s.engine.dir.map (fun e =>
          if e.key = u.key ∧ e.retry = some pos then { e with stale := e.stale - 1, retry := none } else e))).setMove
            (s.engine.move.map (fun m => if m.copy = pos then { m with overtaken := .marked } else m)))) ∧
  (∀ (s : State) (pos : Pos) (key : Key) (done : Bool), s.space.pass = none →
    s.reportSuperseded pos key done = s.reportDead pos) ∧
  (∀ (s : State) (pos : Pos) (key : Key) (done : Bool) (q : Pass), s.space.pass = some q →
    ∃ noted : List (CellNo × Key),
      s.reportSuperseded pos key done = ((s.countDead pos).setPass (some { q with noted := noted })).trigger ∧
      s.reportDead pos = (s.countDead pos).trigger ∧
      (pos.seg ≠ q.victim → noted = q.noted) ∧
      (pos.seg = q.victim → done = true → noted = q.noted.filter (fun n => n.1 != pos.cell)) ∧
      (pos.seg = q.victim → done = false →
        (q.stage = .erasing ∨ (q.stage = .copying ∧ (pos.cell < q.cursor ∨ (pos.cell = q.cursor ∧ q.awaits ≠ .victimRead))) →
          noted = if q.noted.any (fun n => n.1 == pos.cell) then q.noted else q.noted ++ [(pos.cell, key)]) ∧
        (q.stage = .select ∨ (q.stage = .copying ∧ (q.cursor < pos.cell ∨ (pos.cell = q.cursor ∧ q.awaits = .victimRead))) →
          noted = q.noted)))

/-! ## Reads -/

/-- A READ after its parameter check in READY and DEGRADED: no LIVE entry ends it AT NOT_FOUND (version 0 is log entry 15), an offset beyond the length IC BAD_FIELD with the length in aux, and otherwise it presents the read of the cell its entry names; a read that is not accepted ends it AT DATA_CHECK with the entry's version and length, and no byte is moved. -/
def Obligations.ReadIsAdmittedOrRefused : Prop :=
  (∀ (s : State) (p : Port) (c : Cmd), s.starts p c → c.code = codeRead → checkRead c = none → s.store.state ≠ .unformatted →
    ((∀ e, lookup s.engine.dir c.key = some e → e.state = .gone) →
      exec .read s = .next (s.endCommand p (c.at_ .notFound c.key 0 0 0)).settle) ∧
    (∀ e, lookup s.engine.dir c.key = some e → e.state = .live →
      (e.length < c.readOffset →
        exec .read s = .next
          (s.endCommand p
            { tag := c.tag, code := c.code, cls := .invalid, reason := reasonCode .badField, key := c.key, version := 0, count := 0,
              aux := nat16 e.length }).settle) ∧
      (c.readOffset ≤ e.length →
        exec .read s = .next ((s.setWork (.reading p c e.version e.length)).presentEngine (.readCell e.cell true)).settle))) ∧
  (∀ (s : State) (p : Port) (c : Cmd) (v : Version) (len : Nat) (pos : Pos), s.carries .engine (.readCell pos true) →
    s.engine.work = .reading p c v len →
    (∀ b, (readData s.array.cells pos).body = some b → b.key = c.key → b.version = v →
      (readData s.array.cells pos).payloadGood = false) →
    exec .cellReadDone s = .next ((s.setInFlight none).endCommand p (c.at_ .dataCheck c.key v 0 (nat16 len))).settle)

/-- An accepted READ (R87): the bytes go in order from the payload offset on to the buffer from the first offset on; BUFFER_END with count 0 when the range is empty, else END_OF_RECORD with count 0 at the record's end, else the copy stops after the first byte at which STOP_BYTE, END_OF_RECORD or BUFFER_END holds, in that order. -/
def Obligations.ReadCopiesItsBytes : Prop :=
  (∀ (s : State) (p : Port) (c : Cmd) (v : Version) (len : Nat) (pos : Pos) (b : Body), s.carries .engine (.readCell pos true) →
    s.engine.work = .reading p c v len → (readData s.array.cells pos).body = some b → b.key = c.key → b.version = v →
    (readData s.array.cells pos).payloadGood = true →
    ∃ (bs : List Byte) (why : Reason) (buf : List Host.Cell),
      (bs, why) = readCopy c.readStop (c.readLast + 1 - c.readFirst) (b.payload.drop c.readOffset) ∧
      exec .cellReadDone s = .next ((((s.setInFlight none).setPort p { s.port p with buffer := buf })).endCommand p
        (c.nt why c.key v (nat16 bs.length) (nat16 len))).settle ∧
      ∀ x, bufferByteAt buf x =
        if c.readFirst ≤ x ∧ x < c.readFirst + bs.length ∧ x < 2048 then bs.getD (x - c.readFirst) 0
        else bufferByteAt (s.port p).buffer x) ∧
  (∀ (stop : Option Byte) (rest : List Byte), readCopy stop 0 rest = ([], .bufferEnd)) ∧
  (∀ (stop : Option Byte) (room : Nat), 0 < room → readCopy stop room [] = ([], .endOfRecord)) ∧
  (∀ (stop : Option Byte) (room : Nat) (rest : List Byte), 0 < room → rest ≠ [] →
    ∃ (n : Nat) (last : Byte), 1 ≤ n ∧ n ≤ room ∧ rest[n - 1]? = some last ∧ (readCopy stop room rest).1 = rest.take n ∧
      (∀ i, i + 1 < n → rest[i]? ≠ stop) ∧
      (readCopy stop room rest).2 =
        (if stop = some last then .stopByte else if n = rest.length then .endOfRecord else .bufferEnd) ∧
      (stop = some last ∨ n = rest.length ∨ n = room)) ∧
  (∀ c : Cmd, c.readStop = if c.byte 8 = 1 then some (c.byte 9) else none)

/-- STAT (R89): after its key check and the store state it deposits an NT result with the entry's state, author, version, length and stale count and the holder of any claim, 0 where the key has no entry; nothing else changes and nothing is read from the array. -/
def Obligations.StatReportsTheEntry : Prop :=
  (∀ (s : State) (p : Port) (c : Cmd), s.starts p c → c.code = codeStat →
    (c.key = 0x0000#16 ∨ c.key = 0xFFFF#16 → exec .stat s = .next (s.endCommand p (c.ic .badKey c.key)).settle) ∧
    (c.key ≠ 0x0000#16 → c.key ≠ 0xFFFF#16 →
      (s.store.state = .unformatted → exec .stat s = .next (s.endCommand p (c.at_ .notFormatted c.key 0 0 0)).settle) ∧
      (s.store.state ≠ .unformatted →
        ∃ r : Result, exec .stat s = .next (s.endCommand p r).settle ∧ r.tag = c.tag ∧ r.code = c.code ∧ r.cls = .normal ∧ r.key = c.key ∧
          r.reason.toNat % 8 = (match s.holderOf c.key with
            | some q => (portCode q).toNat
            | none => 7) ∧
          (lookup s.engine.dir c.key = none →
            r.reason.toNat / 64 = 0 ∧ r.reason.toNat / 8 % 8 = 7 ∧ r.version = 0 ∧ r.count = 0 ∧ r.aux = 0) ∧
          (∀ e, lookup s.engine.dir c.key = some e →
            r.reason.toNat / 64 = (if e.state = .live then 1 else 2) ∧ r.reason.toNat / 8 % 8 = (authorCode e.author).toNat ∧
            r.version = e.version ∧ r.count = (if e.state = .live then nat16 e.length else 0) ∧ r.aux = nat16 e.stale)))) ∧
  (∀ (s : State) (k : Key) (q : Port), s.holderOf k = some q ↔ ∃ x, s.coord.claims.find? (fun x => x.key == k) = some x ∧ x.holder = q)

/-! ## Scans -/

/-- A SCAN that passes its checks captures its pattern and begins at the low key: with no room for a key it ends BUFFER_END with counts 0; otherwise, and when it resumes, it searches from its cursor. The search ends RANGE_END at no LIVE entry other than 0000h up to the high key; it gives the first one to the scan with the cursor just above its key; a window beyond the length counts SHORT, any other presents the read of the cell the entry names. After an examination come LIMIT, BUFFER_END, and at 8 of a slice dropping at a RESETTING port or parking in favour of an eligible other port; with neither the slice count begins again and the scan searches on. -/
def Obligations.ScanVisitsTheDirectory : Prop :=
  (∀ (s : State) (p : Port) (c : Cmd), s.starts p c → c.code = codeScan → checkScan c = none → s.store.state ≠ .unformatted →
    ∃ k : ScanCtx, c.scanRelation = some k.relation ∧
      k = { high := c.scanHigh, windowOffset := c.scanWindow, width := c.scanWidth, relation := k.relation, limit := c.scanLimit,
            outLast := c.scanOutLast, pattern := bufferTake (s.port p).buffer c.scanPattern c.scanWidth, cursor := c.scanLow,
            outPos := c.scanOutFirst, matched := 0, short := 0, checkFailed := 0, examined := 0, slice := 0 } ∧
      (c.scanOutLast < c.scanOutFirst + 1 →
        exec .scan s = .next (s.endCommand p (c.nt .bufferEnd c.scanLow 0 0 0)).settle) ∧
      (c.scanOutFirst + 1 ≤ c.scanOutLast → exec .scan s = .next (s.searchOn p c k).settle)) ∧
  (∀ (s : State) (p : Port) (c : Cmd) (k : ScanCtx), s.engine.work = .resuming p c k → s.running = true → s.isOpen = true →
    exec .scanResume s = .next (s.searchOn p c k).settle) ∧
  (∀ (s : State) (p : Port) (c : Cmd) (k : ScanCtx),
    s.searchOn p c k = s.takeScanStep p c (scanSearch (s.isResetting p) (s.othersEligible p) s.engine.dir k)) ∧
  (∀ (resetting others : Bool) (d : List Entry) (k : ScanCtx),
    (∀ e ∈ d, k.cursor ≤ e.key → e.key ≤ k.high → e.key ≠ 0x0000#16 → e.state = .gone) → DirOk d →
    scanSearch resetting others d k = .finish .rangeEnd k) ∧
  (∀ (resetting others : Bool) (d : List Entry) (k : ScanCtx) (e : Entry), DirOk d → e ∈ d → k.cursor ≤ e.key → e.key ≤ k.high →
    e.key ≠ 0x0000#16 → e.key ≠ 0xFFFF#16 → e.state = .live →
    (∀ x ∈ d, k.cursor ≤ x.key → x.key < e.key → x.key = 0x0000#16 ∨ x.state = .gone) →
    (k.windowOffset + k.width ≤ e.length → scanSearch resetting others d k = .examine { k with cursor := e.key + 1 } e) ∧
    (e.length < k.windowOffset + k.width →
      ∃ k', k' = { k with cursor := e.key + 1, short := k.short + 1, examined := k.examined + 1, slice := k.slice + 1 } ∧
        (∀ x, k'.afterExam resetting others = some x → scanSearch resetting others d k = x) ∧
        (k'.afterExam resetting others = none → scanSearch resetting others d k = scanSearch resetting others d k'.nextSlice))) ∧
  (∀ (k : ScanCtx) (resetting others : Bool),
    k.afterExam resetting others =
      if k.matched = k.limit then some (.finish .limit k)
      else if k.outLast < k.outPos + 1 then some (.finish .bufferEnd k)
      else if k.slice < 8 then none
      else if resetting = true then some .drop
      else if others = true then some (.park { k with slice := 0 })
      else none) ∧
  (∀ k : ScanCtx, k.nextSlice = if k.slice < 8 then k else { k with slice := 0 }) ∧
  (∀ (s : State) (p : Port), (s.isResetting p = true ↔ (s.port p).state = .resetting) ∧
    (s.othersEligible p = true ↔ ∃ q, q ≠ p ∧ s.eligible q = true))

/-- The completion of a scan's read: an entry that fails the acceptance test counts as a check failure, one whose window is in the relation to the pattern is a match whose key is written at the output position, and any other is passed; each counts as examined. A scan that ends reports its counts and resume key; one that parks or is dropped leaves its slot so and the Engine IDLE. -/
def Obligations.ScanExaminesWhatItReads : Prop :=
  (∀ (s : State) (p : Port) (c : Cmd) (k : ScanCtx) (key : Key) (v : Version) (pos : Pos), s.carries .engine (.readCell pos true) →
    s.engine.work = .scanning p c k key v →
    ((readData s.array.cells pos).accept key v = none →
      exec .cellReadDone s = .next ((s.setInFlight none).scanOn p c
        { k with examined := k.examined + 1, slice := k.slice + 1, checkFailed := k.checkFailed + 1 }).settle) ∧
    (∀ b, (readData s.array.cells pos).accept key v = some b →
      (k.relation.holds ((b.payload.drop k.windowOffset).take k.width) k.pattern = false →
        exec .cellReadDone s = .next ((s.setInFlight none).scanOn p c
          { k with examined := k.examined + 1, slice := k.slice + 1 }).settle) ∧
      (k.relation.holds ((b.payload.drop k.windowOffset).take k.width) k.pattern = true →
        exec .cellReadDone s = .next (((s.setInFlight none).setPort p
          { s.port p with buffer := bufferStore (s.port p).buffer k.outPos (bytes16 key) }).scanOn p c
          { k with examined := k.examined + 1, slice := k.slice + 1, outPos := k.outPos + 2, matched := k.matched + 1 }).settle))) ∧
  (∀ (w x : List Byte), (Relation.eq.holds w x = true ↔ beNat w = beNat x) ∧ (Relation.ne.holds w x = true ↔ beNat w ≠ beNat x) ∧
    (Relation.le.holds w x = true ↔ beNat w ≤ beNat x) ∧ (Relation.ge.holds w x = true ↔ beNat x ≤ beNat w)) ∧
  (∀ (s : State) (p : Port) (c : Cmd) (r : Reason) (k : ScanCtx),
    s.takeScanStep p c (.finish r k) = s.endCommand p
      { tag := c.tag, code := c.code, cls := .normal, reason := reasonCode r, key := if r = .rangeEnd then 0xFFFF#16 else k.cursor,
        version := nat16 k.short ++ nat16 k.checkFailed, count := nat16 k.matched, aux := nat16 k.examined }) ∧
  (∀ (s : State) (p : Port) (c : Cmd) (k : ScanCtx) (e : Entry),
    s.takeScanStep p c (.examine k e) = (s.setWork (.scanning p c k e.key e.version)).presentEngine (.readCell e.cell true)) ∧
  (∀ (s : State) (p : Port) (c : Cmd) (k : ScanCtx),
    s.takeScanStep p c (.park k) = (s.setPort p { s.port p with slot := .parked c k }).setWork .idle ∧
    s.takeScanStep p c .drop = (s.setPort p { s.port p with slot := .none }).setWork .idle) ∧
  (∀ (s : State) (p : Port) (c : Cmd) (k : ScanCtx),
    (∀ x, k.afterExam (s.isResetting p) (s.othersEligible p) = some x → s.scanOn p c k = s.takeScanStep p c x) ∧
    (k.afterExam (s.isResetting p) (s.othersEligible p) = none → s.scanOn p c k = s.searchOn p c k.nextSlice)) ∧
  (∀ (r : CellRead) (key : Key) (v : Version) (b : Body),
    r.accept key v = some b ↔ r.body = some b ∧ b.key = key ∧ b.version = v ∧ r.payloadGood = true) ∧
  (beNat [] = 0 ∧ ∀ (bs : List Byte) (b : Byte), beNat (bs ++ [b]) = 256 * beNat bs + b.toNat)

/-! ## Claims and watches -/

/-- A claim request at the claim table, in the order of Table 6-1, a release request, and an expiry: their changes of the table and their results; a claim request changes the table only where it creates or renews, a release only where the issuing port is the holder, and an expiry removes the claim and offers CLAIM_LOST (EXPIRED) to its holder alone. -/
def Obligations.ClaimsAreDecided : Prop :=
  (∀ (s : State) (p : Port) (c : Cmd), s.starts p c → c.code = codeClaim → checkClaim c = none → s.store.state ≠ .unformatted →
    ∃ granted : State, granted = s.setClaims (putClaim s.coord.claims { key := c.key, holder := p, remaining := c.duration * 1000, overdue := 0 }) ∧
      (∀ x, s.coord.claims.find? (fun x => x.key == c.key) = some x → x.holder = p →
        exec .claim s = .next (granted.endCommand p
          (c.nt .renewed c.key (entryVersion s.engine.dir c.key) (nat16 c.duration) (nat16 (claimsOf granted.coord.claims p)))).settle) ∧
      (∀ x, s.coord.claims.find? (fun x => x.key == c.key) = some x → x.holder ≠ p →
        exec .claim s = .next (s.endCommand p
          (c.at_ .claimBusy c.key (entryVersion s.engine.dir c.key) (nat16 x.remainingMs) (portHalf x.holder))).settle) ∧
      (s.coord.claims.find? (fun x => x.key == c.key) = none →
        (16 ≤ s.coord.claims.length ∨ 8 ≤ claimsOf s.coord.claims p →
          exec .claim s = .next (s.endCommand p
            (c.at_ .claimFull c.key (entryVersion s.engine.dir c.key) (nat16 (claimsOf s.coord.claims p))
              (nat16 s.coord.claims.length))).settle) ∧
        (s.coord.claims.length < 16 → claimsOf s.coord.claims p < 8 →
          exec .claim s = .next (granted.endCommand p
            (c.nt .created c.key (entryVersion s.engine.dir c.key) (nat16 c.duration) (nat16 (claimsOf granted.coord.claims p)))).settle))) ∧
  (∀ (s : State) (p : Port) (c : Cmd), s.starts p c → c.code = codeRelease → checkKey c = none → s.store.state ≠ .unformatted →
    (∀ x, s.coord.claims.find? (fun x => x.key == c.key) = some x → x.holder = p →
      exec .release s = .next ((s.setClaims (s.coord.claims.filter (fun x => x.key != c.key))).endCommand p
        (c.nt .done c.key (entryVersion s.engine.dir c.key) (nat16 x.remainingMs)
          (nat16 (claimsOf (s.coord.claims.filter (fun x => x.key != c.key)) p)))).settle) ∧
    (∀ x, s.coord.claims.find? (fun x => x.key == c.key) = some x → x.holder ≠ p →
      exec .release s = .next (s.endCommand p (c.at_ .notHolder c.key (entryVersion s.engine.dir c.key) 0 (portHalf x.holder))).settle) ∧
    (s.coord.claims.find? (fun x => x.key == c.key) = none →
      exec .release s = .next (s.endCommand p (c.at_ .notHolder c.key (entryVersion s.engine.dir c.key) 0 0xFFFF#16)).settle)) ∧
  (∀ (s : State) (k : Key) (x : Claim), s.running = true → s.coord.claims.find? (fun x => x.key == k) = some x → x.remaining = 0 →
    exec (.claimExpiry k) s = .next
      ((s.setClaims (s.coord.claims.filter (fun y => y.key != x.key))).offer x.holder (.claimLost x.key x.holder .expired)).settle) ∧
  (∀ (cs : List Claim) (x : Claim), (putClaim cs x).find? (fun y => y.key == x.key) = some x ∧
    ∀ k, k ≠ x.key → (putClaim cs x).find? (fun y => y.key == k) = cs.find? (fun y => y.key == k)) ∧
  (∀ x : Claim, 0 < x.remaining → x.remaining ≤ x.remainingMs * 1000 ∧ x.remainingMs * 1000 < x.remaining + 1000) ∧
  (∀ x : Claim, x.remaining = 0 → x.remainingMs = 1) ∧
  (∀ p : Port, (portHalf p).toNat = (portCode p).toNat)

/-- WATCH SET adds the triggers and sets the self flag, or creates the entry, or ends AT WATCH_FULL at 8 entries; WATCH CLEAR removes the triggers and deletes an entry with none left; WATCH LIST writes the entries that fit, 3 bytes each in key order, into the buffer; each reports what the rules give and leaves every other port's list. -/
def Obligations.WatchCommandsKeepTheList : Prop :=
  (∀ (s : State) (p : Port) (c : Cmd), s.starts p c → c.code = codeWatchSet → checkWatchSet c = none → s.store.state ≠ .unformatted →
    ∃ set : Triggers → State,
      (∀ old, set old = s.setWatches p (putWatch (s.coord.watches.get p)
        { key := c.key, triggers := old ||| c.triggers, self := c.byte 3 == 1 })) ∧
      (∀ w, watchOf (s.coord.watches.get p) c.key = some w →
        exec .watchSet s = .next ((set w.triggers).endCommand p
          (c.nt .done c.key (entryVersion s.engine.dir c.key) (nat16 (triggerCount (c.triggers &&& ~~~w.triggers)))
            (watchAux (watchByte (w.triggers ||| c.triggers) (c.byte 3 == 1)) ((set w.triggers).coord.watches.get p).length))).settle) ∧
      (watchOf (s.coord.watches.get p) c.key = none →
        ((s.coord.watches.get p).length < 8 →
          exec .watchSet s = .next ((set 0).endCommand p
            (c.nt .done c.key (entryVersion s.engine.dir c.key) (nat16 (triggerCount c.triggers))
              (watchAux (watchByte c.triggers (c.byte 3 == 1)) ((set 0).coord.watches.get p).length))).settle) ∧
        (8 ≤ (s.coord.watches.get p).length →
          exec .watchSet s = .next (s.endCommand p
            (c.at_ .watchFull c.key (entryVersion s.engine.dir c.key) 0 (watchAux 0 (s.coord.watches.get p).length))).settle))) ∧
  (∀ (s : State) (p : Port) (c : Cmd), s.starts p c → c.code = codeWatchClear → checkWatchClear c = none →
    s.store.state ≠ .unformatted →
    ∃ ws : List Watch,
      (watchOf (s.coord.watches.get p) c.key = none → ws = s.coord.watches.get p) ∧
      (∀ w, watchOf (s.coord.watches.get p) c.key = some w →
        ws = if w.triggers &&& ~~~c.triggers = 0 then (s.coord.watches.get p).filter (fun x => x.key != c.key)
          else putWatch (s.coord.watches.get p) { w with triggers := w.triggers &&& ~~~c.triggers }) ∧
      exec .watchClear s = .next ((s.setWatches p ws).endCommand p
        (c.nt .done c.key (entryVersion s.engine.dir c.key)
          (nat16 (((watchOf (s.coord.watches.get p) c.key).map (fun w => triggerCount (w.triggers &&& c.triggers))).getD 0))
          (watchAux (((watchOf ws c.key).map (fun w => watchByte w.triggers w.self)).getD 0) ws.length))).settle) ∧
  (∀ (s : State) (p : Port) (c : Cmd), s.starts p c → c.code = codeWatchList → checkWatchList c = none →
    s.store.state ≠ .unformatted →
    ∃ fit : List Watch, fit = (s.coord.watches.get p).take ((c.listLast + 1 - c.listFirst) / 3) ∧
      exec .watchList s = .next ((s.setPort p
          { s.port p with
            buffer := bufferStore (s.port p).buffer c.listFirst (fit.flatMap (fun w => bytes16 w.key ++ [watchByte w.triggers w.self])) }
        ).endCommand p (c.nt .done 0xFFFF#16 0 (nat16 fit.length) (nat16 (s.coord.watches.get p).length))).settle) ∧
  (∀ (ws : List Watch) (w : Watch), watchOf (putWatch ws w) w.key = some w ∧
    ∀ k, k ≠ w.key → watchOf (putWatch ws w) k = watchOf ws k) ∧
  (∀ (t : Triggers) (self : Bool), (watchByte t self).toNat = t.toNat + (if self then 128 else 0)) ∧
  (∀ (ws : List Watch) (k : Key), watchOf ws k = ws.find? (fun w => w.key == k)) ∧
  (∀ t : Triggers, triggerCount t = (if t.getLsbD 0 then 1 else 0) + (if t.getLsbD 1 then 1 else 0) + (if t.getLsbD 2 then 1 else 0)) ∧
  (∀ (b : Byte) (n : Nat), n < 256 → (watchAux b n).toNat = 256 * b.toNat + n)

/-! ## Guards -/

/-- The protected set of a guard (R122): size code 0 gives no page, code k from 1 to 8 gives 2^(k-1) pages from the low end for LOWER and the high end for UPPER, code 9 gives all 256, the complement takes the rest; exactly two guards leave a port unguarded. GUARD READ reports the target's guard, the configuration version, the lock mode in force, the session lock, the level of GUARD_EN and the standing, and the threshold, and changes nothing else. GUARD_EN changes nothing but the level, which only the lock check in PIN and GUARD READ sample. The lock check: FIXED, then the session lock, then PIN with GUARD_EN low. The guard byte and the codes of lock mode and standing are those of Table 11-1. -/
def Obligations.GuardsAndTheLockCheck : Prop :=
  (∀ (g : Guard) (page : Byte),
    guardProtects g page =
      (g.complement ^^
        (if g.size.val = 0 then false
        else if g.size.val = 9 then true
        else if g.upper then decide (256 - 2 ^ (g.size.val - 1) ≤ page.toNat) else decide (page.toNat < 2 ^ (g.size.val - 1))))) ∧
  (∀ g : Guard, (∀ page, guardProtects g page = false) ↔
    (g.size.val = 0 ∧ g.complement = false) ∨ (g.size.val = 9 ∧ g.complement = true)) ∧
  (∀ (s : State) (p : Port), s.unguarded p = true ↔ ∀ page, guardProtects (s.guardOfPort p) page = false) ∧
  (∀ (s : State) (p t : Port) (c : Cmd), s.starts p c → c.code = codeGuardRead → c.target = some t →
    ∃ n : Half, exec .guardRead s = .next (s.endCommand p
        { tag := c.tag, code := c.code, cls := .normal, reason := guardByte (s.guardOfPort t), key := 0x0000#16,
          version := entryVersion s.engine.dir 0x0000#16, count := n, aux := nat16 s.guard.settings.threshold }).settle ∧
      n.toNat = (lockCode s.guard.modeInForce).toNat * 16384 + (if s.guard.session then 8192 else 0) + (if s.pins.guardEn then 4096 else 0) +
        (standingCode s.guard.standing).toNat) ∧
  (∀ (s : State) (level : Bool), exec (.guardEnChange level) s = .next (s.setPins { s.pins with guardEn := level })) ∧
  (∀ s : State,
    s.lockCheck =
      if s.guard.modeInForce = .fixed then some 0x0001#16
      else if s.guard.session = true then some 0x0002#16
      else if s.guard.modeInForce = .pin ∧ s.pins.guardEn = false then some 0x0003#16
      else none) ∧
  (∀ g : GuardUnit, g.modeInForce = if g.standing = .unreadable then .fixed else g.settings.mode) ∧
  (∀ g : Guard, (guardByte g).getLsbD 7 = g.upper ∧ (guardByte g).getLsbD 6 = g.complement ∧ (guardByte g).getLsbD 5 = false ∧
    (guardByte g).getLsbD 4 = false ∧ (guardByte g).toNat % 16 = g.size.val) ∧
  (lockCode .opened = 0 ∧ lockCode .pin = 1 ∧ lockCode .fixed = 2 ∧ standingCode .loaded = 0 ∧ standingCode .defaulted = 1 ∧
    standingCode .unreadable = 2)

/-- GUARD SET in READY: AT GUARDED with GUARD_HIT when the issuing port is guarded, AT LOCKED with the condition in aux, AT VERSION_EXHAUSTED, or a write of the configuration record with the target's guard replaced and the lock mode as requested; nothing else changes at a refusal. At the commit the Guard Unit adopts the record with standing LOADED, SESSION sets the session lock, and GUARD_CHANGED goes to the ports of Table 7-6. -/
def Obligations.GuardSetIsDecided : Prop :=
  (∀ (s : State) (p t : Port) (c : Cmd) (g : Guard), s.starts p c → c.code = codeGuardSet → c.target = some t → c.newGuard = some g →
    c.byte 2 ≤ 4 → s.store.state = .ready →
    (s.unguarded p = false →
      exec .guardSet s =
        .next ((s.setFlag p flagGuardHit).endCommand p (c.at_ .guarded 0x0000#16 (entryVersion s.engine.dir 0x0000#16) 0 0)).settle) ∧
    (s.unguarded p = true →
      (∀ aux, s.lockCheck = some aux →
        exec .guardSet s = .next (s.endCommand p (c.at_ .locked 0x0000#16 (entryVersion s.engine.dir 0x0000#16) 0 aux)).settle) ∧
      (s.lockCheck = none →
        (entryVersion s.engine.dir 0x0000#16 = 0xFFFFFFFF#32 →
          exec .guardSet s = .next (s.endCommand p (c.at_ .versionExhausted 0x0000#16 0xFFFFFFFF#32 0 0)).settle) ∧
        (entryVersion s.engine.dir 0x0000#16 ≠ 0xFFFFFFFF#32 →
          ∃ x : Settings,
            x.guards = s.guard.settings.guards.set t g ∧ x.threshold = s.guard.settings.threshold ∧
            x.mode = (if c.byte 2 = 1 then .opened else if c.byte 2 = 2 then .pin else if c.byte 2 = 3 then .fixed
              else s.guard.settings.mode) ∧
            exec .guardSet s = .next (s.requestGrant p c
              { key := 0x0000#16, kind := .config, version := entryVersion s.engine.dir 0x0000#16 + 1, author := .port p,
                payload := some (settingsBytes x, crc16 (settingsBytes x)), old := [], attempt := 1, granted := none, stage := .grantWait,
                retryAtStart := s.retryOf 0x0000#16 }).settle)))) ∧
  (∀ (s : State) (p t : Port) (c : Cmd) (u : Update) (x : Settings), c.target = some t → parseSettings u.bytes = some x →
    (s.adoptGuardSet p c u).guard = { settings := x, standing := .loaded, session := s.guard.session || c.byte 2 == 4 } ∧
    (s.adoptGuardSet p c u).engine = s.engine ∧ (s.adoptGuardSet p c u).array = s.array ∧
    ∀ q, (s.adoptGuardSet p c u).port q =
      if (if s.guard.settings.mode ≠ x.mode ∨ c.byte 2 = 4 then q ≠ p else t ≠ p ∧ q = t) then
        (s.port q).offer (.guardChanged t x.mode (s.guard.session || c.byte 2 == 4) u.version)
      else s.port q) ∧
  (∀ (s : State) (p : Port) (c : Cmd) (u : Update) (pos : Pos) (fails : Bool),
    s.carries .engine (.programMark pos .first) → s.engine.work = .updating p c u → u.stage = .commitMark → u.kind = .config →
    markLeft (markWord s.array.cells pos .first) fails = Config.markPresent →
    ∃ t : State,
      t = (((s.setCells (putMark s.array.cells pos .first Config.markPresent)).setInFlight none).commitBody (u.body s.engine.seq) pos
        ).adoptGuardSet p c u ∧
      (∀ e, lookup s.engine.dir u.key = some e →
        exec (.markProgramDone fails) s =
          .next ((t.setWork (.updating p c { u with stage := .supersede })).presentEngine (.programMark e.cell .second)).settle) ∧
      (lookup s.engine.dir u.key = none →
        exec (.markProgramDone fails) s =
          .next (t.endCommand p (c.nt .done u.key u.version (nat16 u.bytes.length) (nat16 u.attempt))).settle)) ∧
  (∀ s : State, s.configVersion = entryVersion s.engine.dir 0x0000#16) ∧
  (∀ (s : State) (p : Port) (c : Cmd) (u : Update), ∃ (ports : Quad PortUnit) (g : GuardUnit),
    s.adoptGuardSet p c u = ({ s with ports := ports }).setGuard g)

/-! ## Reclaim, FORMAT and STORE INFO -/

/-- RECLAIM in READY: PASS_RUNNING while a pass runs, NO_VICTIM without a FULL segment that holds a dead cell, NO_ROOM with the degrade signal when the victim's live cells do not fit, and otherwise a pass starts on the FULL segment with the most dead cells, then the lowest erase count, then the lowest number. STORE INFO writes its 32 bytes into the buffer, reports the generation and the usable count, and changes nothing else. The block reports no front in UNFORMATTED, and the lowest and the highest erase count of the usable segments whose count is known, 0 when none is (R170). -/
def Obligations.ReclaimAndStoreInfo : Prop :=
  (∀ (s : State) (p : Port) (c : Cmd), s.starts p c → c.code = codeReclaim → s.store.state = .ready →
    (s.space.pass ≠ none → exec .reclaim s = .next (s.endCommand p (c.nt .done 0xFFFF#16 0 0xFFFF#16 0xFF01#16)).settle) ∧
    (s.space.pass = none → s.victim = none →
      exec .reclaim s = .next (s.endCommand p (c.nt .done 0xFFFF#16 0 0xFFFF#16 0xFF02#16)).settle) ∧
    (∀ v, s.space.pass = none → s.victim = some v →
      (s.space.frontFree.length + 31 * s.freeCount < (s.seg v).live →
        exec .reclaim s = .next (s.degrade.endCommand p (c.nt .done 0xFFFF#16 0 0xFFFF#16 0xFF03#16)).settle) ∧
      ((s.seg v).live ≤ s.space.frontFree.length + 31 * s.freeCount →
        exec .reclaim s = .next
          ((((s.setSegState v .victim).setPass
              (some { victim := v, stage := .select, cursor := 1, image := none, attempt := 1, noted := [], awaits := .victimRead })
            ).presentSpace (.readCell ⟨v, 1⟩ true)).endCommand p
            (c.nt .done 0xFFFF#16 0 (nat16 v.val) (nat16 (s.seg v).live))).settle))) ∧
  (∀ (s : State),
    (s.victim = none ↔ ∀ g, (s.seg g).state = .full → (s.seg g).dead = 0) ∧
    ∀ v, s.victim = some v → (s.seg v).state = .full ∧ 1 ≤ (s.seg v).dead ∧
      ∀ g, (s.seg g).state = .full → 1 ≤ (s.seg g).dead →
        (s.seg g).dead < (s.seg v).dead ∨ ((s.seg g).dead = (s.seg v).dead ∧
          ((s.seg v).erases < (s.seg g).erases ∨ ((s.seg v).erases = (s.seg g).erases ∧ v ≤ g)))) ∧
  (∀ (s : State) (p : Port) (c : Cmd), s.starts p c → c.code = codeStoreInfo → c.infoOffset ≤ 2016 →
    ∃ block : List Byte, block.length = 32 ∧
      exec .storeInfo s = .next ((s.setPort p { s.port p with buffer := bufferStore (s.port p).buffer c.infoOffset block }).endCommand p
        (c.nt .done 0xFFFF#16 (generationField s.store.generation) 32 (nat16 s.usableCount))).settle ∧
      block.getD 0 0 = storeCode s.store.state ∧ block.getD 1 0 = stageCode s.space.pass ∧ half16 block 2 = s.store.generation ∧
      half16 block 4 = nat16 (s.countEntries .live) ∧ half16 block 6 = nat16 (s.countEntries .gone) ∧ half16 block 8 = nat16 s.freeCount ∧
      half16 block 10 = nat16 (s.countSegs .full) ∧ half16 block 12 = nat16 (s.countSegs .retired) ∧
      half16 block 14 = segHalf s.shownFront ∧ half16 block 16 = segHalf (s.space.pass.map Pass.victim) ∧
      half16 block 18 = nat16 (lowest s.knownCounts) ∧ half16 block 20 = nat16 (highest s.knownCounts) ∧
      word32 block 22 = s.engine.seq ∧ block.getD 26 0 = BitVec.ofNat 8 s.guard.settings.threshold ∧
      block.drop 27 = [0, 0, 0, 0, 0]) ∧
  (∀ s : State, s.shownFront = (if s.store.state = .unformatted then none else s.front) ∧
    (∀ g, s.front = some g → (s.seg g).state = .front) ∧ (s.front = none → ∀ g, (s.seg g).state ≠ .front)) ∧
  (∀ s : State, ∃ known : Seg → Prop,
    (∀ g, known g ↔ (s.seg g).state ≠ .retired ∧ (s.seg g).state ≠ .unknown ∧ (s.seg g).state ≠ .unlisted) ∧
    ((∀ g, ¬ known g) → lowest s.knownCounts = 0 ∧ highest s.knownCounts = 0) ∧
    ((∃ g, known g) → (∃ g, known g ∧ (s.seg g).erases = lowest s.knownCounts) ∧ ∃ g, known g ∧ (s.seg g).erases = highest s.knownCounts) ∧
    ∀ g, known g → lowest s.knownCounts ≤ (s.seg g).erases ∧ (s.seg g).erases ≤ highest s.knownCounts) ∧
  (∀ (s : State) (st : SegState), s.countSegs st = s.space.segs.toList.countP (fun r => r.state == st) ∧ s.freeCount = s.countSegs .free ∧
    s.usableCount = 256 - s.countSegs .retired) ∧
  (∀ (s : State) (x : EntryState), s.countEntries x = s.engine.dir.countP (fun e => e.state == x)) ∧
  (stageCode none = 0 ∧ ∀ q : Pass, stageCode (some q) = (match q.stage with
    | .select => 1
    | .copying => 2
    | .erasing => 3)) ∧
  (segHalf none = 0xFFFF#16 ∧ ∀ g : Seg, (segHalf (some g)).toNat = g.val)

/-- FORMAT after its parameter check: AT GUARDED with GUARD_HIT, AT LOCKED, AT PERMANENT with the lowest LIVE permanent key and their number, AT GENERATION_EXHAUSTED, each with the current generation in the version field and nothing else changed, or it is accepted: the store is FORMATTING, every parked scan has ended, the claim table, the directory and the pending move are empty, no pass runs, the generation is one higher, and the erase of the lowest segment that is not retired is presented; each port is offered STORE_STATE (FORMATTING, with the generation FORMAT leaves: log entry 16) and then CLAIM_LOST (FORMAT) for each of its claims in the claim table's order, which is the key order; a pass's waiting request is withdrawn, and its victim is FULL again unless its erase has been requested; the other segments, the operation in flight and a reclaim erase, watch lists, guards, buffers, command queues and the array's bytes stand. With every segment retired the configuration write finds no cell: the store is UNFORMATTED and the guards are the defaults. -/
def Obligations.FormatIsDecided : Prop :=
  ∀ (s : State) (p : Port) (c : Cmd), s.starts p c → c.code = codeFormat → checkFormat c = none →
    (s.unguarded p = false →
      exec .format s =
        .next ((s.setFlag p flagGuardHit).endCommand p (c.at_ .guarded 0xFFFF#16 (generationField s.store.generation) 0 0)).settle) ∧
    (s.unguarded p = true →
      (∀ aux, s.lockCheck = some aux →
        exec .format s = .next (s.endCommand p (c.at_ .locked 0xFFFF#16 (generationField s.store.generation) 0 aux)).settle) ∧
      (s.lockCheck = none →
        (∀ e rest, s.engine.dir.filter (fun e => isPermanent e.key && e.state == .live) = e :: rest →
          exec .format s = .next (s.endCommand p
            (c.at_ .permanent e.key (generationField s.store.generation) (nat16 (rest.length + 1)) 0)).settle) ∧
        (s.engine.dir.filter (fun e => isPermanent e.key && e.state == .live) = [] →
          (s.store.generation = 0xFFFF#16 →
            exec .format s = .next (s.endCommand p
              (c.at_ .generationExhausted 0xFFFF#16 (generationField s.store.generation) 0 0)).settle) ∧
          (s.store.generation ≠ 0xFFFF#16 →
            (∀ g, (∀ h, h < g → (s.seg h).state = .retired) → (s.seg g).state ≠ .retired →
              ∃ t : State, exec .format s = .next t.settle ∧ t.store.state = .formatting ∧ t.engine.work = .formatting p c ∧
                t.array.waitStore = some (.eraseSegment g (s.store.generation + 1) ((s.seg g).erases + 1)) ∧
                t.store.generation = s.store.generation + 1 ∧ t.engine.dir = [] ∧ t.engine.move = none ∧ t.coord.claims = [] ∧
                t.coord.watches = s.coord.watches ∧ t.space.pass = none ∧ t.guard = s.guard ∧ t.array.cells = s.array.cells ∧
                t.engine.seq = s.engine.seq ∧
                (∀ q, (t.port q).commands = (s.port q).commands ∧ (t.port q).buffer = (s.port q).buffer ∧
                  (t.port q).flags &&& (s.port q).flags = (s.port q).flags ∧ (t.port q).enables = (s.port q).enables) ∧
                (∀ q, ∃ u : PortUnit,
                  u = ((s.coord.claims.filter (fun x => x.holder == q)).map (fun x => Event.claimLost x.key q .format)).foldl PortUnit.offer
                    ((s.port q).offer (.storeState .formatting s.store.generation)) ∧
                  (t.port q).events = u.events ∧ (t.port q).flags = u.flags ∧ (t.port q).frame = u.frame) ∧
                (∀ q, s.space.pass = some q → t.array.waitSpace = none) ∧
                (s.space.pass = none → t.array.waitSpace = s.array.waitSpace) ∧
                t.array.inFlight = s.array.inFlight ∧ t.array.erase = s.array.erase ∧ t.space.frontFree = [] ∧
                (∀ q, s.space.pass = some q → (s.seg q.victim).state = .victim →
                  t.seg q.victim = { s.seg q.victim with state := .full }) ∧
                (∀ h, (∀ q, s.space.pass = some q → q.victim = h → (s.seg h).state ≠ .victim) → t.seg h = s.seg h) ∧
                ∀ q x k, (s.port q).slot = .parked x k → (s.port q).state = .active →
                  (t.port q).slot = .none ∧ (t.port q).results = (s.port q).results ++
                    [{ tag := x.tag, code := x.code, cls := .abandoned, reason := reasonCode .stateChanged, key := k.cursor,
                       version := nat16 k.short ++ nat16 k.checkFailed, count := nat16 k.matched, aux := nat16 k.examined }]) ∧
            ((∀ g, (s.seg g).state = .retired) →
              ∃ t : State, exec .format s = .next t.settle ∧ t.store.state = .unformatted ∧ t.engine.work = .idle ∧ t.engine.dir = [] ∧
                t.guard = { settings := Settings.default, standing := .defaulted, session := s.guard.session } ∧
                t.array.cells = s.array.cells ∧ t.coord.claims = [] ∧ t.store.generation = s.store.generation + 1 ∧
                ∀ q, ∃ u : PortUnit,
                  u = (((s.coord.claims.filter (fun x => x.holder == q)).map (fun x => Event.claimLost x.key q .format)).foldl PortUnit.offer
                    ((s.port q).offer (.storeState .formatting s.store.generation))).offer
                      (.storeState .unformatted (s.store.generation + 1)) ∧
                  (t.port q).events = u.events ∧ (t.port q).flags = u.flags ∧ (t.port q).frame = u.frame)))))

/-- FORMAT's erases and its end. Each segment the table does not hold as RETIRED is erased, in ascending order, with the new generation and its count + 1; the outcome is recorded, and a retired one has its mark presented once, whatever its outcome (R17, R167). A reclaim erase that ends after the acceptance is recorded: FORMAT's waiting request for that segment takes its count from the table or gives way, one for another segment stands (log entry 19), and a segment the erase retires has its mark presented once by the Store Controller, as its next request (log entry 28). Then the configuration record is written, version 1, author the issuing port, guards and mode kept or the defaults, with the threshold given, in up to 3 attempts that take their cells as copy grants do; at its commit the entry is created, the record adopted with standing LOADED, the store READY or, below 136 usable segments, DEGRADED, and the FORMAT ends NT DONE; when the third attempt fails or there is no cell the guards are the defaults, the store is UNFORMATTED and the FORMAT ends AT PROGRAM_FAIL with 3 or 0 in aux (R168). That a retired mark comes before the next erase is log entry 31. -/
def Obligations.FormatEnds : Prop :=
  (∀ (s : State) (n : Nat),
    (∀ (g : Seg) (rest : List Seg), s.formatErases n (g :: rest) =
      (s.setProgress (.formatting (.retireMark g n rest))).presentStore (.programMark ⟨g, 0⟩ .first)) ∧
    (∀ g : Seg, n ≤ g.val → (s.seg g).state ≠ .retired → (∀ h : Seg, n ≤ h.val → h < g → (s.seg h).state = .retired) →
      s.formatErases n [] =
        (s.setProgress (.formatting (.erase g []))).presentStore (.eraseSegment g s.store.generation ((s.seg g).erases + 1))) ∧
    ((∀ g : Seg, n ≤ g.val → (s.seg g).state = .retired) → s.formatErases n [] = s.formatWrite 1)) ∧
  (∀ (s : State) (g : Seg) (gen : Generation) (n : Nat) (owes : List Seg) (left : List Host.Cell),
    s.carries .store (.eraseSegment g gen n) → s.store.progress = .formatting (.erase g owes) →
    ∃ t : State, t = (s.afterErase g gen n left).withErased g n (eraseVerifies s.array.cells g gen n left) ∧
      (eraseVerifies s.array.cells g gen n left = true → n < 50000 →
        exec (.segmentEraseDone left) s = .next (t.formatErases (g.val + 1) owes).settle) ∧
      (eraseVerifies s.array.cells g gen n left = false ∨ 50000 ≤ n →
        exec (.segmentEraseDone left) s = .next (t.formatErases (g.val + 1) (owes ++ [g])).settle)) ∧
  (∀ (s : State) (g : Seg) (n : Nat) (owes : List Seg) (fails : Bool), s.carries .store (.programMark ⟨g, 0⟩ .first) →
    s.store.progress = .formatting (.retireMark g n owes) →
    exec (.markProgramDone fails) s = .next ((s.afterMark ⟨g, 0⟩ .first fails).formatErases n owes).settle) ∧
  (∀ (s : State) (e : EraseCtx) (h : Seg) (owes : List Seg) (left : List Host.Cell), s.running = true → s.array.inFlight = none →
    s.array.erase = some e → e.state ≠ .suspended → s.space.pass = none → s.store.progress = .formatting (.erase h owes) →
    ∃ (t : State) (retired : List Seg),
      t = (s.afterReclaimErase e left).withErased e.seg e.count (eraseVerifies s.array.cells e.seg e.generation e.count left) ∧
      (eraseVerifies s.array.cells e.seg e.generation e.count left = true → e.count < 50000 → retired = []) ∧
      (eraseVerifies s.array.cells e.seg e.generation e.count left = false ∨ 50000 ≤ e.count → retired = [e.seg]) ∧
      (h = e.seg → exec (.segmentEraseDone left) s = .next (t.formatErases 0 retired).settle) ∧
      (h ≠ e.seg → exec (.segmentEraseDone left) s = .next (t.setProgress (.formatting (.erase h retired))).settle)) ∧
  (∀ (s t : State) (p : Port) (c : Cmd) (n : Nat) (pos : Pos), s.engine.work = .formatting p c → s.copyGrant = some (pos, t) →
    ∃ x : Settings, x = { guards := if c.byte 0 = 0 then s.guard.settings.guards else Settings.default.guards
                          mode := if c.byte 0 = 0 then s.guard.settings.mode else .opened
                          threshold := c.threshold } ∧
      s.formatWrite n = ((t.bumpSeq).setProgress (.formatting (.configBody pos n))).presentStore (.programBody pos
        { key := 0x0000#16, version := 1, seq := s.engine.seq, length := 6, author := .port p, kind := .config,
          check := crc16 (settingsBytes x), payload := settingsBytes x })) ∧
  (∀ (s : State) (p : Port) (c : Cmd), s.engine.work = .formatting p c →
    ∃ failed : State → Half → State,
      (∀ (t : State) (aux : Half), failed t aux =
        ((((t.setGuard { settings := Settings.default, standing := .defaulted, session := t.guard.session }).setProgress .none).enterStore
          .unformatted).endCommand p (c.at_ .programFail 0xFFFF#16 (generationField t.store.generation) 0 aux))) ∧
      (∀ n, s.copyGrant = none → s.formatWrite n = failed s 0) ∧
      (∀ (n : Nat) (pos : Pos) (b : Body) (left : List Host.Cell), s.carries .store (.programBody pos b) →
        s.store.progress = .formatting (.configBody pos n) →
        (s.bodyTakes pos b left →
          exec (.bodyProgramDone left) s = .next
            (((s.afterBody pos b left).setProgress (.formatting (.configMark pos n))).presentStore (.programMark pos .first)).settle) ∧
        (¬ s.bodyTakes pos b left →
          (n < 3 → exec (.bodyProgramDone left) s = .next (((s.afterBody pos b left).countDead pos).formatWrite (n + 1)).settle) ∧
          (3 ≤ n → exec (.bodyProgramDone left) s = .next (failed ((s.afterBody pos b left).countDead pos) 3).settle))) ∧
      (∀ (n : Nat) (pos : Pos) (fails : Bool), s.carries .store (.programMark pos .first) →
        s.store.progress = .formatting (.configMark pos n) →
        (¬ s.markTakes pos .first fails →
          (n < 3 → exec (.markProgramDone fails) s = .next (((s.afterMark pos .first fails).countDead pos).formatWrite (n + 1)).settle) ∧
          (3 ≤ n → exec (.markProgramDone fails) s = .next (failed ((s.afterMark pos .first fails).countDead pos) 3).settle)) ∧
        (∀ x : Settings,
          x = { guards := if c.byte 0 = 0 then s.guard.settings.guards else Settings.default.guards
                mode := if c.byte 0 = 0 then s.guard.settings.mode else .opened
                threshold := c.threshold } →
          s.markTakes pos .first fails → x.thresholdOk →
          exec (.markProgramDone fails) s = .next
            ((((((((s.afterMark pos .first fails).commitBody (configBody (.port p) x) pos).setGuard
              { settings := x, standing := .loaded, session := s.guard.session }).setProgress .none).enterStore
                (if s.usableCount < 136 then .degraded else .ready)).endCommand p
                  (c.nt .done 0xFFFF#16 (generationField s.store.generation) (nat16 s.usableCount) (nat16 n))).trigger)).settle))) ∧
  (∀ (author : Author) (x : Settings), configBody author x =
    { key := 0x0000#16, version := 1, seq := 0, length := 6, author := author, kind := .config, check := crc16 (settingsBytes x),
      payload := settingsBytes x })

/-- The reclaim pass: a victim cell that no entry names leaves the directory, is noted when it reads COMMITTED, and the read of the next cell follows; a GONE entry's cell at stale count 0, the configuration key excepted, gets its supersede mark; any other named cell is copied to the front's lowest free cell with the next sequence number, its other contents as read when the body is good, and otherwise the entry's fields, the kind its state gives, the payload area's bytes and the complement of their check (R142). The erase's end makes the segment FREE with its new count below 50,000, and otherwise RETIRED with its retired mark presented, and the degrade signal below 136 usable segments; with either outcome each noted cell lowers its key's stale count by 1 and a retry cell in the segment becomes absent. -/
def Obligations.ReclaimPassAdvances : Prop :=
  (∀ (s : State) (q : Pass) (pos : Pos), s.carries .space (.readCell pos true) → s.space.pass = some q → q.awaits = .victimRead →
    pos = ⟨q.victim, q.cursor⟩ →
    ((∀ e ∈ s.engine.dir, e.cell ≠ pos) →
      ∃ noted : List (CellNo × Key),
        ((readData s.array.cells pos).cond ≠ .committed → noted = q.noted) ∧
        ((readData s.array.cells pos).cond = .committed → ∃ b, (readData s.array.cells pos).body = some b ∧
          noted = if q.noted.any (fun n => n.1 == q.cursor) then q.noted else q.noted ++ [(q.cursor, b.key)]) ∧
        exec .cellReadDone s = .next ((s.setInFlight none).advance { q with stage := .copying, attempt := 1, noted := noted }).settle ∧
        ∀ h : q.cursor.val + 1 < 32,
          exec .cellReadDone s = .next (((s.setInFlight none).setPass
            (some { victim := q.victim, stage := .copying, cursor := ⟨q.cursor.val + 1, h⟩, image := none, attempt := 1, noted := noted,
                    awaits := .victimRead })).presentSpace (.readCell ⟨q.victim, ⟨q.cursor.val + 1, h⟩⟩ true)).settle) ∧
    (∀ e, namedBy s.engine.dir pos = some e →
      ∃ b : Body,
        (∀ r, (readData s.array.cells pos).body = some r → b = r) ∧
        ((readData s.array.cells pos).body = none →
          b.key = e.key ∧ b.version = e.version ∧ b.length = e.length ∧ b.author = e.author ∧
          b.kind = (if e.key = 0x0000#16 then .config else if e.state = .live then .data else .tombstone) ∧
          b.payload = (readData s.array.cells pos).area.take e.length ∧ b.check = ~~~(crc16 b.payload)) ∧
        (e.state = .gone ∧ e.stale = 0 ∧ e.key ≠ 0x0000#16 →
          exec .cellReadDone s = .next (((s.setInFlight none).setPass
            (some { q with stage := .copying, attempt := 1, image := some b, awaits := .dropMark })).presentSpace
              (.programMark pos .second)).settle) ∧
        (¬ (e.state = .gone ∧ e.stale = 0 ∧ e.key ≠ 0x0000#16) →
          exec .cellReadDone s = .next ((s.setInFlight none).startCopy { q with stage := .copying, attempt := 1 } b).settle ∧
          ∀ f cell rest, s.front = some f → s.space.frontFree = cell :: rest →
            exec .cellReadDone s = .next
              ((((((s.setInFlight none).setSeg f (s.seg f).grant).setFrontFree rest).setPass
                (some { q with stage := .copying, attempt := 1, image := some b, awaits := .copyBody ⟨f, cell⟩ })).bumpSeq).presentSpace
                  (.programBody ⟨f, cell⟩ { b with seq := s.engine.seq })).settle))) ∧
  (∀ (s : State) (q : Pass) (e : EraseCtx) (left : List Host.Cell), s.running = true → s.array.inFlight = none → s.array.erase = some e →
    e.state ≠ .suspended → s.space.pass = some q →
    ∃ t : State,
      t = ((s.afterReclaimErase e left).withErased e.seg e.count (eraseVerifies s.array.cells e.seg e.generation e.count left)).setDir
        (s.engine.dir.map (fun x =>
          { x with
            stale := x.stale - q.noted.countP (fun n => n.2 == x.key)
            retry := if (∃ n ∈ q.noted, n.2 = x.key) ∧ x.retry.map Pos.seg = some e.seg then none else x.retry })) ∧
      (eraseVerifies s.array.cells e.seg e.generation e.count left = true → e.count < 50000 →
        exec (.segmentEraseDone left) s = .next ((t.setPass none).trigger).settle) ∧
      (eraseVerifies s.array.cells e.seg e.generation e.count left = false ∨ 50000 ≤ e.count →
        ∃ v : State, v = t.setPass (some { q with noted := [], awaits := .retiredMark }) ∧
          exec (.segmentEraseDone left) s =
            .next ((if v.usableCount < 136 then v.degrade else v).presentSpace (.programMark ⟨e.seg, 0⟩ .first)).settle)) ∧
  (∀ (d : List Entry) (pos : Pos), namedBy d pos = d.find? (fun e => decide (e.cell = pos)))

/-- The outcomes of a pass's programs. A copy's body that fails counts the copy dead and fails the attempt; one that is DONE asks for the move: refused, it counts the copy dead and the next cell follows; accepted, the entry names the copy with move-pending set and its stale count raised, the pending move is recorded and the commit mark presented. A commit mark's outcome changes the directory as Table 3-3 lays out and discards the record: RESOLVED counts the victim cell dead and notes it, REVERTED counts the copy dead and fails the attempt; MARK_FAIL after an update's commit but before its supersede outcome is log entry 25. A tombstone's supersede mark that is DONE drops the entry when it is GONE, names the cell and has stale count 0; otherwise, and at MARK_FAIL, the tombstone is copied from attempt 1; a noted tombstone cell that the mark has made SUPERSEDED leaves the noted cells and its key's stale count (R46, R145, R193; log entry 30). The retired mark's outcome, whatever it is, ends the pass. -/
def Obligations.PassProgramsEnd : Prop :=
  (∀ (s : State) (q : Pass) (b image : Body) (copy : Pos) (left : List Host.Cell), s.carries .space (.programBody copy b) →
    s.space.pass = some q → q.awaits = .copyBody copy → q.image = some image →
    ∃ t : State, t = s.afterBody copy b left ∧
      (¬ s.bodyTakes copy b left → exec (.bodyProgramDone left) s = .next ((t.countDead copy).copyFailed q image).settle) ∧
      (s.bodyTakes copy b left →
        (∀ e, lookup s.engine.dir image.key = some e → e.cell ≠ ⟨q.victim, q.cursor⟩ ∨ e.version ≠ image.version) →
        exec (.bodyProgramDone left) s = .next ((t.countDead copy).advance q).settle) ∧
      (∀ e, s.bodyTakes copy b left → lookup s.engine.dir image.key = some e → e.cell = ⟨q.victim, q.cursor⟩ → e.version = image.version →
        exec (.bodyProgramDone left) s = .next
          ((((t.setDir (s.engine.dir.map (fun x =>
            if x.key = image.key then { x with cell := copy, movePending := true, stale := x.stale + 1 } else x))).setMove
              (some { key := image.key, version := image.version, victim := ⟨q.victim, q.cursor⟩, copy := copy, overtaken := .none })).setPass
                (some { q with awaits := .copyCommit copy })).presentSpace (.programMark copy .first)).settle)) ∧
  (∀ (s : State) (q : Pass) (image : Body) (copy : Pos) (m : Move) (fails : Bool), s.carries .space (.programMark copy .first) →
    s.space.pass = some q → q.awaits = .copyCommit copy → q.image = some image → s.engine.move = some m →
    ∃ resolved : List Entry → State,
      (∀ d, resolved d = (((((s.afterMark copy .first fails).setDir d).setMove none).countDead ⟨q.victim, q.cursor⟩).advance
        { q with noted := if q.noted.any (fun n => n.1 == q.cursor) then q.noted else q.noted ++ [(q.cursor, image.key)] })) ∧
      (s.markTakes copy .first fails → m.overtaken = .none →
        exec (.markProgramDone fails) s = .next (resolved (s.engine.dir.map (fun e =>
          if e.key = m.key ∧ e.cell = m.copy then { e with movePending := false } else e))).settle) ∧
      (s.markTakes copy .first fails → m.overtaken ≠ .none → exec (.markProgramDone fails) s = .next (resolved s.engine.dir).settle) ∧
      (¬ s.markTakes copy .first fails → m.overtaken = .marked →
        exec (.markProgramDone fails) s = .next (resolved s.engine.dir).settle) ∧
      (¬ s.markTakes copy .first fails → m.overtaken = .unmarked →
        exec (.markProgramDone fails) s = .next (resolved (s.engine.dir.map (fun e =>
          if e.key = m.key then { e with stale := e.stale - 1, retry := if e.retry = some m.copy then none else e.retry } else e))).settle) ∧
      (¬ s.markTakes copy .first fails → m.overtaken = .none → (∀ e, lookup s.engine.dir m.key = some e → e.cell ≠ m.copy) →
        exec (.markProgramDone fails) s = .next (resolved s.engine.dir).settle) ∧
      (∀ e, ¬ s.markTakes copy .first fails → m.overtaken = .none → lookup s.engine.dir m.key = some e → e.cell = m.copy →
        exec (.markProgramDone fails) s = .next
          (((((s.afterMark copy .first fails).setDir (s.engine.dir.map (fun x =>
            if x.key = m.key then { x with cell := m.victim, movePending := false, stale := x.stale - 1 } else x))).setMove none).countDead
              copy).copyFailed q image).settle)) ∧
  (∀ (s : State) (q : Pass) (b : Body) (fails : Bool), s.carries .space (.programMark ⟨q.victim, q.cursor⟩ .second) →
    s.space.pass = some q → q.awaits = .dropMark → q.image = some b →
    ∃ t : State, t = s.afterMark ⟨q.victim, q.cursor⟩ .second fails ∧
      (∀ e, s.markTakes ⟨q.victim, q.cursor⟩ .second fails → lookup s.engine.dir b.key = some e → e.state = .gone →
        e.cell = ⟨q.victim, q.cursor⟩ → e.stale = 0 →
        exec (.markProgramDone fails) s = .next
          (((t.setDir (s.engine.dir.filter (fun x => x.key != b.key))).countDead ⟨q.victim, q.cursor⟩).advance q).settle) ∧
      (¬ s.markTakes ⟨q.victim, q.cursor⟩ .second fails →
        exec (.markProgramDone fails) s = .next (t.startCopy { q with attempt := 1 } b).settle) ∧
      (s.markTakes ⟨q.victim, q.cursor⟩ .second fails →
        (∀ e, lookup s.engine.dir b.key = some e → e.state ≠ .gone ∨ e.cell ≠ ⟨q.victim, q.cursor⟩ ∨ e.stale ≠ 0) →
        ((∀ n ∈ q.noted, n.1 ≠ q.cursor) →
          exec (.markProgramDone fails) s = .next (t.startCopy { q with attempt := 1 } b).settle) ∧
        ((∃ n ∈ q.noted, n.1 = q.cursor) →
          exec (.markProgramDone fails) s = .next
            ((t.setDir (s.engine.dir.map (fun x =>
              if x.key = b.key then
                { x with stale := x.stale - 1, retry := if x.retry = some ⟨q.victim, q.cursor⟩ then none else x.retry }
              else x))).startCopy { q with attempt := 1, noted := q.noted.filter (fun n => n.1 != q.cursor) } b).settle))) ∧
  (∀ (s : State) (q : Pass) (g : Seg) (fails : Bool), s.carries .space (.programMark ⟨g, 0⟩ .first) → s.space.pass = some q →
    q.awaits = .retiredMark →
    exec (.markProgramDone fails) s = .next (((s.afterMark ⟨g, 0⟩ .first fails).setPass none).trigger).settle)

/-- How a pass goes on: the read of the next cell, and after cell 31 the erase when the segment is clear, or cell 1 again. A copy grant takes the front's lowest free cell, or cell 1 of a new front, the FREE segment of lowest erase count and then lowest number, the last one included, the previous front becoming FULL; the copy has the next sequence number; without a cell the pass is abandoned, the victim FULL again, and the trigger evaluated. A failed attempt below the third is made again, and a third abandons the pass with the degrade signal, in the order with the trigger that log entry 13 leaves open. The trigger starts a pass in READY while none runs, at a FREE count at or below the threshold, on the victim if its live cells fit, and degrades if they do not; a due held grant comes first (log entry 10). The degrade signal acts in READY only: DEGRADED is entered, and a held update ends AT READ_ONLY. -/
def Obligations.PassGoesOn : Prop :=
  (∀ (s : State) (q : Pass),
    (∀ h : q.cursor.val + 1 < 32, s.advance q =
      (s.setPass (some { q with cursor := ⟨q.cursor.val + 1, h⟩, image := none, attempt := 1, awaits := .victimRead })).presentSpace
        (.readCell ⟨q.victim, ⟨q.cursor.val + 1, h⟩⟩ true)) ∧
    (q.cursor = 31 → (∀ e ∈ s.engine.dir, e.cell.seg ≠ q.victim) → s.engine.move = none →
      s.advance q =
        ((s.setSeg q.victim { s.seg q.victim with state := .erasing }).setPass
          (some { q with stage := .erasing, image := none, awaits := .erase })).presentSpace
            (.eraseSegment q.victim s.store.generation ((s.seg q.victim).erases + 1))) ∧
    (q.cursor = 31 → (∃ e ∈ s.engine.dir, e.cell.seg = q.victim) ∨ s.engine.move ≠ none →
      s.advance q =
        (s.setPass (some { q with cursor := 1, image := none, attempt := 1, awaits := .victimRead })).presentSpace
          (.readCell ⟨q.victim, 1⟩ true))) ∧
  (∀ (s : State) (f : Seg) (cell : CellNo) (rest : List CellNo), s.front = some f → s.space.frontFree = cell :: rest →
    s.copyGrant = some (⟨f, cell⟩, (s.setSeg f (s.seg f).grant).setFrontFree rest)) ∧
  (∀ s : State, FrontOk s → s.front = none ∨ s.space.frontFree = [] → s.freeCount ≠ 0 →
    ∃ (g : Seg) (t : State), s.copyGrant = some (⟨g, 1⟩, t) ∧ (s.seg g).state = .free ∧
      (∀ h, (s.seg h).state = .free → (s.seg g).erases < (s.seg h).erases ∨ ((s.seg g).erases = (s.seg h).erases ∧ g ≤ h)) ∧
      t = (s.setSegs t.space.segs).setFrontFree dataCells.tail ∧
      t.seg g = { state := .front, erases := (s.seg g).erases, live := 1, dead := 0, free := 30 } ∧
      ∀ h, h ≠ g → t.seg h = if s.front = some h then { s.seg h with state := .full } else s.seg h) ∧
  (∀ s : State, s.front = none ∨ s.space.frontFree = [] → s.freeCount = 0 → s.copyGrant = none) ∧
  (∀ (s t : State) (q : Pass) (b : Body) (pos : Pos), s.copyGrant = some (pos, t) →
    s.startCopy q b =
      ((t.setPass (some { q with image := some b, awaits := .copyBody pos })).bumpSeq).presentSpace
        (.programBody pos { b with seq := s.engine.seq })) ∧
  (∀ (s : State) (q : Pass) (b : Body), s.copyGrant = none →
    s.startCopy q b = ((s.setSeg q.victim { s.seg q.victim with state := .full }).setPass none).trigger) ∧
  (∀ (s : State) (q : Pass) (b : Body),
    (q.attempt < 3 → s.copyFailed q b = s.startCopy { q with attempt := q.attempt + 1 } b) ∧
    (3 ≤ q.attempt →
      ∃ t : State, t = (s.setSeg q.victim { s.seg q.victim with state := .full }).setPass none ∧
        (s.copyFailed q b = t.degrade.trigger ∨ s.copyFailed q b = t.trigger.degrade))) ∧
  (∀ s : State,
    (¬ (s.store.state = .ready ∧ s.space.pass = none ∧ s.freeCount ≤ s.guard.settings.threshold ∧ s.heldDue = false) → s.trigger = s) ∧
    (s.store.state = .ready → s.space.pass = none → s.freeCount ≤ s.guard.settings.threshold → s.heldDue = false →
      (s.victim = none → s.trigger = s) ∧
      ∀ v, s.victim = some v →
        ((s.seg v).live ≤ s.space.frontFree.length + 31 * s.freeCount →
          s.trigger = ((s.setSeg v { s.seg v with state := .victim }).setPass
            (some { victim := v, stage := .select, cursor := 1, image := none, attempt := 1, noted := [], awaits := .victimRead })
              ).presentSpace (.readCell ⟨v, 1⟩ true)) ∧
        (s.space.frontFree.length + 31 * s.freeCount < (s.seg v).live → s.trigger = s.degrade))) ∧
  (∀ s : State,
    (s.store.state ≠ .ready → s.degrade = s) ∧
    (s.store.state = .ready → s.space.held = false → s.degrade = s.enterStore .degraded) ∧
    (∀ p c u, s.store.state = .ready → s.space.held = true → s.engine.work = .updating p c u →
      s.degrade = ((s.enterStore .degraded).setHeld false).endCommand p
        (c.at_ .readOnly u.key (entryVersion s.engine.dir u.key) 0 (nat16 (u.attempt - 1))))) ∧
  (∀ (s : State) (st : StoreState),
    (∀ p, (s.enterStore st).port p = (s.port p).offer (.storeState st s.store.generation)) ∧
    (s.enterStore st).store = { s.store with state := st } ∧ (s.enterStore st).engine = s.engine ∧ (s.enterStore st).space = s.space ∧
    (s.enterStore st).array = s.array ∧ (s.enterStore st).guard = s.guard ∧ (s.enterStore st).coord = s.coord)

/-- Mount: the read of a segment's header classes the segment (a retired mark, a VALID header below the endurance, a BAD one) and the next header is read, a VALID header at erase count 50,000 gets its retired mark, and an ERASED one has its data cells read, in order, each good body raising the highest sequence number read: the segment is BLANK after the last and DAMAGED at the first that does not read ERASED (Table 9-5); when no segment is VALID after the last header the table holds the RETIRED ones and every other as UNKNOWN with count 0, the counter follows the highest sequence number read, and the store is UNFORMATTED (R156); and the configuration cell, read, gives the settings with standing LOADED when it is readable, and otherwise all guards over all pages with lock mode FIXED, standing UNREADABLE and the store DEGRADED. That a segment's data cells and retired mark come before the next header is the model's choice (log entry 31). -/
def Obligations.MountAdvances : Prop :=
  (∀ (s : State) (m : Mount) (g : Seg), s.carries .store (.readCell ⟨g, 0⟩ false) → s.store.progress = .mounting m →
    m.awaits = .header g → m.classes.length = g.val →
    (∀ c : SegClass,
      ((readHeader s.array.cells g).retired = true ∧ c = .retired (readHeader s.array.cells g).count) ∨
        ((readHeader s.array.cells g).retired = false ∧ (readHeader s.array.cells g).cond = .valid ∧
          (readHeader s.array.cells g).count ≠ 50000 ∧
          c = .valid (readHeader s.array.cells g).generation (readHeader s.array.cells g).count) ∨
        ((readHeader s.array.cells g).retired = false ∧ (readHeader s.array.cells g).cond = .bad ∧ c = .damaged) →
      (∀ h : g.val + 1 < 256,
        exec .cellReadDone s = .next
          (((s.setInFlight none).setProgress (.mounting { m with classes := m.classes ++ [c], awaits := .header ⟨g.val + 1, h⟩ })
            ).presentStore (.readCell ⟨⟨g.val + 1, h⟩, 0⟩ false)).settle) ∧
      (g.val = 255 → exec .cellReadDone s = .next ((s.setInFlight none).mountClassified { m with classes := m.classes ++ [c] }).settle) ∧
      (g.val = 255 → (∀ x ∈ m.classes ++ [c], ∀ gen n, x ≠ .valid gen n) →
        ∃ t : State, exec .cellReadDone s = .next t.settle ∧ t.store.state = .unformatted ∧ t.store.progress = .none ∧
          t.store.generation = s.store.generation ∧ t.engine.dir = s.engine.dir ∧ t.guard = s.guard)) ∧
    ((readHeader s.array.cells g).retired = false → (readHeader s.array.cells g).cond = .valid →
      (readHeader s.array.cells g).count = 50000 →
      exec .cellReadDone s = .next
        (((s.setInFlight none).setProgress (.mounting { m with classes := m.classes ++ [.retired 50000], awaits := .wornMark g })
          ).presentStore (.programMark ⟨g, 0⟩ .first)).settle) ∧
    ((readHeader s.array.cells g).retired = false → (readHeader s.array.cells g).cond = .erased →
      exec .cellReadDone s = .next
        (((s.setInFlight none).setProgress (.mounting { m with awaits := .blankCell ⟨g, 1⟩ })).presentStore (.readCell ⟨g, 1⟩ true)).settle)) ∧
  (∀ (s : State) (m : Mount) (pos : Pos), s.carries .store (.readCell pos true) → s.store.progress = .mounting m →
    m.awaits = .blankCell pos →
    ∃ m' : Mount,
      m' = { m with topSeq := ((readData s.array.cells pos).body.map (fun b => max m.topSeq b.seq.toNat)).getD m.topSeq } ∧
      ((readData s.array.cells pos).cond = .erased →
        (∀ h : pos.cell.val + 1 < 32,
          exec .cellReadDone s = .next
            (((s.setInFlight none).setProgress (.mounting { m' with awaits := .blankCell ⟨pos.seg, ⟨pos.cell.val + 1, h⟩⟩ })).presentStore
              (.readCell ⟨pos.seg, ⟨pos.cell.val + 1, h⟩⟩ true)).settle) ∧
        (pos.cell = 31 →
          exec .cellReadDone s = .next ((s.setInFlight none).mountHeaders { m' with classes := m.classes ++ [.blank] }).settle)) ∧
      ((readData s.array.cells pos).cond ≠ .erased →
        exec .cellReadDone s = .next ((s.setInFlight none).mountHeaders { m' with classes := m.classes ++ [.damaged] }).settle)) ∧
  (∀ (s : State) (m : Mount), (∀ gen n, SegClass.valid gen n ∉ m.classes) →
    ∃ (segs : Vector SegRow 256) (seq : SeqNo),
      (∀ (g : Seg) (n : Nat), m.classes[g.val]? = some (.retired n) →
        segs[g] = { state := .retired, erases := n, live := 0, dead := 0, free := 0 }) ∧
      (∀ g : Seg, (∀ n, m.classes[g.val]? ≠ some (.retired n)) →
        segs[g] = { state := .unknown, erases := 0, live := 0, dead := 0, free := 0 }) ∧
      seq.toNat = min (m.topSeq + 1) 0xFFFFFFFF ∧
      s.mountClassified m = (((s.setSegs segs).setSeq seq).setProgress .none).enterStore .unformatted) ∧
  (∀ (s : State) (m : Mount) (e : Entry), s.carries .store (.readCell e.cell true) → s.store.progress = .mounting m →
    m.awaits = .configRead → lookup s.engine.dir 0x0000#16 = some e →
    (∀ b x, (readData s.array.cells e.cell).body = some b → b.kind = .config → (readData s.array.cells e.cell).payloadGood = true →
      b.length = 6 → parseSettings b.payload = some x →
      ∃ t : State, exec .cellReadDone s = .next t.settle ∧ t.store.progress = .none ∧ (t.store.state = .ready ∨ t.store.state = .degraded) ∧
        t.guard = { settings := x, standing := .loaded, session := s.guard.session }) ∧
    ((∀ b, (readData s.array.cells e.cell).body = some b →
        b.kind ≠ .config ∨ (readData s.array.cells e.cell).payloadGood = false ∨ b.length ≠ 6 ∨ parseSettings b.payload = none) →
      ∃ t : State, exec .cellReadDone s = .next t.settle ∧ t.store.progress = .none ∧ t.store.state = .degraded ∧
        t.guard.settings.mode = .fixed ∧ t.guard.standing = .unreadable ∧ t.guard.session = s.guard.session ∧
        ∀ p page, guardProtects (t.guardOfPort p) page = true))

/-- Mount's second step and its repairs. With a VALID segment the generation is the highest of theirs, H the highest count of that generation, the segments of a lower generation and the DAMAGED ones are queued in ascending order, and each BLANK one, lowest first, gets a header with that generation and H: FREE on DONE, and otherwise RETIRED with its mark presented once (R157). Each repair target, first to last, gets its supersede mark; a failed one raises its key's stale count and is its retry cell if it has none (R160). Then each queued segment is erased, with its own count + 1, or H when it is DAMAGED; the outcome is recorded, and a retired one has its mark presented once, whatever its outcome (R161). Then the configuration cell is read, or the defaults are written when there is none (R162). That a retired mark comes before the next header program or erase is log entry 31. -/
def Obligations.MountRepairsTheArray : Prop :=
  (∀ (s : State) (m : Mount), (∃ gen n, SegClass.valid gen n ∈ m.classes) → m.classes.length = 256 →
    ∃ (gen : Generation) (high : Nat) (queued : List Seg),
      (∃ n, SegClass.valid gen n ∈ m.classes) ∧ (∀ h n, SegClass.valid h n ∈ m.classes → h ≤ gen) ∧
      SegClass.valid gen high ∈ m.classes ∧ (∀ n, SegClass.valid gen n ∈ m.classes → n ≤ high) ∧
      queued.Pairwise (· < ·) ∧
      (∀ g : Seg, g ∈ queued ↔ m.classes[g.val]? = some .damaged ∨ ∃ h n, m.classes[g.val]? = some (.valid h n) ∧ h ≠ gen) ∧
      s.mountClassified m = (s.setGeneration gen).mountBlanks { m with high := high, erases := queued }) ∧
  (∀ (s : State) (m : Mount),
    (∀ g : Seg, m.classes[g.val]? = some .blank → (∀ h : Seg, h < g → m.classes[h.val]? ≠ some .blank) →
      s.mountBlanks m = (s.setProgress (.mounting { m with awaits := .blankHeader g })).presentStore
        (.programHeader g s.store.generation m.high)) ∧
    ((∀ g : Seg, m.classes[g.val]? ≠ some .blank) → s.mountBlanks m = s.mountReadFrom { m with topSeq := 0 } 0)) ∧
  (∀ (s : State) (m : Mount) (g : Seg) (gen : Generation) (n : Nat) (left : List Host.Cell), s.carries .store (.programHeader g gen n) →
    s.store.progress = .mounting m → m.awaits = .blankHeader g →
    (s.headerTakes g gen n left →
      exec (.headerProgramDone left) s = .next
        ((s.afterHeader g gen n left).mountBlanks { m with classes := m.classes.set g.val .fresh }).settle) ∧
    (¬ s.headerTakes g gen n left →
      exec (.headerProgramDone left) s = .next
        (((s.afterHeader g gen n left).setProgress
          (.mounting { m with classes := m.classes.set g.val (.retired 0), awaits := .blankMark g })).presentStore
            (.programMark ⟨g, 0⟩ .first)).settle)) ∧
  (∀ (s : State) (m : Mount) (g x : Seg) (fails : Bool), s.carries .store (.programMark ⟨g, 0⟩ .first) → s.store.progress = .mounting m →
    (m.awaits = .wornMark x → exec (.markProgramDone fails) s = .next ((s.afterMark ⟨g, 0⟩ .first fails).mountHeaders m).settle) ∧
    (m.awaits = .blankMark x → exec (.markProgramDone fails) s = .next ((s.afterMark ⟨g, 0⟩ .first fails).mountBlanks m).settle) ∧
    (m.awaits = .repairRetire x → exec (.markProgramDone fails) s = .next ((s.afterMark ⟨g, 0⟩ .first fails).mountErases m).settle)) ∧
  (∀ (s : State) (m : Mount),
    (∀ h : m.classes.length < 256,
      s.mountHeaders m = (s.setProgress (.mounting { m with awaits := .header ⟨m.classes.length, h⟩ })).presentStore
        (.readCell ⟨⟨m.classes.length, h⟩, 0⟩ false)) ∧
    (256 ≤ m.classes.length → s.mountHeaders m = s.mountClassified m) ∧
    (∀ k pos rest, m.targets = (k, pos) :: rest →
      s.mountTargets m = (s.setProgress (.mounting { m with awaits := .repairMark })).presentStore (.programMark pos .second)) ∧
    (m.targets = [] → s.mountTargets m = s.mountErases m) ∧
    (∀ (g : Seg) (rest : List Seg), m.erases = g :: rest →
      (∀ (h : Generation) (n : Nat), m.classes[g.val]? = some (.valid h n) →
        s.mountErases m = (s.setProgress (.mounting { m with awaits := .repairErase })).presentStore
          (.eraseSegment g s.store.generation (n + 1))) ∧
      (m.classes[g.val]? = some .damaged →
        s.mountErases m = (s.setProgress (.mounting { m with awaits := .repairErase })).presentStore
          (.eraseSegment g s.store.generation m.high))) ∧
    (∀ e, m.erases = [] → lookup s.engine.dir 0x0000#16 = some e →
      s.mountErases m = (s.setProgress (.mounting { m with awaits := .configRead })).presentStore (.readCell e.cell true)) ∧
    (m.erases = [] → lookup s.engine.dir 0x0000#16 = none → s.mountErases m = s.mountWriteDefaults m 1)) ∧
  (∀ (s : State) (m : Mount) (k : Key) (pos : Pos) (rest : List (Key × Pos)) (fails : Bool), s.carries .store (.programMark pos .second) →
    s.store.progress = .mounting m → m.awaits = .repairMark → m.targets = (k, pos) :: rest →
    (s.markTakes pos .second fails →
      exec (.markProgramDone fails) s = .next ((s.afterMark pos .second fails).mountTargets { m with targets := rest }).settle) ∧
    (¬ s.markTakes pos .second fails →
      exec (.markProgramDone fails) s = .next
        (((s.afterMark pos .second fails).setDir (s.engine.dir.map (fun e =>
          if e.key = k then { e with stale := e.stale + 1, retry := some (e.retry.getD pos) } else e))).mountTargets
            { m with targets := rest }).settle)) ∧
  (∀ (s : State) (m : Mount) (g : Seg) (gen : Generation) (n : Nat) (rest : List Seg) (left : List Host.Cell),
    s.carries .store (.eraseSegment g gen n) → s.store.progress = .mounting m → m.awaits = .repairErase → m.erases = g :: rest →
    ∃ t : State, t = (s.afterErase g gen n left).withErased g n (eraseVerifies s.array.cells g gen n left) ∧
      (eraseVerifies s.array.cells g gen n left = true → n < 50000 →
        exec (.segmentEraseDone left) s = .next (t.mountErases { m with erases := rest }).settle) ∧
      (eraseVerifies s.array.cells g gen n left = false ∨ 50000 ≤ n →
        exec (.segmentEraseDone left) s = .next
          ((t.setProgress (.mounting { m with erases := rest, awaits := .repairRetire g })).presentStore (.programMark ⟨g, 0⟩ .first)).settle))

/-- Mount's third and fourth steps. A data cell that is read is kept unless it reads ERASED, and the reads go on by cell and by current segment. Then the directory has one entry for each key with a COMMITTED cell, that of the highest version and, at equal versions, of the highest sequence number (with both equal the later cell: log entry 27), with the fields of its body, stale count 0, no retry cell and no move pending; every other COMMITTED cell is a repair target, in key order and within a key in cell order; the counter follows the highest sequence number read (R54, R158). The table has each class's state and count; a segment of the generation is FREE with no cell found, FULL with 31, and of the partly filled ones that with the highest sequence number, or the lowest when none holds a good body, is the front and the others FULL; the front's free cells are those not found (R157, R159). -/
def Obligations.MountChoosesTheCurrentCells : Prop :=
  (∀ (s : State) (m : Mount) (pos : Pos), s.carries .store (.readCell pos false) → s.store.progress = .mounting m →
    m.awaits = .dataCell pos →
    ∃ m' : Mount,
      m' = { m with
        topSeq := ((readData s.array.cells pos).body.map (fun b => max m.topSeq b.seq.toNat)).getD m.topSeq
        found := if (readData s.array.cells pos).cond = .erased then m.found
          else m.found ++ [{ pos := pos, cond := (readData s.array.cells pos).cond,
                             body := (readData s.array.cells pos).body.map (fun b => { b with payload := [] }) }] } ∧
      (∀ h : pos.cell.val + 1 < 32,
        exec .cellReadDone s = .next
          (((s.setInFlight none).setProgress (.mounting { m' with awaits := .dataCell ⟨pos.seg, ⟨pos.cell.val + 1, h⟩⟩ })).presentStore
            (.readCell ⟨pos.seg, ⟨pos.cell.val + 1, h⟩⟩ false)).settle) ∧
      (pos.cell = 31 → exec .cellReadDone s = .next ((s.setInFlight none).mountReadFrom m' (pos.seg.val + 1)).settle)) ∧
  (∀ (s : State) (m : Mount) (n : Nat),
    (∀ (g : Seg) (count : Nat), n ≤ g.val → m.classes[g.val]? = some (.valid s.store.generation count) →
      (∀ h : Seg, n ≤ h.val → h < g → ∀ x, m.classes[h.val]? ≠ some (.valid s.store.generation x)) →
      s.mountReadFrom m n = (s.setProgress (.mounting { m with awaits := .dataCell ⟨g, 1⟩ })).presentStore (.readCell ⟨g, 1⟩ false)) ∧
    ((∀ g : Seg, n ≤ g.val → ∀ x, m.classes[g.val]? ≠ some (.valid s.store.generation x)) →
      s.mountReadFrom m n =
        ((s.setDir (buildDir m.committed)).setSeq (seqAfter m.topSeq)).mountTable { m with targets := repairTargets m.committed })) ∧
  (∀ (m : Mount) (pos : Pos) (b : Body), (pos, b) ∈ m.committed ↔ { pos := pos, cond := .committed, body := some b } ∈ m.found) ∧
  (∀ n : Nat, (seqAfter n).toNat = min (n + 1) 0xFFFFFFFF) ∧
  (∀ cs : List (Pos × Body), DirOk (buildDir cs)) ∧
  (∀ (cs : List (Pos × Body)) (k : Key), lookup (buildDir cs) k = none ↔ ∀ x ∈ cs, x.2.key ≠ k) ∧
  (∀ (cs : List (Pos × Body)) (k : Key) (e : Entry), lookup (buildDir cs) k = some e →
    ∃ x ∈ cs, x.2.key = k ∧
      e = { key := k, state := if x.2.kind = .tombstone then .gone else .live, cell := x.1, version := x.2.version, length := x.2.length,
            author := x.2.author, stale := 0, retry := none, movePending := false } ∧
      ∀ y ∈ cs, y.2.key = k →
        y.2.version < x.2.version ∨ (y.2.version = x.2.version ∧
          (y.2.seq < x.2.seq ∨ (y.2.seq = x.2.seq ∧ (y.1 = x.1 ∨ y.1.seg < x.1.seg ∨ (y.1.seg = x.1.seg ∧ y.1.cell < x.1.cell)))))) ∧
  (∀ (cs : List (Pos × Body)) (k : Key) (pos : Pos), (k, pos) ∈ repairTargets cs ↔
    ∃ x ∈ cs, x.1 = pos ∧ x.2.key = k ∧ ∃ y ∈ cs, y.2.key = k ∧
      (x.2.version < y.2.version ∨ (x.2.version = y.2.version ∧
        (x.2.seq < y.2.seq ∨ (x.2.seq = y.2.seq ∧ (x.1.seg < y.1.seg ∨ (x.1.seg = y.1.seg ∧ x.1.cell < y.1.cell))))))) ∧
  (∀ cs : List (Pos × Body), cs.Pairwise (fun x y => x.1.seg < y.1.seg ∨ (x.1.seg = y.1.seg ∧ x.1.cell < y.1.cell)) →
    (repairTargets cs).Pairwise (fun x y =>
      x.1 < y.1 ∨ (x.1 = y.1 ∧ (x.2.seg < y.2.seg ∨ (x.2.seg = y.2.seg ∧ x.2.cell < y.2.cell))))) ∧
  (∀ (s : State) (m : Mount),
    ∃ (segs : Vector SegRow 256) (free : List CellNo) (used : Seg → Nat) (row : SegState → Nat → SegRow),
      (∀ g : Seg, used g = m.found.countP (fun f => f.pos.seg == g)) ∧
      (∀ (st : SegState) (n : Nat), row st n = { state := st, erases := n, live := 0, dead := 0, free := 0 }) ∧
      s.mountTable m = ((s.setSegs segs).setFrontFree free).mountTargets m ∧ OneFront segs ∧ FreeCellsOk free ∧
      (∀ (g : Seg) (n : Nat), m.classes[g.val]? = some (.retired n) → segs[g] = row .retired n) ∧
      (∀ g : Seg, m.classes[g.val]? = some .fresh → segs[g] = row .free m.high) ∧
      (∀ g : Seg, m.classes[g.val]? = some .damaged → segs[g] = row .erasing 0) ∧
      (∀ (g : Seg) (h : Generation) (n : Nat), m.classes[g.val]? = some (.valid h n) → h ≠ s.store.generation → segs[g] = row .erasing n) ∧
      (∀ (g : Seg) (n : Nat), m.classes[g.val]? = some (.valid s.store.generation n) →
        (used g = 0 → segs[g] = row .free n) ∧ (31 ≤ used g → segs[g] = row .full n) ∧
        (1 ≤ used g → used g < 31 →
          (segs[g] = row .front n ∨ segs[g] = row .full n) ∧ (∃ h : Seg, segs[h].state = .front) ∧
          (segs[g].state = .front →
            (∀ c : CellNo, c ∈ free ↔ c ≠ 0 ∧ ∀ f ∈ m.found, f.pos ≠ ⟨g, c⟩) ∧
            (∀ (h : Seg) (x : Nat) (f : Found) (b : Body), m.classes[h.val]? = some (.valid s.store.generation x) → used h < 31 →
              f ∈ m.found → f.pos.seg = h → f.body = some b →
              ∃ f' ∈ m.found, f'.pos.seg = g ∧ ∃ b', f'.body = some b' ∧ b.seq ≤ b'.seq) ∧
            ((∀ f ∈ m.found, f.pos.seg = g → f.body = none) →
              ∀ (h : Seg) (x : Nat), m.classes[h.val]? = some (.valid s.store.generation x) → 1 ≤ used h → used h < 31 → g ≤ h)))) ∧
      ((∀ h : Seg, segs[h].state ≠ .front) → free = []))

/-- Mount's end. Each attempt of the defaults' write takes its cell as a copy grant does and programs the configuration record of the defaults, version 1, author INTERNAL, with the next sequence number, and then its commit mark; a failed body or mark counts the cell dead and begins the next attempt; after the third, or with no cell, the directory is empty, the guards are the defaults with standing DEFAULTED and the store is UNFORMATTED; at the commit the entry is created and the defaults are adopted with standing DEFAULTED (R162). At the handover the directory keeps, of more than 4,095 entries besides 0000h, the permanent keys and the lowest others; each row has its counts; and the store is DEGRADED with fewer than 136 usable segments, an UNREADABLE configuration or keys removed, and otherwise READY with the trigger evaluated (R159, R163). -/
def Obligations.MountCloses : Prop :=
  (∀ (s t : State) (m : Mount) (n : Nat) (pos : Pos), s.copyGrant = some (pos, t) →
    ∃ b : Body, s.mountWriteDefaults m n =
        ((t.bumpSeq).setProgress (.mounting { m with awaits := .configBody pos n })).presentStore (.programBody pos b) ∧
      b = { key := 0x0000#16, version := 1, seq := s.engine.seq, length := 6, author := .internal, kind := .config,
            check := crc16 (settingsBytes Settings.default), payload := settingsBytes Settings.default }) ∧
  (∀ (s : State) (m : Mount) (n : Nat), s.copyGrant = none → s.mountWriteDefaults m n = s.mountUnformatted) ∧
  (∀ (s : State) (m : Mount) (n : Nat) (pos : Pos) (b : Body) (left : List Host.Cell), s.carries .store (.programBody pos b) →
    s.store.progress = .mounting m → m.awaits = .configBody pos n →
    (s.bodyTakes pos b left →
      exec (.bodyProgramDone left) s = .next
        (((s.afterBody pos b left).setProgress (.mounting { m with awaits := .configMark pos n })).presentStore
          (.programMark pos .first)).settle) ∧
    (¬ s.bodyTakes pos b left →
      (n < 3 → exec (.bodyProgramDone left) s = .next (((s.afterBody pos b left).countDead pos).mountWriteDefaults m (n + 1)).settle) ∧
      (3 ≤ n → exec (.bodyProgramDone left) s = .next (((s.afterBody pos b left).countDead pos).mountUnformatted).settle))) ∧
  (∀ (s : State) (m : Mount) (n : Nat) (pos : Pos) (fails : Bool), s.carries .store (.programMark pos .first) →
    s.store.progress = .mounting m → m.awaits = .configMark pos n →
    (s.markTakes pos .first fails →
      exec (.markProgramDone fails) s = .next
        ((((s.afterMark pos .first fails).commitBody (configBody .internal Settings.default) pos).setGuard
          { settings := Settings.default, standing := .defaulted, session := s.guard.session }).mountHandover).settle) ∧
    (¬ s.markTakes pos .first fails →
      (n < 3 → exec (.markProgramDone fails) s = .next (((s.afterMark pos .first fails).countDead pos).mountWriteDefaults m (n + 1)).settle) ∧
      (3 ≤ n → exec (.markProgramDone fails) s = .next (((s.afterMark pos .first fails).countDead pos).mountUnformatted).settle))) ∧
  (∀ s : State, ∃ segs : Vector SegRow 256, (∀ g : Seg, segs[g].state = (s.seg g).state ∧ segs[g].erases = (s.seg g).erases) ∧
    s.mountUnformatted =
      ((((s.setDir []).setGuard { settings := Settings.default, standing := .defaulted, session := s.guard.session }).setSegs segs
        ).setProgress .none).enterStore .unformatted) ∧
  (∀ s : State, DirectoryOk s →
    ∃ (kept : List Entry) (segs : Vector SegRow 256) (t : State),
      t = ((s.setDir kept).setSegs segs).setProgress .none ∧
      (masterCount s.engine.dir ≤ 4095 → kept = s.engine.dir) ∧
      (4095 < masterCount s.engine.dir → masterCount kept = 4095 ∧
        kept.Sublist s.engine.dir ∧
        (∀ e ∈ s.engine.dir, e.key = 0x0000#16 ∨ isPermanent e.key = true → e ∈ kept) ∧
        (∀ e ∈ kept, ∀ x ∈ s.engine.dir, x.key < e.key → isPermanent e.key = false → x ∈ kept)) ∧
      (∀ g : Seg, segs[g].state = (s.seg g).state ∧ segs[g].erases = (s.seg g).erases ∧
        ((s.seg g).state = .front → segs[g].live = kept.countP (fun e => e.cell.seg == g) ∧ segs[g].free = s.space.frontFree.length ∧
          segs[g].dead = 31 - segs[g].live - segs[g].free) ∧
        ((s.seg g).state = .full → segs[g].live = kept.countP (fun e => e.cell.seg == g) ∧ segs[g].free = 0 ∧
          segs[g].dead = 31 - segs[g].live)) ∧
      (s.usableCount < 136 ∨ s.guard.standing = .unreadable ∨ 4095 < masterCount s.engine.dir →
        s.mountHandover = t.enterStore .degraded) ∧
      (136 ≤ s.usableCount → s.guard.standing ≠ .unreadable → masterCount s.engine.dir ≤ 4095 →
        s.mountHandover = (t.enterStore .ready).trigger))

/-! ## The array -/

/-- The bytes of the array after every row, and that a completion completes: nothing but a completion, a hard reset or power loss changes a byte, and each of these changes none outside its operation's part; a program only clears bits; a body or mark program is delivered as DONE exactly when its part verifies; a body program leaves a cell whose marks read erased ALLOCATED when it is DONE, and otherwise ALLOCATED with a payload check that fails, or TORN; a mark that read present stays so, one that read erased is left present or erased, a disturbed one stays; a mark program that fails changes nothing; and neither a failed body program in a cell without its commit mark nor a failed commit mark leaves a cell that reads COMMITTED (R24, R27, R29, Table 2-5). An erased area on which the attempted pattern nowhere differs from the requested one reads as requested. -/
def Obligations.ArrayBytesAfterEveryRow : Prop :=
  (∀ (i : Instr) (s t : State), exec i s = .next t → t.array.cells = s.cellsAfter i) ∧
  (∀ (s : State) (r : Requester) (pos : Pos) (b : Body) (left : List Host.Cell), s.carries r (.programBody pos b) →
    ∃ (t : State) (ok : Bool),
      exec (.bodyProgramDone left) s = .next t ∧ t = ((s.afterBody pos b left).deliverBody r pos ok).settle ∧
      (ok = true ↔ dataArea t.array.cells pos = bodyBytes b) ∧
      (∀ a, (ArrayOp.programBody pos b).spares a → arrayByte t.array.cells a = arrayByte s.array.cells a) ∧
      (markWord s.array.cells pos .first = Config.markErased → markWord s.array.cells pos .second = Config.markErased →
        (ok = true → bodyWellFormed b = true → b.payload.length = b.length → (readData t.array.cells pos).cond = .allocated) ∧
        (ok = false →
          ((readData t.array.cells pos).cond = .allocated ∧ (readData t.array.cells pos).payloadGood = false) ∨
            (readData t.array.cells pos).cond = .torn)) ∧
      (ok = false → markWord s.array.cells pos .first ≠ Config.markPresent → (readData t.array.cells pos).cond ≠ .committed)) ∧
  (∀ (s : State) (r : Requester) (g : Seg) (gen : Generation) (n : Nat) (left : List Host.Cell), s.carries r (.programHeader g gen n) →
    ∃ t, exec (.headerProgramDone left) s = .next t ∧
      (∀ a, (ArrayOp.programHeader g gen n).spares a → arrayByte t.array.cells a = arrayByte s.array.cells a) ∧
      (dataArea t.array.cells ⟨g, 0⟩ = headerBytes gen n ∨ (readHeader t.array.cells g).cond = .bad)) ∧
  (∀ (s : State) (r : Requester) (pos : Pos) (k : MarkKind) (fails : Bool), s.carries r (.programMark pos k) →
    ∃ (t : State) (ok : Bool),
      exec (.markProgramDone fails) s = .next t ∧ t = ((s.afterMark pos k fails).deliverMark r pos ok).settle ∧
      (ok = true ↔ markWord t.array.cells pos k = Config.markPresent) ∧
      (ok = false → readData t.array.cells pos = readData s.array.cells pos) ∧
      (ok = false → k = .first → (readData t.array.cells pos).cond ≠ .committed) ∧
      (∀ a, (ArrayOp.programMark pos k).spares a → arrayByte t.array.cells a = arrayByte s.array.cells a) ∧
      (markReading (markWord s.array.cells pos k) ≠ .erased → markWord t.array.cells pos k = markWord s.array.cells pos k) ∧
      (markReading (markWord s.array.cells pos k) = .erased →
        markWord t.array.cells pos k = if fails then Config.markErased else Config.markPresent)) ∧
  (∀ (s : State) (r : Requester) (pos : Pos) (payload : Bool), s.carries r (.readCell pos payload) →
    ∃ t, exec .cellReadDone s = .next t ∧ t.array.cells = s.array.cells) ∧
  (∀ (old pattern : List Byte) (left : List Host.Cell) (i : Nat),
    (bodyLeft old pattern left).getD i 0 &&& old.getD i 0 = (bodyLeft old pattern left).getD i 0 ∧
    (headerLeft old pattern left).getD i 0 &&& old.getD i 0 = (headerLeft old pattern left).getD i 0) ∧
  (∀ pattern : List Byte, pattern.length = 512 →
    bodyLeft (List.replicate 512 0xFF#8) pattern [] = pattern ∧ headerLeft (List.replicate 512 0xFF#8) pattern [] = pattern) ∧
  (∀ (cells : List Host.Cell) (pos : Pos) (area : List Byte) (k : MarkKind) (w : Half) (a : Nat),
    (area.length = 512 → dataArea (putArea cells pos area) pos = area) ∧ markWord (putMark cells pos k w) pos k = w ∧
    (a < cellBase pos ∨ cellBase pos + 512 ≤ a → arrayByte (putArea cells pos area) a = arrayByte cells a) ∧
    (a < markBase pos k ∨ markBase pos k + 2 ≤ a → arrayByte (putMark cells pos k w) a = arrayByte cells a))

/-- A segment erase that ends: every byte outside the segment stands; with nothing left otherwise the segment holds a VALID header with the generation and count given and 31 data cells whose areas and marks read erased; otherwise the header does not read VALID. -/
def Obligations.SegmentEraseEnds : Prop :=
  (∀ (s : State) (r : Requester) (g : Seg) (gen : Generation) (n : Nat) (left : List Host.Cell), s.carries r (.eraseSegment g gen n) →
    ∃ t, exec (.segmentEraseDone left) s = .next t ∧ t.array.cells = eraseLeft s.array.cells g gen n left) ∧
  (∀ (s : State) (e : EraseCtx) (left : List Host.Cell), s.running = true → s.array.inFlight = none → s.array.erase = some e →
    e.state ≠ .suspended →
    ∃ t, exec (.segmentEraseDone left) s = .next t ∧ t.array.cells = eraseLeft s.array.cells e.seg e.generation e.count left) ∧
  (∀ (cells left : List Host.Cell) (g : Seg) (gen : Generation) (n : Nat),
    (∀ a, a < segBase g ∨ segBase g + 16512 ≤ a → arrayByte (eraseLeft cells g gen n left) a = arrayByte cells a) ∧
    (eraseVerifies cells g gen n left = false → (readHeader (eraseLeft cells g gen n left) g).cond ≠ .valid) ∧
    (eraseVerifies cells g gen n left = true → n < 65536 →
      readHeader (eraseLeft cells g gen n left) g = { cond := .valid, generation := gen, count := n, retired := false } ∧
      ∀ c : CellNo, c ≠ 0 → (readData (eraseLeft cells g gen n left) ⟨g, c⟩).cond = .erased)) ∧
  (∀ (cells : List Host.Cell) (g : Seg) (gen : Generation) (n : Nat), eraseVerifies cells g gen n [] = true)

/-- Suspension of a reclaim erase begins exactly when an Engine request waits, 400 µs have run since grant or resume and fewer than 12 suspensions were made: the count rises and the state is SUSPENDING; the erase then stops and is SUSPENDED, and the Engine's waiting request is granted, or the erase resumes. A held grant request is answered with the front's lowest free cell, or cell 1 of a new front, the FREE segment of lowest erase count and then lowest number, the previous front becoming FULL; the hold ends, the payload is taken if it is still absent, the body is presented with the next sequence number, and the trigger is evaluated (R136, R137, R139). -/
def Obligations.SuspensionAndHeldGrants : Prop :=
  (∀ (s : State) (e : EraseCtx), s.running = true → s.array.erase = some e →
    (e.state = .running ∧ s.array.waitEngine ≠ none ∧ 400 ≤ e.sinceResume ∧ e.suspendCount < 12 →
      exec .eraseSuspendBegin s = .next
        (s.setErase (some { e with state := .suspending, suspendCount := e.suspendCount + 1, stopAge := 0 })).settle) ∧
    (¬ (e.state = .running ∧ s.array.waitEngine ≠ none ∧ 400 ≤ e.sinceResume ∧ e.suspendCount < 12) →
      exec .eraseSuspendBegin s = .refused .notDue) ∧
    (e.state = .suspending → exec .eraseStop s = .next (s.setErase (some { e with state := .suspended })).settle)) ∧
  (∀ (s : State) (e : EraseCtx), s.array.inFlight = none → s.array.erase = some e → e.state = .suspended →
    (∀ op, s.array.waitEngine = some op → s.arbitrate =
      { s with array := { s.array with waitEngine := none, inFlight := some { requester := .engine, op := op, age := 0 } } }) ∧
    (s.array.waitEngine = none → s.arbitrate = s.setErase (some { e with state := .running, sinceResume := 0 }))) ∧
  (∀ (s : State) (p : Port) (c : Cmd) (u : Update), s.running = true → s.space.held = true → s.store.state ≠ .degraded →
    s.engine.work = .updating p c u → FrontOk s →
    ∃ (bytes : List Byte) (check : Half) (granted : State → Pos → State),
      (∀ b, u.payload = some b → (bytes, check) = b) ∧
      (u.payload = none → check = crc16 bytes ∧
        bytes = if c.code = codePatch then patchPayload u.old c.patchOffset (bufferTake (s.port p).buffer c.bufOffset c.dataLength)
          else bufferTake (s.port p).buffer c.bufOffset c.dataLength) ∧
      (∀ (t : State) (pos : Pos), granted t pos =
        (((t.setHeld false).setWork (.updating p c { u with payload := some (bytes, check), granted := some pos, stage := .body })).bumpSeq
          ).presentEngine (.programBody pos
            { key := u.key, version := u.version, seq := s.engine.seq, length := bytes.length, author := u.author, kind := u.kind,
              check := check, payload := bytes })) ∧
      (∀ f cell rest, s.front = some f → s.space.frontFree = cell :: rest →
        exec .heldGrantAnswered s =
          .next (granted ((s.setSeg f (s.seg f).grant).setFrontFree rest) ⟨f, cell⟩).trigger.settle) ∧
      ((s.front = none ∨ s.space.frontFree = []) → 2 ≤ s.freeCount →
        ∃ (g : Seg) (segs : Vector SegRow 256), (s.seg g).state = .free ∧
          (∀ h, (s.seg h).state = .free → (s.seg g).erases < (s.seg h).erases ∨ ((s.seg g).erases = (s.seg h).erases ∧ g ≤ h)) ∧
          (∀ h : Seg, segs[h] =
            if h = g then { state := .front, erases := (s.seg g).erases, live := 1, dead := 0, free := 30 }
            else if s.front = some h then { s.seg h with state := .full } else s.seg h) ∧
          exec .heldGrantAnswered s =
            .next (granted ((s.setSegs segs).setFrontFree dataCells.tail) ⟨g, 1⟩).trigger.settle))

/-! ## Resets of a port, the arbiters, events, and the layouts -/

/-- Which port is eligible, and what the two arbiters do at the end of an event: an IDLE Engine takes the first eligible port from its pointer on, resuming its parked scan or taking its oldest command; with nothing in flight the Store Controller's request is granted first, then the Engine's unless urgent reclaim holds and the Space Manager waits, then the Space Manager's; while an operation is in flight, or an erase runs or is suspending, none is granted (R32, R34). The Engine selects also at the end of a command of a RESETTING port, before that port's reset has proceeded (R58, R61). While a held grant is to come first, no request is granted: the model's choice (log entry 10). -/
def Obligations.ArbitersChoose : Prop :=
  (∀ (s : State) (p : Port), s.eligible p = true ↔
    (s.port p).state = .active ∧ s.store.state ≠ .mounting ∧ s.store.state ≠ .formatting ∧
      ((∃ c k, (s.port p).slot = .parked c k) ∨
        ((s.port p).slot = .none ∧ (s.port p).commands ≠ [] ∧ (s.port p).results.length < 4))) ∧
  (∀ s : State, (s.heldDue = true → s.settle = s) ∧ (s.heldDue = false → s.settle = s.arbitrate.select)) ∧
  (∀ s : State, s.heldDue = true ↔
    s.running = true ∧ s.space.held = true ∧ s.store.state ≠ .degraded ∧
      ((s.front ≠ none ∧ s.space.frontFree ≠ []) ∨ 2 ≤ s.freeCount)) ∧
  (∀ s : State, s.anyResetDue = true ↔ s.running = true ∧ ∃ p, (s.port p).state = .resetting ∧ (s.port p).slot = .none) ∧
  (∀ s : State, s.engine.work ≠ .idle ∨ (∀ p, s.eligible p = false) → s.select = s) ∧
  (∀ (s : State) (p : Port) (before after : List Port), s.engine.work = .idle →
    searchFrom s.engine.pointer = before ++ p :: after → (∀ q ∈ before, s.eligible q = false) → s.eligible p = true →
    (∀ c k, (s.port p).slot = .parked c k →
      s.select = (((s.setPort p { s.port p with slot := .executing }).setWork (.resuming p c k)).setPointer (nextPort p))) ∧
    (∀ c rest, (s.port p).slot = .none → (s.port p).commands = c :: rest →
      s.select = (((s.setPort p { s.port p with slot := .executing, commands := rest }).setWork (.taken p c)).setPointer (nextPort p)))) ∧
  (∀ (s : State) (p q : Port) (r : Result) (c : Cmd) (rest : List Cmd), (s.port p).state = .resetting → q ≠ p →
    (s.endCommand p r).heldDue = false → s.eligible q = true → (∀ x, x ≠ p → x ≠ q → s.eligible x = false) → (s.port q).slot = .none →
    (s.port q).commands = c :: rest →
    (s.endCommand p r).settle.engine.work = .taken q c ∧ ((s.endCommand p r).settle.port p).state = .resetting ∧
      ((s.endCommand p r).settle.port p).slot = .none) ∧
  (searchFrom .p0 = [.p0, .p1, .p2, .p3] ∧ searchFrom .p1 = [.p1, .p2, .p3, .p0] ∧ searchFrom .p2 = [.p2, .p3, .p0, .p1] ∧
    searchFrom .p3 = [.p3, .p0, .p1, .p2]) ∧
  (∀ s : State, (s.array.inFlight ≠ none ∨ ∃ e, s.array.erase = some e ∧ e.state ≠ .suspended) → s.arbitrate = s) ∧
  (∀ s : State, s.array.inFlight = none → s.array.erase = none →
    (s.array.waitStore = none → s.array.waitEngine = none → s.array.waitSpace = none → s.arbitrate = s) ∧
    (∀ op, s.array.waitStore = some op → s.arbitrate =
      { s with array := { s.array with waitStore := none, inFlight := some { requester := .store, op := op, age := 0 } } }) ∧
    (∀ op, s.array.waitStore = none → s.array.waitEngine = some op → s.array.waitSpace = none ∨ s.urgent = false →
      s.arbitrate =
        { s with array := { s.array with waitEngine := none, inFlight := some { requester := .engine, op := op, age := 0 } } }) ∧
    (∀ op, s.array.waitStore = none → s.array.waitSpace = some op → s.array.waitEngine = none ∨ s.urgent = true →
      (∀ g gen n, op ≠ .eraseSegment g gen n) →
      s.arbitrate =
        { s with array := { s.array with waitSpace := none, inFlight := some { requester := .space, op := op, age := 0 } } }) ∧
    (∀ g gen n, s.array.waitStore = none → s.array.waitSpace = some (.eraseSegment g gen n) → s.array.waitEngine = none ∨ s.urgent = true →
      s.arbitrate =
        { s with array := { s.array with
            waitSpace := none
            erase := some { seg := g, generation := gen, count := n, state := .running, accumulated := 0, sinceResume := 0,
                            suspendCount := 0, stopAge := 0 } } })) ∧
  (∀ s : State, s.urgent = true ↔ s.freeCount = 1 ∧ ∃ q, s.space.pass = some q ∧ q.stage = .copying) ∧
  (∀ s : State, s.isOpen = true ↔ s.store.state ≠ .mounting ∧ s.store.state ≠ .formatting) ∧
  (nextPort .p0 = .p1 ∧ nextPort .p1 = .p2 ∧ nextPort .p2 = .p3 ∧ nextPort .p3 = .p0)

/-- An offer to an event queue (R185): merged into the event it merges with, which keeps its place; else placed as the newest while fewer than 8 are held; else discarded with EVENT_LOST set; a RESETTING port takes none. What merges, and with what contents, is Table 10-3. -/
def Obligations.EventsMergeOrWait : Prop :=
  (∀ (u : PortUnit) (e : Event), u.state = .resetting → u.offer e = u) ∧
  (∀ (u : PortUnit) (e h m : Event) (before after : List Event), u.state = .active → u.events = before ++ h :: after →
    (∀ x ∈ before, x.merge e = none) → h.merge e = some m →
    (u.offer e).events = before ++ m :: after ∧ (u.offer e).flags = u.flags) ∧
  (∀ (u : PortUnit) (e : Event), u.state = .active → (∀ x ∈ u.events, x.merge e = none) →
    (u.events.length < 8 → u.offer e = { u with events := u.events ++ [e] }) ∧
    (8 ≤ u.events.length → u.offer e = { u with flags := u.flags ||| flagEventLost })) ∧
  (∀ (k k' : Key) (t t' : Triggers) (v v' : Version) (a a' : Author),
    (Event.watchHit k t v a).merge (.watchHit k' t' v' a') = if k = k' then some (.watchHit k (t ||| t') v' a') else none) ∧
  (∀ (k k' : Key) (h h' : Port) (c c' : LossCause),
    (Event.claimLost k h c).merge (.claimLost k' h' c') = if k = k' then some (.claimLost k h c') else none) ∧
  (∀ (st st' : StoreState) (g g' : Generation), (Event.storeState st g).merge (.storeState st' g') = some (.storeState st' g')) ∧
  (∀ (p p' : Port) (m m' : LockMode) (b b' : Bool) (v v' : Version),
    (Event.guardChanged p m b v).merge (.guardChanged p' m' b' v') = some (.guardChanged p' m' b' v')) ∧
  (∀ x y m : Event, x.merge y = some m → (eventBytes x).head? = (eventBytes y).head?) ∧
  (∀ (s : State) (p : Port) (e : Event), s.offer p e = s.setPort p ((s.port p).offer e))

/-- Decoding a record gives it back: a well-formed body whose payload has its length is read back from its 512 bytes, and settings with a threshold from 2 to 16 from their 6 bytes; a header is read back from its bytes as good with its generation and count. Multi-byte fields stand most significant byte first (R190), the check is the CRC of R20, bodies, headers and the configuration payload are laid out as Tables 11-10 to 11-12 give them with the codes of Table 11-1, a body reads good only when it is so laid out, and the conditions of data cells and headers are those of Tables 2-2 and 2-4. The addresses of cells and marks are the model's (log entry 7). -/
def Obligations.LayoutsDecodeAsEncoded : Prop :=
  (∀ b : Body, bodyWellFormed b = true → b.payload.length = b.length →
    (bodyBytes b).length = 512 ∧ parseBody (bodyBytes b) = some b) ∧
  (∀ x : Settings, x.thresholdOk → (settingsBytes x).length = 6 ∧ parseSettings (settingsBytes x) = some x) ∧
  (∀ (g : Generation) (n : Nat), n < 65536 →
    headerGood (headerBytes g n) = true ∧ half16 (headerBytes g n) 4 = g ∧ (half16 (headerBytes g n) 6).toNat = n) ∧
  (∀ (x : Half) (y : BitVec 32), bytes16 x = [x.extractLsb' 8 8, x.extractLsb' 0 8] ∧
    bytes32 y = [y.extractLsb' 24 8, y.extractLsb' 16 8, y.extractLsb' 8 8, y.extractLsb' 0 8]) ∧
  (∀ (bs : List Byte) (i : Nat), half16 bs i = bs.getD i 0 ++ bs.getD (i + 1) 0 ∧
    word32 bs i = (bs.getD i 0 ++ bs.getD (i + 1) 0) ++ (bs.getD (i + 2) 0 ++ bs.getD (i + 3) 0)) ∧
  (∀ n : Nat, nat16 n = BitVec.ofNat 16 n) ∧ (∀ g : Generation, generationField g = g.setWidth 32) ∧
  (crc16 [] = 0xFFFF#16 ∧ ∀ (bs : List Byte) (x : Byte), crc16 (bs ++ [x]) =
    [7, 6, 5, 4, 3, 2, 1, 0].foldl (fun (c : Half) (i : Nat) => if (c.msb ^^ x.getLsbD i) = true then (c <<< 1) ^^^ 0x1021#16 else c <<< 1) (crc16 bs)) ∧
  (kindCode .data = 1 ∧ kindCode .tombstone = 2 ∧ kindCode .config = 3) ∧
  (∀ b : Body, ∃ fields : List Byte,
    fields = bytes16 b.key ++ bytes32 b.version ++ bytes32 b.seq ++ bytes16 (nat16 b.length) ++ [authorCode b.author, kindCode b.kind] ++
      bytes16 b.check ++ List.replicate 14 0xFF#8 ∧
    bodyBytes b = fields ++ bytes16 (crc16 fields) ++ (b.payload ++ List.replicate (480 - b.payload.length) 0xFF#8)) ∧
  (∀ b : Body, bodyWellFormed b = true ↔
    b.key ≠ 0xFFFF#16 ∧ b.version ≠ 0 ∧ b.length ≤ 480 ∧ (b.kind = .tombstone → b.length = 0) ∧ (b.kind = .config → b.key = 0x0000#16)) ∧
  (∀ (area : List Byte) (b : Body), parseBody area = some b →
    crc16 (area.take 30) = half16 area 30 ∧ bodyWellFormed b = true ∧ b.key = half16 area 0 ∧ b.version = word32 area 2 ∧
    b.seq = word32 area 6 ∧ b.length = (half16 area 10).toNat ∧ authorCode b.author = area.getD 12 0 ∧ kindCode b.kind = area.getD 13 0 ∧
    b.check = half16 area 14 ∧ b.payload = (area.drop 32).take b.length) ∧
  (∀ (g : Generation) (n : Nat), ∃ fields : List Byte, fields = bytes32 0x5A3C96E1#32 ++ bytes16 g ++ bytes16 (nat16 n) ∧
    headerBytes g n = fields ++ bytes16 (crc16 fields) ++ List.replicate 502 0xFF#8) ∧
  (∀ area : List Byte, headerGood area = true ↔
    word32 area 0 = 0x5A3C96E1#32 ∧ crc16 (area.take 8) = half16 area 8 ∧ ∀ b ∈ area.drop 10, b = 0xFF#8) ∧
  (∀ x : Settings, settingsBytes x =
    [guardByte x.guards.p0, guardByte x.guards.p1, guardByte x.guards.p2, guardByte x.guards.p3, lockCode x.mode,
      BitVec.ofNat 8 x.threshold]) ∧
  (∀ (bs : List Byte) (x : Settings), parseSettings bs = some x → x.thresholdOk ∧ bs = settingsBytes x) ∧
  (Settings.default.mode = .opened ∧ Settings.default.threshold = 4 ∧
    ∀ p, Settings.default.guards.get p = { upper := false, size := 0, complement := false }) ∧
  (∀ w : Half, markReading w = if w = 0xFFFF#16 then .erased else if w = 0x0000#16 then .present else .disturbed) ∧
  (∀ pos : Pos, segBase pos.seg = pos.seg.val * 16512 ∧ cellBase pos = pos.seg.val * 16512 + pos.cell.val * 516 ∧
    markBase pos .first = cellBase pos + 512 ∧ markBase pos .second = cellBase pos + 514) ∧
  (∀ (cells : List Host.Cell) (pos : Pos),
    dataArea cells pos = (List.range 512).map (fun i => arrayByte cells (pos.seg.val * 16512 + pos.cell.val * 516 + i)) ∧
    markWord cells pos .first = arrayByte cells (pos.seg.val * 16512 + pos.cell.val * 516 + 512) ++
      arrayByte cells (pos.seg.val * 16512 + pos.cell.val * 516 + 513) ∧
    markWord cells pos .second = arrayByte cells (pos.seg.val * 16512 + pos.cell.val * 516 + 514) ++
      arrayByte cells (pos.seg.val * 16512 + pos.cell.val * 516 + 515)) ∧
  (∀ (cells : List Host.Cell) (pos : Pos), ∃ (first second : MarkReading) (ones : Prop),
    first = markReading (markWord cells pos .first) ∧ second = markReading (markWord cells pos .second) ∧
    (ones ↔ ∀ b ∈ dataArea cells pos, b = 0xFF#8) ∧
    (readData cells pos).body = parseBody (dataArea cells pos) ∧ (readData cells pos).area = (dataArea cells pos).drop 32 ∧
    ((readData cells pos).payloadGood = true ↔ ∃ b, parseBody (dataArea cells pos) = some b ∧ crc16 b.payload = b.check) ∧
    ((readData cells pos).cond = .erased ↔ ones ∧ first = .erased ∧ second = .erased) ∧
    ((readData cells pos).cond = .allocated ↔
      parseBody (dataArea cells pos) ≠ none ∧ first = .erased ∧ second = .erased ∧ ¬ ones) ∧
    ((readData cells pos).cond = .committed ↔ parseBody (dataArea cells pos) ≠ none ∧ first = .present ∧ second = .erased) ∧
    ((readData cells pos).cond = .superseded ↔ parseBody (dataArea cells pos) ≠ none ∧ first = .present ∧ second = .present)) ∧
  (∀ (cells : List Host.Cell) (g : Seg),
    ((readHeader cells g).retired = true ↔ markWord cells ⟨g, 0⟩ .first ≠ 0xFFFF#16) ∧
    ((readHeader cells g).cond = .erased ↔ (∀ b ∈ dataArea cells ⟨g, 0⟩, b = 0xFF#8) ∧ markWord cells ⟨g, 0⟩ .first = 0xFFFF#16 ∧
      markWord cells ⟨g, 0⟩ .second = 0xFFFF#16) ∧
    ((readHeader cells g).cond = .valid ↔ headerGood (dataArea cells ⟨g, 0⟩) = true ∧ markWord cells ⟨g, 0⟩ .second = 0xFFFF#16) ∧
    ((readHeader cells g).cond = .valid → (readHeader cells g).generation = half16 (dataArea cells ⟨g, 0⟩) 4 ∧
      (readHeader cells g).count = (half16 (dataArea cells ⟨g, 0⟩) 6).toNat))
end

