-- ==== Sys2Proof/Decode.lean ====
section
/-! DEFINITION. The table gives no row any bits: the commands reach the block as frames, line changes and steps of its inner blocks, not as words. -/

namespace Sys2Proof

/-- The command a word spells by the table's bits: none, because no row of the table gives bits (log entry 20). -/
def decodeTableWord (_nbits _w : Nat) : Option Instr := none

end Sys2Proof
end

