-- ==== Sys2Proof/Laws/Memory.lean ====
section
/-! SUPPORT. Byte memories: what a write, a clear and a store do to the bytes read, and that every memory operation keeps the canonical form. -/

namespace Sys2Proof.Machine

/-! ## Entries -/

theorem Memory.mem_entries {d : Byte} {e : Host.Cell} :
    ∀ {a : Nat} {bs : List Byte}, e ∈ Memory.entries d a bs → a ≤ e.1 ∧ e.1 < a + bs.length ∧ e.2 ≠ d := by
  intro a bs
  induction bs generalizing a with
  | nil => intro h; simp [Memory.entries] at h
  | cons b bs ih =>
    intro h
    have tail : e ∈ Memory.entries d (a + 1) bs → a ≤ e.1 ∧ e.1 < a + (b :: bs).length ∧ e.2 ≠ d := fun h => by
      have := ih h
      simp only [List.length_cons]
      exact ⟨by omega, by omega, this.2.2⟩
    unfold Memory.entries at h
    split at h
    · exact tail h
    · rename_i hb
      cases List.mem_cons.mp h with
      | inl h => subst h; simpa using hb
      | inr h => exact tail h

theorem Memory.entries_sorted {d : Byte} :
    ∀ {a : Nat} {bs : List Byte}, (Memory.entries d a bs).Pairwise (fun x y => x.1 < y.1) := by
  intro a bs
  induction bs generalizing a with
  | nil => simp [Memory.entries]
  | cons b bs ih =>
    unfold Memory.entries
    split
    · exact ih
    · exact List.pairwise_cons.mpr ⟨fun e he => (Memory.mem_entries he).1, ih⟩

/-! ## The canonical form is kept -/

theorem Memory.wf_nil (d : Byte) (limit : Nat) : Memory.wf d limit [] := by simp [Memory.wf]

theorem Memory.write_wf {d : Byte} {limit : Nat} {m : List Host.Cell} {a : Nat} {bs : List Byte}
    (h : Memory.wf d limit m) (fits : a + bs.length ≤ limit) : Memory.wf d limit (Memory.write d m a bs) := by
  obtain ⟨sorted, ok⟩ := h
  refine ⟨?_, ?_⟩
  · simp only [Memory.write, List.pairwise_append, List.mem_append, List.mem_filter, decide_eq_true_eq]
    refine ⟨⟨sorted.filter _, Memory.entries_sorted, ?_⟩, sorted.filter _, ?_⟩
    · intro x hx y hy
      have := Memory.mem_entries hy
      omega
    · rintro x (hx | hx) y hy
      · omega
      · have := Memory.mem_entries hx
        omega
  · intro e he
    simp only [Memory.write, List.mem_append, List.mem_filter, decide_eq_true_eq] at he
    rcases he with (he | he) | he
    · exact ok e he.1
    · have := Memory.mem_entries he
      exact ⟨by omega, this.2.2⟩
    · exact ok e he.1

theorem Memory.clear_wf {d : Byte} {limit : Nat} {m : List Host.Cell} (a n : Nat)
    (h : Memory.wf d limit m) : Memory.wf d limit (Memory.clear m a n) := by
  obtain ⟨sorted, ok⟩ := h
  refine ⟨?_, ?_⟩
  · simp only [Memory.clear, List.pairwise_append, List.mem_filter, decide_eq_true_eq]
    exact ⟨sorted.filter _, sorted.filter _, fun x hx y hy => by omega⟩
  · intro e he
    simp only [Memory.clear, List.mem_append, List.mem_filter] at he
    rcases he with he | he <;> exact ok e he.1

/-! ## What is read after a write -/

theorem Memory.find_filter {m : List Host.Cell} {x : Nat} (keep : Host.Cell → Bool) (h : ∀ e : Host.Cell, e.1 = x → keep e = true) :
    (m.filter keep).find? (fun e => e.1 == x) = m.find? (fun e => e.1 == x) := by
  induction m with
  | nil => rfl
  | cons e m ih =>
    by_cases hx : e.1 = x
    · simp [h e hx, hx]
    · by_cases hk : keep e = true <;> simp [hk, hx, ih]

theorem Memory.find_none {m : List Host.Cell} {x : Nat} (h : ∀ e ∈ m, e.1 ≠ x) : m.find? (fun e => e.1 == x) = none := by
  simpa [List.find?_eq_none] using h

/-- A byte outside the bytes written reads as before. -/
theorem Memory.read_write_outside {d : Byte} {m : List Host.Cell} {a x : Nat} {bs : List Byte} (h : x < a ∨ a + bs.length ≤ x) :
    Memory.read d (Memory.write d m a bs) x = Memory.read d m x := by
  have key : (Memory.write d m a bs).find? (fun e => e.1 == x) = m.find? (fun e => e.1 == x) := by
    unfold Memory.write
    rw [List.find?_append, List.find?_append,
      Memory.find_none (m := Memory.entries d a bs) (fun e he => by have := Memory.mem_entries he; omega)]
    rcases h with h | h
    · rw [Memory.find_filter _ (fun e he => by simp; omega),
        Memory.find_none (m := m.filter (fun e => decide (a + bs.length ≤ e.1))) (fun e he => by
          have := (List.mem_filter.mp he).2
          simp at this
          omega)]
      simp
    · rw [Memory.find_none (m := m.filter (fun e => decide (e.1 < a))) (fun e he => by
          have := (List.mem_filter.mp he).2
          simp at this
          omega),
        Memory.find_filter _ (fun e he => by simp; omega)]
      simp
  simp [Memory.read, key]

theorem Memory.read_entries {d : Byte} {rest : List Host.Cell} :
    ∀ {a i : Nat} {bs : List Byte} (_ : i < bs.length) (_ : ∀ e ∈ rest, a + bs.length ≤ e.1),
      Memory.read d (Memory.entries d a bs ++ rest) (a + i) = bs.getD i d := by
  intro a i bs
  induction bs generalizing a i with
  | nil => intro h; simp at h
  | cons b bs ih =>
    intro hi hrest
    have hrest' : ∀ e ∈ rest, a + 1 + bs.length ≤ e.1 := fun e he => by
      have := hrest e he
      simp at this
      omega
    cases i with
    | zero =>
      unfold Memory.entries
      split
      · rename_i hb
        have none : (Memory.entries d (a + 1) bs ++ rest).find? (fun e => e.1 == a + 0) = none := by
          apply Memory.find_none
          intro e he
          rcases List.mem_append.mp he with he | he
          · have := Memory.mem_entries he
            omega
          · have := hrest' e he
            omega
        unfold Memory.read
        rw [none]
        simp [hb]
      · simp [Memory.read]
    | succ i =>
      have hi' : i < bs.length := by simpa using hi
      have step := ih (a := a + 1) hi' hrest'
      have swap : a + 1 + i = a + (i + 1) := by omega
      rw [swap] at step
      unfold Memory.entries
      split
      · simpa using step
      · simpa [Memory.read] using step

/-- A byte written reads as written. -/
theorem Memory.read_write_inside {d : Byte} {m : List Host.Cell} {a i : Nat} {bs : List Byte} (h : i < bs.length) :
    Memory.read d (Memory.write d m a bs) (a + i) = bs.getD i d := by
  have none : (m.filter (fun e => decide (e.1 < a))).find? (fun e => e.1 == a + i) = none :=
    Memory.find_none (fun e he => by
      have := (List.mem_filter.mp he).2
      simp at this
      omega)
  have rest := Memory.read_entries (d := d) (a := a) (i := i) (bs := bs) (rest := m.filter (fun e => decide (a + bs.length ≤ e.1))) h
    (fun e he => by simpa using (List.mem_filter.mp he).2)
  unfold Memory.write
  unfold Memory.read at rest ⊢
  rw [List.append_assoc, List.find?_append, none]
  simpa using rest

/-- The window of a read holds every entry the read can find. -/
theorem Memory.read_window {d : Byte} {m : List Host.Cell} {a n x : Nat} (h : a ≤ x) (h' : x < a + n) :
    Memory.read d (Memory.window m a n) x = Memory.read d m x := by
  unfold Memory.read Memory.window
  rw [Memory.find_filter _ (fun e he => by simp; omega)]

theorem Memory.readRange_eq {d : Byte} {m : List Host.Cell} {a n : Nat} :
    Memory.readRange d m a n = (List.range n).map (fun i => Memory.read d m (a + i)) := by
  unfold Memory.readRange
  apply List.map_congr_left
  intro i hi
  have := List.mem_range.mp hi
  exact Memory.read_window (by omega) (by omega)

/-! ## Staging buffers -/

theorem bufferStore_wf {b : List Host.Cell} {off : Nat} {bs : List Byte} (h : BufferOk b) :
    BufferOk (bufferStore b off bs) := by
  unfold bufferStore
  by_cases fits : off ≤ Config.bufferBytes
  · apply Memory.write_wf h
    simp only [List.length_take]
    omega
  · have empty : Config.bufferBytes - off = 0 := by omega
    rw [empty, List.take_zero]
    refine ⟨?_, fun e he => ?_⟩
    · simp only [Memory.write, Memory.entries, List.append_nil, List.length_nil, Nat.add_zero, List.pairwise_append, List.mem_filter,
        decide_eq_true_eq]
      exact ⟨h.1.filter _, h.1.filter _, fun x hx y hy => by omega⟩
    · simp only [Memory.write, Memory.entries, List.append_nil, List.mem_append, List.mem_filter] at he
      rcases he with he | he <;> exact h.2 e he.1

/-- A buffer byte that a store covers and the buffer holds reads as stored. -/
theorem bufferByteAt_store_inside {b : List Host.Cell} {off i : Nat} {bs : List Byte} (h : i < bs.length)
    (inside : off + i < Config.bufferBytes) : bufferByteAt (bufferStore b off bs) (off + i) = bs.getD i 0 := by
  have hi : i < (bs.take (Config.bufferBytes - off)).length := by
    simp only [List.length_take]
    omega
  unfold bufferByteAt bufferStore
  rw [if_pos inside, Memory.read_write_inside hi]
  have room : i < Config.bufferBytes - off := by omega
  simp [List.getD_eq_getElem?_getD, Config.bufferByte, room]

/-- A buffer byte that a store does not cover reads as before. -/
theorem bufferByteAt_store_outside {b : List Host.Cell} {off x : Nat} {bs : List Byte} (h : x < off ∨ off + bs.length ≤ x) :
    bufferByteAt (bufferStore b off bs) x = bufferByteAt b x := by
  unfold bufferByteAt bufferStore
  by_cases hx : x < Config.bufferBytes
  · rw [if_pos hx, if_pos hx, Memory.read_write_outside]
    simp only [List.length_take]
    omega
  · rw [if_neg hx, if_neg hx]

/-! ## The array -/

theorem segBase_bound (g : Seg) : segBase g + Config.segmentStride ≤ Config.arrayBytes := by
  have := g.isLt
  simp only [segBase, Config.segmentStride, Config.arrayBytes]
  omega

theorem cellBase_bound (p : Pos) : cellBase p + Config.cellStride ≤ Config.arrayBytes := by
  have := p.seg.isLt
  have := p.cell.isLt
  simp only [cellBase, segBase, Config.segmentStride, Config.cellStride, Config.arrayBytes]
  omega

theorem putArea_wf {c : List Host.Cell} (p : Pos) (area : List Byte) (h : CellsOk c) : CellsOk (putArea c p area) := by
  apply Memory.write_wf h
  have := cellBase_bound p
  simp only [List.length_take, Config.cellStride, Config.dataBytes] at *
  omega

theorem putMark_wf {c : List Host.Cell} (p : Pos) (k : MarkKind) (w : Half) (h : CellsOk c) : CellsOk (putMark c p k w) := by
  apply Memory.write_wf h
  have := cellBase_bound p
  cases k <;> simp only [markBase, bytes16, List.length_cons, List.length_nil, Config.cellStride, Config.dataBytes] at * <;> omega

theorem putResidue_wf {c : List Host.Cell} (g : Seg) (e : Host.Cell) (h : CellsOk c) : CellsOk (putResidue g c e) := by
  unfold putResidue
  split
  · apply Memory.write_wf h
    have := segBase_bound g
    simp only [List.length_cons, List.length_nil]
    omega
  · exact h

theorem putResidues_wf {c : List Host.Cell} (g : Seg) (left : List Host.Cell) (h : CellsOk c) : CellsOk (left.foldl (putResidue g) c) := by
  induction left generalizing c with
  | nil => exact h
  | cons e left ih => exact ih (putResidue_wf g e h)

theorem erasedSegment_wf {c : List Host.Cell} (g : Seg) (gen : Generation) (n : Nat) (h : CellsOk c) :
    CellsOk (erasedSegment c g gen n) :=
  putArea_wf _ _ (Memory.clear_wf _ _ h)

theorem badSegment_wf {c : List Host.Cell} (g : Seg) (h : CellsOk c) : CellsOk (badSegment c g) := by
  unfold badSegment
  extract_lets cells
  have hc : CellsOk cells := putMark_wf _ _ _ h
  split
  · exact putArea_wf _ _ hc
  · exact hc

theorem cutSegment_wf {c : List Host.Cell} (g : Seg) (h : CellsOk c) : CellsOk (cutSegment c g) := by
  unfold cutSegment
  extract_lets cells
  have hc : CellsOk cells := badSegment_wf g h
  split
  · exact putArea_wf _ _ hc
  · exact hc

theorem eraseLeft_wf {c : List Host.Cell} (g : Seg) (gen : Generation) (n : Nat) (left : List Host.Cell) (h : CellsOk c) :
    CellsOk (eraseLeft c g gen n left) := by
  unfold eraseLeft
  extract_lets clean after
  split
  · exact erasedSegment_wf g gen n h
  · exact badSegment_wf g (putResidues_wf g left (erasedSegment_wf g gen n h))

theorem cutOp_wf {c : List Host.Cell} (r : Requester) (left : List Host.Cell) (op : ArrayOp) (h : CellsOk c) :
    CellsOk (cutOp c r left op) := by
  cases op with
  | readCell p payload => exact h
  | programBody p b => exact putArea_wf _ _ h
  | programHeader g gen n => exact putArea_wf _ _ h
  | programMark p k => exact putMark_wf _ _ _ h
  | eraseSegment g gen n =>
    simp only [cutOp]
    exact cutSegment_wf g (putResidues_wf g left (erasedSegment_wf g gen n h))

theorem cutArray_wf {a : ArrayCtl} (cut eraseCut : List Host.Cell) (h : CellsOk a.cells) : CellsOk (cutArray a cut eraseCut) := by
  unfold cutArray
  extract_lets cells
  have hc : CellsOk cells := by
    simp only [cells]
    split
    · exact cutOp_wf _ _ _ h
    · exact h
  split
  · exact cutOp_wf _ _ _ hc
  · exact hc

end Sys2Proof.Machine
end

