-- ==== Sys2Proof/Laws/Array.lean ====
section
/-! SUPPORT. What the operations of the array do to its bytes: a part written reads as written, and every byte outside the part reads as before. -/

namespace Sys2Proof.Machine

variable {cells : List Host.Cell} {pos : Pos} {g : Seg} {a : Nat}

/-! ## Outside the part -/

theorem putArea_outside {area : List Byte} (h : a < cellBase pos ∨ cellBase pos + Config.dataBytes ≤ a) :
    arrayByte (putArea cells pos area) a = arrayByte cells a := by
  apply Memory.read_write_outside
  simp only [List.length_take, Config.dataBytes] at *
  omega

theorem putMark_outside {k : MarkKind} {w : Half} (h : a < markBase pos k ∨ markBase pos k + 2 ≤ a) :
    arrayByte (putMark cells pos k w) a = arrayByte cells a :=
  Memory.read_write_outside h

theorem Memory.clear_outside {d : Byte} {m : List Host.Cell} {b n : Nat} (h : a < b ∨ b + n ≤ a) :
    Memory.read d (Memory.clear m b n) a = Memory.read d m a := by
  have key : (Memory.clear m b n).find? (fun e => e.1 == a) = m.find? (fun e => e.1 == a) := by
    unfold Memory.clear
    rw [List.find?_append]
    rcases h with h | h
    · rw [Memory.find_filter _ (fun e he => by simp; omega)]
      rw [Memory.find_none (m := m.filter (fun e => decide (b + n ≤ e.1))) (fun e he => by
        have := (List.mem_filter.mp he).2
        simp at this; omega)]
      simp
    · rw [Memory.find_none (m := m.filter (fun e => decide (e.1 < b))) (fun e he => by
        have := (List.mem_filter.mp he).2
        simp at this; omega)]
      rw [Memory.find_filter _ (fun e he => by simp; omega)]
      simp
  unfold Memory.read
  rw [key]

theorem Memory.clear_inside {d : Byte} {m : List Host.Cell} {b n : Nat} (h : b ≤ a) (h' : a < b + n) :
    Memory.read d (Memory.clear m b n) a = d := by
  have key : (Memory.clear m b n).find? (fun e => e.1 == a) = none := by
    apply Memory.find_none
    intro e he
    simp only [Memory.clear, List.mem_append, List.mem_filter, decide_eq_true_eq] at he
    omega
  unfold Memory.read
  rw [key]

theorem cellBase_header (g : Seg) : cellBase ⟨g, 0⟩ = segBase g := by simp [cellBase]

theorem erasedSegment_outside {gen : Generation} {n : Nat} (h : a < segBase g ∨ segBase g + Config.segmentStride ≤ a) :
    arrayByte (erasedSegment cells g gen n) a = arrayByte cells a := by
  unfold erasedSegment
  rw [putArea_outside, arrayByte, Memory.clear_outside h]
  · rfl
  · rw [cellBase_header]
    simp only [Config.dataBytes, Config.segmentStride] at *
    omega

theorem putResidue_outside {e : Host.Cell} (h : a < segBase g ∨ segBase g + Config.segmentStride ≤ a) :
    arrayByte (putResidue g cells e) a = arrayByte cells a := by
  unfold putResidue
  split
  · apply Memory.read_write_outside
    simp only [List.length_cons, List.length_nil]
    omega
  · rfl

theorem putResidues_outside {left : List Host.Cell} (h : a < segBase g ∨ segBase g + Config.segmentStride ≤ a) :
    arrayByte (left.foldl (putResidue g) cells) a = arrayByte cells a := by
  induction left generalizing cells with
  | nil => rfl
  | cons e left ih => rw [List.foldl_cons, ih, putResidue_outside h]

/-- A header area written leaves every byte outside its segment. -/
theorem headerArea_outside {area : List Byte} (h : a < segBase g ∨ segBase g + Config.segmentStride ≤ a) :
    arrayByte (putArea cells ⟨g, 0⟩ area) a = arrayByte cells a := by
  apply putArea_outside
  rw [cellBase_header]
  simp only [Config.dataBytes, Config.segmentStride] at *
  omega

theorem badSegment_outside (h : a < segBase g ∨ segBase g + Config.segmentStride ≤ a) :
    arrayByte (badSegment cells g) a = arrayByte cells a := by
  unfold badSegment
  extract_lets marked
  have hm : arrayByte marked a = arrayByte cells a := by
    apply putMark_outside
    simp only [markBase, cellBase_header, Config.dataBytes, Config.segmentStride] at *
    omega
  split
  · rw [headerArea_outside h, hm]
  · exact hm

theorem cutSegment_outside (h : a < segBase g ∨ segBase g + Config.segmentStride ≤ a) :
    arrayByte (cutSegment cells g) a = arrayByte cells a := by
  unfold cutSegment
  extract_lets bad
  split
  · rw [headerArea_outside h, badSegment_outside h]
  · exact badSegment_outside h

theorem eraseLeft_outside {gen : Generation} {n : Nat} {left : List Host.Cell}
    (h : a < segBase g ∨ segBase g + Config.segmentStride ≤ a) : arrayByte (eraseLeft cells g gen n left) a = arrayByte cells a := by
  unfold eraseLeft
  extract_lets clean after
  split
  · exact erasedSegment_outside h
  · rw [badSegment_outside h, putResidues_outside h, erasedSegment_outside h]

/-! ## Inside the part -/

theorem Memory.readRange_write {d : Byte} {m : List Host.Cell} {b : Nat} {bs : List Byte} :
    Memory.readRange d (Memory.write d m b bs) b bs.length = bs := by
  rw [Memory.readRange_eq]
  apply List.ext_getElem
  · simp
  · intro i h1 h2
    simp only [List.getElem_map, List.getElem_range]
    rw [Memory.read_write_inside h2]
    simp [h2]

/-- A data area reads as it was written. -/
theorem dataArea_putArea {area : List Byte} (h : area.length = Config.dataBytes) : dataArea (putArea cells pos area) pos = area := by
  unfold dataArea putArea
  rw [List.take_of_length_le (le_of_eq h)]
  rw [← h]
  exact Memory.readRange_write

theorem half16_bytes16 (w : Half) : half16 (bytes16 w) 0 = w := by
  simp only [half16, bytes16, join16, List.getD_cons_zero, List.getD_cons_succ]
  apply BitVec.eq_of_getElem_eq
  intro i hi
  simp only [BitVec.getElem_append, BitVec.getElem_extractLsb']
  split
  · simp [hi]
  · rename_i h
    rw [show 8 + (i - 8) = i by omega]
    exact BitVec.getLsbD_eq_getElem hi

/-- A mark position reads as it was written. -/
theorem markWord_putMark {k : MarkKind} {w : Half} : markWord (putMark cells pos k w) pos k = w := by
  unfold markWord putMark
  have := Memory.readRange_write (d := Config.erasedByte) (m := cells) (b := markBase pos k) (bs := bytes16 w)
  rw [show (bytes16 w).length = 2 from rfl] at this
  rw [this, half16_bytes16]

theorem Memory.readRange_congr {d : Byte} {m m' : List Host.Cell} {b n : Nat}
    (h : ∀ x, b ≤ x → x < b + n → Memory.read d m x = Memory.read d m' x) : Memory.readRange d m b n = Memory.readRange d m' b n := by
  rw [Memory.readRange_eq, Memory.readRange_eq]
  apply List.map_congr_left
  intro i hi
  exact h _ (by omega) (by have := List.mem_range.mp hi; omega)

/-- A data area written leaves the marks of its cell. -/
theorem markWord_putArea {k : MarkKind} {area : List Byte} : markWord (putArea cells pos area) pos k = markWord cells pos k := by
  unfold markWord
  rw [Memory.readRange_congr]
  intro x h1 h2
  apply putArea_outside
  cases k <;> simp only [markBase] at h1 h2 <;> omega

/-- A mark written leaves the data area of its cell. -/
theorem dataArea_putMark {k : MarkKind} {w : Half} : dataArea (putMark cells pos k w) pos = dataArea cells pos := by
  unfold dataArea
  rw [Memory.readRange_congr]
  intro x h1 h2
  apply putMark_outside
  cases k <;> simp only [markBase] <;> omega

/-! ## What programs leave -/

theorem dataArea_length : (dataArea cells pos).length = Config.dataBytes := by
  simp [dataArea, Memory.readRange]

theorem overlay_length {left : List Host.Cell} {i : Nat} {bs : List Byte} : (overlay left i bs).length = bs.length := by
  induction bs generalizing i with
  | nil => rfl
  | cons b bs ih => simp [overlay, ih]

theorem attempted_length {old pattern : List Byte} {left : List Host.Cell} :
    (attempted old pattern left).length = min old.length pattern.length := by
  simp [attempted, overlay_length]

theorem zeroArea_length : zeroArea.length = Config.dataBytes := List.length_replicate

theorem headerBytes_length {gen : Generation} {n : Nat} : (headerBytes gen n).length = Config.dataBytes := by
  simp only [headerBytes, headerFields, bytes16, bytes32, List.length_append, List.length_cons, List.length_nil, List.length_replicate,
    Config.dataBytes]

theorem bodyFields_length {b : Body} : (bodyFields b).length = 30 := rfl

theorem bodyBytes_length {b : Body} : Config.dataBytes ≤ (bodyBytes b).length := by
  simp only [bodyBytes, List.length_append, bodyFields_length, List.length_replicate, bytes16, List.length_cons, List.length_nil,
    Config.payloadBytes, Config.dataBytes]
  omega

theorem headerGood_zeros (n : Nat) : headerGood (List.replicate (n + 4) 0x00#8) = false := by
  rw [List.replicate_succ, List.replicate_succ, List.replicate_succ, List.replicate_succ]
  unfold headerGood
  rw [show word32 (0x00#8 :: 0x00#8 :: 0x00#8 :: 0x00#8 :: List.replicate n 0x00#8) 0 = 0 from by show join32 0 0 0 0 = 0; decide]
  rw [show ((0 : BitVec 32) == Config.signature) = false from by decide]
  rfl

theorem headerGood_zeroArea : headerGood zeroArea = false := headerGood_zeros 508

theorem allOnes_zeros (n : Nat) : allOnes (List.replicate (n + 1) 0x00#8) = false := by
  rw [List.replicate_succ]
  rfl

theorem allOnes_zeroArea : allOnes zeroArea = false := allOnes_zeros 511

theorem badHeader_length {area : List Byte} (h : area.length = Config.dataBytes) : (badHeader area).length = Config.dataBytes := by
  unfold badHeader
  split
  · exact zeroArea_length
  · exact h

theorem badHeader_bad {area : List Byte} : headerGood (badHeader area) = false ∧ allOnes (badHeader area) = false := by
  unfold badHeader
  split
  · exact ⟨headerGood_zeroArea, allOnes_zeroArea⟩
  · simp_all

theorem bodyResult_length {cut : Bool} {old : List Byte} {b : Body} {left : List Host.Cell} (h : old.length = Config.dataBytes) :
    (bodyResult cut old (bodyBytes b) left).length = Config.dataBytes := by
  have := bodyBytes_length (b := b)
  have : (attempted old (bodyBytes b) left).length = Config.dataBytes := by rw [attempted_length]; omega
  unfold bodyResult
  extract_lets area
  split
  · exact this
  · split
    · exact this
    · exact zeroArea_length

theorem bodyLeft_length {old : List Byte} {b : Body} {left : List Host.Cell} (h : old.length = Config.dataBytes) :
    (bodyLeft old (bodyBytes b) left).length = Config.dataBytes := bodyResult_length h

theorem parseBody_zeroArea : parseBody zeroArea = none := by
  have h : crc16 (zeroArea.take 30) ≠ half16 zeroArea 30 := by decide +kernel
  exact if_neg h

/-- What a completed body program leaves: the requested bytes; an area with the requested header whose payload check fails; or one with no good body (R24, Table 2-5). -/
theorem bodyLeft_cases (old pattern : List Byte) (left : List Host.Cell) :
    bodyLeft old pattern left = pattern ∨
      (allOnes (bodyLeft old pattern left) = false ∧
        (parseBody (bodyLeft old pattern left) = none ∨
          ∃ b, parseBody (bodyLeft old pattern left) = some b ∧ (bodyLeft old pattern left).take 32 = pattern.take 32 ∧
            crc16 b.payload ≠ b.check)) := by
  unfold bodyLeft bodyResult
  extract_lets area
  split
  · exact .inl (by assumption)
  · right
    split
    · rename_i h
      unfold bodyResidue at h
      cases hp : parseBody area with
      | none => simp_all
      | some b => simp_all
    · exact ⟨allOnes_zeroArea, .inl parseBody_zeroArea⟩

/-- A header area that is neither good nor erased reads BAD. -/
theorem readHeader_bad (h : headerGood (dataArea cells ⟨g, 0⟩) = false) (h' : allOnes (dataArea cells ⟨g, 0⟩) = false) :
    (readHeader cells g).cond = .bad := by
  unfold readHeader
  simp [h, h']

/-- A header area of zeros reads BAD. -/
theorem readHeader_zeroArea : (readHeader (putArea cells ⟨g, 0⟩ zeroArea) g).cond = .bad := by
  rw [readHeader_bad] <;> simp [dataArea_putArea zeroArea_length, headerGood_zeroArea, allOnes_zeroArea]

/-- The retired indication is that of the retired mark's position. -/
theorem readHeader_retired : (readHeader cells g).retired = decide (markWord cells ⟨g, 0⟩ .first ≠ Config.markErased) := by
  unfold readHeader
  extract_lets p area retired second
  split
  · rename_i h
    simp only [Bool.and_eq_true, Bool.not_eq_true'] at h
    exact h.1.2.symm
  · split <;> rfl

theorem badSegment_notValid : (readHeader (badSegment cells g) g).cond ≠ .valid := by
  unfold badSegment
  extract_lets marked
  split
  · simp [readHeader_zeroArea]
  · assumption

/-- A failed or cut erase leaves no retired indication. -/
theorem badSegment_notRetired : (readHeader (badSegment cells g) g).retired = false := by
  rw [readHeader_retired]
  unfold badSegment
  extract_lets marked
  split
  · simp [markWord_putArea, marked, markWord_putMark]
  · simp [marked, markWord_putMark]

theorem mem_dataCells {c : CellNo} : c ∈ dataCells ↔ c ≠ 0 := by revert c; decide

/-- A segment whose erase was cut is one that mount classes DAMAGED: its header reads BAD, or reads ERASED over a data cell that does not, and shows no retired indication (R164, R169, Table 9-5). -/
theorem cutSegment_damaged :
    (readHeader (cutSegment cells g) g).retired = false ∧
      ((readHeader (cutSegment cells g) g).cond = .bad ∨
        ((readHeader (cutSegment cells g) g).cond = .erased ∧
          ∃ c : CellNo, c ≠ 0 ∧ (readData (cutSegment cells g) ⟨g, c⟩).cond ≠ .erased)) := by
  unfold cutSegment
  extract_lets bad
  have hr : (readHeader bad g).retired = false := badSegment_notRetired
  split
  · refine ⟨?_, .inl readHeader_zeroArea⟩
    rw [readHeader_retired, markWord_putArea, ← readHeader_retired]
    exact hr
  · rename_i h
    refine ⟨hr, ?_⟩
    have hv : (readHeader bad g).cond ≠ .valid := badSegment_notValid
    cases hc : (readHeader bad g).cond with
    | valid => exact absurd hc hv
    | bad => exact .inl rfl
    | erased =>
      refine .inr ⟨rfl, ?_⟩
      have h' : ∃ c ∈ dataCells, (readData bad ⟨g, c⟩).cond ≠ .erased := by
        simpa [segmentBlank, hc] using h
      obtain ⟨c, hm, hne⟩ := h'
      exact ⟨c, mem_dataCells.1 hm, hne⟩

/-- What a cut leaves of an erase. -/
theorem cutOp_erase {r : Requester} {gen : Generation} {n : Nat} {left : List Host.Cell} :
    cutOp cells r left (.eraseSegment g gen n) = cutSegment (left.foldl (putResidue g) (erasedSegment cells g gen n)) g := by
  simp only [cutOp]

end Sys2Proof.Machine
end

