-- ==== Sys2Proof/Laws/State.lean ====
section
/-! SUPPORT. What each setter of State makes of each part of State, so that no proof unfolds a record update; and the four-fold fields. -/

namespace Sys2Proof.Machine

/-! ## Four like things -/

@[simp] theorem Quad.get_set_same {α : Type} (q : Quad α) (p : Port) (x : α) : (q.set p x).get p = x := by
  cases p <;> rfl

@[simp] theorem Quad.get_set_other {α : Type} (q : Quad α) {p r : Port} (x : α) (h : r ≠ p) : (q.set p x).get r = q.get r := by
  cases p <;> cases r <;> first | rfl | exact absurd rfl h

theorem Quad.get_set {α : Type} (q : Quad α) (p r : Port) (x : α) : (q.set p x).get r = if r = p then x else q.get r := by
  cases p <;> cases r <;> rfl

theorem Quad.ext_get {α : Type} {q r : Quad α} (h : ∀ p, q.get p = r.get p) : q = r := by
  obtain ⟨a, b, c, d⟩ := q
  obtain ⟨a', b', c', d'⟩ := r
  have h0 : a = a' := h .p0
  have h1 : b = b' := h .p1
  have h2 : c = c' := h .p2
  have h3 : d = d' := h .p3
  subst h0 h1 h2 h3
  rfl

@[simp] theorem Quad.set_get {α : Type} (q : Quad α) (p : Port) : q.set p (q.get p) = q := by
  cases p <;> rfl

@[simp] theorem Quad.set_set {α : Type} (q : Quad α) (p : Port) (x y : α) : (q.set p x).set p y = q.set p y := by
  cases p <;> rfl

@[simp] theorem mem_allPorts (p : Port) : p ∈ allPorts := by
  cases p <;> decide

/-! ## Setters and the parts they leave or replace -/

/-! ### setPort -/

@[simp] theorem State.setPort_ports (s : State) (p : Port) (u : PortUnit) : (s.setPort p u).ports = s.ports.set p u := rfl
@[simp] theorem State.setPort_engine (s : State) (p : Port) (u : PortUnit) : (s.setPort p u).engine = s.engine := rfl
@[simp] theorem State.setPort_coord (s : State) (p : Port) (u : PortUnit) : (s.setPort p u).coord = s.coord := rfl
@[simp] theorem State.setPort_guard (s : State) (p : Port) (u : PortUnit) : (s.setPort p u).guard = s.guard := rfl
@[simp] theorem State.setPort_space (s : State) (p : Port) (u : PortUnit) : (s.setPort p u).space = s.space := rfl
@[simp] theorem State.setPort_array (s : State) (p : Port) (u : PortUnit) : (s.setPort p u).array = s.array := rfl
@[simp] theorem State.setPort_store (s : State) (p : Port) (u : PortUnit) : (s.setPort p u).store = s.store := rfl
@[simp] theorem State.setPort_pins (s : State) (p : Port) (u : PortUnit) : (s.setPort p u).pins = s.pins := rfl
@[simp] theorem State.setPort_pending (s : State) (p : Port) (u : PortUnit) : (s.setPort p u).pending = s.pending := rfl

@[simp] theorem State.setPort_port (s : State) (p : Port) (u : PortUnit) : (s.setPort p u).port p = u := by
  cases p <;> rfl

@[simp] theorem State.setPort_port_other (s : State) {p r : Port} (u : PortUnit) (h : r ≠ p) : (s.setPort p u).port r = s.port r :=
  Quad.get_set_other _ _ h

@[simp] theorem State.setPort_self (s : State) (p : Port) : s.setPort p (s.port p) = s := by
  simp [State.setPort, State.port]

@[simp] theorem State.setPort_setPort (s : State) (p : Port) (u v : PortUnit) : (s.setPort p u).setPort p v = s.setPort p v := by
  simp [State.setPort]

/-! ### setWork -/

@[simp] theorem State.setWork_ports (s : State) (w : Work) : (s.setWork w).ports = s.ports := rfl
@[simp] theorem State.setWork_engine (s : State) (w : Work) : (s.setWork w).engine = { s.engine with work := w } := rfl
@[simp] theorem State.setWork_coord (s : State) (w : Work) : (s.setWork w).coord = s.coord := rfl
@[simp] theorem State.setWork_guard (s : State) (w : Work) : (s.setWork w).guard = s.guard := rfl
@[simp] theorem State.setWork_space (s : State) (w : Work) : (s.setWork w).space = s.space := rfl
@[simp] theorem State.setWork_array (s : State) (w : Work) : (s.setWork w).array = s.array := rfl
@[simp] theorem State.setWork_store (s : State) (w : Work) : (s.setWork w).store = s.store := rfl
@[simp] theorem State.setWork_pins (s : State) (w : Work) : (s.setWork w).pins = s.pins := rfl
@[simp] theorem State.setWork_pending (s : State) (w : Work) : (s.setWork w).pending = s.pending := rfl
@[simp] theorem State.setWork_port (s : State) (w : Work) (r : Port) : (s.setWork w).port r = s.port r := rfl

/-! ### setPointer -/

@[simp] theorem State.setPointer_ports (s : State) (p : Port) : (s.setPointer p).ports = s.ports := rfl
@[simp] theorem State.setPointer_engine (s : State) (p : Port) : (s.setPointer p).engine = { s.engine with pointer := p } := rfl
@[simp] theorem State.setPointer_coord (s : State) (p : Port) : (s.setPointer p).coord = s.coord := rfl
@[simp] theorem State.setPointer_guard (s : State) (p : Port) : (s.setPointer p).guard = s.guard := rfl
@[simp] theorem State.setPointer_space (s : State) (p : Port) : (s.setPointer p).space = s.space := rfl
@[simp] theorem State.setPointer_array (s : State) (p : Port) : (s.setPointer p).array = s.array := rfl
@[simp] theorem State.setPointer_store (s : State) (p : Port) : (s.setPointer p).store = s.store := rfl
@[simp] theorem State.setPointer_pins (s : State) (p : Port) : (s.setPointer p).pins = s.pins := rfl
@[simp] theorem State.setPointer_pending (s : State) (p : Port) : (s.setPointer p).pending = s.pending := rfl
@[simp] theorem State.setPointer_port (s : State) (p : Port) (r : Port) : (s.setPointer p).port r = s.port r := rfl

/-! ### setDir -/

@[simp] theorem State.setDir_ports (s : State) (d : List Entry) : (s.setDir d).ports = s.ports := rfl
@[simp] theorem State.setDir_engine (s : State) (d : List Entry) : (s.setDir d).engine = { s.engine with dir := d } := rfl
@[simp] theorem State.setDir_coord (s : State) (d : List Entry) : (s.setDir d).coord = s.coord := rfl
@[simp] theorem State.setDir_guard (s : State) (d : List Entry) : (s.setDir d).guard = s.guard := rfl
@[simp] theorem State.setDir_space (s : State) (d : List Entry) : (s.setDir d).space = s.space := rfl
@[simp] theorem State.setDir_array (s : State) (d : List Entry) : (s.setDir d).array = s.array := rfl
@[simp] theorem State.setDir_store (s : State) (d : List Entry) : (s.setDir d).store = s.store := rfl
@[simp] theorem State.setDir_pins (s : State) (d : List Entry) : (s.setDir d).pins = s.pins := rfl
@[simp] theorem State.setDir_pending (s : State) (d : List Entry) : (s.setDir d).pending = s.pending := rfl
@[simp] theorem State.setDir_port (s : State) (d : List Entry) (r : Port) : (s.setDir d).port r = s.port r := rfl

/-! ### setMove -/

@[simp] theorem State.setMove_ports (s : State) (m : Option Move) : (s.setMove m).ports = s.ports := rfl
@[simp] theorem State.setMove_engine (s : State) (m : Option Move) : (s.setMove m).engine = { s.engine with move := m } := rfl
@[simp] theorem State.setMove_coord (s : State) (m : Option Move) : (s.setMove m).coord = s.coord := rfl
@[simp] theorem State.setMove_guard (s : State) (m : Option Move) : (s.setMove m).guard = s.guard := rfl
@[simp] theorem State.setMove_space (s : State) (m : Option Move) : (s.setMove m).space = s.space := rfl
@[simp] theorem State.setMove_array (s : State) (m : Option Move) : (s.setMove m).array = s.array := rfl
@[simp] theorem State.setMove_store (s : State) (m : Option Move) : (s.setMove m).store = s.store := rfl
@[simp] theorem State.setMove_pins (s : State) (m : Option Move) : (s.setMove m).pins = s.pins := rfl
@[simp] theorem State.setMove_pending (s : State) (m : Option Move) : (s.setMove m).pending = s.pending := rfl
@[simp] theorem State.setMove_port (s : State) (m : Option Move) (r : Port) : (s.setMove m).port r = s.port r := rfl

/-! ### setSeq -/

@[simp] theorem State.setSeq_ports (s : State) (n : SeqNo) : (s.setSeq n).ports = s.ports := rfl
@[simp] theorem State.setSeq_engine (s : State) (n : SeqNo) : (s.setSeq n).engine = { s.engine with seq := n } := rfl
@[simp] theorem State.setSeq_coord (s : State) (n : SeqNo) : (s.setSeq n).coord = s.coord := rfl
@[simp] theorem State.setSeq_guard (s : State) (n : SeqNo) : (s.setSeq n).guard = s.guard := rfl
@[simp] theorem State.setSeq_space (s : State) (n : SeqNo) : (s.setSeq n).space = s.space := rfl
@[simp] theorem State.setSeq_array (s : State) (n : SeqNo) : (s.setSeq n).array = s.array := rfl
@[simp] theorem State.setSeq_store (s : State) (n : SeqNo) : (s.setSeq n).store = s.store := rfl
@[simp] theorem State.setSeq_pins (s : State) (n : SeqNo) : (s.setSeq n).pins = s.pins := rfl
@[simp] theorem State.setSeq_pending (s : State) (n : SeqNo) : (s.setSeq n).pending = s.pending := rfl
@[simp] theorem State.setSeq_port (s : State) (n : SeqNo) (r : Port) : (s.setSeq n).port r = s.port r := rfl

/-! ### setClaims -/

@[simp] theorem State.setClaims_ports (s : State) (cs : List Claim) : (s.setClaims cs).ports = s.ports := rfl
@[simp] theorem State.setClaims_engine (s : State) (cs : List Claim) : (s.setClaims cs).engine = s.engine := rfl
@[simp] theorem State.setClaims_coord (s : State) (cs : List Claim) : (s.setClaims cs).coord = { s.coord with claims := cs } := rfl
@[simp] theorem State.setClaims_guard (s : State) (cs : List Claim) : (s.setClaims cs).guard = s.guard := rfl
@[simp] theorem State.setClaims_space (s : State) (cs : List Claim) : (s.setClaims cs).space = s.space := rfl
@[simp] theorem State.setClaims_array (s : State) (cs : List Claim) : (s.setClaims cs).array = s.array := rfl
@[simp] theorem State.setClaims_store (s : State) (cs : List Claim) : (s.setClaims cs).store = s.store := rfl
@[simp] theorem State.setClaims_pins (s : State) (cs : List Claim) : (s.setClaims cs).pins = s.pins := rfl
@[simp] theorem State.setClaims_pending (s : State) (cs : List Claim) : (s.setClaims cs).pending = s.pending := rfl
@[simp] theorem State.setClaims_port (s : State) (cs : List Claim) (r : Port) : (s.setClaims cs).port r = s.port r := rfl

/-! ### setWatches -/

@[simp] theorem State.setWatches_ports (s : State) (p : Port) (ws : List Watch) : (s.setWatches p ws).ports = s.ports := rfl
@[simp] theorem State.setWatches_engine (s : State) (p : Port) (ws : List Watch) : (s.setWatches p ws).engine = s.engine := rfl
@[simp] theorem State.setWatches_coord (s : State) (p : Port) (ws : List Watch) : (s.setWatches p ws).coord = { s.coord with watches := s.coord.watches.set p ws } := rfl
@[simp] theorem State.setWatches_guard (s : State) (p : Port) (ws : List Watch) : (s.setWatches p ws).guard = s.guard := rfl
@[simp] theorem State.setWatches_space (s : State) (p : Port) (ws : List Watch) : (s.setWatches p ws).space = s.space := rfl
@[simp] theorem State.setWatches_array (s : State) (p : Port) (ws : List Watch) : (s.setWatches p ws).array = s.array := rfl
@[simp] theorem State.setWatches_store (s : State) (p : Port) (ws : List Watch) : (s.setWatches p ws).store = s.store := rfl
@[simp] theorem State.setWatches_pins (s : State) (p : Port) (ws : List Watch) : (s.setWatches p ws).pins = s.pins := rfl
@[simp] theorem State.setWatches_pending (s : State) (p : Port) (ws : List Watch) : (s.setWatches p ws).pending = s.pending := rfl
@[simp] theorem State.setWatches_port (s : State) (p : Port) (ws : List Watch) (r : Port) : (s.setWatches p ws).port r = s.port r := rfl

/-! ### setGuard -/

@[simp] theorem State.setGuard_ports (s : State) (g : GuardUnit) : (s.setGuard g).ports = s.ports := rfl
@[simp] theorem State.setGuard_engine (s : State) (g : GuardUnit) : (s.setGuard g).engine = s.engine := rfl
@[simp] theorem State.setGuard_coord (s : State) (g : GuardUnit) : (s.setGuard g).coord = s.coord := rfl
@[simp] theorem State.setGuard_guard (s : State) (g : GuardUnit) : (s.setGuard g).guard = g := rfl
@[simp] theorem State.setGuard_space (s : State) (g : GuardUnit) : (s.setGuard g).space = s.space := rfl
@[simp] theorem State.setGuard_array (s : State) (g : GuardUnit) : (s.setGuard g).array = s.array := rfl
@[simp] theorem State.setGuard_store (s : State) (g : GuardUnit) : (s.setGuard g).store = s.store := rfl
@[simp] theorem State.setGuard_pins (s : State) (g : GuardUnit) : (s.setGuard g).pins = s.pins := rfl
@[simp] theorem State.setGuard_pending (s : State) (g : GuardUnit) : (s.setGuard g).pending = s.pending := rfl
@[simp] theorem State.setGuard_port (s : State) (g : GuardUnit) (r : Port) : (s.setGuard g).port r = s.port r := rfl

/-! ### setSegs -/

@[simp] theorem State.setSegs_ports (s : State) (v : Vector SegRow 256) : (s.setSegs v).ports = s.ports := rfl
@[simp] theorem State.setSegs_engine (s : State) (v : Vector SegRow 256) : (s.setSegs v).engine = s.engine := rfl
@[simp] theorem State.setSegs_coord (s : State) (v : Vector SegRow 256) : (s.setSegs v).coord = s.coord := rfl
@[simp] theorem State.setSegs_guard (s : State) (v : Vector SegRow 256) : (s.setSegs v).guard = s.guard := rfl
@[simp] theorem State.setSegs_space (s : State) (v : Vector SegRow 256) : (s.setSegs v).space = { s.space with segs := v } := rfl
@[simp] theorem State.setSegs_array (s : State) (v : Vector SegRow 256) : (s.setSegs v).array = s.array := rfl
@[simp] theorem State.setSegs_store (s : State) (v : Vector SegRow 256) : (s.setSegs v).store = s.store := rfl
@[simp] theorem State.setSegs_pins (s : State) (v : Vector SegRow 256) : (s.setSegs v).pins = s.pins := rfl
@[simp] theorem State.setSegs_pending (s : State) (v : Vector SegRow 256) : (s.setSegs v).pending = s.pending := rfl
@[simp] theorem State.setSegs_port (s : State) (v : Vector SegRow 256) (r : Port) : (s.setSegs v).port r = s.port r := rfl

/-! ### setFrontFree -/

@[simp] theorem State.setFrontFree_ports (s : State) (l : List CellNo) : (s.setFrontFree l).ports = s.ports := rfl
@[simp] theorem State.setFrontFree_engine (s : State) (l : List CellNo) : (s.setFrontFree l).engine = s.engine := rfl
@[simp] theorem State.setFrontFree_coord (s : State) (l : List CellNo) : (s.setFrontFree l).coord = s.coord := rfl
@[simp] theorem State.setFrontFree_guard (s : State) (l : List CellNo) : (s.setFrontFree l).guard = s.guard := rfl
@[simp] theorem State.setFrontFree_space (s : State) (l : List CellNo) : (s.setFrontFree l).space = { s.space with frontFree := l } := rfl
@[simp] theorem State.setFrontFree_array (s : State) (l : List CellNo) : (s.setFrontFree l).array = s.array := rfl
@[simp] theorem State.setFrontFree_store (s : State) (l : List CellNo) : (s.setFrontFree l).store = s.store := rfl
@[simp] theorem State.setFrontFree_pins (s : State) (l : List CellNo) : (s.setFrontFree l).pins = s.pins := rfl
@[simp] theorem State.setFrontFree_pending (s : State) (l : List CellNo) : (s.setFrontFree l).pending = s.pending := rfl
@[simp] theorem State.setFrontFree_port (s : State) (l : List CellNo) (r : Port) : (s.setFrontFree l).port r = s.port r := rfl

/-! ### setPass -/

@[simp] theorem State.setPass_ports (s : State) (q : Option Pass) : (s.setPass q).ports = s.ports := rfl
@[simp] theorem State.setPass_engine (s : State) (q : Option Pass) : (s.setPass q).engine = s.engine := rfl
@[simp] theorem State.setPass_coord (s : State) (q : Option Pass) : (s.setPass q).coord = s.coord := rfl
@[simp] theorem State.setPass_guard (s : State) (q : Option Pass) : (s.setPass q).guard = s.guard := rfl
@[simp] theorem State.setPass_space (s : State) (q : Option Pass) : (s.setPass q).space = { s.space with pass := q } := rfl
@[simp] theorem State.setPass_array (s : State) (q : Option Pass) : (s.setPass q).array = s.array := rfl
@[simp] theorem State.setPass_store (s : State) (q : Option Pass) : (s.setPass q).store = s.store := rfl
@[simp] theorem State.setPass_pins (s : State) (q : Option Pass) : (s.setPass q).pins = s.pins := rfl
@[simp] theorem State.setPass_pending (s : State) (q : Option Pass) : (s.setPass q).pending = s.pending := rfl
@[simp] theorem State.setPass_port (s : State) (q : Option Pass) (r : Port) : (s.setPass q).port r = s.port r := rfl

/-! ### setHeld -/

@[simp] theorem State.setHeld_ports (s : State) (b : Bool) : (s.setHeld b).ports = s.ports := rfl
@[simp] theorem State.setHeld_engine (s : State) (b : Bool) : (s.setHeld b).engine = s.engine := rfl
@[simp] theorem State.setHeld_coord (s : State) (b : Bool) : (s.setHeld b).coord = s.coord := rfl
@[simp] theorem State.setHeld_guard (s : State) (b : Bool) : (s.setHeld b).guard = s.guard := rfl
@[simp] theorem State.setHeld_space (s : State) (b : Bool) : (s.setHeld b).space = { s.space with held := b } := rfl
@[simp] theorem State.setHeld_array (s : State) (b : Bool) : (s.setHeld b).array = s.array := rfl
@[simp] theorem State.setHeld_store (s : State) (b : Bool) : (s.setHeld b).store = s.store := rfl
@[simp] theorem State.setHeld_pins (s : State) (b : Bool) : (s.setHeld b).pins = s.pins := rfl
@[simp] theorem State.setHeld_pending (s : State) (b : Bool) : (s.setHeld b).pending = s.pending := rfl
@[simp] theorem State.setHeld_port (s : State) (b : Bool) (r : Port) : (s.setHeld b).port r = s.port r := rfl

/-! ### setCells -/

@[simp] theorem State.setCells_ports (s : State) (c : List Host.Cell) : (s.setCells c).ports = s.ports := rfl
@[simp] theorem State.setCells_engine (s : State) (c : List Host.Cell) : (s.setCells c).engine = s.engine := rfl
@[simp] theorem State.setCells_coord (s : State) (c : List Host.Cell) : (s.setCells c).coord = s.coord := rfl
@[simp] theorem State.setCells_guard (s : State) (c : List Host.Cell) : (s.setCells c).guard = s.guard := rfl
@[simp] theorem State.setCells_space (s : State) (c : List Host.Cell) : (s.setCells c).space = s.space := rfl
@[simp] theorem State.setCells_array (s : State) (c : List Host.Cell) : (s.setCells c).array = { s.array with cells := c } := rfl
@[simp] theorem State.setCells_store (s : State) (c : List Host.Cell) : (s.setCells c).store = s.store := rfl
@[simp] theorem State.setCells_pins (s : State) (c : List Host.Cell) : (s.setCells c).pins = s.pins := rfl
@[simp] theorem State.setCells_pending (s : State) (c : List Host.Cell) : (s.setCells c).pending = s.pending := rfl
@[simp] theorem State.setCells_port (s : State) (c : List Host.Cell) (r : Port) : (s.setCells c).port r = s.port r := rfl

/-! ### setInFlight -/

@[simp] theorem State.setInFlight_ports (s : State) (f : Option InFlight) : (s.setInFlight f).ports = s.ports := rfl
@[simp] theorem State.setInFlight_engine (s : State) (f : Option InFlight) : (s.setInFlight f).engine = s.engine := rfl
@[simp] theorem State.setInFlight_coord (s : State) (f : Option InFlight) : (s.setInFlight f).coord = s.coord := rfl
@[simp] theorem State.setInFlight_guard (s : State) (f : Option InFlight) : (s.setInFlight f).guard = s.guard := rfl
@[simp] theorem State.setInFlight_space (s : State) (f : Option InFlight) : (s.setInFlight f).space = s.space := rfl
@[simp] theorem State.setInFlight_array (s : State) (f : Option InFlight) : (s.setInFlight f).array = { s.array with inFlight := f } := rfl
@[simp] theorem State.setInFlight_store (s : State) (f : Option InFlight) : (s.setInFlight f).store = s.store := rfl
@[simp] theorem State.setInFlight_pins (s : State) (f : Option InFlight) : (s.setInFlight f).pins = s.pins := rfl
@[simp] theorem State.setInFlight_pending (s : State) (f : Option InFlight) : (s.setInFlight f).pending = s.pending := rfl
@[simp] theorem State.setInFlight_port (s : State) (f : Option InFlight) (r : Port) : (s.setInFlight f).port r = s.port r := rfl

/-! ### setErase -/

@[simp] theorem State.setErase_ports (s : State) (e : Option EraseCtx) : (s.setErase e).ports = s.ports := rfl
@[simp] theorem State.setErase_engine (s : State) (e : Option EraseCtx) : (s.setErase e).engine = s.engine := rfl
@[simp] theorem State.setErase_coord (s : State) (e : Option EraseCtx) : (s.setErase e).coord = s.coord := rfl
@[simp] theorem State.setErase_guard (s : State) (e : Option EraseCtx) : (s.setErase e).guard = s.guard := rfl
@[simp] theorem State.setErase_space (s : State) (e : Option EraseCtx) : (s.setErase e).space = s.space := rfl
@[simp] theorem State.setErase_array (s : State) (e : Option EraseCtx) : (s.setErase e).array = { s.array with erase := e } := rfl
@[simp] theorem State.setErase_store (s : State) (e : Option EraseCtx) : (s.setErase e).store = s.store := rfl
@[simp] theorem State.setErase_pins (s : State) (e : Option EraseCtx) : (s.setErase e).pins = s.pins := rfl
@[simp] theorem State.setErase_pending (s : State) (e : Option EraseCtx) : (s.setErase e).pending = s.pending := rfl
@[simp] theorem State.setErase_port (s : State) (e : Option EraseCtx) (r : Port) : (s.setErase e).port r = s.port r := rfl

/-! ### presentEngine -/

@[simp] theorem State.presentEngine_ports (s : State) (op : ArrayOp) : (s.presentEngine op).ports = s.ports := rfl
@[simp] theorem State.presentEngine_engine (s : State) (op : ArrayOp) : (s.presentEngine op).engine = s.engine := rfl
@[simp] theorem State.presentEngine_coord (s : State) (op : ArrayOp) : (s.presentEngine op).coord = s.coord := rfl
@[simp] theorem State.presentEngine_guard (s : State) (op : ArrayOp) : (s.presentEngine op).guard = s.guard := rfl
@[simp] theorem State.presentEngine_space (s : State) (op : ArrayOp) : (s.presentEngine op).space = s.space := rfl
@[simp] theorem State.presentEngine_array (s : State) (op : ArrayOp) : (s.presentEngine op).array = { s.array with waitEngine := some op } := rfl
@[simp] theorem State.presentEngine_store (s : State) (op : ArrayOp) : (s.presentEngine op).store = s.store := rfl
@[simp] theorem State.presentEngine_pins (s : State) (op : ArrayOp) : (s.presentEngine op).pins = s.pins := rfl
@[simp] theorem State.presentEngine_pending (s : State) (op : ArrayOp) : (s.presentEngine op).pending = s.pending := rfl
@[simp] theorem State.presentEngine_port (s : State) (op : ArrayOp) (r : Port) : (s.presentEngine op).port r = s.port r := rfl

/-! ### presentSpace -/

@[simp] theorem State.presentSpace_ports (s : State) (op : ArrayOp) : (s.presentSpace op).ports = s.ports := rfl
@[simp] theorem State.presentSpace_engine (s : State) (op : ArrayOp) : (s.presentSpace op).engine = s.engine := rfl
@[simp] theorem State.presentSpace_coord (s : State) (op : ArrayOp) : (s.presentSpace op).coord = s.coord := rfl
@[simp] theorem State.presentSpace_guard (s : State) (op : ArrayOp) : (s.presentSpace op).guard = s.guard := rfl
@[simp] theorem State.presentSpace_space (s : State) (op : ArrayOp) : (s.presentSpace op).space = s.space := rfl
@[simp] theorem State.presentSpace_array (s : State) (op : ArrayOp) : (s.presentSpace op).array = { s.array with waitSpace := some op } := rfl
@[simp] theorem State.presentSpace_store (s : State) (op : ArrayOp) : (s.presentSpace op).store = s.store := rfl
@[simp] theorem State.presentSpace_pins (s : State) (op : ArrayOp) : (s.presentSpace op).pins = s.pins := rfl
@[simp] theorem State.presentSpace_pending (s : State) (op : ArrayOp) : (s.presentSpace op).pending = s.pending := rfl
@[simp] theorem State.presentSpace_port (s : State) (op : ArrayOp) (r : Port) : (s.presentSpace op).port r = s.port r := rfl

/-! ### presentStore -/

@[simp] theorem State.presentStore_ports (s : State) (op : ArrayOp) : (s.presentStore op).ports = s.ports := rfl
@[simp] theorem State.presentStore_engine (s : State) (op : ArrayOp) : (s.presentStore op).engine = s.engine := rfl
@[simp] theorem State.presentStore_coord (s : State) (op : ArrayOp) : (s.presentStore op).coord = s.coord := rfl
@[simp] theorem State.presentStore_guard (s : State) (op : ArrayOp) : (s.presentStore op).guard = s.guard := rfl
@[simp] theorem State.presentStore_space (s : State) (op : ArrayOp) : (s.presentStore op).space = s.space := rfl
@[simp] theorem State.presentStore_array (s : State) (op : ArrayOp) : (s.presentStore op).array = { s.array with waitStore := some op } := rfl
@[simp] theorem State.presentStore_store (s : State) (op : ArrayOp) : (s.presentStore op).store = s.store := rfl
@[simp] theorem State.presentStore_pins (s : State) (op : ArrayOp) : (s.presentStore op).pins = s.pins := rfl
@[simp] theorem State.presentStore_pending (s : State) (op : ArrayOp) : (s.presentStore op).pending = s.pending := rfl
@[simp] theorem State.presentStore_port (s : State) (op : ArrayOp) (r : Port) : (s.presentStore op).port r = s.port r := rfl

/-! ### withdrawSpace -/

@[simp] theorem State.withdrawSpace_ports (s : State) : (s.withdrawSpace).ports = s.ports := rfl
@[simp] theorem State.withdrawSpace_engine (s : State) : (s.withdrawSpace).engine = s.engine := rfl
@[simp] theorem State.withdrawSpace_coord (s : State) : (s.withdrawSpace).coord = s.coord := rfl
@[simp] theorem State.withdrawSpace_guard (s : State) : (s.withdrawSpace).guard = s.guard := rfl
@[simp] theorem State.withdrawSpace_space (s : State) : (s.withdrawSpace).space = s.space := rfl
@[simp] theorem State.withdrawSpace_array (s : State) : (s.withdrawSpace).array = { s.array with waitSpace := none } := rfl
@[simp] theorem State.withdrawSpace_store (s : State) : (s.withdrawSpace).store = s.store := rfl
@[simp] theorem State.withdrawSpace_pins (s : State) : (s.withdrawSpace).pins = s.pins := rfl
@[simp] theorem State.withdrawSpace_pending (s : State) : (s.withdrawSpace).pending = s.pending := rfl
@[simp] theorem State.withdrawSpace_port (s : State) (r : Port) : (s.withdrawSpace).port r = s.port r := rfl

/-! ### setStoreState -/

@[simp] theorem State.setStoreState_ports (s : State) (x : StoreState) : (s.setStoreState x).ports = s.ports := rfl
@[simp] theorem State.setStoreState_engine (s : State) (x : StoreState) : (s.setStoreState x).engine = s.engine := rfl
@[simp] theorem State.setStoreState_coord (s : State) (x : StoreState) : (s.setStoreState x).coord = s.coord := rfl
@[simp] theorem State.setStoreState_guard (s : State) (x : StoreState) : (s.setStoreState x).guard = s.guard := rfl
@[simp] theorem State.setStoreState_space (s : State) (x : StoreState) : (s.setStoreState x).space = s.space := rfl
@[simp] theorem State.setStoreState_array (s : State) (x : StoreState) : (s.setStoreState x).array = s.array := rfl
@[simp] theorem State.setStoreState_store (s : State) (x : StoreState) : (s.setStoreState x).store = { s.store with state := x } := rfl
@[simp] theorem State.setStoreState_pins (s : State) (x : StoreState) : (s.setStoreState x).pins = s.pins := rfl
@[simp] theorem State.setStoreState_pending (s : State) (x : StoreState) : (s.setStoreState x).pending = s.pending := rfl
@[simp] theorem State.setStoreState_port (s : State) (x : StoreState) (r : Port) : (s.setStoreState x).port r = s.port r := rfl

/-! ### setGeneration -/

@[simp] theorem State.setGeneration_ports (s : State) (g : Generation) : (s.setGeneration g).ports = s.ports := rfl
@[simp] theorem State.setGeneration_engine (s : State) (g : Generation) : (s.setGeneration g).engine = s.engine := rfl
@[simp] theorem State.setGeneration_coord (s : State) (g : Generation) : (s.setGeneration g).coord = s.coord := rfl
@[simp] theorem State.setGeneration_guard (s : State) (g : Generation) : (s.setGeneration g).guard = s.guard := rfl
@[simp] theorem State.setGeneration_space (s : State) (g : Generation) : (s.setGeneration g).space = s.space := rfl
@[simp] theorem State.setGeneration_array (s : State) (g : Generation) : (s.setGeneration g).array = s.array := rfl
@[simp] theorem State.setGeneration_store (s : State) (g : Generation) : (s.setGeneration g).store = { s.store with generation := g } := rfl
@[simp] theorem State.setGeneration_pins (s : State) (g : Generation) : (s.setGeneration g).pins = s.pins := rfl
@[simp] theorem State.setGeneration_pending (s : State) (g : Generation) : (s.setGeneration g).pending = s.pending := rfl
@[simp] theorem State.setGeneration_port (s : State) (g : Generation) (r : Port) : (s.setGeneration g).port r = s.port r := rfl

/-! ### setProgress -/

@[simp] theorem State.setProgress_ports (s : State) (x : Progress) : (s.setProgress x).ports = s.ports := rfl
@[simp] theorem State.setProgress_engine (s : State) (x : Progress) : (s.setProgress x).engine = s.engine := rfl
@[simp] theorem State.setProgress_coord (s : State) (x : Progress) : (s.setProgress x).coord = s.coord := rfl
@[simp] theorem State.setProgress_guard (s : State) (x : Progress) : (s.setProgress x).guard = s.guard := rfl
@[simp] theorem State.setProgress_space (s : State) (x : Progress) : (s.setProgress x).space = s.space := rfl
@[simp] theorem State.setProgress_array (s : State) (x : Progress) : (s.setProgress x).array = s.array := rfl
@[simp] theorem State.setProgress_store (s : State) (x : Progress) : (s.setProgress x).store = { s.store with progress := x } := rfl
@[simp] theorem State.setProgress_pins (s : State) (x : Progress) : (s.setProgress x).pins = s.pins := rfl
@[simp] theorem State.setProgress_pending (s : State) (x : Progress) : (s.setProgress x).pending = s.pending := rfl
@[simp] theorem State.setProgress_port (s : State) (x : Progress) (r : Port) : (s.setProgress x).port r = s.port r := rfl

/-! ### setPins -/

@[simp] theorem State.setPins_ports (s : State) (x : Pins) : (s.setPins x).ports = s.ports := rfl
@[simp] theorem State.setPins_engine (s : State) (x : Pins) : (s.setPins x).engine = s.engine := rfl
@[simp] theorem State.setPins_coord (s : State) (x : Pins) : (s.setPins x).coord = s.coord := rfl
@[simp] theorem State.setPins_guard (s : State) (x : Pins) : (s.setPins x).guard = s.guard := rfl
@[simp] theorem State.setPins_space (s : State) (x : Pins) : (s.setPins x).space = s.space := rfl
@[simp] theorem State.setPins_array (s : State) (x : Pins) : (s.setPins x).array = s.array := rfl
@[simp] theorem State.setPins_store (s : State) (x : Pins) : (s.setPins x).store = s.store := rfl
@[simp] theorem State.setPins_pins (s : State) (x : Pins) : (s.setPins x).pins = x := rfl
@[simp] theorem State.setPins_pending (s : State) (x : Pins) : (s.setPins x).pending = s.pending := rfl
@[simp] theorem State.setPins_port (s : State) (x : Pins) (r : Port) : (s.setPins x).port r = s.port r := rfl

/-! ### setPending -/

@[simp] theorem State.setPending_ports (s : State) (q : List Instr) : (s.setPending q).ports = s.ports := rfl
@[simp] theorem State.setPending_engine (s : State) (q : List Instr) : (s.setPending q).engine = s.engine := rfl
@[simp] theorem State.setPending_coord (s : State) (q : List Instr) : (s.setPending q).coord = s.coord := rfl
@[simp] theorem State.setPending_guard (s : State) (q : List Instr) : (s.setPending q).guard = s.guard := rfl
@[simp] theorem State.setPending_space (s : State) (q : List Instr) : (s.setPending q).space = s.space := rfl
@[simp] theorem State.setPending_array (s : State) (q : List Instr) : (s.setPending q).array = s.array := rfl
@[simp] theorem State.setPending_store (s : State) (q : List Instr) : (s.setPending q).store = s.store := rfl
@[simp] theorem State.setPending_pins (s : State) (q : List Instr) : (s.setPending q).pins = s.pins := rfl
@[simp] theorem State.setPending_pending (s : State) (q : List Instr) : (s.setPending q).pending = q := rfl
@[simp] theorem State.setPending_port (s : State) (q : List Instr) (r : Port) : (s.setPending q).port r = s.port r := rfl

end Sys2Proof.Machine
end

