-- ==== Sys2Proof/Laws/Tables.lean ====
section
/-! SUPPORT. The ordered tables: the directory, the claim table and the watch lists keep their key order and bounds under every operation on them, and the segment table keeps to one front. -/

namespace Sys2Proof.Machine

/-! ## The directory -/

theorem mem_putEntry {d : List Entry} {e x : Entry} (h : x ∈ putEntry d e) : x = e ∨ x ∈ d := by
  induction d with
  | nil => simpa [putEntry] using h
  | cons y d ih =>
    unfold putEntry at h
    split at h
    · rcases List.mem_cons.mp h with h | h
      · exact .inl h
      · exact .inr (List.mem_cons_of_mem _ h)
    · split at h
      · rcases List.mem_cons.mp h with h | h
        · exact .inl h
        · exact .inr h
      · rcases List.mem_cons.mp h with h | h
        · exact .inr (h ▸ List.mem_cons_self)
        · rcases ih h with h | h
          · exact .inl h
          · exact .inr (List.mem_cons_of_mem _ h)

theorem putEntry_ok {d : List Entry} (e : Entry) (h : DirOk d) : DirOk (putEntry d e) := by
  induction d with
  | nil => exact List.pairwise_singleton _ _
  | cons y d ih =>
    obtain ⟨below, rest⟩ := List.pairwise_cons.mp h
    unfold putEntry
    split
    · rename_i same
      exact List.pairwise_cons.mpr ⟨fun x hx => same ▸ below x hx, rest⟩
    · split
      · rename_i less
        refine List.pairwise_cons.mpr ⟨fun x hx => ?_, h⟩
        rcases List.mem_cons.mp hx with hx | hx
        · exact hx ▸ less
        · exact BitVec.lt_trans less (below x hx)
      · rename_i differ notLess
        refine List.pairwise_cons.mpr ⟨fun x hx => ?_, ih rest⟩
        rcases mem_putEntry hx with hx | hx
        · subst hx
          have : ¬ x.key.toNat < y.key.toNat := notLess
          have : y.key.toNat ≠ x.key.toNat := fun e => differ (BitVec.eq_of_toNat_eq e)
          exact show y.key.toNat < x.key.toNat by omega
        · exact below x hx

theorem mapEntry_ok {d : List Entry} {k : Key} {f : Entry → Entry} (key : ∀ e, (f e).key = e.key) (h : DirOk d) :
    DirOk (mapEntry d k f) := by
  refine List.pairwise_map.mpr (h.imp ?_)
  intro x y hxy
  have each : ∀ e : Entry, (if e.key = k then f e else e).key = e.key := fun e => by
    split
    · exact key e
    · rfl
  rw [each x, each y]
  exact hxy

theorem filter_ok {d : List Entry} {keep : Entry → Bool} (h : DirOk d) : DirOk (d.filter keep) := h.filter _

theorem limitDir_ok {d : List Entry} (h : DirOk d) : DirOk (limitDir d) := by
  unfold limitDir
  split
  · exact h
  · exact h.filter _

theorem putEntries_ok {α : Type} (f : α → Entry) (xs : List α) {d : List Entry} (h : DirOk d) :
    DirOk (xs.foldl (fun d x => putEntry d (f x)) d) := by
  induction xs generalizing d with
  | nil => exact h
  | cons x xs ih => exact ih (putEntry_ok _ h)

theorem buildDir_ok (cs : List (Pos × Body)) : DirOk (buildDir cs) := putEntries_ok _ _ List.Pairwise.nil

theorem eraseReport_ok {d : List Entry} (g : Seg) (keys : List Key) (h : DirOk d) : DirOk (eraseReport d g keys) := by
  unfold eraseReport
  induction keys generalizing d with
  | nil => exact h
  | cons k keys ih => exact ih (mapEntry_ok (fun _ => rfl) h)

theorem lookup_key {d : List Entry} {k : Key} {e : Entry} (h : lookup d k = some e) : e.key = k := by
  simpa using List.find?_some h

/-! ## The claim table -/

theorem mem_putClaim {cs : List Claim} {c x : Claim} (h : x ∈ putClaim cs c) : x = c ∨ x ∈ cs := by
  induction cs with
  | nil => simpa [putClaim] using h
  | cons y cs ih =>
    unfold putClaim at h
    split at h
    · rcases List.mem_cons.mp h with h | h
      · exact .inl h
      · exact .inr (List.mem_cons_of_mem _ h)
    · split at h
      · rcases List.mem_cons.mp h with h | h
        · exact .inl h
        · exact .inr h
      · rcases List.mem_cons.mp h with h | h
        · exact .inr (h ▸ List.mem_cons_self)
        · rcases ih h with h | h
          · exact .inl h
          · exact .inr (List.mem_cons_of_mem _ h)

theorem putClaim_sorted {cs : List Claim} (c : Claim) (h : cs.Pairwise (fun x y => x.key < y.key)) :
    (putClaim cs c).Pairwise (fun x y => x.key < y.key) := by
  induction cs with
  | nil => exact List.pairwise_singleton _ _
  | cons y cs ih =>
    obtain ⟨below, rest⟩ := List.pairwise_cons.mp h
    unfold putClaim
    split
    · rename_i same
      exact List.pairwise_cons.mpr ⟨fun x hx => same ▸ below x hx, rest⟩
    · split
      · rename_i less
        refine List.pairwise_cons.mpr ⟨fun x hx => ?_, h⟩
        rcases List.mem_cons.mp hx with hx | hx
        · exact hx ▸ less
        · exact BitVec.lt_trans less (below x hx)
      · rename_i differ notLess
        refine List.pairwise_cons.mpr ⟨fun x hx => ?_, ih rest⟩
        rcases mem_putClaim hx with hx | hx
        · subst hx
          have : ¬ x.key.toNat < y.key.toNat := notLess
          have : y.key.toNat ≠ x.key.toNat := fun e => differ (BitVec.eq_of_toNat_eq e)
          exact show y.key.toNat < x.key.toNat by omega
        · exact below x hx

/-- A claim put where its key has none adds one claim, its holder's. -/
theorem putClaim_new {cs : List Claim} {c : Claim} (h : cs.find? (fun x => x.key == c.key) = none) :
    (putClaim cs c).length = cs.length + 1 ∧ ∀ p, claimsOf (putClaim cs c) p = claimsOf cs p + (if c.holder = p then 1 else 0) := by
  induction cs with
  | nil => simp [putClaim, claimsOf, List.countP_cons]
  | cons y cs ih =>
    rw [List.find?_cons] at h
    split at h
    · exact absurd h (by simp)
    · rename_i differ
      have differ : y.key ≠ c.key := by simpa using differ
      have ih := ih h
      unfold putClaim
      rw [if_neg differ]
      split
      · simp [claimsOf, List.countP_cons]
      · refine ⟨by simp [ih.1], fun p => ?_⟩
        have := ih.2 p
        simp only [claimsOf, List.countP_cons] at this ⊢
        omega

/-- A claim put over a claim of the same key and holder keeps every count. -/
theorem putClaim_again {cs : List Claim} {c x : Claim} (h : cs.find? (fun y => y.key == c.key) = some x) (holder : x.holder = c.holder)
    (sorted : cs.Pairwise (fun x y => x.key < y.key)) :
    (putClaim cs c).length = cs.length ∧ ∀ p, claimsOf (putClaim cs c) p = claimsOf cs p := by
  induction cs with
  | nil => simp at h
  | cons y cs ih =>
    obtain ⟨below, rest⟩ := List.pairwise_cons.mp sorted
    rw [List.find?_cons] at h
    unfold putClaim
    split at h
    · rename_i same
      have same : y.key = c.key := by simpa using same
      have : y = x := by simpa using h
      subst this
      rw [if_pos same]
      simp [claimsOf, List.countP_cons, holder]
    · rename_i differ
      have differ : y.key ≠ c.key := by simpa using differ
      have later : ¬ c.key < y.key := fun less => by
        have hx : x ∈ cs := List.mem_of_find?_eq_some h
        have hk : x.key = c.key := by simpa using List.find?_some h
        have := below x hx
        rw [hk] at this
        exact absurd (BitVec.lt_trans less this) (BitVec.lt_irrefl _)
      have ih := ih h rest
      rw [if_neg differ, if_neg later]
      refine ⟨by simp [ih.1], fun p => ?_⟩
      have := ih.2 p
      simp only [claimsOf, List.countP_cons] at this ⊢
      omega

theorem claims_sublist_ok {cs ds : List Claim} (sub : ds.Sublist cs) (h : ClaimTableOk cs) : ClaimTableOk ds :=
  ⟨h.1.sublist sub, Nat.le_trans sub.length_le h.2.1, fun p => Nat.le_trans sub.countP_le (h.2.2 p)⟩

theorem dropClaim_ok {cs : List Claim} (k : Key) (h : ClaimTableOk cs) : ClaimTableOk (dropClaim cs k) :=
  claims_sublist_ok List.filter_sublist h

theorem claims_map_ok {cs : List Claim} {f : Claim → Claim} (key : ∀ x, (f x).key = x.key) (holder : ∀ x, (f x).holder = x.holder)
    (h : ClaimTableOk cs) : ClaimTableOk (cs.map f) := by
  refine ⟨List.pairwise_map.mpr (h.1.imp (fun {x y} hxy => by rw [key x, key y]; exact hxy)), by simpa using h.2.1, fun p => ?_⟩
  have : claimsOf (cs.map f) p = claimsOf cs p := by
    simp only [claimsOf, List.countP_map]
    congr 1
    funext x
    simp [Function.comp, holder]
  rw [this]
  exact h.2.2 p

/-! ## Watch lists -/

theorem mem_putWatch {ws : List Watch} {w x : Watch} (h : x ∈ putWatch ws w) : x = w ∨ x ∈ ws := by
  induction ws with
  | nil => simpa [putWatch] using h
  | cons y ws ih =>
    unfold putWatch at h
    split at h
    · rcases List.mem_cons.mp h with h | h
      · exact .inl h
      · exact .inr (List.mem_cons_of_mem _ h)
    · split at h
      · rcases List.mem_cons.mp h with h | h
        · exact .inl h
        · exact .inr h
      · rcases List.mem_cons.mp h with h | h
        · exact .inr (h ▸ List.mem_cons_self)
        · rcases ih h with h | h
          · exact .inl h
          · exact .inr (List.mem_cons_of_mem _ h)

theorem putWatch_sorted {ws : List Watch} (w : Watch) (h : ws.Pairwise (fun x y => x.key < y.key)) :
    (putWatch ws w).Pairwise (fun x y => x.key < y.key) := by
  induction ws with
  | nil => exact List.pairwise_singleton _ _
  | cons y ws ih =>
    obtain ⟨below, rest⟩ := List.pairwise_cons.mp h
    unfold putWatch
    split
    · rename_i same
      exact List.pairwise_cons.mpr ⟨fun x hx => same ▸ below x hx, rest⟩
    · split
      · rename_i less
        refine List.pairwise_cons.mpr ⟨fun x hx => ?_, h⟩
        rcases List.mem_cons.mp hx with hx | hx
        · exact hx ▸ less
        · exact BitVec.lt_trans less (below x hx)
      · rename_i differ notLess
        refine List.pairwise_cons.mpr ⟨fun x hx => ?_, ih rest⟩
        rcases mem_putWatch hx with hx | hx
        · subst hx
          have : ¬ x.key.toNat < y.key.toNat := notLess
          have : y.key.toNat ≠ x.key.toNat := fun e => differ (BitVec.eq_of_toNat_eq e)
          exact show y.key.toNat < x.key.toNat by omega
        · exact below x hx

theorem putWatch_length (ws : List Watch) (w : Watch) : (putWatch ws w).length ≤ ws.length + 1 := by
  induction ws with
  | nil => simp [putWatch]
  | cons y ws ih =>
    unfold putWatch
    split
    · simp
    · split
      · simp
      · simpa using ih

/-- A watch put over a watch of the same key keeps the length. -/
theorem putWatch_again {ws : List Watch} {w x : Watch} (h : ws.find? (fun y => y.key == w.key) = some x)
    (sorted : ws.Pairwise (fun x y => x.key < y.key)) : (putWatch ws w).length = ws.length := by
  induction ws with
  | nil => simp at h
  | cons y ws ih =>
    obtain ⟨below, rest⟩ := List.pairwise_cons.mp sorted
    rw [List.find?_cons] at h
    unfold putWatch
    split at h
    · rename_i same
      rw [if_pos (by simpa using same)]
      simp
    · rename_i differ
      have later : ¬ w.key < y.key := fun less => by
        have hx : x ∈ ws := List.mem_of_find?_eq_some h
        have hk : x.key = w.key := by simpa using List.find?_some h
        have := below x hx
        rw [hk] at this
        exact absurd (BitVec.lt_trans less this) (BitVec.lt_irrefl _)
      rw [if_neg (by simpa using differ), if_neg later]
      simp [ih h rest]

theorem watchOf_key {ws : List Watch} {k : Key} {w : Watch} (h : watchOf ws k = some w) : w.key = k := by
  simpa using List.find?_some h

theorem clearWatch_ok {ws : List Watch} (k : Key) (t : Triggers) (h : WatchListOk ws) : WatchListOk (clearWatch ws k t) := by
  unfold clearWatch
  split
  · rename_i w hw
    split
    · exact ⟨h.1.filter _, Nat.le_trans List.filter_sublist.length_le h.2⟩
    · refine ⟨putWatch_sorted _ h.1, ?_⟩
      rw [putWatch_again (x := w) (by simpa [watchOf, watchOf_key hw] using hw) h.1]
      exact h.2
  · exact h

/-! ## The segment table -/

theorem OneFront.set {v : Vector SegRow 256} (g : Seg) (r : SegRow) (h : OneFront v) (keeps : r.state = .front → v[g].state = .front) :
    OneFront (v.set g.val r g.isLt) := by
  intro a b ha hb
  have back : ∀ x : Seg, (v.set g.val r g.isLt)[x].state = .front → v[x].state = .front := fun x hx => by
    by_cases same : g = x
    · subst same
      exact keeps (by simpa using hx)
    · have differ : g.val ≠ x.val := fun e => same (Fin.ext e)
      simpa [Vector.getElem_set, differ] using hx
  exact h a b (back a ha) (back b hb)

/-- A segment made the front of a table that has none. -/
theorem OneFront.setFront {v : Vector SegRow 256} (g : Seg) (r : SegRow) (none : ∀ x : Seg, v[x].state ≠ .front) :
    OneFront (v.set g.val r g.isLt) := by
  have only : ∀ x : Seg, (v.set g.val r g.isLt)[x].state = .front → x = g := fun x hx => by
    by_contra differ
    have differ : g.val ≠ x.val := fun e => differ (Fin.ext e.symm)
    exact none x (by simpa [Vector.getElem_set, differ] using hx)
  intro a b ha hb
  rw [only a ha, only b hb]

theorem OneFront.ofFn {f : Fin 256 → SegRow} (g : Option Seg) (h : ∀ x, (f x).state = .front → g = some x) : OneFront (Vector.ofFn f) := by
  intro a b ha hb
  have ha := h a (by simpa using ha)
  have hb := h b (by simpa using hb)
  rw [ha] at hb
  exact Option.some.inj hb

end Sys2Proof.Machine
end

