-- ==== Sys2Proof/Laws/Quiet.lean ====
section
/-! SUPPORT. What no operation of the inner blocks does, said once: `Quiet s t` holds of a state and what an operation makes of it when the queue of commands, the input lines, the bytes of the array, every port's state, enables and latest output are kept, no flag is cleared, the session lock is not cleared, and every part that was in order still is. This file has the relation, the setters, and the shared operations of Records, Space and Settle. -/

namespace Sys2Proof.Machine

/-- What an operation of the inner blocks leaves at a Port Unit. -/
structure PortUnit.Quiet (u v : PortUnit) : Prop where
  buffer : BufferOk u.buffer → BufferOk v.buffer
  queues : u.queuesOk → v.queuesOk
  reset : u.resetOk → v.resetOk
  state : v.state = u.state
  enables : v.enables = u.enables
  dataOut : v.dataOut = u.dataOut
  flags : v.flags &&& u.flags = u.flags

/-- What an operation of the inner blocks leaves in the machine. -/
structure Quiet (s t : State) : Prop where
  pending : t.pending = s.pending
  pins : t.pins = s.pins
  ports : ∀ p, (s.port p).Quiet (t.port p)
  cells : t.array.cells = s.array.cells
  dir : DirOk s.engine.dir → DirOk t.engine.dir
  claims : ClaimTableOk s.coord.claims → ClaimTableOk t.coord.claims
  watches : ∀ p, WatchListOk (s.coord.watches.get p) → WatchListOk (t.coord.watches.get p)
  erase : s.array.eraseOk → t.array.eraseOk
  front : OneFront s.space.segs → OneFront t.space.segs
  free : FreeCellsOk s.space.frontFree → FreeCellsOk t.space.frontFree
  threshold : s.guard.settings.thresholdOk → t.guard.settings.thresholdOk
  session : s.guard.session = true → t.guard.session = true

theorem PortUnit.Quiet.refl (u : PortUnit) : u.Quiet u := ⟨id, id, id, rfl, rfl, rfl, by simp⟩

theorem PortUnit.Quiet.trans {u v w : PortUnit} (h : u.Quiet v) (k : v.Quiet w) : u.Quiet w where
  buffer := k.buffer ∘ h.buffer
  queues := k.queues ∘ h.queues
  reset := k.reset ∘ h.reset
  state := k.state.trans h.state
  enables := k.enables.trans h.enables
  dataOut := k.dataOut.trans h.dataOut
  flags := by rw [← h.flags, ← BitVec.and_assoc, k.flags]

@[simp] theorem Quiet.refl (s : State) : Quiet s s :=
  ⟨rfl, rfl, fun _ => .refl _, rfl, id, id, fun _ => id, id, id, id, id, id⟩

theorem Quiet.trans {s t u : State} (h : Quiet s t) (k : Quiet t u) : Quiet s u where
  pending := k.pending.trans h.pending
  pins := k.pins.trans h.pins
  ports p := (h.ports p).trans (k.ports p)
  cells := k.cells.trans h.cells
  dir := k.dir ∘ h.dir
  claims := k.claims ∘ h.claims
  watches p := k.watches p ∘ h.watches p
  erase := k.erase ∘ h.erase
  front := k.front ∘ h.front
  free := k.free ∘ h.free
  threshold := k.threshold ∘ h.threshold
  session := k.session ∘ h.session

/-! ## Setters -/

variable {s t : State}

theorem State.setPort_quiet {p : Port} {u : PortUnit} (h : Quiet s t) (hu : (t.port p).Quiet u) : Quiet s (t.setPort p u) :=
  h.trans
    { Quiet.refl t with
      ports := fun r => by
        by_cases same : r = p
        · subst same
          simpa using hu
        · rw [State.setPort_port_other _ _ same]
          exact .refl _ }

@[simp] theorem State.setWork_quiet {w : Work} (h : Quiet s t) : Quiet s (t.setWork w) :=
  h.trans ⟨rfl, rfl, fun _ => .refl _, rfl, id, id, fun _ => id, id, id, id, id, id⟩

@[simp] theorem State.setPointer_quiet {p : Port} (h : Quiet s t) : Quiet s (t.setPointer p) :=
  h.trans ⟨rfl, rfl, fun _ => .refl _, rfl, id, id, fun _ => id, id, id, id, id, id⟩

@[simp] theorem State.setMove_quiet {m : Option Move} (h : Quiet s t) : Quiet s (t.setMove m) :=
  h.trans ⟨rfl, rfl, fun _ => .refl _, rfl, id, id, fun _ => id, id, id, id, id, id⟩

@[simp] theorem State.setSeq_quiet {n : SeqNo} (h : Quiet s t) : Quiet s (t.setSeq n) :=
  h.trans ⟨rfl, rfl, fun _ => .refl _, rfl, id, id, fun _ => id, id, id, id, id, id⟩

theorem State.setDir_quiet {d : List Entry} (h : Quiet s t) (hd : DirOk t.engine.dir → DirOk d) : Quiet s (t.setDir d) :=
  h.trans ⟨rfl, rfl, fun _ => .refl _, rfl, hd, id, fun _ => id, id, id, id, id, id⟩

theorem State.setClaims_quiet {cs : List Claim} (h : Quiet s t) (hc : ClaimTableOk t.coord.claims → ClaimTableOk cs) :
    Quiet s (t.setClaims cs) :=
  h.trans ⟨rfl, rfl, fun _ => .refl _, rfl, id, hc, fun _ => id, id, id, id, id, id⟩

theorem State.setWatches_quiet {p : Port} {ws : List Watch} (h : Quiet s t)
    (hw : WatchListOk (t.coord.watches.get p) → WatchListOk ws) : Quiet s (t.setWatches p ws) :=
  h.trans
    { Quiet.refl t with
      watches := fun r ok => by
        by_cases same : r = p
        · subst same
          simpa using hw ok
        · simpa [same] using ok }

theorem State.setGuard_quiet {g : GuardUnit} (h : Quiet s t) (ht : t.guard.settings.thresholdOk → g.settings.thresholdOk)
    (hs : t.guard.session = true → g.session = true) : Quiet s (t.setGuard g) :=
  h.trans ⟨rfl, rfl, fun _ => .refl _, rfl, id, id, fun _ => id, id, id, id, ht, hs⟩

theorem State.setSegs_quiet {v : Vector SegRow 256} (h : Quiet s t) (hv : OneFront t.space.segs → OneFront v) : Quiet s (t.setSegs v) :=
  h.trans ⟨rfl, rfl, fun _ => .refl _, rfl, id, id, fun _ => id, id, hv, id, id, id⟩

theorem State.setSeg_quiet {g : Seg} {r : SegRow} (h : Quiet s t) (keeps : r.state = .front → (t.seg g).state = .front) :
    Quiet s (t.setSeg g r) :=
  State.setSegs_quiet h (fun ok => ok.set g r keeps)

theorem State.setFrontFree_quiet {l : List CellNo} (h : Quiet s t) (hl : FreeCellsOk t.space.frontFree → FreeCellsOk l) :
    Quiet s (t.setFrontFree l) :=
  h.trans ⟨rfl, rfl, fun _ => .refl _, rfl, id, id, fun _ => id, id, id, hl, id, id⟩

@[simp] theorem State.setPass_quiet {q : Option Pass} (h : Quiet s t) : Quiet s (t.setPass q) :=
  h.trans ⟨rfl, rfl, fun _ => .refl _, rfl, id, id, fun _ => id, id, id, id, id, id⟩

@[simp] theorem State.setHeld_quiet {b : Bool} (h : Quiet s t) : Quiet s (t.setHeld b) :=
  h.trans ⟨rfl, rfl, fun _ => .refl _, rfl, id, id, fun _ => id, id, id, id, id, id⟩

theorem State.setInFlight_quiet {f : Option InFlight} (h : Quiet s t)
    (hf : f = none ∨ t.array.inFlight.isSome = true ∨ ∀ e, t.array.erase = some e → e.moving = false) : Quiet s (t.setInFlight f) :=
  h.trans
    { Quiet.refl t with
      erase := fun ok e he => by
        refine ⟨(ok e he).1, fun moving => ?_⟩
        rcases hf with hf | hf | hf
        · exact hf
        · have := (ok e he).2 moving
          simp [this] at hf
        · have := hf e he
          rw [moving] at this
          exact absurd this (by simp) }

theorem State.setErase_quiet {x : Option EraseCtx} (h : Quiet s t)
    (hx : t.array.eraseOk → ∀ e, x = some e → e.suspendCount ≤ Config.suspensions ∧ (e.moving = true → t.array.inFlight = none)) :
    Quiet s (t.setErase x) :=
  h.trans ⟨rfl, rfl, fun _ => .refl _, rfl, id, id, fun _ => id, hx, id, id, id, id⟩

@[simp] theorem State.presentEngine_quiet {op : ArrayOp} (h : Quiet s t) : Quiet s (t.presentEngine op) :=
  h.trans ⟨rfl, rfl, fun _ => .refl _, rfl, id, id, fun _ => id, id, id, id, id, id⟩

@[simp] theorem State.presentSpace_quiet {op : ArrayOp} (h : Quiet s t) : Quiet s (t.presentSpace op) :=
  h.trans ⟨rfl, rfl, fun _ => .refl _, rfl, id, id, fun _ => id, id, id, id, id, id⟩

@[simp] theorem State.presentStore_quiet {op : ArrayOp} (h : Quiet s t) : Quiet s (t.presentStore op) :=
  h.trans ⟨rfl, rfl, fun _ => .refl _, rfl, id, id, fun _ => id, id, id, id, id, id⟩

@[simp] theorem State.withdrawSpace_quiet (h : Quiet s t) : Quiet s t.withdrawSpace :=
  h.trans ⟨rfl, rfl, fun _ => .refl _, rfl, id, id, fun _ => id, id, id, id, id, id⟩

@[simp] theorem State.setStoreState_quiet {x : StoreState} (h : Quiet s t) : Quiet s (t.setStoreState x) :=
  h.trans ⟨rfl, rfl, fun _ => .refl _, rfl, id, id, fun _ => id, id, id, id, id, id⟩

@[simp] theorem State.setGeneration_quiet {g : Generation} (h : Quiet s t) : Quiet s (t.setGeneration g) :=
  h.trans ⟨rfl, rfl, fun _ => .refl _, rfl, id, id, fun _ => id, id, id, id, id, id⟩

@[simp] theorem State.setProgress_quiet {x : Progress} (h : Quiet s t) : Quiet s (t.setProgress x) :=
  h.trans ⟨rfl, rfl, fun _ => .refl _, rfl, id, id, fun _ => id, id, id, id, id, id⟩

@[simp] theorem State.bumpSeq_quiet (h : Quiet s t) : Quiet s t.bumpSeq := State.setSeq_quiet h

theorem State.setSegState_quiet {g : Seg} {st : SegState} (h : Quiet s t) (other : st ≠ .front) : Quiet s (t.setSegState g st) :=
  State.setSeg_quiet h (fun e => absurd e other)

@[simp] theorem State.countDead_quiet {pos : Pos} (h : Quiet s t) : Quiet s (t.countDead pos) := by
  refine State.setSeg_quiet h ?_
  unfold SegRow.die
  split
  · split <;> exact id
  · exact id

/-- A run of operations over a list is quiet when each of them is. -/
theorem foldl_quiet {α : Type} {f : State → α → State} (step : ∀ t x, Quiet t (f t x)) (xs : List α) (h : Quiet s t) :
    Quiet s (xs.foldl f t) := by
  induction xs generalizing t with
  | nil => exact h
  | cons x xs ih => exact ih (h.trans (step t x))

/-! ## Ports -/

theorem BitVec.or_and_self' {w : Nat} (x y : BitVec w) : (x ||| y) &&& x = x := by
  ext i
  simp
  cases x[i] <;> simp

@[simp] theorem State.setFlag_quiet {p : Port} {f : Flags} (h : Quiet s t) : Quiet s (t.setFlag p f) :=
  State.setPort_quiet h ⟨id, id, id, rfl, rfl, rfl, BitVec.or_and_self' _ _⟩

theorem mergeInto_length {es : List Event} {e : Event} {es' : List Event} (h : mergeInto es e = some es') : es'.length = es.length := by
  induction es generalizing es' with
  | nil => simp [mergeInto] at h
  | cons x es ih =>
    unfold mergeInto at h
    split at h
    · obtain rfl := Option.some.inj h
      rfl
    · obtain ⟨rest, hr, rfl⟩ := Option.map_eq_some_iff.mp h
      simp [ih hr]

/-- A merged event merges with what the held one merged with. -/
theorem Event.merge_like {h e m : Event} (hm : h.merge e = some m) (x : Event) :
    (x.merge h = none → x.merge m = none) ∧ (h.merge x = none → m.merge x = none) := by
  have key : ∀ {k k' : Key} {y z : Event}, (if k = k' then some y else none) = some z → k = k' ∧ y = z := fun {k k' y z} hk => by
    split at hk
    · rename_i same
      exact ⟨same, Option.some.inj hk⟩
    · exact absurd hk (by simp)
  cases h <;> cases e <;> simp only [Event.merge] at hm
  all_goals first
    | (cases hm; done)
    | (obtain ⟨-, rfl⟩ := key hm; cases x <;> simp [Event.merge])
    | (obtain rfl := Option.some.inj hm; cases x <;> simp [Event.merge])

theorem mergeInto_none {es : List Event} {e : Event} (h : mergeInto es e = none) : ∀ x ∈ es, x.merge e = none := by
  induction es with
  | nil => simp
  | cons y es ih =>
    unfold mergeInto at h
    split at h
    · exact absurd h (by simp)
    · rename_i hy
      have := ih (by simpa using h)
      simpa [hy] using this

theorem mergeInto_apart {es es' : List Event} {e : Event} (h : mergeInto es e = some es') {y : Event}
    (apart : ∀ x ∈ es, y.merge x = none) : ∀ x ∈ es', y.merge x = none := by
  induction es generalizing es' with
  | nil => simp [mergeInto] at h
  | cons z es ih =>
    unfold mergeInto at h
    split at h
    · rename_i m hm
      obtain rfl := Option.some.inj h
      intro x hx
      rcases List.mem_cons.mp hx with rfl | hx
      · exact (Event.merge_like hm y).1 (apart z List.mem_cons_self)
      · exact apart x (List.mem_cons_of_mem _ hx)
    · obtain ⟨rest, hr, rfl⟩ := Option.map_eq_some_iff.mp h
      intro x hx
      rcases List.mem_cons.mp hx with rfl | hx
      · exact apart x List.mem_cons_self
      · exact ih hr (fun w hw => apart w (List.mem_cons_of_mem _ hw)) x hx

theorem mergeInto_pairwise {es es' : List Event} {e : Event} (h : mergeInto es e = some es')
    (ok : es.Pairwise (fun x y => x.merge y = none)) : es'.Pairwise (fun x y => x.merge y = none) := by
  induction es generalizing es' with
  | nil => simp [mergeInto] at h
  | cons y es ih =>
    obtain ⟨apart, rest⟩ := List.pairwise_cons.mp ok
    unfold mergeInto at h
    split at h
    · rename_i m hm
      obtain rfl := Option.some.inj h
      exact List.pairwise_cons.mpr ⟨fun x hx => (Event.merge_like hm x).2 (apart x hx), rest⟩
    · obtain ⟨tail, hr, rfl⟩ := Option.map_eq_some_iff.mp h
      exact List.pairwise_cons.mpr ⟨mergeInto_apart hr apart, ih hr rest⟩

theorem Frame.noteMerge_resetting (f : Frame) : f.noteMerge.resetting = f.resetting := by
  unfold Frame.noteMerge
  split <;> rfl

theorem PortUnit.offer_quiet (u : PortUnit) (e : Event) : u.Quiet (u.offer e) := by
  unfold PortUnit.offer
  split
  · exact .refl u
  · split
    · rename_i es hm
      refine ⟨id, fun ok => ⟨ok.1, by simpa [mergeInto_length hm] using ok.2.1, mergeInto_pairwise hm ok.2.2⟩, fun ok => ⟨ok.1, fun f hf notReset => ?_⟩, rfl, rfl, rfl, by simp⟩
      dsimp only at hf
      split at hf
      · obtain ⟨g, hg, rfl⟩ := Option.map_eq_some_iff.mp hf
        exact ok.2 g hg (g.noteMerge_resetting ▸ notReset)
      · exact ok.2 f hf notReset
    · rename_i hn
      split
      · rename_i room
        refine ⟨id, fun ok => ⟨ok.1, by simpa using room, List.pairwise_append.mpr ⟨ok.2.2, List.pairwise_singleton _ _, ?_⟩⟩, id, rfl, rfl, rfl, by simp⟩
        intro x hx y hy
        rw [List.mem_singleton.mp hy]
        exact mergeInto_none hn x hx
      · exact ⟨id, id, id, rfl, rfl, rfl, BitVec.or_and_self' _ _⟩

@[simp] theorem State.offer_quiet {p : Port} {e : Event} (h : Quiet s t) : Quiet s (t.offer p e) :=
  State.setPort_quiet h (PortUnit.offer_quiet _ _)

@[simp] theorem State.offerAll_quiet {e : Event} (h : Quiet s t) : Quiet s (t.offerAll e) :=
  foldl_quiet (fun _ _ => State.offer_quiet (.refl _)) _ h

@[simp] theorem State.enterStore_quiet {x : StoreState} (h : Quiet s t) : Quiet s (t.enterStore x) :=
  State.offerAll_quiet (State.setStoreState_quiet h)

/-- A slot given up keeps a port in order. -/
theorem PortUnit.resetOk.noSlot {u v : PortUnit} (ok : u.resetOk) (state : v.state = u.state) (commands : v.commands = u.commands)
    (slot : v.slot = .none) (frame : v.frame = u.frame) : v.resetOk :=
  ⟨fun h => ⟨commands ▸ (ok.1 (state ▸ h)).1, by rw [slot]; rfl⟩, fun f hf hn => state ▸ ok.2 f (frame ▸ hf) hn⟩

theorem PortUnit.deposit_quiet (u : PortUnit) (r : Result) : u.Quiet (u.deposit r) := by
  unfold PortUnit.deposit
  split <;> exact ⟨id, id, fun ok => ok.noSlot rfl rfl rfl rfl, rfl, rfl, rfl, by simp⟩

@[simp] theorem State.endCommand_quiet {p : Port} {r : Result} (h : Quiet s t) : Quiet s (t.endCommand p r) :=
  State.setWork_quiet (State.setPort_quiet h (PortUnit.deposit_quiet _ _))

@[simp] theorem State.endGuarded_quiet {p : Port} {r : Result} (h : Quiet s t) : Quiet s (t.endGuarded p r) :=
  State.endCommand_quiet (State.setFlag_quiet h)

@[simp] theorem State.storeBuffer_quiet {p : Port} {off : Nat} {bs : List Byte} (h : Quiet s t) : Quiet s (t.storeBuffer p off bs) :=
  State.setPort_quiet h ⟨bufferStore_wf, id, id, rfl, rfl, rfl, by simp⟩

@[simp] theorem State.dropSlot_quiet {p : Port} (h : Quiet s t) : Quiet s (t.dropSlot p) :=
  State.setPort_quiet h ⟨id, id, fun ok => ok.noSlot rfl rfl rfl rfl, rfl, rfl, rfl, by simp⟩

/-! ## Space -/

@[simp] theorem State.closeFront_quiet (h : Quiet s t) : Quiet s t.closeFront := by
  unfold State.closeFront
  split
  · exact State.setSegState_quiet h (by decide)
  · exact h

theorem State.seg_setSeg (t : State) (g x : Seg) (r : SegRow) : (t.setSeg g r).seg x = if g = x then r else t.seg x := by
  by_cases same : g = x
  · subst same
    simp [State.seg, State.setSeg]
  · have differ : g.val ≠ x.val := fun e => same (Fin.ext e)
    simp [State.seg, State.setSeg, same, differ]

theorem State.front_eq_none {t : State} (h : t.front = none) (x : Seg) : (t.seg x).state ≠ .front := by
  have := List.find?_eq_none.mp h x (by simp [allSegs, List.mem_finRange])
  simpa using this

theorem State.front_eq_some {t : State} {g : Seg} (h : t.front = some g) : (t.seg g).state = .front := by
  simpa using List.find?_some h

/-- Once the front is closed there is none. -/
theorem State.closeFront_none (ok : OneFront t.space.segs) (x : Seg) : (t.closeFront.seg x).state ≠ .front := by
  unfold State.closeFront
  split
  · rename_i f hf
    unfold State.setSegState
    rw [State.seg_setSeg]
    split
    · simp
    · rename_i differ
      intro hx
      exact differ (ok f x (State.front_eq_some hf) hx)
  · rename_i hn
    exact State.front_eq_none hn x

/-- The 31 data cells of a segment are ascending, and cell 0 is not among them. -/
theorem dataCells_ok : FreeCellsOk dataCells := by
  unfold FreeCellsOk
  decide

@[simp] theorem State.openFront_quiet {g : Seg} (h : Quiet s t) : Quiet s (t.openFront g) := by
  have q := State.closeFront_quiet (.refl t)
  exact State.setFrontFree_quiet (h.trans
    ⟨q.pending, q.pins, q.ports, q.cells, q.dir, q.claims, q.watches, q.erase,
      fun ok => OneFront.setFront g _ (State.closeFront_none ok), q.free, q.threshold, q.session⟩) (fun _ => dataCells_ok)

theorem SegRow.grant_state (r : SegRow) : r.grant.state = r.state := by
  unfold SegRow.grant
  split <;> rfl

/-- A cell granted from the front: quiet, and the state is the table's and the free list's only. -/
theorem State.takeFront_quiet {pos : Pos} {u : State} (h : Quiet s t) (take : t.takeFront = some (pos, u)) : Quiet s u := by
  unfold State.takeFront at take
  split at take
  · obtain ⟨-, rfl⟩ := Prod.mk.inj (Option.some.inj take)
    rename_i cell rest _ free
    refine State.setFrontFree_quiet (State.setSeg_quiet h (fun e => by rwa [SegRow.grant_state] at e)) (fun ok => ?_)
    have ok : FreeCellsOk (cell :: rest) := free ▸ ok
    exact ⟨ok.1.tail, fun c hc => ok.2 c (List.mem_cons_of_mem _ hc)⟩
  · exact absurd take (by simp)

theorem State.takeNewFront_quiet {pos : Pos} {u : State} (h : Quiet s t) (take : t.takeNewFront = some (pos, u)) : Quiet s u := by
  unfold State.takeNewFront at take
  split at take
  · exact State.takeFront_quiet (State.openFront_quiet h) take
  · exact absurd take (by simp)

theorem State.copyGrant_quiet {pos : Pos} {u : State} (h : Quiet s t) (take : t.copyGrant = some (pos, u)) : Quiet s u := by
  unfold State.copyGrant at take
  split at take
  · rename_i x hx
    obtain rfl := Option.some.inj take
    exact State.takeFront_quiet h hx
  · exact State.takeNewFront_quiet h take

@[simp] theorem State.endReadOnly_quiet {p : Port} {c : Cmd} {u : Update} (h : Quiet s t) : Quiet s (t.endReadOnly p c u) :=
  State.endCommand_quiet h

@[simp] theorem State.refuseHeld_quiet (h : Quiet s t) : Quiet s t.refuseHeld := by
  unfold State.refuseHeld
  repeat' split
  all_goals simp [h]

@[simp] theorem State.degrade_quiet (h : Quiet s t) : Quiet s t.degrade := by
  unfold State.degrade
  split
  · exact State.refuseHeld_quiet (State.enterStore_quiet h)
  · exact h

@[simp] theorem State.startPass_quiet {v : Seg} (h : Quiet s t) : Quiet s (t.startPass v) :=
  State.presentSpace_quiet (State.setPass_quiet (State.setSegState_quiet h (by decide)))

@[simp] theorem State.trigger_quiet (h : Quiet s t) : Quiet s t.trigger := by
  unfold State.trigger
  repeat' split
  all_goals simp [h]

@[simp] theorem State.reportDead_quiet {pos : Pos} (h : Quiet s t) : Quiet s (t.reportDead pos) :=
  State.trigger_quiet (State.countDead_quiet h)

@[simp] theorem State.reportSuperseded_quiet {pos : Pos} {k : Key} {done : Bool} (h : Quiet s t) :
    Quiet s (t.reportSuperseded pos k done) :=
  State.trigger_quiet (State.setPass_quiet (State.countDead_quiet h))

/-! ## Settling -/

/-- A grant is quiet when no erase moves. -/
theorem State.grantOp_quiet {r : Requester} {op : ArrayOp} (h : Quiet s t) (still : ∀ e, t.array.erase = some e → e.moving = false) :
    Quiet s (t.grantOp r op) :=
  State.setInFlight_quiet h (.inr (.inr still))

theorem State.grantEngine_quiet {op : ArrayOp} (h : Quiet s t) (still : ∀ e, t.array.erase = some e → e.moving = false) :
    Quiet s (t.grantEngine op) :=
  State.grantOp_quiet (h.trans ⟨rfl, rfl, fun _ => .refl _, rfl, id, id, fun _ => id, id, id, id, id, id⟩) still

theorem State.grantStore_quiet {op : ArrayOp} (h : Quiet s t) (still : ∀ e, t.array.erase = some e → e.moving = false) :
    Quiet s (t.grantStore op) :=
  State.grantOp_quiet (h.trans ⟨rfl, rfl, fun _ => .refl _, rfl, id, id, fun _ => id, id, id, id, id, id⟩) still

theorem State.grantSpace_quiet {op : ArrayOp} (h : Quiet s t) (free : t.array.inFlight = none) (still : t.array.erase = none) :
    Quiet s (t.grantSpace op) := by
  have erases : ∀ e, t.withdrawSpace.array.erase = some e → e.moving = false := fun e he => by
    have he : t.array.erase = some e := he
    rw [still] at he
    exact absurd he (by simp)
  unfold State.grantSpace
  split
  · refine State.setErase_quiet (State.withdrawSpace_quiet h) (fun _ e he => ?_)
    obtain rfl := Option.some.inj he
    exact ⟨Nat.zero_le _, fun _ => free⟩
  · exact State.grantOp_quiet (State.withdrawSpace_quiet h) erases

theorem State.arbitrateFree_quiet (h : Quiet s t) (free : t.array.inFlight = none) (still : t.array.erase = none) :
    Quiet s t.arbitrateFree := by
  have erases : ∀ e, t.array.erase = some e → e.moving = false := fun e he => by
    rw [still] at he
    exact absurd he (by simp)
  unfold State.arbitrateFree
  split
  · exact State.grantStore_quiet h erases
  · exact State.grantEngine_quiet h erases
  · split
    · exact State.grantSpace_quiet h free still
    · exact State.grantEngine_quiet h erases
  · exact State.grantSpace_quiet h free still
  · exact h

@[simp] theorem State.arbitrate_quiet (h : Quiet s t) : Quiet s t.arbitrate := by
  unfold State.arbitrate
  split
  · exact h
  · rename_i free still
    exact State.arbitrateFree_quiet h free still
  · rename_i e free erase
    split
    · rename_i stopped
      unfold State.arbitrateSuspended
      split
      · refine State.grantEngine_quiet h (fun x hx => ?_)
        rw [erase] at hx
        obtain rfl := Option.some.inj hx
        simp [EraseCtx.moving, stopped]
      · refine State.setErase_quiet h (fun ok x hx => ?_)
        obtain rfl := Option.some.inj hx
        exact ⟨(ok e erase).1, fun _ => free⟩
    · exact h
    · exact h

/-- A port that is taken is ACTIVE. -/
theorem State.takePort_quiet {p : Port} (h : Quiet s t) (active : (t.port p).state = .active) : Quiet s (t.takePort p) := by
  have notResetting : ∀ {x : Prop}, (t.port p).state = .resetting → x := fun e => by rw [active] at e; exact absurd e (by decide)
  unfold State.takePort
  dsimp only
  split
  · refine State.setPointer_quiet (State.setWork_quiet (State.setPort_quiet h ⟨id, id, fun ok => ⟨notResetting, ok.2⟩, rfl, rfl, rfl, by simp⟩))
  · rename_i rest _ hc
    refine State.setPointer_quiet (State.setWork_quiet (State.setPort_quiet h
      ⟨id, fun ok => ⟨?_, ok.2⟩, fun ok => ⟨notResetting, ok.2⟩, rfl, rfl, rfl, by simp⟩))
    have := ok.1
    rw [hc] at this
    simp only [List.length_cons] at this ⊢
    omega
  · exact h

@[simp] theorem State.select_quiet (h : Quiet s t) : Quiet s t.select := by
  unfold State.select
  split
  · split
    · rename_i p hp
      refine State.takePort_quiet h ?_
      have := List.find?_some hp
      simp only [State.eligible, Bool.and_eq_true, beq_iff_eq] at this
      exact this.1.1
    · exact h
  · exact h

@[simp] theorem State.settle_quiet (h : Quiet s t) : Quiet s t.settle := by
  unfold State.settle
  split
  · exact h
  · exact State.select_quiet (State.arbitrate_quiet h)

/-- The execution of a taken command: it answers a next state exactly when the Engine has taken a command of that code. -/
theorem State.perform_eq_next {code : Byte} {f : Port → Cmd → State} {u : State} :
    s.perform code f = .next u ↔ ∃ p c, s.takenCmd code = some (p, c) ∧ u = (f p c).settle := by
  unfold State.perform
  split
  · rename_i p c h
    constructor
    · intro e
      exact ⟨p, c, h, (Host.Outcome.next.inj e).symm⟩
    · rintro ⟨p', c', h', rfl⟩
      rw [h] at h'
      obtain ⟨rfl, rfl⟩ := Prod.mk.inj (Option.some.inj h')
      rfl
  · rename_i h
    simp [h]

/-- A row that is due answers a next state; one that is not is refused. -/
theorem State.whenDue_eq_next {due : Bool} {t u : State} : State.whenDue due t = .next u ↔ due = true ∧ u = t.settle := by
  unfold State.whenDue
  cases due
  · simp
  · simp [eq_comm]

end Sys2Proof.Machine
end

