-- ==== Sys2Proof/Laws/QuietEngine.lean ====
section
/-! SUPPORT. The quiet operations of the Engine, the Coordination Unit and the Guard Unit: updates, record commands, scans, claims, watches and guards. -/

namespace Sys2Proof.Machine

variable {s t : State} {p : Port} {c : Cmd} {u : Update} {pos : Pos}

/-! ## Updates -/

@[simp] theorem State.grantGiven_quiet (h : Quiet s t) : Quiet s (t.grantGiven p c u pos) :=
  State.presentEngine_quiet (State.bumpSeq_quiet (State.setWork_quiet h))

@[simp] theorem State.requestGrant_quiet (h : Quiet s t) : Quiet s (t.requestGrant p c u) := by
  unfold State.requestGrant
  dsimp only
  have w : ∀ x, Quiet s (t.setWork x) := fun _ => State.setWork_quiet h
  split
  · exact State.endReadOnly_quiet (w _)
  · split
    · rename_i take
      exact State.grantGiven_quiet (State.takeFront_quiet (w _) take)
    · split
      · split
        · rename_i take
          exact State.trigger_quiet (State.grantGiven_quiet (State.takeNewFront_quiet (w _) take))
        · exact State.setHeld_quiet (w _)
      · exact State.setHeld_quiet (w _)

@[simp] theorem State.answerHeld_quiet (h : Quiet s t) : Quiet s t.answerHeld := by
  unfold State.answerHeld
  split
  · dsimp only
    split
    · rename_i take
      exact State.trigger_quiet (State.grantGiven_quiet (State.copyGrant_quiet (State.setHeld_quiet h) take))
    · exact State.setHeld_quiet h
  · exact State.trigger_quiet (State.setHeld_quiet h)

@[simp] theorem State.attemptFailed_quiet (h : Quiet s t) : Quiet s (t.attemptFailed p c u pos) := by
  unfold State.attemptFailed State.endProgramFail
  dsimp only
  split <;> simp [h]

@[simp] theorem State.updateBody_quiet {ok : Bool} (h : Quiet s t) : Quiet s (t.updateBody p c u pos ok) := by
  unfold State.updateBody
  split <;> simp [h]

@[simp] theorem State.offerWatch_quiet {k : Key} {x : Triggers} {v : Version} {a : Author} (h : Quiet s t) :
    Quiet s (t.offerWatch k x v a p) := by
  unfold State.offerWatch
  repeat' split
  all_goals simp [h]

@[simp] theorem State.reportCommit_quiet {k : Key} {x y : KeyState} {v : Version} {a : Author} (h : Quiet s t) :
    Quiet s (t.reportCommit k x y v a) :=
  foldl_quiet (fun _ _ => State.offerWatch_quiet (.refl _)) _ h

@[simp] theorem State.commitBody_quiet {b : Body} (h : Quiet s t) : Quiet s (t.commitBody b pos) :=
  State.reportCommit_quiet (State.setDir_quiet h (putEntry_ok _))

theorem parseSettings_threshold {bs : List Byte} {x : Settings} (h : parseSettings bs = some x) : x.thresholdOk := by
  unfold parseSettings at h
  split at h
  · split at h
    · split at h
      · rename_i range
        obtain rfl := Option.some.inj h
        exact range
      · exact absurd h (by simp)
    · exact absurd h (by simp)
  · exact absurd h (by simp)

theorem GuardUnit.adopt_threshold {g : GuardUnit} {bs : List Byte} {x : Standing} (ok : g.settings.thresholdOk) :
    (g.adopt bs x).settings.thresholdOk := by
  unfold GuardUnit.adopt
  split
  · rename_i hp
    exact parseSettings_threshold hp
  · exact ok

theorem GuardUnit.adopt_session (g : GuardUnit) (bs : List Byte) (x : Standing) : (g.adopt bs x).session = g.session := by
  unfold GuardUnit.adopt
  split <;> rfl

@[simp] theorem State.setAdopted_quiet {bs : List Byte} {x : Standing} (h : Quiet s t) : Quiet s (t.setGuard (t.guard.adopt bs x)) :=
  State.setGuard_quiet h GuardUnit.adopt_threshold (fun e => by rwa [GuardUnit.adopt_session])

@[simp] theorem State.adoptGuardSet_quiet (h : Quiet s t) : Quiet s (t.adoptGuardSet p c u) := by
  unfold State.adoptGuardSet
  extract_lets old adopted new changed
  have q : Quiet s (t.setGuard new) :=
    State.setGuard_quiet h (fun ok => GuardUnit.adopt_threshold (g := t.guard) ok) (fun e => by simp [new, adopted, old, GuardUnit.adopt_session, e])
  split
  · exact foldl_quiet (fun _ _ => State.offer_quiet (.refl _)) _ q
  · exact q

@[simp] theorem State.finishUpdate_quiet (h : Quiet s t) : Quiet s (t.finishUpdate p c u) := State.endCommand_quiet h

@[simp] theorem State.retryStep_quiet (h : Quiet s t) : Quiet s (t.retryStep p c u) := by
  unfold State.retryStep
  repeat' split
  all_goals simp [h]

@[simp] theorem State.updateCommitted_quiet (h : Quiet s t) : Quiet s (t.updateCommitted p c u pos) := by
  unfold State.updateCommitted
  extract_lets previous s₁ s₂
  have q : Quiet s s₂ := by
    simp only [s₂, s₁]
    split <;> simp [h]
  cases previous <;> simp [q]

@[simp] theorem State.updateCommitMark_quiet {ok : Bool} (h : Quiet s t) : Quiet s (t.updateCommitMark p c u pos ok) := by
  unfold State.updateCommitMark
  split <;> simp [h]

@[simp] theorem State.updateSuperseded_quiet {ok : Bool} (h : Quiet s t) : Quiet s (t.updateSuperseded p c u pos ok) := by
  unfold State.updateSuperseded
  extract_lets s₁ s₂
  have q : Quiet s s₁ := by
    simp only [s₁]
    split
    · exact h
    · exact State.setDir_quiet h (mapEntry_ok (fun _ => rfl))
  exact State.retryStep_quiet (State.reportSuperseded_quiet (State.setMove_quiet q))

theorem Entry.retried_key (e : Entry) (pos : Pos) : (e.retried pos).key = e.key := by
  unfold Entry.retried
  split <;> rfl

@[simp] theorem State.updateRetried_quiet {ok : Bool} (h : Quiet s t) : Quiet s (t.updateRetried p c u pos ok) := by
  unfold State.updateRetried
  extract_lets s₁
  have q : Quiet s s₁ := by
    simp only [s₁]
    split
    · exact State.setMove_quiet (State.setDir_quiet h (mapEntry_ok (fun e => e.retried_key pos)))
    · exact h
  simp [q]

@[simp] theorem State.updateMark_quiet {ok : Bool} (h : Quiet s t) : Quiet s (t.updateMark p c u pos ok) := by
  unfold State.updateMark
  split <;> simp [h]

/-! ## Record commands -/

@[simp] theorem State.beginUpdate_quiet (h : Quiet s t) : Quiet s (t.beginUpdate p c) := by
  unfold State.beginUpdate
  dsimp only
  repeat' split
  all_goals simp [h]

@[simp] theorem State.admitUpdate_quiet (h : Quiet s t) : Quiet s (t.admitUpdate p c) := by
  unfold State.admitUpdate
  repeat' split
  all_goals simp [h]

@[simp] theorem State.checked_quiet {fail : Option Reason} {k : Key} {go : State} (h : Quiet s t) (hg : Quiet s go) :
    Quiet s (t.checked p c fail k go) := by
  unfold State.checked
  split <;> simp [h, hg]

@[simp] theorem State.doWrite_quiet (h : Quiet s t) : Quiet s (t.doWrite p c) := by simp [State.doWrite, h]

@[simp] theorem State.doPatch_quiet (h : Quiet s t) : Quiet s (t.doPatch p c) := by simp [State.doPatch, h]

@[simp] theorem State.doRemove_quiet (h : Quiet s t) : Quiet s (t.doRemove p c) := by simp [State.doRemove, h]

@[simp] theorem State.patchOldRead_quiet {r : CellRead} (h : Quiet s t) : Quiet s (t.patchOldRead p c u r) := by
  unfold State.patchOldRead
  split <;> simp [h]

@[simp] theorem State.readDone_quiet {v : Version} {n : Nat} {r : CellRead} (h : Quiet s t) : Quiet s (t.readDone p c v n r) := by
  unfold State.readDone
  split <;> simp [h]

@[simp] theorem State.admitRead_quiet (h : Quiet s t) : Quiet s (t.admitRead p c) := by
  unfold State.admitRead
  repeat' split
  all_goals simp [h]

@[simp] theorem State.doRead_quiet (h : Quiet s t) : Quiet s (t.doRead p c) := by simp [State.doRead, h]

@[simp] theorem State.doStat_quiet (h : Quiet s t) : Quiet s (t.doStat p c) := by
  unfold State.doStat
  refine State.checked_quiet h ?_
  split <;> simp [h]

@[simp] theorem State.doBadCommand_quiet (h : Quiet s t) : Quiet s (t.doBadCommand p c) := State.endCommand_quiet h

/-! ## Scans -/

/-- What a scan does next, when it parks, was asked of a port that is not RESETTING. -/
theorem ScanCtx.afterExam_park {k k' : ScanCtx} {resetting others : Bool} (h : k.afterExam resetting others = some (.park k')) :
    resetting = false := by
  cases resetting
  · rfl
  · simp only [ScanCtx.afterExam, if_true] at h
    repeat' split at h
    all_goals simp at h

theorem scanSearch_park {resetting others : Bool} {d : List Entry} {k k' : ScanCtx} (h : scanSearch resetting others d k = .park k') :
    resetting = false := by
  induction d generalizing k with
  | nil => simp [scanSearch] at h
  | cons e d ih =>
    unfold scanSearch at h
    split at h
    · split at h
      · simp at h
      · dsimp only at h
        split at h
        · split at h
          · rename_i step hs
            subst h
            exact ScanCtx.afterExam_park hs
          · exact ih h
        · simp at h
    · exact ih h

theorem PortUnit.resetOk.parked {v : PortUnit} {c : Cmd} {k : ScanCtx} (ok : v.resetOk) (active : v.state ≠ .resetting) :
    PortUnit.resetOk { v with slot := .parked c k } :=
  ⟨fun h => absurd h active, ok.2⟩

theorem State.takeScanStep_quiet {x : ScanStep} (h : Quiet s t) (park : ∀ k, x = .park k → t.isResetting p = false) :
    Quiet s (t.takeScanStep p c x) := by
  unfold State.takeScanStep
  split
  · simp [h]
  · simp [h]
  · rename_i k
    refine State.setWork_quiet (State.setPort_quiet h ⟨id, id, fun ok => ok.parked ?_, rfl, rfl, rfl, by simp⟩)
    have := park k rfl
    simpa [State.isResetting] using this
  · simp [h]

@[simp] theorem State.searchOn_quiet {k : ScanCtx} (h : Quiet s t) : Quiet s (t.searchOn p c k) :=
  State.takeScanStep_quiet h (fun _ e => scanSearch_park e)

@[simp] theorem State.scanOn_quiet {k : ScanCtx} (h : Quiet s t) : Quiet s (t.scanOn p c k) := by
  unfold State.scanOn
  split
  · rename_i step hs
    exact State.takeScanStep_quiet h (fun k e => ScanCtx.afterExam_park (e ▸ hs))
  · simp [h]

@[simp] theorem State.scanRead_quiet {k : ScanCtx} {key : Key} {v : Version} {r : CellRead} (h : Quiet s t) :
    Quiet s (t.scanRead p c k key v r) := by
  unfold State.scanRead State.scanMatch
  dsimp only
  repeat' split
  all_goals simp [h]

@[simp] theorem State.doScan_quiet (h : Quiet s t) : Quiet s (t.doScan p c) := by
  unfold State.doScan State.admitScan State.beginScan
  refine State.checked_quiet h ?_
  repeat' split
  all_goals simp [h]

/-! ## Claims -/

/-- A claim granted where R109 grants it keeps the table in order. -/
theorem ClaimTableOk.create {cs : List Claim} {x : Claim} (ok : ClaimTableOk cs) (none : cs.find? (fun y => y.key == x.key) = none)
    (room : cs.length < Config.claimPlaces) (share : claimsOf cs x.holder < Config.claimShare) : ClaimTableOk (putClaim cs x) := by
  have new := putClaim_new none
  refine ⟨putClaim_sorted x ok.1, by rw [new.1]; exact room, fun p => ?_⟩
  rw [new.2 p]
  have := ok.2.2 p
  split
  · rename_i e
    subst e
    omega
  · omega

theorem ClaimTableOk.renew {cs : List Claim} {x y : Claim} (ok : ClaimTableOk cs) (found : cs.find? (fun z => z.key == x.key) = some y)
    (holder : y.holder = x.holder) : ClaimTableOk (putClaim cs x) := by
  have again := putClaim_again found holder ok.1
  exact ⟨putClaim_sorted x ok.1, by rw [again.1]; exact ok.2.1, fun p => by rw [again.2 p]; exact ok.2.2 p⟩

@[simp] theorem State.claimRequest_quiet (h : Quiet s t) : Quiet s (t.claimRequest p c) := by
  unfold State.claimRequest State.grantClaim
  dsimp only
  split
  · rename_i x hx
    split
    · rename_i holder
      exact State.endCommand_quiet (State.setClaims_quiet h (fun ok => ok.renew (y := x) hx holder))
    · simp [h]
  · rename_i hn
    split
    · simp [h]
    · rename_i room
      simp only [not_or, Nat.not_le] at room
      exact State.endCommand_quiet (State.setClaims_quiet h (fun ok => ok.create hn room.1 room.2))

@[simp] theorem State.formatted_quiet {k : Key} {go : State} (h : Quiet s t) (hg : Quiet s go) : Quiet s (t.formatted p c k go) := by
  unfold State.formatted
  split <;> simp [h, hg]

@[simp] theorem State.doClaim_quiet (h : Quiet s t) : Quiet s (t.doClaim p c) := by
  simp (maxDischargeDepth := 6) [State.doClaim, h]

@[simp] theorem State.releaseRequest_quiet (h : Quiet s t) : Quiet s (t.releaseRequest p c) := by
  unfold State.releaseRequest
  dsimp only
  split
  · split
    · exact State.endCommand_quiet (State.setClaims_quiet h (dropClaim_ok _))
    · simp [h]
  · simp [h]

@[simp] theorem State.doRelease_quiet (h : Quiet s t) : Quiet s (t.doRelease p c) := by
  simp (maxDischargeDepth := 6) [State.doRelease, h]

@[simp] theorem State.expire_quiet {x : Claim} (h : Quiet s t) : Quiet s (t.expire x) :=
  State.offer_quiet (State.setClaims_quiet h (dropClaim_ok _))

/-! ## Watches -/

@[simp] theorem State.watchSetRequest_quiet (h : Quiet s t) : Quiet s (t.watchSetRequest p c) := by
  unfold State.watchSetRequest State.setWatch
  dsimp only
  split
  · rename_i w hw
    refine State.endCommand_quiet (State.setWatches_quiet h (fun ok => ⟨putWatch_sorted _ ok.1, ?_⟩))
    exact Nat.le_trans (Nat.le_of_eq (putWatch_again (x := w) hw ok.1)) ok.2
  · split
    · rename_i room
      exact State.endCommand_quiet (State.setWatches_quiet h (fun ok =>
        ⟨putWatch_sorted _ ok.1, Nat.le_trans (putWatch_length _ _) room⟩))
    · simp [h]

@[simp] theorem State.doWatchSet_quiet (h : Quiet s t) : Quiet s (t.doWatchSet p c) := by
  simp (maxDischargeDepth := 6) [State.doWatchSet, h]

@[simp] theorem State.doWatchClear_quiet (h : Quiet s t) : Quiet s (t.doWatchClear p c) := by
  unfold State.doWatchClear State.watchClearRequest
  exact State.checked_quiet h (State.formatted_quiet h
    (State.endCommand_quiet (State.setWatches_quiet h (clearWatch_ok _ _))))

@[simp] theorem State.doWatchList_quiet (h : Quiet s t) : Quiet s (t.doWatchList p c) := by
  simp (maxDischargeDepth := 6) [State.doWatchList, State.watchListRequest, h]

/-! ## Guards -/

@[simp] theorem State.guardSetReady_quiet {r : Port} {g : Guard} (h : Quiet s t) : Quiet s (t.guardSetReady p c r g) := by
  unfold State.guardSetReady
  repeat' split
  all_goals simp [h]

@[simp] theorem State.doGuardSet_quiet (h : Quiet s t) : Quiet s (t.doGuardSet p c) := by
  unfold State.doGuardSet State.admitGuardSet
  repeat' split
  all_goals simp [h]

@[simp] theorem State.doGuardRead_quiet (h : Quiet s t) : Quiet s (t.doGuardRead p c) := by
  unfold State.doGuardRead
  split <;> simp [h]

end Sys2Proof.Machine
end

