-- ==== Sys2Proof/Laws/QuietStore.lean ====
section
/-! SUPPORT. The quiet operations of the Space Manager, the Store Controller and the Array Controller: reclaim passes, mount, FORMAT and the completions of array operations. -/

namespace Sys2Proof.Machine

variable {s t : State} {p : Port} {c : Cmd} {q : Pass} {m : Mount} {pos : Pos} {ok : Bool}

/-! ## Reclaim -/

@[simp] theorem State.endPass_quiet (h : Quiet s t) : Quiet s t.endPass := State.trigger_quiet (State.setPass_quiet h)

@[simp] theorem State.abandon_quiet (h : Quiet s t) : Quiet s (t.abandon q) :=
  State.setPass_quiet (State.setSegState_quiet h (by decide))

@[simp] theorem State.abandonNoCell_quiet (h : Quiet s t) : Quiet s (t.abandonNoCell q) := State.trigger_quiet (State.abandon_quiet h)

@[simp] theorem State.abandonFailed_quiet (h : Quiet s t) : Quiet s (t.abandonFailed q) := by
  unfold State.abandonFailed
  split
  · exact State.trigger_quiet (State.degrade_quiet (State.abandon_quiet h))
  · exact State.degrade_quiet (State.trigger_quiet (State.abandon_quiet h))

@[simp] theorem State.readVictim_quiet (h : Quiet s t) : Quiet s (t.readVictim q) := State.presentSpace_quiet (State.setPass_quiet h)

@[simp] theorem State.requestErase_quiet (h : Quiet s t) : Quiet s (t.requestErase q) :=
  State.presentSpace_quiet (State.setPass_quiet (State.setSegState_quiet h (by decide)))

@[simp] theorem State.advance_quiet (h : Quiet s t) : Quiet s (t.advance q) := by
  unfold State.advance
  repeat' split
  all_goals simp [h]

@[simp] theorem State.startCopy_quiet {b : Body} (h : Quiet s t) : Quiet s (t.startCopy q b) := by
  unfold State.startCopy
  split
  · rename_i take
    exact State.presentSpace_quiet (State.bumpSeq_quiet (State.setPass_quiet (State.copyGrant_quiet h take)))
  · simp [h]

@[simp] theorem State.copyFailed_quiet {b : Body} (h : Quiet s t) : Quiet s (t.copyFailed q b) := by
  unfold State.copyFailed
  split <;> simp [h]

@[simp] theorem State.acceptMove_quiet {b : Body} {x y : Pos} (h : Quiet s t) : Quiet s (t.acceptMove b x y) :=
  State.setMove_quiet (State.setDir_quiet h (mapEntry_ok (fun _ => rfl)))

@[simp] theorem State.copyBodyDone_quiet {b : Body} (h : Quiet s t) : Quiet s (t.copyBodyDone q b pos ok) := by
  unfold State.copyBodyDone
  repeat' split
  all_goals simp (maxDischargeDepth := 6) [h]

theorem State.resolveMove_ok {x : Move} (h : DirOk t.engine.dir) : DirOk (t.resolveMove x ok).1 := by
  have settle : ∀ e : Entry, (e.settleMove x.copy).key = e.key := fun e => by
    unfold Entry.settleMove
    split <;> rfl
  unfold State.resolveMove
  dsimp only
  repeat' split
  · exact mapEntry_ok settle h
  · exact h
  · exact h
  · exact mapEntry_ok (fun _ => rfl) h
  · exact h
  · exact h
  · exact mapEntry_ok (fun _ => rfl) h

@[simp] theorem State.copyCommitDone_quiet {b : Body} (h : Quiet s t) : Quiet s (t.copyCommitDone q b pos ok) := by
  unfold State.copyCommitDone
  split
  · rename_i x _
    dsimp only
    have r : Quiet s ((t.setDir (t.resolveMove x ok).1).setMove none) :=
      State.setMove_quiet (State.setDir_quiet h State.resolveMove_ok)
    split
    · exact State.copyFailed_quiet (State.countDead_quiet r)
    · exact State.advance_quiet (State.countDead_quiet r)
  · simp [h]

@[simp] theorem State.dropMarkDone_quiet {b : Body} (h : Quiet s t) : Quiet s (t.dropMarkDone q b ok) := by
  unfold State.dropMarkDone
  split
  · exact State.advance_quiet (State.countDead_quiet (State.setDir_quiet h filter_ok))
  · split
    · exact State.startCopy_quiet (State.setDir_quiet h (mapEntry_ok (fun _ => rfl)))
    · exact State.startCopy_quiet h

@[simp] theorem State.victimRead_quiet {r : CellRead} (h : Quiet s t) : Quiet s (t.victimRead q r) := by
  unfold State.victimRead State.handleNamed State.handleUnnamed
  dsimp only
  repeat' split
  all_goals simp [h]

theorem SegRow.erased_state (r : SegRow) (n : Nat) (ok : Bool) : (r.erased n ok).state ≠ .front := by
  unfold SegRow.erased
  dsimp only
  split <;> decide

@[simp] theorem State.recordErase_quiet {g : Seg} {n : Nat} (h : Quiet s t) : Quiet s (t.recordErase g n ok) :=
  State.setSeg_quiet h (fun e => absurd e (SegRow.erased_state _ _ _))

@[simp] theorem State.degradeIfWorn_quiet (h : Quiet s t) : Quiet s t.degradeIfWorn := by
  unfold State.degradeIfWorn
  split <;> simp [h]

@[simp] theorem State.eraseDone_quiet {g : Seg} {n : Nat} (h : Quiet s t) : Quiet s (t.eraseDone q g n ok) := by
  unfold State.eraseDone
  extract_lets s₁ s₂
  have r : Quiet s s₂ := State.setDir_quiet (State.recordErase_quiet h) (eraseReport_ok _ _)
  split <;> simp (maxDischargeDepth := 6) [r]

@[simp] theorem State.passBody_quiet (h : Quiet s t) : Quiet s (t.passBody q ok) := by
  unfold State.passBody
  split <;> simp [h]

@[simp] theorem State.passMark_quiet (h : Quiet s t) : Quiet s (t.passMark q ok) := by
  unfold State.passMark
  split <;> simp [h]

@[simp] theorem State.doReclaim_quiet (h : Quiet s t) : Quiet s (t.doReclaim p c) := by
  unfold State.doReclaim State.reclaimReady
  repeat' split
  all_goals simp [h]

/-! ## Mount -/

@[simp] theorem State.mountNext_quiet {a : MountAwaits} {op : ArrayOp} (h : Quiet s t) : Quiet s (t.mountNext m a op) :=
  State.presentStore_quiet (State.setProgress_quiet h)

theorem countRow_state (d : List Entry) (n : Nat) (g : Seg) (r : SegRow) : (countRow d n g r).state = r.state := by
  unfold countRow
  dsimp only
  split <;> simp_all

@[simp] theorem State.countTable_quiet (h : Quiet s t) : Quiet s t.countTable := by
  refine State.setSegs_quiet h (fun ok a b ha hb => ok a b ?_ ?_)
  · simpa [countRow_state, State.seg] using ha
  · simpa [countRow_state, State.seg] using hb

@[simp] theorem State.mountHandover_quiet (h : Quiet s t) : Quiet s t.mountHandover := by
  unfold State.mountHandover
  extract_lets kept removed s₁
  have r : Quiet s s₁ := State.setProgress_quiet (State.countTable_quiet (State.setDir_quiet h limitDir_ok))
  split <;> simp [r]

theorem defaultThreshold_ok : Settings.default.thresholdOk := by
  unfold Settings.thresholdOk
  decide

theorem closedThreshold_ok : Settings.closed.thresholdOk := by
  unfold Settings.thresholdOk
  decide

theorem readableConfig_threshold {r : CellRead} {x : Settings} (h : readableConfig r = some x) : x.thresholdOk := by
  unfold readableConfig at h
  split at h
  · split at h
    · exact parseSettings_threshold h
    · exact absurd h (by simp)
  · exact absurd h (by simp)

@[simp] theorem State.mountUnformatted_quiet (h : Quiet s t) : Quiet s t.mountUnformatted :=
  State.enterStore_quiet (State.setProgress_quiet (State.countTable_quiet
    (State.setGuard_quiet (State.setDir_quiet h (fun _ => List.Pairwise.nil)) (fun _ => defaultThreshold_ok) id)))

@[simp] theorem State.mountWriteDefaults_quiet {n : Nat} (h : Quiet s t) : Quiet s (t.mountWriteDefaults m n) := by
  unfold State.mountWriteDefaults
  split
  · rename_i take
    exact State.mountNext_quiet (State.bumpSeq_quiet (State.copyGrant_quiet h take))
  · simp [h]

@[simp] theorem State.mountDefaultsFailed_quiet {n : Nat} (h : Quiet s t) : Quiet s (t.mountDefaultsFailed m pos n) := by
  unfold State.mountDefaultsFailed
  split <;> simp [h]

@[simp] theorem State.mountConfigCommitted_quiet (h : Quiet s t) : Quiet s (t.mountConfigCommitted pos) := by
  unfold State.mountConfigCommitted
  extract_lets b s₁
  have r : Quiet s s₁ := State.commitBody_quiet h
  exact State.mountHandover_quiet (State.setAdopted_quiet r)

@[simp] theorem State.mountConfigRead_quiet {r : CellRead} (h : Quiet s t) : Quiet s (t.mountConfigRead r) := by
  unfold State.mountConfigRead
  split
  · rename_i hx
    exact State.mountHandover_quiet (State.setGuard_quiet h (fun _ => readableConfig_threshold hx) id)
  · exact State.mountHandover_quiet (State.setGuard_quiet h (fun _ => closedThreshold_ok) id)

@[simp] theorem State.mountConfig_quiet (h : Quiet s t) : Quiet s (t.mountConfig m) := by
  unfold State.mountConfig
  split <;> simp [h]

@[simp] theorem State.mountErases_quiet (h : Quiet s t) : Quiet s (t.mountErases m) := by
  unfold State.mountErases
  split <;> simp [h]

@[simp] theorem State.mountTargets_quiet (h : Quiet s t) : Quiet s (t.mountTargets m) := by
  unfold State.mountTargets
  split <;> simp [h]

@[simp] theorem State.mountMarked_quiet (h : Quiet s t) : Quiet s (t.mountMarked m ok) := by
  unfold State.mountMarked
  split
  · refine State.mountTargets_quiet ?_
    split
    · exact h
    · exact State.setDir_quiet h (mapEntry_ok (fun _ => rfl))
  · simp [h]

@[simp] theorem State.mountErased_quiet {n : Nat} (h : Quiet s t) : Quiet s (t.mountErased m n ok) := by
  unfold State.mountErased
  dsimp only
  repeat' split
  all_goals simp [h]

theorem Mount.row_front {gen : Generation} {front : Option Seg} {g : Seg} (h : (m.row gen front g).state = .front) : front = some g := by
  unfold Mount.row at h
  dsimp only at h
  repeat' split at h
  all_goals first | assumption | exact absurd h (by simp)

/-- The erased data cells of a segment are ascending, and cell 0 is not among them. -/
theorem Mount.erasedIn_ok (g : Seg) : FreeCellsOk (m.erasedIn g) :=
  ⟨dataCells_ok.1.sublist List.filter_sublist, fun c hc => dataCells_ok.2 c (List.mem_of_mem_filter hc)⟩

theorem noCells_ok : FreeCellsOk [] := ⟨List.Pairwise.nil, fun _ hc => absurd hc (by simp)⟩

@[simp] theorem State.mountTable_quiet (h : Quiet s t) : Quiet s (t.mountTable m) := by
  unfold State.mountTable
  refine State.mountTargets_quiet (State.setFrontFree_quiet
    (State.setSegs_quiet h (fun _ => OneFront.ofFn _ (fun _ e => Mount.row_front e))) (fun _ => ?_))
  split
  · exact Mount.erasedIn_ok _
  · exact noCells_ok

@[simp] theorem State.mountChoose_quiet (h : Quiet s t) : Quiet s (t.mountChoose m) :=
  State.mountTable_quiet (State.setSeq_quiet (State.setDir_quiet h (fun _ => buildDir_ok _)))

@[simp] theorem State.mountReadFrom_quiet {n : Nat} (h : Quiet s t) : Quiet s (t.mountReadFrom m n) := by
  unfold State.mountReadFrom
  split <;> simp [h]

@[simp] theorem State.mountDataRead_quiet {r : CellRead} (h : Quiet s t) : Quiet s (t.mountDataRead m pos r) := by
  unfold State.mountDataRead
  dsimp only
  split <;> simp [h]

@[simp] theorem State.mountBlanks_quiet (h : Quiet s t) : Quiet s (t.mountBlanks m) := by
  unfold State.mountBlanks
  split <;> simp [h]

@[simp] theorem State.mountHeaderDone_quiet {g : Seg} (h : Quiet s t) : Quiet s (t.mountHeaderDone m g ok) := by
  unfold State.mountHeaderDone
  split <;> simp [h]

theorem Mount.bareRow_state (g : Seg) : (m.bareRow g).state ≠ .front := by
  unfold Mount.bareRow
  split <;> simp

@[simp] theorem State.mountNothing_quiet (h : Quiet s t) : Quiet s (t.mountNothing m) :=
  State.enterStore_quiet (State.setProgress_quiet (State.setSeq_quiet
    (State.setSegs_quiet h (fun _ => OneFront.ofFn none (fun x e => absurd e (Mount.bareRow_state x))))))

@[simp] theorem State.mountClassified_quiet (h : Quiet s t) : Quiet s (t.mountClassified m) := by
  unfold State.mountClassified
  dsimp only
  split <;> simp [h]

@[simp] theorem State.mountHeaders_quiet (h : Quiet s t) : Quiet s (t.mountHeaders m) := by
  unfold State.mountHeaders
  dsimp only
  split <;> simp [h]

@[simp] theorem State.mountHeaderRead_quiet {g : Seg} {r : HeaderRead} (h : Quiet s t) : Quiet s (t.mountHeaderRead m g r) := by
  unfold State.mountHeaderRead
  repeat' split
  all_goals simp [h]

@[simp] theorem State.mountBlankRead_quiet {r : CellRead} (h : Quiet s t) : Quiet s (t.mountBlankRead m pos r) := by
  unfold State.mountBlankRead
  dsimp only
  repeat' split
  all_goals simp [h]

@[simp] theorem State.mountRead_quiet (h : Quiet s t) : Quiet s (t.mountRead m) := by
  unfold State.mountRead
  cases m.awaits with
  | header g => exact State.mountHeaderRead_quiet h
  | blankCell pos => exact State.mountBlankRead_quiet h
  | dataCell pos => exact State.mountDataRead_quiet h
  | configRead =>
    dsimp only
    split
    · exact State.mountConfigRead_quiet h
    · exact h
  | _ => exact h

@[simp] theorem State.mountBody_quiet (h : Quiet s t) : Quiet s (t.mountBody m ok) := by
  unfold State.mountBody
  repeat' split
  all_goals simp [h]

@[simp] theorem State.mountHeader_quiet (h : Quiet s t) : Quiet s (t.mountHeader m ok) := by
  unfold State.mountHeader
  split <;> simp [h]

@[simp] theorem State.mountMark_quiet (h : Quiet s t) : Quiet s (t.mountMark m ok) := by
  unfold State.mountMark
  cases m.awaits with
  | wornMark g => exact State.mountHeaders_quiet h
  | blankMark g => exact State.mountBlanks_quiet h
  | repairMark => exact State.mountMarked_quiet h
  | repairRetire g => exact State.mountErases_quiet h
  | configMark pos attempt =>
    dsimp only
    split
    · exact State.mountConfigCommitted_quiet h
    · exact State.mountDefaultsFailed_quiet h
  | _ => exact h

@[simp] theorem State.mountErase_quiet {n : Nat} (h : Quiet s t) : Quiet s (t.mountErase m n ok) := by
  unfold State.mountErase
  split <;> simp [h]

/-! ## FORMAT -/

variable {f : FormatAwaits}

@[simp] theorem State.endFormat_quiet {r : Cmd → Result} (h : Quiet s t) : Quiet s (t.endFormat r) := by
  unfold State.endFormat
  split <;> simp [h]

@[simp] theorem State.formatFailed_quiet {aux : Half} (h : Quiet s t) : Quiet s (t.formatFailed aux) :=
  State.endFormat_quiet (State.enterStore_quiet (State.setProgress_quiet
    (State.setGuard_quiet h (fun _ => defaultThreshold_ok) id)))

@[simp] theorem State.formatDone_quiet {n : Nat} (h : Quiet s t) : Quiet s (t.formatDone n) :=
  State.trigger_quiet (State.endFormat_quiet (State.enterStore_quiet (State.setProgress_quiet h)))

@[simp] theorem State.formatNext_quiet {op : ArrayOp} (h : Quiet s t) : Quiet s (t.formatNext f op) :=
  State.presentStore_quiet (State.setProgress_quiet h)

@[simp] theorem State.formatWrite_quiet {n : Nat} (h : Quiet s t) : Quiet s (t.formatWrite n) := by
  unfold State.formatWrite
  dsimp only
  split
  · rename_i take
    exact State.formatNext_quiet (State.bumpSeq_quiet (State.copyGrant_quiet h take))
  · simp [h]

@[simp] theorem State.formatWriteFailed_quiet {n : Nat} (h : Quiet s t) : Quiet s (t.formatWriteFailed pos n) := by
  unfold State.formatWriteFailed
  split <;> simp [h]

@[simp] theorem State.formatCommitted_quiet {n : Nat} (h : Quiet s t) : Quiet s (t.formatCommitted pos n) := by
  unfold State.formatCommitted
  extract_lets b s₁
  have r : Quiet s s₁ := State.commitBody_quiet h
  exact State.formatDone_quiet (State.setAdopted_quiet r)

@[simp] theorem State.formatErases_quiet {n : Nat} {owes : List Seg} (h : Quiet s t) : Quiet s (t.formatErases n owes) := by
  unfold State.formatErases
  repeat' split
  all_goals simp [h]

@[simp] theorem State.formatErased_quiet {g : Seg} {owes : List Seg} {n : Nat} (h : Quiet s t) :
    Quiet s (t.formatErased g owes n ok) := by
  unfold State.formatErased
  simp [h]

@[simp] theorem State.formatAfterReclaim_quiet {g : Seg} {n : Nat} (h : Quiet s t) : Quiet s (t.formatAfterReclaim g n ok) := by
  unfold State.formatAfterReclaim
  dsimp only
  repeat' split
  all_goals simp [h]

@[simp] theorem State.endParked_quiet (h : Quiet s t) : Quiet s (t.endParked p) := by
  unfold State.endParked
  split
  · exact State.setPort_quiet h (PortUnit.deposit_quiet _ _)
  · exact h

@[simp] theorem State.endScansAndClaims_quiet (h : Quiet s t) : Quiet s t.endScansAndClaims := by
  unfold State.endScansAndClaims
  dsimp only
  have parked : Quiet s (allPorts.foldl State.endParked t) := foldl_quiet (fun _ _ => State.endParked_quiet (.refl _)) _ h
  refine foldl_quiet (fun _ _ => State.offer_quiet (.refl _)) _ (State.setClaims_quiet parked (fun _ => ?_))
  exact ⟨List.Pairwise.nil, Nat.zero_le _, fun _ => Nat.zero_le _⟩

@[simp] theorem State.formatAbandon_quiet (h : Quiet s t) : Quiet s t.formatAbandon := by
  unfold State.formatAbandon
  split
  · dsimp only
    split
    · exact State.setSegState_quiet (State.setPass_quiet (State.withdrawSpace_quiet h)) (by decide)
    · simp [h]
  · exact h

@[simp] theorem State.acceptFormat_quiet (h : Quiet s t) : Quiet s (t.acceptFormat p c) := by
  unfold State.acceptFormat
  extract_lets s₁ s₂ s₃
  have two : Quiet s s₂ := State.formatAbandon_quiet (State.endScansAndClaims_quiet (State.enterStore_quiet (State.setWork_quiet h)))
  exact State.formatErases_quiet (State.setFrontFree_quiet (State.setGeneration_quiet (State.setMove_quiet
    (State.setDir_quiet two (fun _ => List.Pairwise.nil)))) (fun _ => noCells_ok))

@[simp] theorem State.doFormat_quiet (h : Quiet s t) : Quiet s (t.doFormat p c) := by
  unfold State.doFormat State.formatChecks
  dsimp only
  repeat' split
  all_goals simp [h]

@[simp] theorem State.formatBodyDone_quiet (h : Quiet s t) : Quiet s (t.formatBodyDone f ok) := by
  unfold State.formatBodyDone
  repeat' split
  all_goals simp [h]

@[simp] theorem State.formatMark_quiet (h : Quiet s t) : Quiet s (t.formatMark f ok) := by
  unfold State.formatMark
  repeat' split
  all_goals simp [h]

@[simp] theorem State.formatErase_quiet {n : Nat} (h : Quiet s t) : Quiet s (t.formatErase f n ok) := by
  unfold State.formatErase
  split <;> simp [h]

@[simp] theorem State.doStoreInfo_quiet (h : Quiet s t) : Quiet s (t.doStoreInfo p c) := by
  unfold State.doStoreInfo
  exact State.checked_quiet h (State.endCommand_quiet (State.storeBuffer_quiet h))

/-! ## Completions -/

@[simp] theorem State.landed_quiet (h : Quiet s t) : Quiet s t.landed := State.setInFlight_quiet h (.inl rfl)

@[simp] theorem State.deliverRead_quiet {r : Requester} {b : Bool} (h : Quiet s t) : Quiet s (t.deliverRead r pos b) := by
  unfold State.deliverRead State.engineRead State.spaceRead State.storeRead
  repeat' split
  all_goals simp [h]

@[simp] theorem State.deliverBody_quiet {r : Requester} (h : Quiet s t) : Quiet s (t.deliverBody r pos ok) := by
  unfold State.deliverBody
  repeat' split
  all_goals simp [h]

@[simp] theorem State.deliverHeader_quiet (h : Quiet s t) : Quiet s (t.deliverHeader ok) := by
  unfold State.deliverHeader
  split <;> simp [h]

@[simp] theorem State.deliverMark_quiet {r : Requester} (h : Quiet s t) : Quiet s (t.deliverMark r pos ok) := by
  unfold State.deliverMark
  repeat' split
  all_goals simp [h]

@[simp] theorem State.deliverErase_quiet {n : Nat} (h : Quiet s t) : Quiet s (t.deliverErase n ok) := by
  unfold State.deliverErase
  split <;> simp [h]

@[simp] theorem State.deliverReclaimErase_quiet {g : Seg} {n : Nat} (h : Quiet s t) : Quiet s (t.deliverReclaimErase g n ok) := by
  unfold State.deliverReclaimErase
  split <;> simp [h]

/-! What a completion does after it has left its operation's bytes is quiet. -/

theorem State.completeBody_quiet {r : Requester} {b : Body} {left : List Host.Cell} :
    Quiet (s.setCells (putArea s.array.cells pos (bodyLeft (dataArea s.array.cells pos) (bodyBytes b) left))) (s.completeBody r pos b left) :=
  State.deliverBody_quiet (State.landed_quiet (.refl _))

theorem State.completeHeader_quiet {g : Seg} {gen : Generation} {n : Nat} {left : List Host.Cell} :
    Quiet (s.setCells (putArea s.array.cells ⟨g, 0⟩ (headerLeft (dataArea s.array.cells ⟨g, 0⟩) (headerBytes gen n) left)))
      (s.completeHeader g gen n left) :=
  State.deliverHeader_quiet (State.landed_quiet (.refl _))

theorem State.completeMark_quiet {r : Requester} {k : MarkKind} {fails : Bool} :
    Quiet (s.setCells (putMark s.array.cells pos k (markLeft (markWord s.array.cells pos k) fails))) (s.completeMark r pos k fails) :=
  State.deliverMark_quiet (State.landed_quiet (.refl _))

theorem State.completeErase_quiet {g : Seg} {gen : Generation} {n : Nat} {left : List Host.Cell} :
    Quiet (s.setCells (eraseLeft s.array.cells g gen n left)) (s.completeErase g gen n left) :=
  State.deliverErase_quiet (State.landed_quiet (.refl _))

theorem State.completeReclaimErase_quiet {e : EraseCtx} {left : List Host.Cell} :
    Quiet (s.setCells (eraseLeft s.array.cells e.seg e.generation e.count left)) (s.completeReclaimErase e left) :=
  State.deliverReclaimErase_quiet (State.setErase_quiet (.refl _) (fun _ _ e => absurd e (by simp)))

end Sys2Proof.Machine
end

