-- ==== Sys2Proof/Laws/Settle.lean ====
section
/-! SUPPORT. What the end of every event leaves alone: arbitration touches the array's requests and erase context only, and selection the Engine's work and pointer and one port's slot and command queue. -/

namespace Sys2Proof.Machine

variable (s : State)

/-! ## Arbitration -/

/-- Arbitration replaces the Array Controller's state but for the bytes of the array. -/
theorem State.arbitrate_eq : ∃ a : ArrayCtl, s.arbitrate = { s with array := a } ∧ a.cells = s.array.cells := by
  unfold State.arbitrate State.arbitrateFree State.arbitrateSuspended State.grantSpace
  repeat' split
  all_goals exact ⟨_, rfl, rfl⟩

@[simp] theorem State.arbitrate_ports : s.arbitrate.ports = s.ports := by
  obtain ⟨a, h, -⟩ := s.arbitrate_eq
  rw [h]

@[simp] theorem State.arbitrate_port (p : Port) : s.arbitrate.port p = s.port p := by
  simp [State.port]

@[simp] theorem State.arbitrate_engine : s.arbitrate.engine = s.engine := by
  obtain ⟨a, h, -⟩ := s.arbitrate_eq
  rw [h]

@[simp] theorem State.arbitrate_coord : s.arbitrate.coord = s.coord := by
  obtain ⟨a, h, -⟩ := s.arbitrate_eq
  rw [h]

@[simp] theorem State.arbitrate_guard : s.arbitrate.guard = s.guard := by
  obtain ⟨a, h, -⟩ := s.arbitrate_eq
  rw [h]

@[simp] theorem State.arbitrate_space : s.arbitrate.space = s.space := by
  obtain ⟨a, h, -⟩ := s.arbitrate_eq
  rw [h]

@[simp] theorem State.arbitrate_store : s.arbitrate.store = s.store := by
  obtain ⟨a, h, -⟩ := s.arbitrate_eq
  rw [h]

@[simp] theorem State.arbitrate_pins : s.arbitrate.pins = s.pins := by
  obtain ⟨a, h, -⟩ := s.arbitrate_eq
  rw [h]

@[simp] theorem State.arbitrate_pending : s.arbitrate.pending = s.pending := by
  obtain ⟨a, h, -⟩ := s.arbitrate_eq
  rw [h]

@[simp] theorem State.arbitrate_cells : s.arbitrate.array.cells = s.array.cells := by
  obtain ⟨a, h, hc⟩ := s.arbitrate_eq
  rw [h]
  exact hc

/-! ## Selection -/

/-- Taking a port replaces its slot and its command queue, and the Engine's work and pointer. -/
theorem State.takePort_eq (p : Port) :
    ∃ (x : Slot) (cs : List Cmd) (w : Work) (r : Port),
      s.takePort p = ((s.setPort p { s.port p with slot := x, commands := cs }).setWork w).setPointer r := by
  unfold State.takePort
  dsimp only
  split
  · exact ⟨.executing, (s.port p).commands, _, _, rfl⟩
  · exact ⟨.executing, _, _, _, rfl⟩
  · exact ⟨(s.port p).slot, (s.port p).commands, s.engine.work, s.engine.pointer, (s.setPort_self p).symm⟩

/-- Selection does nothing or takes one port. -/
theorem State.select_eq : s.select = s ∨ ∃ p, s.eligible p = true ∧ s.engine.work = .idle ∧ s.select = s.takePort p := by
  unfold State.select
  split
  · rename_i idle
    split
    · rename_i p hp
      exact .inr ⟨p, List.find?_some hp, idle, rfl⟩
    · exact .inl rfl
  · exact .inl rfl

@[simp] theorem State.select_coord : s.select.coord = s.coord := by
  rcases s.select_eq with h | ⟨p, -, -, h⟩
  · rw [h]
  · obtain ⟨x, cs, w, r, e⟩ := s.takePort_eq p
    rw [h, e]
    rfl

@[simp] theorem State.select_guard : s.select.guard = s.guard := by
  rcases s.select_eq with h | ⟨p, -, -, h⟩
  · rw [h]
  · obtain ⟨x, cs, w, r, e⟩ := s.takePort_eq p
    rw [h, e]
    rfl

@[simp] theorem State.select_space : s.select.space = s.space := by
  rcases s.select_eq with h | ⟨p, -, -, h⟩
  · rw [h]
  · obtain ⟨x, cs, w, r, e⟩ := s.takePort_eq p
    rw [h, e]
    rfl

@[simp] theorem State.select_array : s.select.array = s.array := by
  rcases s.select_eq with h | ⟨p, -, -, h⟩
  · rw [h]
  · obtain ⟨x, cs, w, r, e⟩ := s.takePort_eq p
    rw [h, e]
    rfl

@[simp] theorem State.select_store : s.select.store = s.store := by
  rcases s.select_eq with h | ⟨p, -, -, h⟩
  · rw [h]
  · obtain ⟨x, cs, w, r, e⟩ := s.takePort_eq p
    rw [h, e]
    rfl

@[simp] theorem State.select_pins : s.select.pins = s.pins := by
  rcases s.select_eq with h | ⟨p, -, -, h⟩
  · rw [h]
  · obtain ⟨x, cs, w, r, e⟩ := s.takePort_eq p
    rw [h, e]
    rfl

@[simp] theorem State.select_pending : s.select.pending = s.pending := by
  rcases s.select_eq with h | ⟨p, -, -, h⟩
  · rw [h]
  · obtain ⟨x, cs, w, r, e⟩ := s.takePort_eq p
    rw [h, e]
    rfl

@[simp] theorem State.select_dir : s.select.engine.dir = s.engine.dir := by
  rcases s.select_eq with h | ⟨p, -, -, h⟩
  · rw [h]
  · obtain ⟨x, cs, w, r, e⟩ := s.takePort_eq p
    rw [h, e]
    rfl

@[simp] theorem State.select_move : s.select.engine.move = s.engine.move := by
  rcases s.select_eq with h | ⟨p, -, -, h⟩
  · rw [h]
  · obtain ⟨x, cs, w, r, e⟩ := s.takePort_eq p
    rw [h, e]
    rfl

@[simp] theorem State.select_seq : s.select.engine.seq = s.engine.seq := by
  rcases s.select_eq with h | ⟨p, -, -, h⟩
  · rw [h]
  · obtain ⟨x, cs, w, r, e⟩ := s.takePort_eq p
    rw [h, e]
    rfl

/-- Selection leaves every port's other registers alone. -/
theorem State.select_port (r : Port) :
    ∃ (x : Slot) (cs : List Cmd), s.select.port r = { s.port r with slot := x, commands := cs } := by
  rcases s.select_eq with h | ⟨p, -, -, h⟩
  · rw [h]
    exact ⟨_, _, rfl⟩
  · obtain ⟨x, cs, w, q, e⟩ := s.takePort_eq p
    rw [h, e]
    by_cases same : r = p
    · subst same
      exact ⟨x, cs, by simp⟩
    · exact ⟨_, _, State.setPort_port_other s _ same⟩

/-! ## Settling -/

@[simp] theorem State.settle_coord : s.settle.coord = s.coord := by
  unfold State.settle
  split <;> simp

@[simp] theorem State.settle_guard : s.settle.guard = s.guard := by
  unfold State.settle
  split <;> simp

@[simp] theorem State.settle_space : s.settle.space = s.space := by
  unfold State.settle
  split <;> simp

@[simp] theorem State.settle_store : s.settle.store = s.store := by
  unfold State.settle
  split <;> simp

@[simp] theorem State.settle_pins : s.settle.pins = s.pins := by
  unfold State.settle
  split <;> simp

@[simp] theorem State.settle_pending : s.settle.pending = s.pending := by
  unfold State.settle
  split <;> simp

@[simp] theorem State.settle_cells : s.settle.array.cells = s.array.cells := by
  unfold State.settle
  split <;> simp

@[simp] theorem State.settle_dir : s.settle.engine.dir = s.engine.dir := by
  unfold State.settle
  split <;> simp

@[simp] theorem State.settle_move : s.settle.engine.move = s.engine.move := by
  unfold State.settle
  split <;> simp

@[simp] theorem State.settle_seq : s.settle.engine.seq = s.engine.seq := by
  unfold State.settle
  split <;> simp

/-- Settling leaves every port's registers alone but for its slot and its command queue. -/
theorem State.settle_port (r : Port) :
    ∃ (x : Slot) (cs : List Cmd), s.settle.port r = { s.port r with slot := x, commands := cs } := by
  unfold State.settle
  split
  · exact ⟨_, _, rfl⟩
  · obtain ⟨x, cs, h⟩ := s.arbitrate.select_port r
    exact ⟨x, cs, by simpa using h⟩

@[simp] theorem State.settle_results (r : Port) : (s.settle.port r).results = (s.port r).results := by
  obtain ⟨x, cs, h⟩ := s.settle_port r
  rw [h]

@[simp] theorem State.settle_events (r : Port) : (s.settle.port r).events = (s.port r).events := by
  obtain ⟨x, cs, h⟩ := s.settle_port r
  rw [h]

@[simp] theorem State.settle_flags (r : Port) : (s.settle.port r).flags = (s.port r).flags := by
  obtain ⟨x, cs, h⟩ := s.settle_port r
  rw [h]

@[simp] theorem State.settle_enables (r : Port) : (s.settle.port r).enables = (s.port r).enables := by
  obtain ⟨x, cs, h⟩ := s.settle_port r
  rw [h]

@[simp] theorem State.settle_buffer (r : Port) : (s.settle.port r).buffer = (s.port r).buffer := by
  obtain ⟨x, cs, h⟩ := s.settle_port r
  rw [h]

@[simp] theorem State.settle_state (r : Port) : (s.settle.port r).state = (s.port r).state := by
  obtain ⟨x, cs, h⟩ := s.settle_port r
  rw [h]

@[simp] theorem State.settle_dataOut (r : Port) : (s.settle.port r).dataOut = (s.port r).dataOut := by
  obtain ⟨x, cs, h⟩ := s.settle_port r
  rw [h]

@[simp] theorem State.settle_frame (r : Port) : (s.settle.port r).frame = (s.port r).frame := by
  obtain ⟨x, cs, h⟩ := s.settle_port r
  rw [h]

end Sys2Proof.Machine
end

