-- ==== Sys2Proof/Laws/Calm.lean ====
section
/-! SUPPORT. Why a result always finds its place. `Fine s` is the Engine's order with every port's places; `Busy p s` holds while the Engine executes a command of port p and awaits nothing. Every operation but the Engine's own is calm: it keeps both. This file has the relation, the setters, the Engine's own steps, and the operations of Records and Space. -/

namespace Sys2Proof.Machine

/-- The Engine's part is in order and every port has places for its results. -/
structure Fine (s : State) : Prop where
  engine : EngineOk s
  results : ResultsOk s

/-- The Engine executes a command of a port other than FORMAT and awaits nothing. -/
structure Busy (p : Port) (s : State) : Prop where
  work : s.engine.work.port = some p
  other : ∀ q c, s.engine.work ≠ .formatting q c
  slot : (s.port p).slot = .executing
  wait : s.array.waitEngine = none
  serves : s.array.servesEngine = false
  held : s.space.held = false
  results : ResultsOk s

/-- What an operation that is not the Engine's keeps. -/
structure Calm (s t : State) : Prop where
  fine : Fine s → Fine t
  busy : ∀ p, Busy p s → Busy p t

/-- Nothing that results depend on has changed: slots, numbers of results, the Engine's work, its array request and its held request. -/
structure Same (s t : State) : Prop where
  slot : ∀ p, (t.port p).slot = (s.port p).slot
  results : ∀ p, (t.port p).results.length ≤ (s.port p).results.length
  work : t.engine.work = s.engine.work
  wait : t.array.waitEngine = s.array.waitEngine
  serves : t.array.servesEngine = s.array.servesEngine
  held : t.space.held = s.space.held

variable {s t : State} {p : Port} {c : Cmd}

@[simp] theorem Calm.refl (s : State) : Calm s s := ⟨id, fun _ => id⟩

theorem Calm.trans {u : State} (h : Calm s t) (k : Calm t u) : Calm s u := ⟨k.fine ∘ h.fine, fun p => k.busy p ∘ h.busy p⟩

theorem PortUnit.resultsOk.fewer {u v : PortUnit} (h : u.resultsOk) (slot : v.slot = u.slot) (results : v.results.length ≤ u.results.length) :
    v.resultsOk := by
  unfold PortUnit.resultsOk at *
  rw [slot]
  omega

theorem Same.calm (h : Same s t) : Calm s t where
  fine ok := by
    refine ⟨⟨fun p hp => ?_, fun x => ?_, fun x => ?_, fun x => ?_⟩, fun p => (ok.results p).fewer (h.slot p) (h.results p)⟩
    · rw [h.slot]
      exact ok.engine.1 p (h.work ▸ hp)
    · rw [h.work]
      exact ok.engine.2.1 (by rwa [h.wait, h.serves] at x)
    · rw [h.serves]
      exact ok.engine.2.2.1 (by rwa [h.wait] at x)
    · rw [h.work]
      exact ok.engine.2.2.2 (by rwa [h.held] at x)
  busy p b :=
    ⟨by rw [h.work]; exact b.work, by rw [h.work]; exact b.other, by rw [h.slot]; exact b.slot, by rw [h.wait]; exact b.wait,
      by rw [h.serves]; exact b.serves, by rw [h.held]; exact b.held, fun q => (b.results q).fewer (h.slot q) (h.results q)⟩

theorem Same.fine (h : Same s t) (ok : Fine s) : Fine t := h.calm.fine ok

/-- A calm operation and then one that changes nothing results depend on. -/
theorem Calm.same {u : State} (h : Calm s t) (k : Same t u) : Calm s u := h.trans k.calm

/-! ## Setters -/

theorem State.setPort_calm {u : PortUnit} (h : Calm s t) (slot : u.slot = (t.port p).slot)
    (results : u.results.length ≤ (t.port p).results.length) : Calm s (t.setPort p u) :=
  h.same
    { slot := fun r => by
        by_cases same : r = p
        · subst same
          simpa using slot
        · rw [State.setPort_port_other _ _ same]
      results := fun r => by
        by_cases same : r = p
        · subst same
          simpa using results
        · rw [State.setPort_port_other _ _ same]
      work := rfl, wait := rfl, serves := rfl, held := rfl }

theorem Same.of_eq (ports : t.ports = s.ports) (work : t.engine.work = s.engine.work) (wait : t.array.waitEngine = s.array.waitEngine)
    (serves : t.array.servesEngine = s.array.servesEngine) (held : t.space.held = s.space.held) : Same s t :=
  ⟨fun p => by unfold State.port; rw [ports], fun p => by unfold State.port; rw [ports], work, wait, serves, held⟩

@[simp] theorem State.setPointer_calm (h : Calm s t) : Calm s (t.setPointer p) := h.same (.of_eq rfl rfl rfl rfl rfl)

@[simp] theorem State.setMove_calm {m : Option Move} (h : Calm s t) : Calm s (t.setMove m) := h.same (.of_eq rfl rfl rfl rfl rfl)

@[simp] theorem State.setSeq_calm {n : SeqNo} (h : Calm s t) : Calm s (t.setSeq n) := h.same (.of_eq rfl rfl rfl rfl rfl)

@[simp] theorem State.bumpSeq_calm (h : Calm s t) : Calm s t.bumpSeq := State.setSeq_calm h

@[simp] theorem State.setDir_calm {d : List Entry} (h : Calm s t) : Calm s (t.setDir d) := h.same (.of_eq rfl rfl rfl rfl rfl)

@[simp] theorem State.setClaims_calm {cs : List Claim} (h : Calm s t) : Calm s (t.setClaims cs) := h.same (.of_eq rfl rfl rfl rfl rfl)

@[simp] theorem State.setWatches_calm {ws : List Watch} (h : Calm s t) : Calm s (t.setWatches p ws) := h.same (.of_eq rfl rfl rfl rfl rfl)

@[simp] theorem State.setGuard_calm {g : GuardUnit} (h : Calm s t) : Calm s (t.setGuard g) := h.same (.of_eq rfl rfl rfl rfl rfl)

@[simp] theorem State.setSegs_calm {v : Vector SegRow 256} (h : Calm s t) : Calm s (t.setSegs v) := h.same (.of_eq rfl rfl rfl rfl rfl)

@[simp] theorem State.setSeg_calm {g : Seg} {r : SegRow} (h : Calm s t) : Calm s (t.setSeg g r) := State.setSegs_calm h

@[simp] theorem State.setSegState_calm {g : Seg} {x : SegState} (h : Calm s t) : Calm s (t.setSegState g x) := State.setSegs_calm h

@[simp] theorem State.countDead_calm {pos : Pos} (h : Calm s t) : Calm s (t.countDead pos) := State.setSegs_calm h

@[simp] theorem State.setFrontFree_calm {l : List CellNo} (h : Calm s t) : Calm s (t.setFrontFree l) := h.same (.of_eq rfl rfl rfl rfl rfl)

@[simp] theorem State.setPass_calm {q : Option Pass} (h : Calm s t) : Calm s (t.setPass q) := h.same (.of_eq rfl rfl rfl rfl rfl)

@[simp] theorem State.setCells_calm {x : List Host.Cell} (h : Calm s t) : Calm s (t.setCells x) := h.same (.of_eq rfl rfl rfl rfl rfl)

@[simp] theorem State.setErase_calm {x : Option EraseCtx} (h : Calm s t) : Calm s (t.setErase x) := h.same (.of_eq rfl rfl rfl rfl rfl)

@[simp] theorem State.presentSpace_calm {op : ArrayOp} (h : Calm s t) : Calm s (t.presentSpace op) := h.same (.of_eq rfl rfl rfl rfl rfl)

@[simp] theorem State.presentStore_calm {op : ArrayOp} (h : Calm s t) : Calm s (t.presentStore op) := h.same (.of_eq rfl rfl rfl rfl rfl)

@[simp] theorem State.withdrawSpace_calm (h : Calm s t) : Calm s t.withdrawSpace := h.same (.of_eq rfl rfl rfl rfl rfl)

@[simp] theorem State.setStoreState_calm {x : StoreState} (h : Calm s t) : Calm s (t.setStoreState x) := h.same (.of_eq rfl rfl rfl rfl rfl)

@[simp] theorem State.setGeneration_calm {g : Generation} (h : Calm s t) : Calm s (t.setGeneration g) := h.same (.of_eq rfl rfl rfl rfl rfl)

@[simp] theorem State.setProgress_calm {x : Progress} (h : Calm s t) : Calm s (t.setProgress x) := h.same (.of_eq rfl rfl rfl rfl rfl)

@[simp] theorem State.setPins_calm {x : Pins} (h : Calm s t) : Calm s (t.setPins x) := h.same (.of_eq rfl rfl rfl rfl rfl)

/-- A run of operations over a list is calm when each of them is. -/
theorem foldl_calm {α : Type} {f : State → α → State} (step : ∀ t x, Calm t (f t x)) (xs : List α) (h : Calm s t) :
    Calm s (xs.foldl f t) := by
  induction xs generalizing t with
  | nil => exact h
  | cons x xs ih => exact ih (h.trans (step t x))

/-! ## Ports -/

@[simp] theorem State.setFlag_calm {f : Flags} (h : Calm s t) : Calm s (t.setFlag p f) := State.setPort_calm h rfl (le_refl _)

@[simp] theorem State.storeBuffer_calm {off : Nat} {bs : List Byte} (h : Calm s t) : Calm s (t.storeBuffer p off bs) :=
  State.setPort_calm h rfl (le_refl _)

theorem PortUnit.offer_leaves (u : PortUnit) (e : Event) : (u.offer e).slot = u.slot ∧ (u.offer e).results = u.results := by
  unfold PortUnit.offer
  repeat' split
  all_goals exact ⟨rfl, rfl⟩

@[simp] theorem State.offer_calm {e : Event} (h : Calm s t) : Calm s (t.offer p e) :=
  State.setPort_calm h ((t.port p).offer_leaves e).1 (by rw [((t.port p).offer_leaves e).2])

@[simp] theorem State.offerAll_calm {e : Event} (h : Calm s t) : Calm s (t.offerAll e) :=
  foldl_calm (fun _ _ => State.offer_calm (.refl _)) _ h

@[simp] theorem State.enterStore_calm {x : StoreState} (h : Calm s t) : Calm s (t.enterStore x) :=
  State.offerAll_calm (State.setStoreState_calm h)

/-! ## The Engine's own steps -/

/-- A command that awaits nothing leaves the machine fine. -/
theorem Busy.fine (h : Busy p s) : Fine s where
  engine := by
    refine ⟨fun q hq => ?_, fun x => ?_, fun x => ?_, fun x => ?_⟩
    · obtain rfl := Option.some.inj (h.work.symm.trans hq)
      exact h.slot
    · simp [h.wait, h.serves] at x
    · simp [h.wait] at x
    · simp [h.held] at x
  results := h.results

theorem Busy.setWork {w : Work} (h : Busy p s) (port : w.port = some p) (other : ∀ q c, w ≠ .formatting q c) : Busy p (s.setWork w) :=
  ⟨port, other, h.slot, h.wait, h.serves, h.held, h.results⟩

/-- The Engine presents a request for a command that awaits it. -/
theorem Busy.present {op : ArrayOp} (h : Busy p s) (awaits : s.engine.work.awaitsArray = true) : Fine (s.presentEngine op) where
  engine := by
    refine ⟨fun q hq => ?_, fun _ => awaits, fun _ => h.serves, fun x => ?_⟩
    · obtain rfl := Option.some.inj (h.work.symm.trans hq)
      exact h.slot
    · have x : s.space.held = true := x
      simp [h.held] at x
  results := h.results

/-- A grant request that is held. -/
theorem Busy.hold (h : Busy p s) (awaits : s.engine.work.awaitsGrant = true) : Fine (s.setHeld true) where
  engine := ⟨h.fine.engine.1, h.fine.engine.2.1, h.fine.engine.2.2.1, fun _ => awaits⟩
  results := h.results

/-- The executing port's slot given up, with one result more at most, and the Engine IDLE. -/
theorem Busy.leave {u : PortUnit} (h : Busy p s) (ok : u.resultsOk) : Fine ((s.setPort p u).setWork .idle) where
  engine := by
    refine ⟨fun q hq => absurd hq (by simp [Work.port]), fun x => ?_, fun x => ?_, fun x => ?_⟩
    · have x : s.array.waitEngine.isSome = true ∨ s.array.servesEngine = true := x
      simp [h.wait, h.serves] at x
    · have x : s.array.waitEngine.isSome = true := x
      simp [h.wait] at x
    · have x : s.space.held = true := x
      simp [h.held] at x
  results := fun q => by
    show (((s.setPort p u).setWork .idle).port q).resultsOk
    by_cases same : q = p
    · subst same
      simpa using ok
    · rw [State.setWork_port, State.setPort_port_other _ _ same]
      exact h.results q

theorem PortUnit.deposit_resultsOk {u : PortUnit} {r : Result} (h : u.resultsOk) (slot : u.slot ≠ .none) : (u.deposit r).resultsOk := by
  unfold PortUnit.deposit PortUnit.resultsOk at *
  rw [if_neg slot] at h
  split
  · simpa using h
  · simpa using Nat.le_of_succ_le h

theorem State.deposit_resultsOk {r : Result} (h : ResultsOk s) (slot : (s.port p).slot ≠ .none) :
    ResultsOk (s.setPort p ((s.port p).deposit r)) := fun q => by
  by_cases same : q = p
  · subst same
    rw [State.setPort_port]
    exact PortUnit.deposit_resultsOk (h q) slot
  · rw [State.setPort_port_other _ _ same]
    exact h q

theorem Busy.endCommand {r : Result} (h : Busy p s) : Fine (s.endCommand p r) :=
  h.leave (PortUnit.deposit_resultsOk (h.results p) (by rw [h.slot]; decide))

/-- The Engine of a fine machine with a held request awaits a grant and nothing of the array. -/
theorem Fine.busy_held (h : Fine s) (work : s.engine.work.port = some p) (awaits : s.engine.work.awaitsArray = false)
    (other : ∀ q c, s.engine.work ≠ .formatting q c) : Busy p (s.setHeld false) where
  work := work
  other := other
  slot := h.engine.1 p work
  wait := by
    have := h.engine.2.1
    rw [awaits] at this
    cases hw : s.array.waitEngine with
    | none => exact hw
    | some op => simp [hw] at this
  serves := by
    have := h.engine.2.1
    rw [awaits] at this
    cases hw : s.array.servesEngine with
    | false => exact hw
    | true => simp [hw] at this
  held := rfl
  results := h.results

/-- The end of FORMAT's command. -/
theorem Fine.endFormatting {r : Result} (h : Fine s) (work : s.engine.work = .formatting p c) : Fine (s.endCommand p r) where
  engine := by
    have array : ¬ (s.array.waitEngine.isSome = true ∨ s.array.servesEngine = true) := fun x => by
      have := h.engine.2.1 x
      simp [work, Work.awaitsArray] at this
    have held : ¬ s.space.held = true := fun x => by
      have := h.engine.2.2.2 x
      simp [work, Work.awaitsGrant] at this
    exact ⟨fun q hq => absurd hq (by simp [State.endCommand, Work.port]), fun x => absurd x array, fun x => absurd (.inl x) array, fun x => absurd x held⟩
  results := fun q => State.deposit_resultsOk h.results (by rw [h.engine.1 p (by rw [work]; rfl)]; decide) q

/-- An Engine that awaits neither the array nor a grant. -/
theorem Fine.busy (h : Fine s) (work : s.engine.work.port = some p) (array : s.engine.work.awaitsArray = false)
    (grant : s.engine.work.awaitsGrant = false) (other : ∀ q c, s.engine.work ≠ .formatting q c) : Busy p s := by
  have b := h.busy_held work array other
  have held : s.space.held = false := by
    have := h.engine.2.2.2
    rw [grant] at this
    simpa using this
  exact ⟨b.work, b.other, b.slot, b.wait, b.serves, held, b.results⟩

/-! ## Space -/

@[simp] theorem State.closeFront_calm (h : Calm s t) : Calm s t.closeFront := by
  unfold State.closeFront
  split <;> simp [h]

@[simp] theorem State.openFront_calm {g : Seg} (h : Calm s t) : Calm s (t.openFront g) :=
  State.setFrontFree_calm (State.setSeg_calm (State.closeFront_calm h))

theorem State.takeFront_calm {pos : Pos} {u : State} (h : Calm s t) (take : t.takeFront = some (pos, u)) : Calm s u := by
  unfold State.takeFront at take
  split at take
  · obtain ⟨-, rfl⟩ := Prod.mk.inj (Option.some.inj take)
    simp [h]
  · exact absurd take (by simp)

theorem State.takeNewFront_calm {pos : Pos} {u : State} (h : Calm s t) (take : t.takeNewFront = some (pos, u)) : Calm s u := by
  unfold State.takeNewFront at take
  split at take
  · exact State.takeFront_calm (State.openFront_calm h) take
  · exact absurd take (by simp)

theorem State.copyGrant_calm {pos : Pos} {u : State} (h : Calm s t) (take : t.copyGrant = some (pos, u)) : Calm s u := by
  unfold State.copyGrant at take
  split at take
  · rename_i x hx
    obtain rfl := Option.some.inj take
    exact State.takeFront_calm h hx
  · exact State.takeNewFront_calm h take

theorem Work.awaitsGrant_updating {w : Work} (h : w.awaitsGrant = true) :
    ∃ p c u, w = .updating p c u ∧ w.awaitsArray = false := by
  unfold Work.awaitsGrant at h
  split at h
  · exact ⟨_, _, _, rfl, by simpa [Work.awaitsArray] using h⟩
  · exact absurd h (by simp)

@[simp] theorem State.refuseHeld_calm (h : Calm s t) : Calm s t.refuseHeld := by
  refine h.trans ⟨fun ok => ?_, fun p b => ?_⟩
  · unfold State.refuseHeld
    split
    · rename_i held
      obtain ⟨q, c, u, w, aw⟩ := Work.awaitsGrant_updating (ok.engine.2.2.2 held)
      rw [w]
      dsimp only
      refine (ok.busy_held (p := q) (by rw [w]; rfl) aw (by rw [w]; simp)).endCommand
    · exact ok
  · unfold State.refuseHeld
    rw [b.held]
    exact b

@[simp] theorem State.degrade_calm (h : Calm s t) : Calm s t.degrade := by
  unfold State.degrade
  split <;> simp [h]

@[simp] theorem State.startPass_calm {v : Seg} (h : Calm s t) : Calm s (t.startPass v) :=
  State.presentSpace_calm (State.setPass_calm (State.setSegState_calm h))

@[simp] theorem State.trigger_calm (h : Calm s t) : Calm s t.trigger := by
  unfold State.trigger
  repeat' split
  all_goals simp [h]

@[simp] theorem State.reportDead_calm {pos : Pos} (h : Calm s t) : Calm s (t.reportDead pos) :=
  State.trigger_calm (State.countDead_calm h)

@[simp] theorem State.reportSuperseded_calm {pos : Pos} {k : Key} {done : Bool} (h : Calm s t) :
    Calm s (t.reportSuperseded pos k done) :=
  State.trigger_calm (State.setPass_calm (State.countDead_calm h))

/-! ## Commits and adoption -/

@[simp] theorem State.offerWatch_calm {k : Key} {x : Triggers} {v : Version} {a : Author} (h : Calm s t) :
    Calm s (t.offerWatch k x v a p) := by
  unfold State.offerWatch
  repeat' split
  all_goals simp [h]

@[simp] theorem State.reportCommit_calm {k : Key} {x y : KeyState} {v : Version} {a : Author} (h : Calm s t) :
    Calm s (t.reportCommit k x y v a) :=
  foldl_calm (fun _ _ => State.offerWatch_calm (.refl _)) _ h

@[simp] theorem State.commitBody_calm {b : Body} {pos : Pos} (h : Calm s t) : Calm s (t.commitBody b pos) := by
  simp [State.commitBody, h]

@[simp] theorem State.adoptGuardSet_calm {u : Update} (h : Calm s t) : Calm s (t.adoptGuardSet p c u) := by
  unfold State.adoptGuardSet
  dsimp only
  split
  · exact foldl_calm (fun _ _ => State.offer_calm (.refl _)) _ (State.setGuard_calm h)
  · exact State.setGuard_calm h

@[simp] theorem State.expire_calm {x : Claim} (h : Calm s t) : Calm s (t.expire x) :=
  State.offer_calm (State.setClaims_calm h)

end Sys2Proof.Machine
end

