-- ==== Sys2Proof/Laws/CalmStore.lean ====
section
/-! SUPPORT. The calm operations of the Space Manager and the Store Controller: reclaim passes, mount, FORMAT, and the completions they take. -/

namespace Sys2Proof.Machine

variable {s t : State} {p : Port} {c : Cmd} {q : Pass} {m : Mount} {pos : Pos} {ok : Bool}

/-! ## Reclaim -/

@[simp] theorem State.endPass_calm (h : Calm s t) : Calm s t.endPass := State.trigger_calm (State.setPass_calm h)

@[simp] theorem State.abandon_calm (h : Calm s t) : Calm s (t.abandon q) :=
  State.setPass_calm (State.setSegState_calm h)

@[simp] theorem State.abandonNoCell_calm (h : Calm s t) : Calm s (t.abandonNoCell q) := State.trigger_calm (State.abandon_calm h)

@[simp] theorem State.abandonFailed_calm (h : Calm s t) : Calm s (t.abandonFailed q) := by
  unfold State.abandonFailed
  split
  · exact State.trigger_calm (State.degrade_calm (State.abandon_calm h))
  · exact State.degrade_calm (State.trigger_calm (State.abandon_calm h))

@[simp] theorem State.readVictim_calm (h : Calm s t) : Calm s (t.readVictim q) := State.presentSpace_calm (State.setPass_calm h)

@[simp] theorem State.requestErase_calm (h : Calm s t) : Calm s (t.requestErase q) :=
  State.presentSpace_calm (State.setPass_calm (State.setSegState_calm h))

@[simp] theorem State.advance_calm (h : Calm s t) : Calm s (t.advance q) := by
  unfold State.advance
  repeat' split
  all_goals simp [h]

@[simp] theorem State.startCopy_calm {b : Body} (h : Calm s t) : Calm s (t.startCopy q b) := by
  unfold State.startCopy
  split
  · rename_i take
    exact State.presentSpace_calm (State.bumpSeq_calm (State.setPass_calm (State.copyGrant_calm h take)))
  · simp [h]

@[simp] theorem State.copyFailed_calm {b : Body} (h : Calm s t) : Calm s (t.copyFailed q b) := by
  unfold State.copyFailed
  split <;> simp [h]

@[simp] theorem State.acceptMove_calm {b : Body} {x y : Pos} (h : Calm s t) : Calm s (t.acceptMove b x y) :=
  State.setMove_calm (State.setDir_calm h)

@[simp] theorem State.copyBodyDone_calm {b : Body} (h : Calm s t) : Calm s (t.copyBodyDone q b pos ok) := by
  unfold State.copyBodyDone
  repeat' split
  all_goals simp (maxDischargeDepth := 6) [h]

@[simp] theorem State.copyCommitDone_calm {b : Body} (h : Calm s t) : Calm s (t.copyCommitDone q b pos ok) := by
  unfold State.copyCommitDone
  split
  · rename_i x _
    dsimp only
    have r : Calm s ((t.setDir (t.resolveMove x ok).1).setMove none) :=
      State.setMove_calm (State.setDir_calm h)
    split
    · exact State.copyFailed_calm (State.countDead_calm r)
    · exact State.advance_calm (State.countDead_calm r)
  · simp [h]

@[simp] theorem State.dropMarkDone_calm {b : Body} (h : Calm s t) : Calm s (t.dropMarkDone q b ok) := by
  unfold State.dropMarkDone
  split
  · exact State.advance_calm (State.countDead_calm (State.setDir_calm h))
  · split
    · exact State.startCopy_calm (State.setDir_calm h)
    · exact State.startCopy_calm h

@[simp] theorem State.victimRead_calm {r : CellRead} (h : Calm s t) : Calm s (t.victimRead q r) := by
  unfold State.victimRead State.handleNamed State.handleUnnamed
  dsimp only
  repeat' split
  all_goals simp [h]

@[simp] theorem State.recordErase_calm {g : Seg} {n : Nat} (h : Calm s t) : Calm s (t.recordErase g n ok) :=
  State.setSeg_calm h

@[simp] theorem State.degradeIfWorn_calm (h : Calm s t) : Calm s t.degradeIfWorn := by
  unfold State.degradeIfWorn
  split <;> simp [h]

@[simp] theorem State.eraseDone_calm {g : Seg} {n : Nat} (h : Calm s t) : Calm s (t.eraseDone q g n ok) := by
  unfold State.eraseDone
  extract_lets s₁ s₂
  have r : Calm s s₂ := State.setDir_calm (State.recordErase_calm h)
  split <;> simp (maxDischargeDepth := 6) [r]

@[simp] theorem State.passBody_calm (h : Calm s t) : Calm s (t.passBody q ok) := by
  unfold State.passBody
  split <;> simp [h]

@[simp] theorem State.passMark_calm (h : Calm s t) : Calm s (t.passMark q ok) := by
  unfold State.passMark
  split <;> simp [h]

/-! ## Mount -/

@[simp] theorem State.mountNext_calm {a : MountAwaits} {op : ArrayOp} (h : Calm s t) : Calm s (t.mountNext m a op) :=
  State.presentStore_calm (State.setProgress_calm h)

@[simp] theorem State.countTable_calm (h : Calm s t) : Calm s t.countTable := State.setSegs_calm h

@[simp] theorem State.mountHandover_calm (h : Calm s t) : Calm s t.mountHandover := by
  unfold State.mountHandover
  extract_lets kept removed s₁
  have r : Calm s s₁ := State.setProgress_calm (State.countTable_calm (State.setDir_calm h))
  split <;> simp [r]

@[simp] theorem State.mountUnformatted_calm (h : Calm s t) : Calm s t.mountUnformatted :=
  State.enterStore_calm (State.setProgress_calm (State.countTable_calm
    (State.setGuard_calm (State.setDir_calm h))))

@[simp] theorem State.mountWriteDefaults_calm {n : Nat} (h : Calm s t) : Calm s (t.mountWriteDefaults m n) := by
  unfold State.mountWriteDefaults
  split
  · rename_i take
    exact State.mountNext_calm (State.bumpSeq_calm (State.copyGrant_calm h take))
  · simp [h]

@[simp] theorem State.mountDefaultsFailed_calm {n : Nat} (h : Calm s t) : Calm s (t.mountDefaultsFailed m pos n) := by
  unfold State.mountDefaultsFailed
  split <;> simp [h]

@[simp] theorem State.mountConfigCommitted_calm (h : Calm s t) : Calm s (t.mountConfigCommitted pos) := by
  unfold State.mountConfigCommitted
  extract_lets b s₁
  have r : Calm s s₁ := State.commitBody_calm h
  exact State.mountHandover_calm (State.setGuard_calm r)

@[simp] theorem State.mountConfigRead_calm {r : CellRead} (h : Calm s t) : Calm s (t.mountConfigRead r) := by
  unfold State.mountConfigRead
  split
  · exact State.mountHandover_calm (State.setGuard_calm h)
  · exact State.mountHandover_calm (State.setGuard_calm h)

@[simp] theorem State.mountConfig_calm (h : Calm s t) : Calm s (t.mountConfig m) := by
  unfold State.mountConfig
  split <;> simp [h]

@[simp] theorem State.mountErases_calm (h : Calm s t) : Calm s (t.mountErases m) := by
  unfold State.mountErases
  split <;> simp [h]

@[simp] theorem State.mountTargets_calm (h : Calm s t) : Calm s (t.mountTargets m) := by
  unfold State.mountTargets
  split <;> simp [h]

@[simp] theorem State.mountMarked_calm (h : Calm s t) : Calm s (t.mountMarked m ok) := by
  unfold State.mountMarked
  split
  · refine State.mountTargets_calm ?_
    split
    · exact h
    · exact State.setDir_calm h
  · simp [h]

@[simp] theorem State.mountErased_calm {n : Nat} (h : Calm s t) : Calm s (t.mountErased m n ok) := by
  unfold State.mountErased
  dsimp only
  repeat' split
  all_goals simp [h]

@[simp] theorem State.mountTable_calm (h : Calm s t) : Calm s (t.mountTable m) := by
  unfold State.mountTable
  exact State.mountTargets_calm (State.setFrontFree_calm (State.setSegs_calm h))

@[simp] theorem State.mountChoose_calm (h : Calm s t) : Calm s (t.mountChoose m) :=
  State.mountTable_calm (State.setSeq_calm (State.setDir_calm h))

@[simp] theorem State.mountReadFrom_calm {n : Nat} (h : Calm s t) : Calm s (t.mountReadFrom m n) := by
  unfold State.mountReadFrom
  split <;> simp [h]

@[simp] theorem State.mountDataRead_calm {r : CellRead} (h : Calm s t) : Calm s (t.mountDataRead m pos r) := by
  unfold State.mountDataRead
  dsimp only
  split <;> simp [h]

@[simp] theorem State.mountBlanks_calm (h : Calm s t) : Calm s (t.mountBlanks m) := by
  unfold State.mountBlanks
  split <;> simp [h]

@[simp] theorem State.mountHeaderDone_calm {g : Seg} (h : Calm s t) : Calm s (t.mountHeaderDone m g ok) := by
  unfold State.mountHeaderDone
  split <;> simp [h]

@[simp] theorem State.mountNothing_calm (h : Calm s t) : Calm s (t.mountNothing m) :=
  State.enterStore_calm (State.setProgress_calm (State.setSeq_calm
    (State.setSegs_calm h)))

@[simp] theorem State.mountClassified_calm (h : Calm s t) : Calm s (t.mountClassified m) := by
  unfold State.mountClassified
  dsimp only
  split <;> simp [h]

@[simp] theorem State.mountHeaders_calm (h : Calm s t) : Calm s (t.mountHeaders m) := by
  unfold State.mountHeaders
  dsimp only
  split <;> simp [h]

@[simp] theorem State.mountHeaderRead_calm {g : Seg} {r : HeaderRead} (h : Calm s t) : Calm s (t.mountHeaderRead m g r) := by
  unfold State.mountHeaderRead
  repeat' split
  all_goals simp [h]

@[simp] theorem State.mountBlankRead_calm {r : CellRead} (h : Calm s t) : Calm s (t.mountBlankRead m pos r) := by
  unfold State.mountBlankRead
  dsimp only
  repeat' split
  all_goals simp [h]

@[simp] theorem State.mountRead_calm (h : Calm s t) : Calm s (t.mountRead m) := by
  unfold State.mountRead
  cases m.awaits with
  | header g => exact State.mountHeaderRead_calm h
  | blankCell pos => exact State.mountBlankRead_calm h
  | dataCell pos => exact State.mountDataRead_calm h
  | configRead =>
    dsimp only
    split
    · exact State.mountConfigRead_calm h
    · exact h
  | _ => exact h

@[simp] theorem State.mountBody_calm (h : Calm s t) : Calm s (t.mountBody m ok) := by
  unfold State.mountBody
  repeat' split
  all_goals simp [h]

@[simp] theorem State.mountHeader_calm (h : Calm s t) : Calm s (t.mountHeader m ok) := by
  unfold State.mountHeader
  split <;> simp [h]

@[simp] theorem State.mountMark_calm (h : Calm s t) : Calm s (t.mountMark m ok) := by
  unfold State.mountMark
  cases m.awaits with
  | wornMark g => exact State.mountHeaders_calm h
  | blankMark g => exact State.mountBlanks_calm h
  | repairMark => exact State.mountMarked_calm h
  | repairRetire g => exact State.mountErases_calm h
  | configMark pos attempt =>
    dsimp only
    split
    · exact State.mountConfigCommitted_calm h
    · exact State.mountDefaultsFailed_calm h
  | _ => exact h

@[simp] theorem State.mountErase_calm {n : Nat} (h : Calm s t) : Calm s (t.mountErase m n ok) := by
  unfold State.mountErase
  split <;> simp [h]

/-! ## FORMAT -/

variable {f : FormatAwaits}

/-- The end of FORMAT's command: the machine stays fine, and an Engine at any other command is not touched. -/
@[simp] theorem State.endFormat_calm {r : Cmd → Result} (h : Calm s t) : Calm s (t.endFormat r) := by
  refine h.trans ⟨fun ok => ?_, fun p b => ?_⟩
  · unfold State.endFormat State.formatCmd
    split
    · rename_i q c e
      split at e
      · rename_i q' c' w
        obtain ⟨rfl, rfl⟩ := Prod.mk.inj (Option.some.inj e)
        exact ok.endFormatting w
      · exact absurd e (by simp)
    · exact ok
  · unfold State.endFormat State.formatCmd
    split
    · rename_i q c e
      split at e
      · rename_i q' c' w
        exact absurd w (b.other q' c')
      · exact absurd e (by simp)
    · exact b

@[simp] theorem State.formatFailed_calm {aux : Half} (h : Calm s t) : Calm s (t.formatFailed aux) :=
  State.endFormat_calm (State.enterStore_calm (State.setProgress_calm
    (State.setGuard_calm h)))

@[simp] theorem State.formatDone_calm {n : Nat} (h : Calm s t) : Calm s (t.formatDone n) :=
  State.trigger_calm (State.endFormat_calm (State.enterStore_calm (State.setProgress_calm h)))

@[simp] theorem State.formatNext_calm {op : ArrayOp} (h : Calm s t) : Calm s (t.formatNext f op) :=
  State.presentStore_calm (State.setProgress_calm h)

@[simp] theorem State.formatWrite_calm {n : Nat} (h : Calm s t) : Calm s (t.formatWrite n) := by
  unfold State.formatWrite
  dsimp only
  split
  · rename_i take
    exact State.formatNext_calm (State.bumpSeq_calm (State.copyGrant_calm h take))
  · simp [h]

@[simp] theorem State.formatWriteFailed_calm {n : Nat} (h : Calm s t) : Calm s (t.formatWriteFailed pos n) := by
  unfold State.formatWriteFailed
  split <;> simp [h]

@[simp] theorem State.formatCommitted_calm {n : Nat} (h : Calm s t) : Calm s (t.formatCommitted pos n) := by
  unfold State.formatCommitted
  extract_lets b s₁
  have r : Calm s s₁ := State.commitBody_calm h
  exact State.formatDone_calm (State.setGuard_calm r)

@[simp] theorem State.formatErases_calm {n : Nat} {owes : List Seg} (h : Calm s t) : Calm s (t.formatErases n owes) := by
  unfold State.formatErases
  repeat' split
  all_goals simp [h]

@[simp] theorem State.formatErased_calm {g : Seg} {owes : List Seg} {n : Nat} (h : Calm s t) :
    Calm s (t.formatErased g owes n ok) := by
  unfold State.formatErased
  simp [h]

@[simp] theorem State.formatAfterReclaim_calm {g : Seg} {n : Nat} (h : Calm s t) : Calm s (t.formatAfterReclaim g n ok) := by
  unfold State.formatAfterReclaim
  dsimp only
  repeat' split
  all_goals simp [h]

/-- A parked scan that ends gives its place to its result. -/
@[simp] theorem State.endParked_calm (h : Calm s t) : Calm s (t.endParked p) := by
  unfold State.endParked
  split
  · rename_i parked
    refine h.trans ⟨fun ok => ⟨⟨fun q hq => ?_, ok.engine.2.1, ok.engine.2.2.1, ok.engine.2.2.2⟩, fun q => ?_⟩, fun q b =>
      ⟨b.work, b.other, ?_, b.wait, b.serves, b.held, fun r => ?_⟩⟩
    · rw [State.setPort_port_other]
      · exact ok.engine.1 q hq
      · rintro rfl
        have := ok.engine.1 q hq
        rw [parked] at this
        exact absurd this (by simp)
    · exact State.deposit_resultsOk ok.results (by rw [parked]; simp) q
    · rw [State.setPort_port_other]
      · exact b.slot
      · rintro rfl
        have := b.slot
        rw [parked] at this
        exact absurd this (by simp)
    · exact State.deposit_resultsOk b.results (by rw [parked]; simp) r
  · exact h

@[simp] theorem State.endScansAndClaims_calm (h : Calm s t) : Calm s t.endScansAndClaims := by
  unfold State.endScansAndClaims
  exact foldl_calm (fun _ _ => State.offer_calm (.refl _)) _ (State.setClaims_calm (foldl_calm (fun _ _ => State.endParked_calm (.refl _)) _ h))

@[simp] theorem State.formatAbandon_calm (h : Calm s t) : Calm s t.formatAbandon := by
  unfold State.formatAbandon
  split
  · dsimp only
    split
    · exact State.setSegState_calm (State.setPass_calm (State.withdrawSpace_calm h))
    · simp [h]
  · exact h

@[simp] theorem State.formatBodyDone_calm (h : Calm s t) : Calm s (t.formatBodyDone f ok) := by
  unfold State.formatBodyDone
  repeat' split
  all_goals simp [h]

@[simp] theorem State.formatMark_calm (h : Calm s t) : Calm s (t.formatMark f ok) := by
  unfold State.formatMark
  repeat' split
  all_goals simp [h]

@[simp] theorem State.formatErase_calm {n : Nat} (h : Calm s t) : Calm s (t.formatErase f n ok) := by
  unfold State.formatErase
  split <;> simp [h]

/-! ## Completions -/

@[simp] theorem State.deliverHeader_calm (h : Calm s t) : Calm s (t.deliverHeader ok) := by
  unfold State.deliverHeader
  split <;> simp [h]

@[simp] theorem State.deliverErase_calm {n : Nat} (h : Calm s t) : Calm s (t.deliverErase n ok) := by
  unfold State.deliverErase
  split <;> simp [h]

@[simp] theorem State.deliverReclaimErase_calm {g : Seg} {n : Nat} (h : Calm s t) : Calm s (t.deliverReclaimErase g n ok) := by
  unfold State.deliverReclaimErase
  split <;> simp [h]



end Sys2Proof.Machine
end

