-- ==== Sys2Proof/Laws/Deliver.lean ====
section
/-! SUPPORT. The completion rows, said once: a row whose operation is in flight leaves that operation's bytes, delivers DONE when they verify and the failure otherwise, and ends as every event does. -/

namespace Sys2Proof.Machine

variable {s : State} {r : Requester} {pos : Pos} {left : List Host.Cell}

theorem exec_cellReadDone {payload : Bool} (h : s.carries r (.readCell pos payload)) :
    exec .cellReadDone s = .next ((s.setInFlight none).deliverRead r pos payload).settle := by
  obtain ⟨run, age, f⟩ := h
  show execCellReadDone s = _
  simp only [execCellReadDone, run, f]
  rfl

theorem exec_bodyProgramDone {b : Body} (h : s.carries r (.programBody pos b)) :
    (s.bodyTakes pos b left → exec (.bodyProgramDone left) s = .next ((s.afterBody pos b left).deliverBody r pos true).settle) ∧
    (¬ s.bodyTakes pos b left → exec (.bodyProgramDone left) s = .next ((s.afterBody pos b left).deliverBody r pos false).settle) := by
  obtain ⟨run, age, f⟩ := h
  have e : exec (.bodyProgramDone left) s = .next (s.completeBody r pos b left).settle := by
    show execBodyProgramDone left s = _
    simp only [execBodyProgramDone, run, f]
  rw [e]
  unfold State.completeBody
  dsimp only
  exact ⟨fun t => by rw [decide_eq_true (show _ = _ from t)]; rfl, fun t => by rw [decide_eq_false (show ¬ _ = _ from t)]; rfl⟩

theorem exec_headerProgramDone {g : Seg} {gen : Generation} {n : Nat} (h : s.carries r (.programHeader g gen n)) :
    (s.headerTakes g gen n left → exec (.headerProgramDone left) s = .next ((s.afterHeader g gen n left).deliverHeader true).settle) ∧
    (¬ s.headerTakes g gen n left → exec (.headerProgramDone left) s = .next ((s.afterHeader g gen n left).deliverHeader false).settle) := by
  obtain ⟨run, age, f⟩ := h
  have e : exec (.headerProgramDone left) s = .next (s.completeHeader g gen n left).settle := by
    show execHeaderProgramDone left s = _
    simp only [execHeaderProgramDone, run, f]
  rw [e]
  unfold State.completeHeader
  dsimp only
  exact ⟨fun t => by rw [decide_eq_true (show _ = _ from t)]; rfl, fun t => by rw [decide_eq_false (show ¬ _ = _ from t)]; rfl⟩

theorem exec_markProgramDone {k : MarkKind} {fails : Bool} (h : s.carries r (.programMark pos k)) :
    (s.markTakes pos k fails → exec (.markProgramDone fails) s = .next ((s.afterMark pos k fails).deliverMark r pos true).settle) ∧
    (¬ s.markTakes pos k fails → exec (.markProgramDone fails) s = .next ((s.afterMark pos k fails).deliverMark r pos false).settle) := by
  obtain ⟨run, age, f⟩ := h
  have e : exec (.markProgramDone fails) s = .next (s.completeMark r pos k fails).settle := by
    show execMarkProgramDone fails s = _
    simp only [execMarkProgramDone, run, f]
  rw [e]
  unfold State.completeMark
  dsimp only
  exact ⟨fun t => by rw [decide_eq_true (show _ = _ from t)]; rfl, fun t => by rw [decide_eq_false (show ¬ _ = _ from t)]; rfl⟩

theorem exec_storeEraseDone {g : Seg} {gen : Generation} {n : Nat} (h : s.carries r (.eraseSegment g gen n)) :
    exec (.segmentEraseDone left) s =
      .next ((s.afterErase g gen n left).deliverErase n (eraseVerifies s.array.cells g gen n left)).settle := by
  obtain ⟨run, age, f⟩ := h
  show execSegmentEraseDone left s = _
  simp only [execSegmentEraseDone, run, f]
  rfl

theorem exec_reclaimEraseDone {e : EraseCtx} (run : s.running = true) (f : s.array.inFlight = none) (h : s.array.erase = some e)
    (moves : e.state ≠ .suspended) :
    exec (.segmentEraseDone left) s =
      .next ((s.afterReclaimErase e left).deliverReclaimErase e.seg e.count
        (eraseVerifies s.array.cells e.seg e.generation e.count left)).settle := by
  show execSegmentEraseDone left s = _
  have m : e.moving = true := by simpa [EraseCtx.moving] using moves
  simp only [execSegmentEraseDone, run, f, h, m, if_true]
  rfl

/-- The outcome recorded in the table is that of `withErased`. -/
theorem State.recordErase_eq (g : Seg) (n : Nat) (ok : Bool) : s.recordErase g n ok = s.withErased g n ok := rfl

theorem State.withErased_seg (g : Seg) (n : Nat) (ok : Bool) :
    ((s.withErased g n ok).seg g).state = if ok = true ∧ n < 50000 then .free else .retired := by
  simp [State.withErased, State.seg, State.setSeg]

/-- After an erase that FORMAT records, the segment owes its retired mark exactly when it is RETIRED (R17, R167). -/
theorem State.owesMark_withErased (g : Seg) (n : Nat) (ok : Bool) :
    (s.withErased g n ok).owesMark g = if ok = true ∧ n < 50000 then [] else [g] := by
  unfold State.owesMark
  rw [State.withErased_seg]
  by_cases h : ok = true ∧ n < 50000 <;> simp [h]

end Sys2Proof.Machine
end

