-- ==== Sys2Proof/Laws/Engine.lean ====
section
/-! SUPPORT. The Engine's rows: what a row makes of a machine whose Engine has taken its command. -/

namespace Sys2Proof.Machine

variable {s : State} {p : Port} {c : Cmd} {code : Byte} {f : Port → Cmd → State}

/-- A row that executes a command is its meaning and what every event ends with. -/
theorem State.perform_starts (h : s.starts p c) (hc : c.code = code) : s.perform code f = .next (f p c).settle := by
  obtain ⟨w, r, o⟩ := h
  unfold State.perform State.takenCmd
  simp [w, r, o, hc]

theorem State.checked_fail {r : Reason} {key : Key} {go : State} : s.checked p c (some r) key go = s.endCommand p (c.ic r key) := rfl

theorem State.checked_pass {key : Key} {go : State} : s.checked p c none key go = go := rfl

theorem State.endCommand_eq (r : Result) :
    s.endCommand p r = (s.setPort p
      { s.port p with
        slot := .none
        results := if (s.port p).state = .active then (s.port p).results ++ [r] else (s.port p).results }).setWork .idle := by
  unfold State.endCommand PortUnit.deposit
  cases h : (s.port p).state <;> simp [h]

theorem keyOk_false {k : Key} : keyOk k = false ↔ k = 0x0000#16 ∨ k = 0xFFFF#16 := by
  simp [keyOk, Config.configKey, Config.noKey]
  tauto

theorem keyOk_true {k : Key} : keyOk k = true ↔ k ≠ 0x0000#16 ∧ k ≠ 0xFFFF#16 := by
  simp [keyOk, Config.configKey, Config.noKey]

/-- The payload of an update once its cell is granted: the one it has, or the one taken from its port's buffer, with its check (R74). -/
theorem State.withPayload_spec (s : State) (p : Port) (c : Cmd) (u : Update) :
    ∃ (bytes : List Byte) (check : Half), (∀ b, u.payload = some b → (bytes, check) = b) ∧
      (u.payload = none → check = crc16 bytes ∧
        bytes = if c.code = codePatch then patchPayload u.old c.patchOffset (bufferTake (s.port p).buffer c.bufOffset c.dataLength)
          else bufferTake (s.port p).buffer c.bufOffset c.dataLength) ∧
      ∀ t : State, t.port p = s.port p → t.withPayload p c u = { u with payload := some (bytes, check) } := by
  cases hp : u.payload with
  | some x =>
    refine ⟨x.1, x.2, fun b hb => by cases hb; rfl, (fun h => nomatch h), fun t _ => ?_⟩
    unfold State.withPayload
    cases u
    simp_all
  | none =>
    refine ⟨_, _, (fun b hb => nomatch hb), (fun _ => ⟨rfl, rfl⟩), fun t ht => ?_⟩
    unfold State.withPayload State.takeUp withCheck
    simp only [ht, hp]

/-! ## Offers, degrade and the trigger: what they leave -/

@[simp] theorem State.offer_engine (e : Event) : (s.offer p e).engine = s.engine := rfl
@[simp] theorem State.offer_coord (e : Event) : (s.offer p e).coord = s.coord := rfl
@[simp] theorem State.offer_array (e : Event) : (s.offer p e).array = s.array := rfl
@[simp] theorem State.offer_space (e : Event) : (s.offer p e).space = s.space := rfl
@[simp] theorem State.offer_guard (e : Event) : (s.offer p e).guard = s.guard := rfl
@[simp] theorem State.offer_store (e : Event) : (s.offer p e).store = s.store := rfl

@[simp] theorem State.enterStore_engine (st : StoreState) : (s.enterStore st).engine = s.engine := rfl
@[simp] theorem State.enterStore_coord (st : StoreState) : (s.enterStore st).coord = s.coord := rfl
@[simp] theorem State.enterStore_array (st : StoreState) : (s.enterStore st).array = s.array := rfl
@[simp] theorem State.enterStore_space (st : StoreState) : (s.enterStore st).space = s.space := rfl
@[simp] theorem State.enterStore_guard (st : StoreState) : (s.enterStore st).guard = s.guard := rfl

@[simp] theorem State.endCommand_dir (r : Result) : (s.endCommand p r).engine.dir = s.engine.dir := rfl
@[simp] theorem State.endCommand_coord (r : Result) : (s.endCommand p r).coord = s.coord := rfl
@[simp] theorem State.endCommand_array (r : Result) : (s.endCommand p r).array = s.array := rfl
@[simp] theorem State.endCommand_space (r : Result) : (s.endCommand p r).space = s.space := rfl

/-- A refused held request leaves the directory, the coordination state, the array and the segment table. -/
theorem State.refuseHeld_leaves :
    s.refuseHeld.engine.dir = s.engine.dir ∧ s.refuseHeld.coord = s.coord ∧ s.refuseHeld.array = s.array ∧
      s.refuseHeld.space.segs = s.space.segs ∧ s.refuseHeld.space.frontFree = s.space.frontFree := by
  unfold State.refuseHeld
  split
  · split <;> exact ⟨rfl, rfl, rfl, rfl, rfl⟩
  · exact ⟨rfl, rfl, rfl, rfl, rfl⟩

/-- A degrade signal leaves the directory, the coordination state, the array and the segment table. -/
theorem State.degrade_leaves :
    s.degrade.engine.dir = s.engine.dir ∧ s.degrade.coord = s.coord ∧ s.degrade.array = s.array ∧
      s.degrade.space.segs = s.space.segs ∧ s.degrade.space.frontFree = s.space.frontFree := by
  unfold State.degrade
  split
  · simpa using State.refuseHeld_leaves (s := s.enterStore .degraded)
  · exact ⟨rfl, rfl, rfl, rfl, rfl⟩

/-- The trigger leaves the directory, the coordination state, the Engine's waiting request and the bytes of the array. -/
theorem State.trigger_leaves :
    s.trigger.engine.dir = s.engine.dir ∧ s.trigger.coord = s.coord ∧ s.trigger.array.waitEngine = s.array.waitEngine ∧
      s.trigger.array.cells = s.array.cells ∧ s.trigger.space.frontFree = s.space.frontFree := by
  unfold State.trigger
  split
  · split
    · exact ⟨rfl, rfl, rfl, rfl, rfl⟩
    · split
      · exact ⟨rfl, rfl, rfl, rfl, rfl⟩
      · have h := State.degrade_leaves (s := s)
        exact ⟨h.1, h.2.1, by rw [h.2.2.1], by rw [h.2.2.1], h.2.2.2.2⟩
  · exact ⟨rfl, rfl, rfl, rfl, rfl⟩

/-! ## Commits: what they leave -/

/-- A commit report is made to the ports alone. -/
theorem State.reportCommit_ports (s : State) (k : Key) (before after : KeyState) (v : Version) (a : Author) :
    s.reportCommit k before after v a = { s with ports := (s.reportCommit k before after v a).ports } := by
  unfold State.reportCommit
  generalize allPorts = l
  induction l generalizing s with
  | nil => rfl
  | cons p l ih =>
    rw [List.foldl_cons, ih]
    unfold State.offerWatch
    split
    · split <;> rfl
    · rfl

/-- A commit leaves everything but the directory and the ports. -/
theorem State.commitBody_leaves (s : State) (b : Body) (pos : Pos) :
    (s.commitBody b pos).store = s.store ∧ (s.commitBody b pos).guard = s.guard ∧ (s.commitBody b pos).space = s.space ∧
      (s.commitBody b pos).array = s.array ∧ (s.commitBody b pos).coord = s.coord ∧ (s.commitBody b pos).pins = s.pins ∧
      (s.commitBody b pos).engine.work = s.engine.work ∧ (s.commitBody b pos).engine.seq = s.engine.seq ∧
      (s.commitBody b pos).engine.move = s.engine.move := by
  unfold State.commitBody
  dsimp only
  rw [State.reportCommit_ports]
  exact ⟨rfl, rfl, rfl, rfl, rfl, rfl, rfl, rfl, rfl⟩

end Sys2Proof.Machine
end

