-- ==== Sys2Proof/Laws/Frames.lean ====
section
/-! SUPPORT. Frames: what each moment of a frame makes of the machine, what a whole frame does, and what a frame that ends leaves at its port. -/

namespace Sys2Proof.Machine

variable {s : State} {p : Port} {k : FrameKind} {off n : Nat} {whole : Bool} {effect : FrameEffect}

/-! ## A port whose frame ends -/

@[simp] theorem State.ended_port (s : State) (p : Port) (out : List Byte) :
    (s.ended p out).port p = { s.port p with frame := none, dataOut := out } := by
  simp [State.ended]

@[simp] theorem State.ended_setPort (s : State) (p : Port) (out : List Byte) (u : PortUnit) :
    (s.ended p out).setPort p u = s.setPort p u := by
  simp [State.ended]

@[simp] theorem State.ended_engine (s : State) (p : Port) (out : List Byte) : (s.ended p out).engine = s.engine := rfl

@[simp] theorem State.ended_coord (s : State) (p : Port) (out : List Byte) : (s.ended p out).coord = s.coord := rfl

@[simp] theorem State.ended_guard (s : State) (p : Port) (out : List Byte) : (s.ended p out).guard = s.guard := rfl

@[simp] theorem State.ended_space (s : State) (p : Port) (out : List Byte) : (s.ended p out).space = s.space := rfl

@[simp] theorem State.ended_array (s : State) (p : Port) (out : List Byte) : (s.ended p out).array = s.array := rfl

@[simp] theorem State.ended_store (s : State) (p : Port) (out : List Byte) : (s.ended p out).store = s.store := rfl

@[simp] theorem State.ended_pins (s : State) (p : Port) (out : List Byte) : (s.ended p out).pins = s.pins := rfl

@[simp] theorem State.ended_pending (s : State) (p : Port) (out : List Byte) : (s.ended p out).pending = s.pending := rfl

/-! ## The record and the bytes driven do not depend on the frame decoder -/

theorem State.recordFor_setFrame (s : State) (p : Port) (f : Option Frame) (k : FrameKind) :
    (s.setPort p { s.port p with frame := f }).recordFor p k = s.recordFor p k := by
  unfold State.recordFor statusBytes
  cases k <;> simp

theorem State.fixRecord_setFrame (s : State) (p : Port) (f : Option Frame) (g : Frame) :
    (s.setPort p { s.port p with frame := f }).fixRecord p g = s.fixRecord p g := by
  unfold State.fixRecord
  rw [State.recordFor_setFrame]

theorem State.driven_setFrame (s : State) (p : Port) (f : Option Frame) (g : Frame) (off n : Nat) :
    (s.setPort p { s.port p with frame := f }).driven p g off n = s.driven p g off n := by
  unfold State.driven State.bufferOut
  simp

theorem State.frameEnd_setFrame (s : State) (p : Port) (f : Option Frame) (g : Frame) :
    (s.setPort p { s.port p with frame := f }).frameEnd p g off n whole effect = s.frameEnd p g off n whole effect := by
  unfold State.frameEnd
  rw [State.driven_setFrame]
  simp [State.ended]

/-! ## Moments -/

@[simp] theorem Frame.begun_kind (k : FrameKind) (r : Bool) : (Frame.begun k r).kind = k := rfl

@[simp] theorem Frame.begun_resetting (k : FrameKind) (r : Bool) : (Frame.begun k r).resetting = r := rfl

@[simp] theorem Frame.begun_record (k : FrameKind) (r : Bool) : (Frame.begun k r).record = none := rfl

@[simp] theorem Frame.begun_out (k : FrameKind) (r : Bool) : (Frame.begun k r).out = [] := rfl

/-- The select line asserted at a port with no frame in progress. -/
theorem State.frameMoment_select (run : s.running = true) (idle : (s.port p).frame = none) :
    s.frameMoment p k .select off effect =
      s.setPort p { s.port p with frame := some (Frame.begun k ((s.port p).state == .resetting)) } := by
  simp [State.frameMoment, run, State.openFrame, idle]

/-- The kind byte clocked in a frame of this kind. -/
theorem State.frameMoment_kindByte {f : Frame} (run : s.running = true) (open_ : (s.port p).frame = some f) (kind : f.kind = k) :
    s.frameMoment p k .kindByte off effect = s.setPort p { s.port p with frame := some (s.fixRecord p f) } := by
  simp [State.frameMoment, run, State.clockKind, open_, kind]

/-- The select line released in a frame of this kind. -/
theorem State.frameMoment_release {f : Frame} (run : s.running = true) (open_ : (s.port p).frame = some f) (kind : f.kind = k) :
    s.frameMoment p k (.release n whole) off effect = s.frameEnd p (s.frameAtEnd p f n) off n whole effect := by
  simp [State.frameMoment, run, State.closeFrame, open_, kind]

/-- A whole frame at a port with no frame in progress. -/
theorem State.frameMoment_entire (run : s.running = true) (idle : (s.port p).frame = none) :
    s.frameMoment p k (.entire n whole) off effect =
      s.frameEnd p (s.frameAtEnd p (Frame.begun k ((s.port p).state == .resetting)) n) off n whole effect := by
  unfold State.frameMoment State.openFrame State.closeFrame State.frameAtEnd
  simp only [run, idle, if_true, State.setPort_port]
  rw [Frame.begun_kind, if_pos rfl, State.frameEnd_setFrame, State.fixRecord_setFrame]

/-- A fixed record is not fixed again. -/
theorem State.fixRecord_fixed {f : Frame} {bs : List Byte} (h : f.record = some bs) : s.fixRecord p f = f := by
  simp [State.fixRecord, h]

/-- A frame that is not refused has its effect on a port whose frame has ended. -/
theorem State.frameEnd_accepted {f : Frame} (h : f.refused n whole = false) :
    s.frameEnd p f off n whole effect = effect n f (s.ended p (s.driven p f off n)) := by
  simp [State.frameEnd, h]

/-- A frame that is refused has no effect but the flag. -/
theorem State.frameEnd_refused {f : Frame} (h : f.refused n whole = true) :
    s.frameEnd p f off n whole effect = (s.ended p (s.driven p f off n)).refuseFrame p f := by
  simp [State.frameEnd, h]

theorem padTo_length (n : Nat) (bs : List Byte) : (padTo n bs).length = n := by
  simp [padTo]

theorem padTo_zeros {n m : Nat} : padTo n (List.replicate m 0#8) = List.replicate n 0#8 := by
  unfold padTo
  rw [List.replicate_append_replicate, List.take_replicate]
  congr 1
  omega

end Sys2Proof.Machine
end

