-- ==== Sys2Proof/Laws/GuardEn.lean ====
section
/-! SUPPORT. The level of GUARD_EN: no operation but the lock check in PIN and GUARD READ's report depends on it, and none but the line's own change alters it (R125). Each operation, said once: at another level it does the same. -/

namespace Sys2Proof.Machine

variable {s : State} {lv : Bool}

@[simp] theorem State.engine_atLevel : (s.atLevel lv).engine = s.engine := rfl
@[simp] theorem State.ports_atLevel : (s.atLevel lv).ports = s.ports := rfl
@[simp] theorem State.coord_atLevel : (s.atLevel lv).coord = s.coord := rfl
@[simp] theorem State.guard_atLevel : (s.atLevel lv).guard = s.guard := rfl
@[simp] theorem State.space_atLevel : (s.atLevel lv).space = s.space := rfl
@[simp] theorem State.array_atLevel : (s.atLevel lv).array = s.array := rfl
@[simp] theorem State.store_atLevel : (s.atLevel lv).store = s.store := rfl
@[simp] theorem State.pending_atLevel : (s.atLevel lv).pending = s.pending := rfl

/-! ## State and its setters -/

@[simp] theorem State.port_atLevel (p : Port) : (s.atLevel lv).port p = s.port p := by rfl
@[simp] theorem State.setPort_atLevel (p : Port) (u : PortUnit) : (s.atLevel lv).setPort p u = (s.setPort p u).atLevel lv := by rfl
@[simp] theorem State.setWork_atLevel (w : Work) : (s.atLevel lv).setWork w = (s.setWork w).atLevel lv := by rfl
@[simp] theorem State.setPointer_atLevel (p : Port) : (s.atLevel lv).setPointer p = (s.setPointer p).atLevel lv := by rfl
@[simp] theorem State.setDir_atLevel (d : List Entry) : (s.atLevel lv).setDir d = (s.setDir d).atLevel lv := by rfl
@[simp] theorem State.setMove_atLevel (m : Option Move) : (s.atLevel lv).setMove m = (s.setMove m).atLevel lv := by rfl
@[simp] theorem State.setSeq_atLevel (n : SeqNo) : (s.atLevel lv).setSeq n = (s.setSeq n).atLevel lv := by rfl
@[simp] theorem State.setClaims_atLevel (cs : List Claim) : (s.atLevel lv).setClaims cs = (s.setClaims cs).atLevel lv := by rfl

@[simp] theorem State.setWatches_atLevel (p : Port) (ws : List Watch) :
    (s.atLevel lv).setWatches p ws = (s.setWatches p ws).atLevel lv := by rfl

@[simp] theorem State.setGuard_atLevel (g : GuardUnit) : (s.atLevel lv).setGuard g = (s.setGuard g).atLevel lv := by rfl
@[simp] theorem State.setSegs_atLevel (v : Vector SegRow 256) : (s.atLevel lv).setSegs v = (s.setSegs v).atLevel lv := by rfl
@[simp] theorem State.setFrontFree_atLevel (l : List CellNo) : (s.atLevel lv).setFrontFree l = (s.setFrontFree l).atLevel lv := by rfl
@[simp] theorem State.setPass_atLevel (p : Option Pass) : (s.atLevel lv).setPass p = (s.setPass p).atLevel lv := by rfl
@[simp] theorem State.setHeld_atLevel (b : Bool) : (s.atLevel lv).setHeld b = (s.setHeld b).atLevel lv := by rfl
@[simp] theorem State.setCells_atLevel (c : List Host.Cell) : (s.atLevel lv).setCells c = (s.setCells c).atLevel lv := by rfl
@[simp] theorem State.setInFlight_atLevel (f : Option InFlight) : (s.atLevel lv).setInFlight f = (s.setInFlight f).atLevel lv := by rfl
@[simp] theorem State.setErase_atLevel (e : Option EraseCtx) : (s.atLevel lv).setErase e = (s.setErase e).atLevel lv := by rfl
@[simp] theorem State.presentEngine_atLevel (op : ArrayOp) : (s.atLevel lv).presentEngine op = (s.presentEngine op).atLevel lv := by rfl
@[simp] theorem State.presentSpace_atLevel (op : ArrayOp) : (s.atLevel lv).presentSpace op = (s.presentSpace op).atLevel lv := by rfl
@[simp] theorem State.presentStore_atLevel (op : ArrayOp) : (s.atLevel lv).presentStore op = (s.presentStore op).atLevel lv := by rfl
@[simp] theorem State.withdrawSpace_atLevel : (s.atLevel lv).withdrawSpace = s.withdrawSpace.atLevel lv := by rfl
@[simp] theorem State.setStoreState_atLevel (st : StoreState) : (s.atLevel lv).setStoreState st = (s.setStoreState st).atLevel lv := by rfl
@[simp] theorem State.setGeneration_atLevel (g : Generation) : (s.atLevel lv).setGeneration g = (s.setGeneration g).atLevel lv := by rfl
@[simp] theorem State.setProgress_atLevel (x : Progress) : (s.atLevel lv).setProgress x = (s.setProgress x).atLevel lv := by rfl
@[simp] theorem State.bumpSeq_atLevel : (s.atLevel lv).bumpSeq = s.bumpSeq.atLevel lv := by rfl
@[simp] theorem State.seg_atLevel (g : Seg) : (s.atLevel lv).seg g = s.seg g := by rfl
@[simp] theorem State.setSeg_atLevel (g : Seg) (r : SegRow) : (s.atLevel lv).setSeg g r = (s.setSeg g r).atLevel lv := by rfl

@[simp] theorem State.setSegState_atLevel (g : Seg) (st : SegState) :
    (s.atLevel lv).setSegState g st = (s.setSegState g st).atLevel lv := by rfl

@[simp] theorem State.countSegs_atLevel (st : SegState) : (s.atLevel lv).countSegs st = s.countSegs st := by rfl
@[simp] theorem State.freeCount_atLevel : (s.atLevel lv).freeCount = s.freeCount := by rfl
@[simp] theorem State.usableCount_atLevel : (s.atLevel lv).usableCount = s.usableCount := by rfl
@[simp] theorem State.front_atLevel : (s.atLevel lv).front = s.front := by rfl
@[simp] theorem State.countDead_atLevel (pos : Pos) : (s.atLevel lv).countDead pos = (s.countDead pos).atLevel lv := by rfl
@[simp] theorem State.isOpen_atLevel : (s.atLevel lv).isOpen = s.isOpen := by rfl
@[simp] theorem State.running_atLevel : (s.atLevel lv).running = s.running := by rfl

/-! ## Flags and operands -/

@[simp] theorem State.setFlag_atLevel (p : Port) (f : Flags) : (s.atLevel lv).setFlag p f = (s.setFlag p f).atLevel lv := by rfl
@[simp] theorem statusBytes_atLevel (p : Port) : statusBytes (s.atLevel lv) p = statusBytes s p := by rfl
@[simp] theorem State.guardOfPort_atLevel (p : Port) : (s.atLevel lv).guardOfPort p = s.guardOfPort p := by rfl

/-! ## Events and ends of commands -/

@[simp] theorem State.offer_atLevel (p : Port) (e : Event) : (s.atLevel lv).offer p e = (s.offer p e).atLevel lv := by rfl
@[simp] theorem State.offerAll_atLevel (e : Event) : (s.atLevel lv).offerAll e = (s.offerAll e).atLevel lv := by rfl
@[simp] theorem State.enterStore_atLevel (st : StoreState) : (s.atLevel lv).enterStore st = (s.enterStore st).atLevel lv := by rfl
@[simp] theorem State.endCommand_atLevel (p : Port) (r : Result) : (s.atLevel lv).endCommand p r = (s.endCommand p r).atLevel lv := by rfl
@[simp] theorem State.versionOf_atLevel (k : Key) : (s.atLevel lv).versionOf k = s.versionOf k := by rfl
@[simp] theorem State.endGuarded_atLevel (p : Port) (r : Result) : (s.atLevel lv).endGuarded p r = (s.endGuarded p r).atLevel lv := by rfl

/-! ## The Space Manager's table -/

@[simp] theorem betterFree_atLevel (best : Option Seg) (g : Seg) : betterFree (s.atLevel lv) best g = betterFree s best g := by rfl
@[simp] theorem State.bestFree_atLevel : (s.atLevel lv).bestFree = s.bestFree := rfl

@[simp] theorem State.closeFront_atLevel : (s.atLevel lv).closeFront = s.closeFront.atLevel lv := by
  unfold State.closeFront
  (repeat' split) <;> simp_all

@[simp] theorem State.openFront_atLevel (g : Seg) : (s.atLevel lv).openFront g = (s.openFront g).atLevel lv := by
  unfold State.openFront
  simp

@[simp] theorem State.takeFront_atLevel : (s.atLevel lv).takeFront = s.takeFront.map (fun x => (x.1, x.2.atLevel lv)) := by
  simp only [State.takeFront, State.front_atLevel, State.space_atLevel]
  split <;> simp

@[simp] theorem State.takeNewFront_atLevel : (s.atLevel lv).takeNewFront = s.takeNewFront.map (fun x => (x.1, x.2.atLevel lv)) := by
  simp only [State.takeNewFront, State.bestFree_atLevel]
  split <;> simp

@[simp] theorem State.copyGrant_atLevel : (s.atLevel lv).copyGrant = s.copyGrant.map (fun x => (x.1, x.2.atLevel lv)) := by
  simp only [State.copyGrant, State.takeFront_atLevel, State.takeNewFront_atLevel]
  cases s.takeFront <;> simp

@[simp] theorem State.canGrant_atLevel : (s.atLevel lv).canGrant = s.canGrant := rfl
@[simp] theorem State.heldDue_atLevel : (s.atLevel lv).heldDue = s.heldDue := by rfl

@[simp] theorem State.endReadOnly_atLevel (p : Port) (c : Cmd) (u : Update) :
    (s.atLevel lv).endReadOnly p c u = (s.endReadOnly p c u).atLevel lv := by rfl

@[simp] theorem State.refuseHeld_atLevel : (s.atLevel lv).refuseHeld = s.refuseHeld.atLevel lv := by
  unfold State.refuseHeld
  (repeat' split) <;> simp_all

@[simp] theorem State.degrade_atLevel : (s.atLevel lv).degrade = s.degrade.atLevel lv := by
  unfold State.degrade
  (repeat' split) <;> simp_all

@[simp] theorem betterVictim_atLevel (best : Option Seg) (g : Seg) : betterVictim (s.atLevel lv) best g = betterVictim s best g := by rfl
@[simp] theorem State.victim_atLevel : (s.atLevel lv).victim = s.victim := by rfl
@[simp] theorem State.passFits_atLevel (v : Seg) : (s.atLevel lv).passFits v = s.passFits v := by rfl
@[simp] theorem State.startPass_atLevel (v : Seg) : (s.atLevel lv).startPass v = (s.startPass v).atLevel lv := by rfl

@[simp] theorem State.trigger_atLevel : (s.atLevel lv).trigger = s.trigger.atLevel lv := by
  unfold State.trigger
  (repeat' split) <;> simp_all

@[simp] theorem State.reportDead_atLevel (pos : Pos) : (s.atLevel lv).reportDead pos = (s.reportDead pos).atLevel lv := by
  unfold State.reportDead
  simp

@[simp] theorem State.reportSuperseded_atLevel (pos : Pos) (key : Key) (done : Bool) :
    (s.atLevel lv).reportSuperseded pos key done = (s.reportSuperseded pos key done).atLevel lv := by
  unfold State.reportSuperseded
  simp

/-! ## The arbiters -/

@[simp] theorem State.urgent_atLevel : (s.atLevel lv).urgent = s.urgent := by rfl
@[simp] theorem State.grantOp_atLevel (r : Requester) (op : ArrayOp) : (s.atLevel lv).grantOp r op = (s.grantOp r op).atLevel lv := by rfl
@[simp] theorem State.grantEngine_atLevel (op : ArrayOp) : (s.atLevel lv).grantEngine op = (s.grantEngine op).atLevel lv := by rfl

@[simp] theorem State.grantSpace_atLevel (op : ArrayOp) : (s.atLevel lv).grantSpace op = (s.grantSpace op).atLevel lv := by
  unfold State.grantSpace
  split <;> rfl

@[simp] theorem State.grantStore_atLevel (op : ArrayOp) : (s.atLevel lv).grantStore op = (s.grantStore op).atLevel lv := by rfl

@[simp] theorem State.arbitrateFree_atLevel : (s.atLevel lv).arbitrateFree = s.arbitrateFree.atLevel lv := by
  unfold State.arbitrateFree
  (repeat' split) <;> simp_all

@[simp] theorem State.arbitrateSuspended_atLevel (e : EraseCtx) :
    (s.atLevel lv).arbitrateSuspended e = (s.arbitrateSuspended e).atLevel lv := by
  unfold State.arbitrateSuspended
  (repeat' split) <;> simp_all

@[simp] theorem State.arbitrate_atLevel : (s.atLevel lv).arbitrate = s.arbitrate.atLevel lv := by
  unfold State.arbitrate
  (repeat' split) <;> simp_all

@[simp] theorem State.eligible_atLevel (p : Port) : (s.atLevel lv).eligible p = s.eligible p := by rfl
@[simp] theorem State.anyResetDue_atLevel : (s.atLevel lv).anyResetDue = s.anyResetDue := by rfl

@[simp] theorem State.takePort_atLevel (p : Port) : (s.atLevel lv).takePort p = (s.takePort p).atLevel lv := by
  unfold State.takePort
  dsimp only
  (repeat' split) <;> simp_all

@[simp] theorem State.select_atLevel : (s.atLevel lv).select = s.select.atLevel lv := by
  unfold State.select
  (repeat' split) <;> simp_all

@[simp] theorem State.settle_atLevel : (s.atLevel lv).settle = s.settle.atLevel lv := by
  unfold State.settle
  (repeat' split) <;> simp_all

@[simp] theorem State.takenCmd_atLevel (code : Byte) : (s.atLevel lv).takenCmd code = s.takenCmd code := rfl

theorem State.perform_atLevel (code : Byte) (f : State → Port → Cmd → State) (h : ∀ p c, f (s.atLevel lv) p c = (f s p c).atLevel lv) :
    (s.atLevel lv).perform code (f (s.atLevel lv)) = outcomeAtLevel lv (s.perform code (f s)) := by
  simp only [State.perform, State.takenCmd_atLevel]
  split
  · simp [h, outcomeAtLevel]
  · rfl

@[simp] theorem State.whenDue_atLevel (due : Bool) (t : State) :
    State.whenDue due (t.atLevel lv) = outcomeAtLevel lv (State.whenDue due t) := by
  cases due <;> simp [State.whenDue, outcomeAtLevel]

theorem foldl_atLevel {α : Type} (f : State → α → State) (h : ∀ s x,
    f (State.atLevel s lv) x = (f s x).atLevel lv) (xs : List α) (s : State) :
    xs.foldl f (s.atLevel lv) = (xs.foldl f s).atLevel lv := by
  induction xs generalizing s with
  | nil => rfl
  | cons x xs ih => rw [List.foldl_cons, h, ih, List.foldl_cons]

/-! ## Updates -/

@[simp] theorem State.takeUp_atLevel (p : Port) (c : Cmd) (u : Update) : (s.atLevel lv).takeUp p c u = s.takeUp p c u := by rfl

@[simp] theorem State.withPayload_atLevel (p : Port) (c : Cmd) (u : Update) : (s.atLevel lv).withPayload p c u = s.withPayload p c u := by
  rfl

@[simp] theorem State.grantGiven_atLevel (p : Port) (c : Cmd) (u : Update) (pos : Pos) :
    (s.atLevel lv).grantGiven p c u pos = (s.grantGiven p c u pos).atLevel lv := by rfl

@[simp] theorem State.requestGrant_atLevel (p : Port) (c : Cmd) (u : Update) :
    (s.atLevel lv).requestGrant p c u = (s.requestGrant p c u).atLevel lv := by
  unfold State.requestGrant
  simp only [State.setWork_atLevel, State.store_atLevel, State.takeFront_atLevel, State.takeNewFront_atLevel, State.freeCount_atLevel]
  split
  · simp
  · cases State.takeFront _ <;> simp
    split
    · cases State.takeNewFront _ <;> simp
    · rfl

@[simp] theorem State.answerHeld_atLevel : (s.atLevel lv).answerHeld = s.answerHeld.atLevel lv := by
  unfold State.answerHeld
  simp only [State.engine_atLevel, State.setHeld_atLevel, State.copyGrant_atLevel]
  split
  · cases State.copyGrant _ <;> simp
  · simp

@[simp] theorem State.endProgramFail_atLevel (p : Port) (c : Cmd) (u : Update) :
    (s.atLevel lv).endProgramFail p c u = (s.endProgramFail p c u).atLevel lv := by rfl

@[simp] theorem State.attemptFailed_atLevel (p : Port) (c : Cmd) (u : Update) (pos : Pos) :
    (s.atLevel lv).attemptFailed p c u pos = (s.attemptFailed p c u pos).atLevel lv := by
  unfold State.attemptFailed
  split <;> simp

@[simp] theorem State.updateBody_atLevel (p : Port) (c : Cmd) (u : Update) (pos : Pos) (ok : Bool) :
    (s.atLevel lv).updateBody p c u pos ok = (s.updateBody p c u pos ok).atLevel lv := by
  unfold State.updateBody
  split <;> simp

@[simp] theorem State.offerWatch_atLevel (k : Key) (t : Triggers) (v : Version) (a : Author) (p : Port) :
    (s.atLevel lv).offerWatch k t v a p = (s.offerWatch k t v a p).atLevel lv := by
  unfold State.offerWatch
  (repeat' split) <;> simp_all

@[simp] theorem State.reportCommit_atLevel (k : Key) (b a : KeyState) (v : Version) (x : Author) :
    (s.atLevel lv).reportCommit k b a v x = (s.reportCommit k b a v x).atLevel lv :=
  foldl_atLevel _ (fun _ _ => State.offerWatch_atLevel ..) _ _

@[simp] theorem State.commitBody_atLevel (b : Body) (pos : Pos) : (s.atLevel lv).commitBody b pos = (s.commitBody b pos).atLevel lv := by
  unfold State.commitBody
  simp

@[simp] theorem State.adoptGuardSet_atLevel (p : Port) (c : Cmd) (u : Update) :
    (s.atLevel lv).adoptGuardSet p c u = (s.adoptGuardSet p c u).atLevel lv := by
  unfold State.adoptGuardSet
  dsimp only [State.guard_atLevel]
  split
  · rw [State.setGuard_atLevel, foldl_atLevel _ (fun _ _ => State.offer_atLevel ..)]
  · simp

@[simp] theorem State.finishUpdate_atLevel (p : Port) (c : Cmd) (u : Update) :
    (s.atLevel lv).finishUpdate p c u = (s.finishUpdate p c u).atLevel lv := by rfl

@[simp] theorem State.retryStep_atLevel (p : Port) (c : Cmd) (u : Update) :
    (s.atLevel lv).retryStep p c u = (s.retryStep p c u).atLevel lv := by
  unfold State.retryStep
  (repeat' split) <;> simp_all

@[simp] theorem State.updateCommitted_atLevel (p : Port) (c : Cmd) (u : Update) (pos : Pos) :
    (s.atLevel lv).updateCommitted p c u pos = (s.updateCommitted p c u pos).atLevel lv := by
  unfold State.updateCommitted
  dsimp only
  (repeat' split) <;> simp_all

@[simp] theorem State.updateCommitMark_atLevel (p : Port) (c : Cmd) (u : Update) (pos : Pos) (ok : Bool) :
    (s.atLevel lv).updateCommitMark p c u pos ok = (s.updateCommitMark p c u pos ok).atLevel lv := by
  unfold State.updateCommitMark
  split <;> simp

@[simp] theorem State.updateSuperseded_atLevel (p : Port) (c : Cmd) (u : Update) (pos : Pos) (ok : Bool) :
    (s.atLevel lv).updateSuperseded p c u pos ok = (s.updateSuperseded p c u pos ok).atLevel lv := by
  unfold State.updateSuperseded
  split <;> simp

@[simp] theorem State.updateRetried_atLevel (p : Port) (c : Cmd) (u : Update) (pos : Pos) (ok : Bool) :
    (s.atLevel lv).updateRetried p c u pos ok = (s.updateRetried p c u pos ok).atLevel lv := by
  unfold State.updateRetried
  split <;> rfl

@[simp] theorem State.updateMark_atLevel (p : Port) (c : Cmd) (u : Update) (pos : Pos) (ok : Bool) :
    (s.atLevel lv).updateMark p c u pos ok = (s.updateMark p c u pos ok).atLevel lv := by
  unfold State.updateMark
  split <;> simp

/-! ## Record commands -/

@[simp] theorem State.claimOn_atLevel (k : Key) : (s.atLevel lv).claimOn k = s.claimOn k := by rfl
@[simp] theorem State.holderOf_atLevel (k : Key) : (s.atLevel lv).holderOf k = s.holderOf k := by rfl
@[simp] theorem State.failPermanent_atLevel (c : Cmd) : (s.atLevel lv).failPermanent c = s.failPermanent c := by rfl
@[simp] theorem State.failClaimed_atLevel (p : Port) (c : Cmd) : (s.atLevel lv).failClaimed p c = s.failClaimed p c := by rfl
@[simp] theorem State.failCondition_atLevel (c : Cmd) : (s.atLevel lv).failCondition c = s.failCondition c := by rfl
@[simp] theorem State.failMissing_atLevel (c : Cmd) : (s.atLevel lv).failMissing c = s.failMissing c := by rfl
@[simp] theorem State.failFull_atLevel (c : Cmd) : (s.atLevel lv).failFull c = s.failFull c := by rfl
@[simp] theorem State.failVersion_atLevel (c : Cmd) (k : Key) : (s.atLevel lv).failVersion c k = s.failVersion c k := by rfl
@[simp] theorem State.failUpdate_atLevel (p : Port) (c : Cmd) : (s.atLevel lv).failUpdate p c = s.failUpdate p c := by rfl
@[simp] theorem State.nextVersion_atLevel (k : Key) : (s.atLevel lv).nextVersion k = s.nextVersion k := by rfl
@[simp] theorem State.retryOf_atLevel (k : Key) : (s.atLevel lv).retryOf k = s.retryOf k := by rfl
@[simp] theorem State.newUpdate_atLevel (p : Port) (c : Cmd) : (s.atLevel lv).newUpdate p c = s.newUpdate p c := by rfl

@[simp] theorem State.beginUpdate_atLevel (p : Port) (c : Cmd) : (s.atLevel lv).beginUpdate p c = (s.beginUpdate p c).atLevel lv := by
  unfold State.beginUpdate
  (repeat' split) <;> simp_all

@[simp] theorem State.admitUpdate_atLevel (p : Port) (c : Cmd) : (s.atLevel lv).admitUpdate p c = (s.admitUpdate p c).atLevel lv := by
  unfold State.admitUpdate
  (repeat' split) <;> simp_all

theorem State.checked_atLevel (p : Port) (c : Cmd) (fail : Option Reason) (key : Key) {go go' : State} (h : go' = go.atLevel lv) :
    (s.atLevel lv).checked p c fail key go' = (s.checked p c fail key go).atLevel lv := by
  cases fail <;> simp [State.checked, h]

@[simp] theorem State.doWrite_atLevel (p : Port) (c : Cmd) : (s.atLevel lv).doWrite p c = (s.doWrite p c).atLevel lv :=
  State.checked_atLevel _ _ _ _ (by simp)

@[simp] theorem State.doPatch_atLevel (p : Port) (c : Cmd) : (s.atLevel lv).doPatch p c = (s.doPatch p c).atLevel lv :=
  State.checked_atLevel _ _ _ _ (by simp)

@[simp] theorem State.doRemove_atLevel (p : Port) (c : Cmd) : (s.atLevel lv).doRemove p c = (s.doRemove p c).atLevel lv :=
  State.checked_atLevel _ _ _ _ (by simp)

@[simp] theorem State.lengthOf_atLevel (k : Key) : (s.atLevel lv).lengthOf k = s.lengthOf k := by rfl

@[simp] theorem State.patchOldRead_atLevel (p : Port) (c : Cmd) (u : Update) (r : CellRead) :
    (s.atLevel lv).patchOldRead p c u r = (s.patchOldRead p c u r).atLevel lv := by
  unfold State.patchOldRead
  (repeat' split) <;> simp_all

@[simp] theorem State.storeBuffer_atLevel (p : Port) (off : Nat) (bs : List Byte) :
    (s.atLevel lv).storeBuffer p off bs = (s.storeBuffer p off bs).atLevel lv := by rfl

@[simp] theorem State.readDone_atLevel (p : Port) (c : Cmd) (v : Version) (len : Nat) (r : CellRead) :
    (s.atLevel lv).readDone p c v len r = (s.readDone p c v len r).atLevel lv := by
  unfold State.readDone
  split <;> rfl

@[simp] theorem State.liveEntry_atLevel (k : Key) : (s.atLevel lv).liveEntry k = s.liveEntry k := by rfl

@[simp] theorem State.admitRead_atLevel (p : Port) (c : Cmd) : (s.atLevel lv).admitRead p c = (s.admitRead p c).atLevel lv := by
  unfold State.admitRead
  simp only [State.liveEntry_atLevel, State.store_atLevel]
  (repeat' split) <;> simp

@[simp] theorem State.doRead_atLevel (p : Port) (c : Cmd) : (s.atLevel lv).doRead p c = (s.doRead p c).atLevel lv :=
  State.checked_atLevel _ _ _ _ (by simp)

@[simp] theorem State.statResult_atLevel (c : Cmd) : (s.atLevel lv).statResult c = s.statResult c := by rfl

@[simp] theorem State.doStat_atLevel (p : Port) (c : Cmd) : (s.atLevel lv).doStat p c = (s.doStat p c).atLevel lv :=
  State.checked_atLevel _ _ _ _ (by simp only [State.store_atLevel, State.statResult_atLevel]; split <;> simp)

@[simp] theorem State.doBadCommand_atLevel (p : Port) (c : Cmd) : (s.atLevel lv).doBadCommand p c = (s.doBadCommand p c).atLevel lv := by
  rfl

@[simp] theorem execWrite_atLevel : execWrite (s.atLevel lv) = outcomeAtLevel lv (execWrite s) :=
  State.perform_atLevel _ State.doWrite (fun _ _ => by simp)

@[simp] theorem execPatch_atLevel : execPatch (s.atLevel lv) = outcomeAtLevel lv (execPatch s) :=
  State.perform_atLevel _ State.doPatch (fun _ _ => by simp)

@[simp] theorem execRemove_atLevel : execRemove (s.atLevel lv) = outcomeAtLevel lv (execRemove s) :=
  State.perform_atLevel _ State.doRemove (fun _ _ => by simp)

@[simp] theorem execRead_atLevel : execRead (s.atLevel lv) = outcomeAtLevel lv (execRead s) :=
  State.perform_atLevel _ State.doRead (fun _ _ => by simp)

@[simp] theorem execStat_atLevel : execStat (s.atLevel lv) = outcomeAtLevel lv (execStat s) :=
  State.perform_atLevel _ State.doStat (fun _ _ => by simp)

@[simp] theorem execBadCommand_atLevel : execBadCommand (s.atLevel lv) = outcomeAtLevel lv (execBadCommand s) := by
  unfold execBadCommand
  simp only [State.engine_atLevel, State.running_atLevel, State.isOpen_atLevel]
  split
  · split <;> simp [outcomeAtLevel]
  · rfl

/-! ## Claims and watches -/

@[simp] theorem State.share_atLevel (p : Port) : (s.atLevel lv).share p = s.share p := by rfl

@[simp] theorem State.grantClaim_atLevel (p : Port) (c : Cmd) (why : Reason) :
    (s.atLevel lv).grantClaim p c why = (s.grantClaim p c why).atLevel lv := by rfl

@[simp] theorem State.claimRequest_atLevel (p : Port) (c : Cmd) : (s.atLevel lv).claimRequest p c = (s.claimRequest p c).atLevel lv := by
  unfold State.claimRequest
  (repeat' split) <;> simp_all

theorem State.formatted_atLevel (p : Port) (c : Cmd) (key : Key) {go go' : State} (h : go' = go.atLevel lv) :
    (s.atLevel lv).formatted p c key go' = (s.formatted p c key go).atLevel lv := by
  simp only [State.formatted, State.store_atLevel, h]
  split <;> simp

@[simp] theorem State.doClaim_atLevel (p : Port) (c : Cmd) : (s.atLevel lv).doClaim p c = (s.doClaim p c).atLevel lv :=
  State.checked_atLevel _ _ _ _ (State.formatted_atLevel _ _ _ (by simp))

@[simp] theorem State.releaseRequest_atLevel (p : Port) (c : Cmd) :
    (s.atLevel lv).releaseRequest p c = (s.releaseRequest p c).atLevel lv := by
  unfold State.releaseRequest
  (repeat' split) <;> simp_all

@[simp] theorem State.doRelease_atLevel (p : Port) (c : Cmd) : (s.atLevel lv).doRelease p c = (s.doRelease p c).atLevel lv :=
  State.checked_atLevel _ _ _ _ (State.formatted_atLevel _ _ _ (by simp))

@[simp] theorem State.offerLoss_atLevel (cause : LossCause) (x : Claim) :
    (s.atLevel lv).offerLoss cause x = (s.offerLoss cause x).atLevel lv := by rfl

@[simp] theorem State.expire_atLevel (x : Claim) : (s.atLevel lv).expire x = (s.expire x).atLevel lv := by rfl

@[simp] theorem State.setWatch_atLevel (p : Port) (c : Cmd) (old : Triggers) :
    (s.atLevel lv).setWatch p c old = (s.setWatch p c old).atLevel lv := by rfl

@[simp] theorem State.watchSetRequest_atLevel (p : Port) (c : Cmd) :
    (s.atLevel lv).watchSetRequest p c = (s.watchSetRequest p c).atLevel lv := by
  unfold State.watchSetRequest
  (repeat' split) <;> simp_all

@[simp] theorem State.doWatchSet_atLevel (p : Port) (c : Cmd) : (s.atLevel lv).doWatchSet p c = (s.doWatchSet p c).atLevel lv :=
  State.checked_atLevel _ _ _ _ (State.formatted_atLevel _ _ _ (by simp))

@[simp] theorem State.watchClearRequest_atLevel (p : Port) (c : Cmd) :
    (s.atLevel lv).watchClearRequest p c = (s.watchClearRequest p c).atLevel lv := by rfl

@[simp] theorem State.doWatchClear_atLevel (p : Port) (c : Cmd) : (s.atLevel lv).doWatchClear p c = (s.doWatchClear p c).atLevel lv :=
  State.checked_atLevel _ _ _ _ (State.formatted_atLevel _ _ _ (by simp))

@[simp] theorem State.watchListRequest_atLevel (p : Port) (c : Cmd) :
    (s.atLevel lv).watchListRequest p c = (s.watchListRequest p c).atLevel lv := by rfl

@[simp] theorem State.doWatchList_atLevel (p : Port) (c : Cmd) : (s.atLevel lv).doWatchList p c = (s.doWatchList p c).atLevel lv :=
  State.checked_atLevel _ _ _ _ (State.formatted_atLevel _ _ _ (by simp))

@[simp] theorem execClaim_atLevel : execClaim (s.atLevel lv) = outcomeAtLevel lv (execClaim s) :=
  State.perform_atLevel _ State.doClaim (fun _ _ => by simp)

@[simp] theorem execRelease_atLevel : execRelease (s.atLevel lv) = outcomeAtLevel lv (execRelease s) :=
  State.perform_atLevel _ State.doRelease (fun _ _ => by simp)

@[simp] theorem execWatchSet_atLevel : execWatchSet (s.atLevel lv) = outcomeAtLevel lv (execWatchSet s) :=
  State.perform_atLevel _ State.doWatchSet (fun _ _ => by simp)

@[simp] theorem execWatchClear_atLevel : execWatchClear (s.atLevel lv) = outcomeAtLevel lv (execWatchClear s) :=
  State.perform_atLevel _ State.doWatchClear (fun _ _ => by simp)

@[simp] theorem execWatchList_atLevel : execWatchList (s.atLevel lv) = outcomeAtLevel lv (execWatchList s) :=
  State.perform_atLevel _ State.doWatchList (fun _ _ => by simp)

@[simp] theorem execClaimExpiry_atLevel (k : Key) : execClaimExpiry k (s.atLevel lv) = outcomeAtLevel lv (execClaimExpiry k s) := by
  unfold execClaimExpiry
  simp only [State.claimOn_atLevel, State.running_atLevel]
  split <;> (try split) <;> simp [outcomeAtLevel]

/-! ## Guards -/

@[simp] theorem State.unguarded_atLevel (p : Port) : (s.atLevel lv).unguarded p = s.unguarded p := by rfl
@[simp] theorem State.configVersion_atLevel : (s.atLevel lv).configVersion = s.configVersion := by rfl

@[simp] theorem State.newConfigUpdate_atLevel (p : Port) (x : Settings) : (s.atLevel lv).newConfigUpdate p x = s.newConfigUpdate p x := by
  rfl

/-! ## Scans -/

@[simp] theorem State.newScan_atLevel (p : Port) (c : Cmd) (r : Relation) : (s.atLevel lv).newScan p c r = s.newScan p c r := by rfl
@[simp] theorem State.dropSlot_atLevel (p : Port) : (s.atLevel lv).dropSlot p = (s.dropSlot p).atLevel lv := by rfl

@[simp] theorem State.takeScanStep_atLevel (p : Port) (c : Cmd) (x : ScanStep) :
    (s.atLevel lv).takeScanStep p c x = (s.takeScanStep p c x).atLevel lv := by
  unfold State.takeScanStep
  split <;> rfl

@[simp] theorem State.isResetting_atLevel (p : Port) : (s.atLevel lv).isResetting p = s.isResetting p := by rfl
@[simp] theorem State.othersEligible_atLevel (p : Port) : (s.atLevel lv).othersEligible p = s.othersEligible p := by rfl

@[simp] theorem State.searchOn_atLevel (p : Port) (c : Cmd) (k : ScanCtx) :
    (s.atLevel lv).searchOn p c k = (s.searchOn p c k).atLevel lv := by
  unfold State.searchOn
  simp

@[simp] theorem State.scanOn_atLevel (p : Port) (c : Cmd) (k : ScanCtx) : (s.atLevel lv).scanOn p c k = (s.scanOn p c k).atLevel lv := by
  unfold State.scanOn
  (repeat' split) <;> simp_all

@[simp] theorem State.scanMatch_atLevel (p : Port) (c : Cmd) (k : ScanCtx) (key : Key) :
    (s.atLevel lv).scanMatch p c k key = (s.scanMatch p c k key).atLevel lv := by
  unfold State.scanMatch
  simp

@[simp] theorem State.scanRead_atLevel (p : Port) (c : Cmd) (k : ScanCtx) (key : Key) (v : Version) (r : CellRead) :
    (s.atLevel lv).scanRead p c k key v r = (s.scanRead p c k key v r).atLevel lv := by
  unfold State.scanRead
  dsimp only
  (repeat' split) <;> simp_all

@[simp] theorem State.beginScan_atLevel (p : Port) (c : Cmd) (k : ScanCtx) :
    (s.atLevel lv).beginScan p c k = (s.beginScan p c k).atLevel lv := by
  unfold State.beginScan
  split <;> simp

@[simp] theorem State.admitScan_atLevel (p : Port) (c : Cmd) : (s.atLevel lv).admitScan p c = (s.admitScan p c).atLevel lv := by
  unfold State.admitScan
  (repeat' split) <;> simp_all

@[simp] theorem State.doScan_atLevel (p : Port) (c : Cmd) : (s.atLevel lv).doScan p c = (s.doScan p c).atLevel lv :=
  State.checked_atLevel _ _ _ _ (by simp)

@[simp] theorem execScan_atLevel : execScan (s.atLevel lv) = outcomeAtLevel lv (execScan s) :=
  State.perform_atLevel _ State.doScan (fun _ _ => by simp)

@[simp] theorem execScanResume_atLevel : execScanResume (s.atLevel lv) = outcomeAtLevel lv (execScanResume s) := by
  unfold execScanResume
  simp only [State.engine_atLevel, State.running_atLevel, State.isOpen_atLevel]
  split <;> (try split) <;> simp [outcomeAtLevel]

/-! ## The reclaim pass -/

@[simp] theorem State.endPass_atLevel : (s.atLevel lv).endPass = s.endPass.atLevel lv := by
  unfold State.endPass
  simp

@[simp] theorem State.abandon_atLevel (q : Pass) : (s.atLevel lv).abandon q = (s.abandon q).atLevel lv := by rfl

@[simp] theorem State.abandonNoCell_atLevel (q : Pass) : (s.atLevel lv).abandonNoCell q = (s.abandonNoCell q).atLevel lv := by
  unfold State.abandonNoCell
  simp

@[simp] theorem State.abandonFailed_atLevel (q : Pass) : (s.atLevel lv).abandonFailed q = (s.abandonFailed q).atLevel lv := by
  unfold State.abandonFailed
  split <;> simp

@[simp] theorem State.readVictim_atLevel (q : Pass) : (s.atLevel lv).readVictim q = (s.readVictim q).atLevel lv := by rfl
@[simp] theorem State.segmentClear_atLevel (g : Seg) : (s.atLevel lv).segmentClear g = s.segmentClear g := by rfl
@[simp] theorem State.requestErase_atLevel (q : Pass) : (s.atLevel lv).requestErase q = (s.requestErase q).atLevel lv := by rfl

@[simp] theorem State.advance_atLevel (q : Pass) : (s.atLevel lv).advance q = (s.advance q).atLevel lv := by
  unfold State.advance
  (repeat' split) <;> simp_all

@[simp] theorem State.startCopy_atLevel (q : Pass) (b : Body) : (s.atLevel lv).startCopy q b = (s.startCopy q b).atLevel lv := by
  simp only [State.startCopy, State.copyGrant_atLevel]
  cases s.copyGrant <;> simp

@[simp] theorem State.copyFailed_atLevel (q : Pass) (b : Body) : (s.atLevel lv).copyFailed q b = (s.copyFailed q b).atLevel lv := by
  unfold State.copyFailed
  split <;> simp

@[simp] theorem State.acceptsMove_atLevel (b : Body) (victim : Pos) : (s.atLevel lv).acceptsMove b victim = s.acceptsMove b victim := by rfl

@[simp] theorem State.acceptMove_atLevel (b : Body) (victim : Pos) (copy : Pos) :
    (s.atLevel lv).acceptMove b victim copy = (s.acceptMove b victim copy).atLevel lv := by rfl

@[simp] theorem State.copyBodyDone_atLevel (q : Pass) (b : Body) (copy : Pos) (ok : Bool) :
    (s.atLevel lv).copyBodyDone q b copy ok = (s.copyBodyDone q b copy ok).atLevel lv := by
  unfold State.copyBodyDone
  (repeat' split) <;> simp_all

@[simp] theorem State.stillNamed_atLevel (m : Move) : (s.atLevel lv).stillNamed m = s.stillNamed m := by rfl
@[simp] theorem State.resolveMove_atLevel (m : Move) (ok : Bool) : (s.atLevel lv).resolveMove m ok = s.resolveMove m ok := by rfl

@[simp] theorem State.copyCommitDone_atLevel (q : Pass) (b : Body) (copy : Pos) (ok : Bool) :
    (s.atLevel lv).copyCommitDone q b copy ok = (s.copyCommitDone q b copy ok).atLevel lv := by
  unfold State.copyCommitDone
  (repeat' split) <;> simp_all

@[simp] theorem State.acceptsDrop_atLevel (k : Key) (pos : Pos) : (s.atLevel lv).acceptsDrop k pos = s.acceptsDrop k pos := by rfl

@[simp] theorem State.dropMarkDone_atLevel (q : Pass) (b : Body) (ok : Bool) :
    (s.atLevel lv).dropMarkDone q b ok = (s.dropMarkDone q b ok).atLevel lv := by
  unfold State.dropMarkDone
  (repeat' split) <;> simp_all

@[simp] theorem State.handleNamed_atLevel (q : Pass) (e : Entry) (r : CellRead) :
    (s.atLevel lv).handleNamed q e r = (s.handleNamed q e r).atLevel lv := by
  unfold State.handleNamed
  split <;> simp

@[simp] theorem State.handleUnnamed_atLevel (q : Pass) (r : CellRead) :
    (s.atLevel lv).handleUnnamed q r = (s.handleUnnamed q r).atLevel lv := by
  unfold State.handleUnnamed
  split <;> simp

@[simp] theorem State.victimRead_atLevel (q : Pass) (r : CellRead) : (s.atLevel lv).victimRead q r = (s.victimRead q r).atLevel lv := by
  unfold State.victimRead
  dsimp only
  (repeat' split) <;> simp_all

@[simp] theorem State.recordErase_atLevel (g : Seg) (count : Nat) (ok : Bool) :
    (s.atLevel lv).recordErase g count ok = (s.recordErase g count ok).atLevel lv := by rfl

@[simp] theorem State.degradeIfWorn_atLevel : (s.atLevel lv).degradeIfWorn = s.degradeIfWorn.atLevel lv := by
  unfold State.degradeIfWorn
  (repeat' split) <;> simp_all

@[simp] theorem State.eraseDone_atLevel (q : Pass) (g : Seg) (count : Nat) (ok : Bool) :
    (s.atLevel lv).eraseDone q g count ok = (s.eraseDone q g count ok).atLevel lv := by
  unfold State.eraseDone
  dsimp only
  (repeat' split) <;> simp_all

@[simp] theorem State.passBody_atLevel (q : Pass) (ok : Bool) : (s.atLevel lv).passBody q ok = (s.passBody q ok).atLevel lv := by
  unfold State.passBody
  split <;> simp

@[simp] theorem State.passMark_atLevel (q : Pass) (ok : Bool) : (s.atLevel lv).passMark q ok = (s.passMark q ok).atLevel lv := by
  unfold State.passMark
  split <;> simp

@[simp] theorem State.reclaimReady_atLevel (p : Port) (c : Cmd) : (s.atLevel lv).reclaimReady p c = (s.reclaimReady p c).atLevel lv := by
  unfold State.reclaimReady
  (repeat' split) <;> simp_all

@[simp] theorem State.doReclaim_atLevel (p : Port) (c : Cmd) : (s.atLevel lv).doReclaim p c = (s.doReclaim p c).atLevel lv := by
  unfold State.doReclaim
  (repeat' split) <;> simp_all

@[simp] theorem execReclaim_atLevel : execReclaim (s.atLevel lv) = outcomeAtLevel lv (execReclaim s) :=
  State.perform_atLevel _ State.doReclaim (fun _ _ => by simp)

@[simp] theorem execHeldGrantAnswered_atLevel : execHeldGrantAnswered (s.atLevel lv) = outcomeAtLevel lv (execHeldGrantAnswered s) := by
  simp [execHeldGrantAnswered]

/-! ## Mount -/

@[simp] theorem State.mountNext_atLevel (m : Mount) (a : MountAwaits) (op : ArrayOp) :
    (s.atLevel lv).mountNext m a op = (s.mountNext m a op).atLevel lv := by rfl

@[simp] theorem State.countTable_atLevel : (s.atLevel lv).countTable = s.countTable.atLevel lv := by rfl
@[simp] theorem State.degradeCause_atLevel (removed : Bool) : (s.atLevel lv).degradeCause removed = s.degradeCause removed := by rfl

@[simp] theorem State.mountHandover_atLevel : (s.atLevel lv).mountHandover = s.mountHandover.atLevel lv := by
  unfold State.mountHandover
  dsimp only [State.engine_atLevel]
  simp only [State.setDir_atLevel, State.countTable_atLevel, State.setProgress_atLevel, State.degradeCause_atLevel,
    State.enterStore_atLevel,
    State.trigger_atLevel]
  exact (apply_ite (fun t => State.atLevel t lv) _ _ _).symm

@[simp] theorem State.mountUnformatted_atLevel : (s.atLevel lv).mountUnformatted = s.mountUnformatted.atLevel lv := by rfl

@[simp] theorem State.mountWriteDefaults_atLevel (m : Mount) (n : Nat) :
    (s.atLevel lv).mountWriteDefaults m n = (s.mountWriteDefaults m n).atLevel lv := by
  simp only [State.mountWriteDefaults, State.copyGrant_atLevel]
  cases s.copyGrant <;> simp

@[simp] theorem State.mountDefaultsFailed_atLevel (m : Mount) (pos : Pos) (attempt : Nat) :
    (s.atLevel lv).mountDefaultsFailed m pos attempt = (s.mountDefaultsFailed m pos attempt).atLevel lv := by
  unfold State.mountDefaultsFailed
  split <;> simp

@[simp] theorem State.mountConfigCommitted_atLevel (pos : Pos) :
    (s.atLevel lv).mountConfigCommitted pos = (s.mountConfigCommitted pos).atLevel lv := by
  unfold State.mountConfigCommitted
  dsimp only
  simp only [State.commitBody_atLevel, State.guard_atLevel, State.setGuard_atLevel, State.mountHandover_atLevel]

@[simp] theorem State.mountConfigRead_atLevel (r : CellRead) : (s.atLevel lv).mountConfigRead r = (s.mountConfigRead r).atLevel lv := by
  unfold State.mountConfigRead
  simp only [State.guard_atLevel, State.setGuard_atLevel, State.mountHandover_atLevel]
  split <;> rfl

@[simp] theorem State.mountConfig_atLevel (m : Mount) : (s.atLevel lv).mountConfig m = (s.mountConfig m).atLevel lv := by
  unfold State.mountConfig
  (repeat' split) <;> simp_all

@[simp] theorem State.mountErases_atLevel (m : Mount) : (s.atLevel lv).mountErases m = (s.mountErases m).atLevel lv := by
  unfold State.mountErases
  split <;> simp

@[simp] theorem State.mountTargets_atLevel (m : Mount) : (s.atLevel lv).mountTargets m = (s.mountTargets m).atLevel lv := by
  unfold State.mountTargets
  split <;> simp

@[simp] theorem State.mountMarked_atLevel (m : Mount) (ok : Bool) : (s.atLevel lv).mountMarked m ok = (s.mountMarked m ok).atLevel lv := by
  unfold State.mountMarked
  (repeat' split) <;> simp_all

@[simp] theorem State.mountErased_atLevel (m : Mount) (count : Nat) (ok : Bool) :
    (s.atLevel lv).mountErased m count ok = (s.mountErased m count ok).atLevel lv := by
  unfold State.mountErased
  dsimp only
  (repeat' split) <;> simp_all

@[simp] theorem State.mountTable_atLevel (m : Mount) : (s.atLevel lv).mountTable m = (s.mountTable m).atLevel lv := by
  unfold State.mountTable
  simp

@[simp] theorem State.mountChoose_atLevel (m : Mount) : (s.atLevel lv).mountChoose m = (s.mountChoose m).atLevel lv := by
  unfold State.mountChoose
  simp

@[simp] theorem State.mountReadFrom_atLevel (m : Mount) (n : Nat) :
    (s.atLevel lv).mountReadFrom m n = (s.mountReadFrom m n).atLevel lv := by
  unfold State.mountReadFrom
  (repeat' split) <;> simp_all

@[simp] theorem State.mountDataRead_atLevel (m : Mount) (pos : Pos) (r : CellRead) :
    (s.atLevel lv).mountDataRead m pos r = (s.mountDataRead m pos r).atLevel lv := by
  unfold State.mountDataRead
  dsimp only
  split <;> simp

@[simp] theorem State.mountBlanks_atLevel (m : Mount) : (s.atLevel lv).mountBlanks m = (s.mountBlanks m).atLevel lv := by
  unfold State.mountBlanks
  split <;> simp

@[simp] theorem State.mountHeaderDone_atLevel (m : Mount) (g : Seg) (ok : Bool) :
    (s.atLevel lv).mountHeaderDone m g ok = (s.mountHeaderDone m g ok).atLevel lv := by
  unfold State.mountHeaderDone
  split <;> simp

@[simp] theorem State.mountNothing_atLevel (m : Mount) : (s.atLevel lv).mountNothing m = (s.mountNothing m).atLevel lv := by rfl

@[simp] theorem State.mountClassified_atLevel (m : Mount) : (s.atLevel lv).mountClassified m = (s.mountClassified m).atLevel lv := by
  unfold State.mountClassified
  split <;> simp

@[simp] theorem State.mountHeaders_atLevel (m : Mount) : (s.atLevel lv).mountHeaders m = (s.mountHeaders m).atLevel lv := by
  unfold State.mountHeaders
  split <;> simp

@[simp] theorem State.mountHeaderRead_atLevel (m : Mount) (g : Seg) (r : HeaderRead) :
    (s.atLevel lv).mountHeaderRead m g r = (s.mountHeaderRead m g r).atLevel lv := by
  unfold State.mountHeaderRead
  (repeat' split) <;> simp_all

@[simp] theorem State.mountBlankRead_atLevel (m : Mount) (pos : Pos) (r : CellRead) :
    (s.atLevel lv).mountBlankRead m pos r = (s.mountBlankRead m pos r).atLevel lv := by
  unfold State.mountBlankRead
  (repeat' split) <;> simp_all

@[simp] theorem State.mountRead_atLevel (m : Mount) : (s.atLevel lv).mountRead m = (s.mountRead m).atLevel lv := by
  unfold State.mountRead
  rw [State.array_atLevel, State.engine_atLevel]
  cases m.awaits with
  | header g => exact State.mountHeaderRead_atLevel ..
  | blankCell pos => exact State.mountBlankRead_atLevel ..
  | dataCell pos => exact State.mountDataRead_atLevel ..
  | configRead =>
    dsimp only
    split
    · exact State.mountConfigRead_atLevel ..
    · rfl
  | _ => rfl

@[simp] theorem State.mountBody_atLevel (m : Mount) (ok : Bool) : (s.atLevel lv).mountBody m ok = (s.mountBody m ok).atLevel lv := by
  unfold State.mountBody
  (repeat' split) <;> simp_all

@[simp] theorem State.mountHeader_atLevel (m : Mount) (ok : Bool) : (s.atLevel lv).mountHeader m ok = (s.mountHeader m ok).atLevel lv := by
  unfold State.mountHeader
  split <;> simp

@[simp] theorem State.mountMark_atLevel (m : Mount) (ok : Bool) : (s.atLevel lv).mountMark m ok = (s.mountMark m ok).atLevel lv := by
  unfold State.mountMark
  cases m.awaits with
  | wornMark g => exact State.mountHeaders_atLevel ..
  | blankMark g => exact State.mountBlanks_atLevel ..
  | repairMark => exact State.mountMarked_atLevel ..
  | repairRetire g => exact State.mountErases_atLevel ..
  | configMark pos n =>
    dsimp only
    split
    · exact State.mountConfigCommitted_atLevel ..
    · exact State.mountDefaultsFailed_atLevel ..
  | header _ => rfl
  | blankCell _ => rfl
  | blankHeader _ => rfl
  | dataCell _ => rfl
  | repairErase => rfl
  | configRead => rfl
  | configBody _ _ => rfl

@[simp] theorem State.mountErase_atLevel (m : Mount) (count : Nat) (ok : Bool) :
    (s.atLevel lv).mountErase m count ok = (s.mountErase m count ok).atLevel lv := by
  unfold State.mountErase
  split <;> simp

/-! ## FORMAT and STORE INFO -/

@[simp] theorem State.formatCmd_atLevel : (s.atLevel lv).formatCmd = s.formatCmd := by rfl

@[simp] theorem State.endFormat_atLevel (r : Cmd → Result) : (s.atLevel lv).endFormat r = (s.endFormat r).atLevel lv := by
  unfold State.endFormat
  (repeat' split) <;> simp_all

@[simp] theorem State.formatFailed_atLevel (aux : Half) : (s.atLevel lv).formatFailed aux = (s.formatFailed aux).atLevel lv := by
  unfold State.formatFailed
  simp

@[simp] theorem State.formatDone_atLevel (attempt : Nat) : (s.atLevel lv).formatDone attempt = (s.formatDone attempt).atLevel lv := by
  unfold State.formatDone
  simp

@[simp] theorem State.formatBody_atLevel : (s.atLevel lv).formatBody = s.formatBody := by rfl

@[simp] theorem State.formatNext_atLevel (a : FormatAwaits) (op : ArrayOp) :
    (s.atLevel lv).formatNext a op = (s.formatNext a op).atLevel lv := by rfl

@[simp] theorem State.formatWrite_atLevel (n : Nat) : (s.atLevel lv).formatWrite n = (s.formatWrite n).atLevel lv := by
  simp only [State.formatWrite, State.copyGrant_atLevel, State.formatBody_atLevel]
  cases s.copyGrant <;> simp

@[simp] theorem State.formatWriteFailed_atLevel (pos : Pos) (attempt : Nat) :
    (s.atLevel lv).formatWriteFailed pos attempt = (s.formatWriteFailed pos attempt).atLevel lv := by
  unfold State.formatWriteFailed
  split <;> simp

@[simp] theorem State.formatCommitted_atLevel (pos : Pos) (n : Nat) :
    (s.atLevel lv).formatCommitted pos n = (s.formatCommitted pos n).atLevel lv := by
  unfold State.formatCommitted
  dsimp only
  simp only [State.formatBody_atLevel, State.commitBody_atLevel, State.guard_atLevel, State.setGuard_atLevel, State.formatDone_atLevel]

@[simp] theorem State.erasableFrom_atLevel (n : Nat) : (s.atLevel lv).erasableFrom n = s.erasableFrom n := by rfl

@[simp] theorem State.owesMark_atLevel (g : Seg) : (s.atLevel lv).owesMark g = s.owesMark g := by rfl

@[simp] theorem State.formatErases_atLevel (n : Nat) (owes : List Seg) :
    (s.atLevel lv).formatErases n owes = (s.formatErases n owes).atLevel lv := by
  unfold State.formatErases
  (repeat' split) <;> simp_all

@[simp] theorem State.formatErased_atLevel (g : Seg) (owes : List Seg) (count : Nat) (ok : Bool) :
    (s.atLevel lv).formatErased g owes count ok = (s.formatErased g owes count ok).atLevel lv := by
  simp [State.formatErased]

@[simp] theorem State.formatAfterReclaim_atLevel (g : Seg) (count : Nat) (ok : Bool) :
    (s.atLevel lv).formatAfterReclaim g count ok = (s.formatAfterReclaim g count ok).atLevel lv := by
  unfold State.formatAfterReclaim
  dsimp only
  (repeat' split) <;> simp_all

@[simp] theorem State.endParked_atLevel (p : Port) : (s.atLevel lv).endParked p = (s.endParked p).atLevel lv := by
  unfold State.endParked
  (repeat' split) <;> simp_all

@[simp] theorem State.endScansAndClaims_atLevel : (s.atLevel lv).endScansAndClaims = s.endScansAndClaims.atLevel lv := by
  simp only [State.endScansAndClaims, foldl_atLevel State.endParked (fun _ _ => State.endParked_atLevel ..), State.coord_atLevel,
    State.setClaims_atLevel]
  exact foldl_atLevel _ (fun _ _ => State.offerLoss_atLevel ..) _ _

@[simp] theorem State.formatAbandon_atLevel : (s.atLevel lv).formatAbandon = s.formatAbandon.atLevel lv := by
  unfold State.formatAbandon
  dsimp only
  (repeat' split) <;> simp_all

@[simp] theorem State.acceptFormat_atLevel (p : Port) (c : Cmd) : (s.atLevel lv).acceptFormat p c = (s.acceptFormat p c).atLevel lv := by
  unfold State.acceptFormat
  simp

@[simp] theorem State.formatBodyDone_atLevel (f : FormatAwaits) (ok : Bool) :
    (s.atLevel lv).formatBodyDone f ok = (s.formatBodyDone f ok).atLevel lv := by
  unfold State.formatBodyDone
  (repeat' split) <;> simp_all

@[simp] theorem State.formatMark_atLevel (f : FormatAwaits) (ok : Bool) :
    (s.atLevel lv).formatMark f ok = (s.formatMark f ok).atLevel lv := by
  unfold State.formatMark
  (repeat' split) <;> simp_all

@[simp] theorem State.formatErase_atLevel (f : FormatAwaits) (count : Nat) (ok : Bool) :
    (s.atLevel lv).formatErase f count ok = (s.formatErase f count ok).atLevel lv := by
  unfold State.formatErase
  split <;> simp

@[simp] theorem State.knownCounts_atLevel : (s.atLevel lv).knownCounts = s.knownCounts := by rfl
@[simp] theorem State.countEntries_atLevel (st : EntryState) : (s.atLevel lv).countEntries st = s.countEntries st := by rfl
@[simp] theorem State.shownFront_atLevel : (s.atLevel lv).shownFront = s.shownFront := by rfl
@[simp] theorem State.infoBlock_atLevel : (s.atLevel lv).infoBlock = s.infoBlock := by rfl

@[simp] theorem State.doStoreInfo_atLevel (p : Port) (c : Cmd) : (s.atLevel lv).doStoreInfo p c = (s.doStoreInfo p c).atLevel lv :=
  State.checked_atLevel _ _ _ _ (by simp)

@[simp] theorem execStoreInfo_atLevel : execStoreInfo (s.atLevel lv) = outcomeAtLevel lv (execStoreInfo s) :=
  State.perform_atLevel _ State.doStoreInfo (fun _ _ => by simp)

/-! ## Frames -/

@[simp] theorem State.recordFor_atLevel (p : Port) (k : FrameKind) : (s.atLevel lv).recordFor p k = s.recordFor p k := by rfl
@[simp] theorem State.fixRecord_atLevel (p : Port) (f : Frame) : (s.atLevel lv).fixRecord p f = s.fixRecord p f := by rfl

@[simp] theorem State.bufferOut_atLevel (p : Port) (f : Frame) (offset : Nat) (n : Nat) :
    (s.atLevel lv).bufferOut p f offset n = s.bufferOut p f offset n := by rfl

@[simp] theorem State.driven_atLevel (p : Port) (f : Frame) (offset : Nat) (n : Nat) :
    (s.atLevel lv).driven p f offset n = s.driven p f offset n := by rfl

@[simp] theorem State.refuseFrame_atLevel (p : Port) (f : Frame) : (s.atLevel lv).refuseFrame p f = (s.refuseFrame p f).atLevel lv := by
  unfold State.refuseFrame
  (repeat' split) <;> simp_all

@[simp] theorem State.openFrame_atLevel (p : Port) (k : FrameKind) : (s.atLevel lv).openFrame p k = (s.openFrame p k).atLevel lv := by
  unfold State.openFrame
  dsimp only
  (repeat' split) <;> simp_all

@[simp] theorem State.clockKind_atLevel (p : Port) (k : FrameKind) : (s.atLevel lv).clockKind p k = (s.clockKind p k).atLevel lv := by
  unfold State.clockKind
  (repeat' split) <;> simp_all

@[simp] theorem State.clockOut_atLevel (p : Port) (k : FrameKind) (o : Nat) :
    (s.atLevel lv).clockOut p k o = (s.clockOut p k o).atLevel lv := by
  unfold State.clockOut
  simp only [State.port_atLevel, State.setPort_atLevel]
  split <;> (try split) <;> rfl

@[simp] theorem State.frameAtEnd_atLevel (p : Port) (f : Frame) (n : Nat) : (s.atLevel lv).frameAtEnd p f n = s.frameAtEnd p f n := by rfl
@[simp] theorem State.ended_atLevel (p : Port) (out : List Byte) : (s.atLevel lv).ended p out = (s.ended p out).atLevel lv := by rfl
/-- A frame's effect that does not depend on the level. -/
def FrameEffect.Blind (effect : FrameEffect) (lv : Bool) : Prop := ∀ n f s, effect n f (State.atLevel s lv) = (effect n f s).atLevel lv

theorem State.frameEnd_atLevel (p : Port) (f : Frame) (o n : Nat) (whole : Bool) {effect : FrameEffect} (h : effect.Blind lv) :
    (s.atLevel lv).frameEnd p f o n whole effect = (s.frameEnd p f o n whole effect).atLevel lv := by
  simp only [State.frameEnd, State.driven_atLevel, State.ended_atLevel]
  split
  · simp
  · exact h _ _ _

theorem State.closeFrame_atLevel (p : Port) (k : FrameKind) (o n : Nat) (whole : Bool) {effect : FrameEffect} (h : effect.Blind lv) :
    (s.atLevel lv).closeFrame p k o n whole effect = (s.closeFrame p k o n whole effect).atLevel lv := by
  simp only [State.closeFrame, State.port_atLevel, State.frameAtEnd_atLevel, State.frameEnd_atLevel _ _ _ _ _ h]
  split
  · split <;> rfl
  · rfl

theorem State.frameMoment_atLevel (p : Port) (k : FrameKind) (m : FrameMoment) (o : Nat) {effect : FrameEffect} (h : effect.Blind lv) :
    (s.atLevel lv).frameMoment p k m o effect = (s.frameMoment p k m o effect).atLevel lv := by
  simp only [State.frameMoment, State.running_atLevel, State.port_atLevel, State.openFrame_atLevel, State.clockKind_atLevel,
    State.clockOut_atLevel,
    State.closeFrame_atLevel _ _ _ _ _ h]
  split
  · cases m <;> simp
    split <;> rfl
  · rfl

@[simp] theorem State.queueCommand_atLevel (p : Port) (c : Cmd) : (s.atLevel lv).queueCommand p c = (s.queueCommand p c).atLevel lv := by
  simp only [State.queueCommand, State.port_atLevel]
  split <;> simp

@[simp] theorem State.storeFrame_atLevel (p : Port) (offset : Nat) (data : List Byte) :
    (s.atLevel lv).storeFrame p offset data = (s.storeFrame p offset data).atLevel lv := by
  unfold State.storeFrame
  split <;> rfl

@[simp] theorem State.setEnables_atLevel (p : Port) (f : Enables → Enables) :
    (s.atLevel lv).setEnables p f = (s.setEnables p f).atLevel lv := by rfl

@[simp] theorem State.clearPortFlags_atLevel (p : Port) (mask : Byte) :
    (s.atLevel lv).clearPortFlags p mask = (s.clearPortFlags p mask).atLevel lv := by rfl

@[simp] theorem State.proceedReset_atLevel (p : Port) : (s.atLevel lv).proceedReset p = (s.proceedReset p).atLevel lv := by rfl

@[simp] theorem State.arriveReset_atLevel (p : Port) : (s.atLevel lv).arriveReset p = (s.arriveReset p).atLevel lv := by
  unfold State.arriveReset
  dsimp only
  (repeat' split) <;> simp_all

@[simp] theorem execStatusRead_atLevel (p : Port) (m : FrameMoment) :
    execStatusRead p m (s.atLevel lv) = outcomeAtLevel lv (execStatusRead p m s) :=
  congrArg Host.Outcome.next (State.frameMoment_atLevel _ _ _ _ (fun _ _ _ => by rfl))

@[simp] theorem execCommand_atLevel (p : Port) (m : FrameMoment) (a b : Byte) (x : Vector Byte 16) :
    execCommand p m a b x (s.atLevel lv) = outcomeAtLevel lv (execCommand p m a b x s) :=
  congrArg Host.Outcome.next (State.frameMoment_atLevel _ _ _ _ (fun _ _ _ => by simp))

@[simp] theorem execResultRead_atLevel (p : Port) (m : FrameMoment) :
    execResultRead p m (s.atLevel lv) = outcomeAtLevel lv (execResultRead p m s) :=
  congrArg Host.Outcome.next (State.frameMoment_atLevel _ _ _ _ (fun _ _ _ => by simp only [resultEffect]; split <;> simp))

@[simp] theorem execEventRead_atLevel (p : Port) (m : FrameMoment) :
    execEventRead p m (s.atLevel lv) = outcomeAtLevel lv (execEventRead p m s) :=
  congrArg Host.Outcome.next (State.frameMoment_atLevel _ _ _ _ (fun _ _ _ => by simp only [eventEffect]; split <;> simp))

@[simp] theorem execBufferWrite_atLevel (p : Port) (m : FrameMoment) (o : Half) (d : List Byte) :
    execBufferWrite p m o d (s.atLevel lv) = outcomeAtLevel lv (execBufferWrite p m o d s) :=
  congrArg Host.Outcome.next (State.frameMoment_atLevel _ _ _ _ (fun _ _ _ => by simp [bufferWriteEffect]))

@[simp] theorem execBufferRead_atLevel (p : Port) (m : FrameMoment) (o : Half) :
    execBufferRead p m o (s.atLevel lv) = outcomeAtLevel lv (execBufferRead p m o s) :=
  congrArg Host.Outcome.next (State.frameMoment_atLevel _ _ _ _ (fun _ _ _ => by simp only [bufferReadEffect]; split <;> simp))

@[simp] theorem execNotifySet_atLevel (p : Port) (m : FrameMoment) (x : Byte) :
    execNotifySet p m x (s.atLevel lv) = outcomeAtLevel lv (execNotifySet p m x s) :=
  congrArg Host.Outcome.next (State.frameMoment_atLevel _ _ _ _ (fun _ _ _ => by simp))

@[simp] theorem execNotifyClear_atLevel (p : Port) (m : FrameMoment) (x : Byte) :
    execNotifyClear p m x (s.atLevel lv) = outcomeAtLevel lv (execNotifyClear p m x s) :=
  congrArg Host.Outcome.next (State.frameMoment_atLevel _ _ _ _ (fun _ _ _ => by simp))

@[simp] theorem execFlagsClear_atLevel (p : Port) (m : FrameMoment) (x : Byte) :
    execFlagsClear p m x (s.atLevel lv) = outcomeAtLevel lv (execFlagsClear p m x s) :=
  congrArg Host.Outcome.next (State.frameMoment_atLevel _ _ _ _ (fun _ _ _ => by simp))

@[simp] theorem execPortReset_atLevel (p : Port) (m : FrameMoment) :
    execPortReset p m (s.atLevel lv) = outcomeAtLevel lv (execPortReset p m s) :=
  congrArg Host.Outcome.next (State.frameMoment_atLevel _ _ _ _ (fun _ _ _ => by simp))

@[simp] theorem execUnknownFrameKind_atLevel (p : Port) (m : FrameMoment) (k : Option Byte) :
    execUnknownFrameKind p m k (s.atLevel lv) = outcomeAtLevel lv (execUnknownFrameKind p m k s) := by
  unfold execUnknownFrameKind
  split
  · exact congrArg Host.Outcome.next (State.frameMoment_atLevel _ _ _ _ (fun _ _ _ => rfl))
  · rfl

@[simp] theorem execPortResetProceed_atLevel (p : Port) :
    execPortResetProceed p (s.atLevel lv) = outcomeAtLevel lv (execPortResetProceed p s) := by
  simp [execPortResetProceed]

/-! ## Completions -/

@[simp] theorem State.engineRead_atLevel (r : CellRead) : (s.atLevel lv).engineRead r = (s.engineRead r).atLevel lv := by
  unfold State.engineRead
  simp only [State.engine_atLevel]
  (repeat' split) <;> simp

@[simp] theorem State.spaceRead_atLevel (r : CellRead) : (s.atLevel lv).spaceRead r = (s.spaceRead r).atLevel lv := by
  unfold State.spaceRead
  (repeat' split) <;> simp_all

@[simp] theorem State.storeRead_atLevel : (s.atLevel lv).storeRead  = (s.storeRead ).atLevel lv := by
  unfold State.storeRead
  simp only [State.store_atLevel, State.mountRead_atLevel]
  split <;> rfl

@[simp] theorem State.deliverRead_atLevel (r : Requester) (pos : Pos) (payload : Bool) :
    (s.atLevel lv).deliverRead r pos payload = (s.deliverRead r pos payload).atLevel lv := by
  unfold State.deliverRead
  split <;> simp

@[simp] theorem State.deliverBody_atLevel (r : Requester) (pos : Pos) (ok : Bool) :
    (s.atLevel lv).deliverBody r pos ok = (s.deliverBody r pos ok).atLevel lv := by
  unfold State.deliverBody
  (repeat' split) <;> simp_all

@[simp] theorem State.deliverHeader_atLevel (ok : Bool) : (s.atLevel lv).deliverHeader ok = (s.deliverHeader ok).atLevel lv := by
  unfold State.deliverHeader
  (repeat' split) <;> simp_all

@[simp] theorem State.deliverMark_atLevel (r : Requester) (pos : Pos) (ok : Bool) :
    (s.atLevel lv).deliverMark r pos ok = (s.deliverMark r pos ok).atLevel lv := by
  unfold State.deliverMark
  simp only [State.engine_atLevel, State.space_atLevel, State.store_atLevel, State.updateMark_atLevel, State.passMark_atLevel,
    State.mountMark_atLevel, State.formatMark_atLevel]
  cases r <;> dsimp only <;> split <;> rfl

@[simp] theorem State.deliverErase_atLevel (count : Nat) (ok : Bool) :
    (s.atLevel lv).deliverErase count ok = (s.deliverErase count ok).atLevel lv := by
  unfold State.deliverErase
  (repeat' split) <;> simp_all

@[simp] theorem State.deliverReclaimErase_atLevel (g : Seg) (count : Nat) (ok : Bool) :
    (s.atLevel lv).deliverReclaimErase g count ok = (s.deliverReclaimErase g count ok).atLevel lv := by
  unfold State.deliverReclaimErase
  (repeat' split) <;> simp_all

@[simp] theorem State.landed_atLevel : (s.atLevel lv).landed = s.landed.atLevel lv := by rfl

@[simp] theorem State.completeBody_atLevel (r : Requester) (pos : Pos) (b : Body) (left : List Host.Cell) :
    (s.atLevel lv).completeBody r pos b left = (s.completeBody r pos b left).atLevel lv := by
  unfold State.completeBody
  dsimp only [State.array_atLevel]
  simp only [State.setCells_atLevel, State.landed_atLevel, State.deliverBody_atLevel]

@[simp] theorem State.completeHeader_atLevel (g : Seg) (gen : Generation) (n : Nat) (left : List Host.Cell) :
    (s.atLevel lv).completeHeader g gen n left = (s.completeHeader g gen n left).atLevel lv := by
  unfold State.completeHeader
  dsimp only [State.array_atLevel]
  simp only [State.setCells_atLevel, State.landed_atLevel, State.deliverHeader_atLevel]

@[simp] theorem State.completeMark_atLevel (r : Requester) (pos : Pos) (k : MarkKind) (fails : Bool) :
    (s.atLevel lv).completeMark r pos k fails = (s.completeMark r pos k fails).atLevel lv := by
  unfold State.completeMark
  dsimp only [State.array_atLevel]
  simp only [State.setCells_atLevel, State.landed_atLevel, State.deliverMark_atLevel]

@[simp] theorem State.erasedCells_atLevel (g : Seg) (gen : Generation) (count : Nat) (left : List Host.Cell) :
    (s.atLevel lv).erasedCells g gen count left = (s.erasedCells g gen count left).atLevel lv := by rfl

@[simp] theorem State.completeErase_atLevel (g : Seg) (gen : Generation) (count : Nat) (left : List Host.Cell) :
    (s.atLevel lv).completeErase g gen count left = (s.completeErase g gen count left).atLevel lv := by
  unfold State.completeErase
  simp

@[simp] theorem State.completeReclaimErase_atLevel (e : EraseCtx) (left : List Host.Cell) :
    (s.atLevel lv).completeReclaimErase e left = (s.completeReclaimErase e left).atLevel lv := by
  unfold State.completeReclaimErase
  simp

@[simp] theorem execCellReadDone_atLevel : execCellReadDone (s.atLevel lv) = outcomeAtLevel lv (execCellReadDone s) := by
  unfold execCellReadDone
  simp only [State.running_atLevel, State.array_atLevel, State.landed_atLevel, State.deliverRead_atLevel, State.settle_atLevel]
  split <;> rfl

@[simp] theorem execBodyProgramDone_atLevel (left : List Host.Cell) :
    execBodyProgramDone left (s.atLevel lv) = outcomeAtLevel lv (execBodyProgramDone left s) := by
  unfold execBodyProgramDone
  simp only [State.running_atLevel, State.array_atLevel, State.completeBody_atLevel, State.settle_atLevel]
  split <;> rfl

@[simp] theorem execHeaderProgramDone_atLevel (left : List Host.Cell) :
    execHeaderProgramDone left (s.atLevel lv) = outcomeAtLevel lv (execHeaderProgramDone left s) := by
  unfold execHeaderProgramDone
  simp only [State.running_atLevel, State.array_atLevel, State.completeHeader_atLevel, State.settle_atLevel]
  split <;> rfl

@[simp] theorem execMarkProgramDone_atLevel (fails : Bool) :
    execMarkProgramDone fails (s.atLevel lv) = outcomeAtLevel lv (execMarkProgramDone fails s) := by
  unfold execMarkProgramDone
  simp only [State.running_atLevel, State.array_atLevel, State.completeMark_atLevel, State.settle_atLevel]
  split <;> rfl

@[simp] theorem execSegmentEraseDone_atLevel (left : List Host.Cell) :
    execSegmentEraseDone left (s.atLevel lv) = outcomeAtLevel lv (execSegmentEraseDone left s) := by
  unfold execSegmentEraseDone
  simp only [State.running_atLevel, State.array_atLevel, State.completeErase_atLevel, State.completeReclaimErase_atLevel,
    State.settle_atLevel]
  split <;> (try split) <;> rfl

@[simp] theorem State.suspendDue_atLevel : (s.atLevel lv).suspendDue = s.suspendDue := by rfl

@[simp] theorem execEraseSuspendBegin_atLevel : execEraseSuspendBegin (s.atLevel lv) = outcomeAtLevel lv (execEraseSuspendBegin s) := by
  simp [execEraseSuspendBegin]

@[simp] theorem State.stopDue_atLevel : (s.atLevel lv).stopDue = s.stopDue := by rfl

@[simp] theorem execEraseStop_atLevel : execEraseStop (s.atLevel lv) = outcomeAtLevel lv (execEraseStop s) := by
  simp [execEraseStop]

/-! ## Lines -/

@[simp] theorem State.volatileReset_atLevel (cells : List Host.Cell) :
    (s.atLevel lv).volatileReset cells = (s.volatileReset cells).atLevel lv := by rfl

@[simp] theorem State.startMount_atLevel : (s.atLevel lv).startMount = s.startMount.atLevel lv := by rfl

@[simp] theorem State.cutShort_atLevel (cut : List Host.Cell) (eraseCut : List Host.Cell) :
    (s.atLevel lv).cutShort cut eraseCut = (s.cutShort cut eraseCut).atLevel lv := by rfl

@[simp] theorem execResetNLow_atLevel (a b : List Host.Cell) :
    execResetNLow a b (s.atLevel lv) = outcomeAtLevel lv (execResetNLow a b s) := by
  obtain ⟨_, _, _, _, _, _, _, ⟨power, resetN, _⟩, _⟩ := s
  cases power <;> cases resetN <;> rfl

@[simp] theorem execResetNHigh_atLevel : execResetNHigh (s.atLevel lv) = outcomeAtLevel lv (execResetNHigh s) := by
  obtain ⟨_, _, _, _, _, _, _, ⟨power, resetN, _⟩, _⟩ := s
  cases power <;> cases resetN <;> rfl

@[simp] theorem execPowerOn_atLevel : execPowerOn (s.atLevel lv) = outcomeAtLevel lv (execPowerOn s) := by
  obtain ⟨_, _, _, _, _, _, _, ⟨power, resetN, _⟩, _⟩ := s
  cases power <;> cases resetN <;> rfl

@[simp] theorem execPowerLoss_atLevel (a b : List Host.Cell) :
    execPowerLoss a b (s.atLevel lv) = outcomeAtLevel lv (execPowerLoss a b s) := by
  obtain ⟨_, _, _, _, _, _, _, ⟨power, resetN, _⟩, _⟩ := s
  cases power <;> cases resetN <;> rfl

/-! ## Time -/

@[simp] theorem State.urgentEvent_atLevel : (s.atLevel lv).urgentEvent = s.urgentEvent := by rfl
@[simp] theorem State.microsecond_atLevel : (s.atLevel lv).microsecond = s.microsecond.atLevel lv := by rfl

@[simp] theorem State.tick_atLevel : (s.atLevel lv).tick = s.tick.atLevel lv := by
  unfold State.tick
  (repeat' split) <;> simp_all

@[simp] theorem State.setPending_atLevel (q : List Instr) : (s.atLevel lv).setPending q = (s.setPending q).atLevel lv := by rfl

/-! ## The rows -/

theorem State.lockCheck_atLevel (h : s.guard.modeInForce ≠ .pin ∨ s.guard.session = true) : (s.atLevel lv).lockCheck = s.lockCheck := by
  unfold State.lockCheck
  rcases h with h | h <;> simp [h]

theorem State.doGuardSet_atLevel (h : s.guard.modeInForce ≠ .pin ∨ s.guard.session = true) (p : Port) (c : Cmd) :
    (s.atLevel lv).doGuardSet p c = (s.doGuardSet p c).atLevel lv := by
  have ready : ∀ t g, (s.atLevel lv).guardSetReady p c t g = (s.guardSetReady p c t g).atLevel lv := fun t g => by
    simp only [State.guardSetReady, State.lockCheck_atLevel h, State.unguarded_atLevel, State.configVersion_atLevel,
    State.failVersion_atLevel,
      State.newConfigUpdate_atLevel, State.guard_atLevel]
    (repeat' split) <;> simp
  have admitted : ∀ t g, (s.atLevel lv).admitGuardSet p c t g = (s.admitGuardSet p c t g).atLevel lv := fun t g => by
    simp only [State.admitGuardSet, ready, State.configVersion_atLevel, State.store_atLevel]
    split <;> simp
  simp only [State.doGuardSet, admitted]
  split <;> simp

theorem State.doFormat_atLevel (h : s.guard.modeInForce ≠ .pin ∨ s.guard.session = true) (p : Port) (c : Cmd) :
    (s.atLevel lv).doFormat p c = (s.doFormat p c).atLevel lv := by
  have checks : (s.atLevel lv).formatChecks p c = (s.formatChecks p c).atLevel lv := by
    simp only [State.formatChecks, State.lockCheck_atLevel h, State.unguarded_atLevel, State.store_atLevel, State.engine_atLevel]
    (repeat' split) <;> simp_all
  simp only [State.doFormat, checks]
  split <;> simp

/-- No row but GUARD READ, the line's own change, and the lock check in PIN samples GUARD_EN (R125). -/
theorem exec_atLevel (i : Instr) (read : i ≠ .guardRead) (change : ∀ b, i ≠ .guardEnChange b)
    (check : i = .guardSet ∨ i = .format → s.guard.modeInForce ≠ .pin ∨ s.guard.session = true) :
    exec i (s.atLevel lv) = outcomeAtLevel lv (exec i s) := by
  cases i with
  | guardRead => exact absurd rfl read
  | guardEnChange b => exact absurd rfl (change b)
  | guardSet => exact State.perform_atLevel _ State.doGuardSet (State.doGuardSet_atLevel (check (.inl rfl)))
  | format => exact State.perform_atLevel _ State.doFormat (State.doFormat_atLevel (check (.inr rfl)))
  | _ => simp [exec]

theorem step_atLevel (h : s.pending = []) : step (s.atLevel lv) = outcomeAtLevel lv (step s) := by
  simp [step, h, outcomeAtLevel]

end Sys2Proof.Machine
end

