-- ==== Sys2Proof/Laws/Space.lean ====
section
/-! SUPPORT. Searches of the segment table and what a grant makes of it: the front, the FREE segment of R137, and that a grant touches the Space Manager alone. -/

namespace Sys2Proof.Machine

/-! ## Searches over the segments -/

theorem allSegs_sorted : allSegs.Pairwise (· < ·) := by
  unfold allSegs; exact List.pairwise_lt_finRange 256

/-- The first segment of a search. -/
theorem allSegs_find_first {p : Seg → Bool} {g : Seg} (hg : p g = true) (first : ∀ h : Seg, h < g → p h = false) :
    allSegs.find? p = some g := by
  cases hr : allSegs.find? p with
  | none => have := List.find?_eq_none.1 hr g (List.mem_finRange _); simp [hg] at this
  | some x =>
    obtain ⟨hx, as, bs, hl, hb⟩ := List.find?_eq_some_iff_append.1 hr
    rcases lt_trichotomy x g with h | h | h
    · rw [first x h] at hx; cases hx
    · rw [h]
    · have sorted : allSegs.Pairwise (· < ·) := List.pairwise_lt_finRange 256
      have hm : g ∈ allSegs := List.mem_finRange _
      rw [hl] at hm sorted
      rw [List.pairwise_append] at sorted
      rcases List.mem_append.1 hm with h1 | h1
      · have := hb g h1; simp [hg] at this
      · rcases List.mem_cons.1 h1 with h2 | h2
        · exact absurd h2 (ne_of_lt h)
        · have := (List.pairwise_cons.1 sorted.2.1).1 g h2
          exact absurd this (not_lt.2 (le_of_lt h))

theorem allSegs_find_none {p : Seg → Bool} (no : ∀ h : Seg, p h = false) : allSegs.find? p = none := by
  rw [List.find?_eq_none]; intro x _; simp [no x]

/-- The segment table as a list, row by row. -/
theorem segRows_toList (v : Vector SegRow 256) : v.toList = (List.finRange 256).map (fun g => v[g]) := by
  apply List.ext_getElem
  · simp
  · intro i h1 h2; simp

/-! ## The front -/

theorem State.takeFront_none (s : State) (h : s.front = none ∨ s.space.frontFree = []) : s.takeFront = none := by
  unfold State.takeFront
  rcases h with h | h
  · rw [h]
  · rw [h]; cases s.front <;> rfl

/-- The one segment in FRONT is the front. -/
theorem State.front_of (s : State) (g : Seg) (h : (s.seg g).state = .front) (only : ∀ x, (s.seg x).state = .front → x = g) :
    s.front = some g := by
  unfold State.front
  cases hr : allSegs.find? (fun g => (s.seg g).state == .front) with
  | none => have := List.find?_eq_none.1 hr g (List.mem_finRange _); simp [h] at this
  | some x => have := List.find?_some hr; simp at this; rw [only x this]

/-- Once the front is closed no segment is in FRONT, and every other row stands. -/
theorem State.closeFront_spec (s : State) (ok : FrontOk s) (x : Seg) :
    (s.closeFront.seg x).state ≠ .front ∧ ((s.seg x).state ≠ .front → s.closeFront.seg x = s.seg x) := by
  unfold State.closeFront
  cases hf : s.front with
  | none =>
    unfold State.front at hf
    have := List.find?_eq_none.1 hf x (List.mem_finRange _)
    simp at this
    simp [this]
  | some f =>
    have hff : (s.seg f).state = .front := by
      unfold State.front at hf; simpa using List.find?_some hf
    simp only [State.setSegState, State.seg_setSeg]
    by_cases e : f = x
    · simp [e]; intro h; subst e; exact absurd hff h
    · simp [e]; intro h; exact e (ok.1 f x hff h)

/-- A front that is opened is the front. -/
theorem State.openFront_front (s : State) (ok : FrontOk s) (g : Seg) : (s.openFront g).front = some g := by
  apply State.front_of
  · simp [State.openFront, State.seg, State.setSeg]
  · intro x hx
    by_contra ne
    have : (s.openFront g).seg x = s.closeFront.seg x := by
      show (s.closeFront.setSeg g _).seg x = _
      rw [State.seg_setSeg, if_neg (fun e => ne e.symm)]
    rw [this] at hx
    exact (s.closeFront_spec ok x).1 hx

/-! ## The FREE segment of R137 -/

theorem betterFree_fold (s : State) (l : List Seg) (b : Option Seg) (sorted : l.Pairwise (· < ·))
    (hb : ∀ x, b = some x → (s.seg x).state = .free ∧ ∀ y ∈ l, x < y) :
    match l.foldl (betterFree s) b with
    | some g => (s.seg g).state = .free ∧ ∀ h, (h ∈ l ∨ b = some h) → (s.seg h).state = .free →
        (s.seg g).erases < (s.seg h).erases ∨ ((s.seg g).erases = (s.seg h).erases ∧ g ≤ h)
    | none => b = none ∧ ∀ h ∈ l, (s.seg h).state ≠ .free := by
  induction l generalizing b with
  | nil =>
    simp only [List.foldl_nil]
    cases b with
    | none => simp
    | some x => refine ⟨(hb x rfl).1, ?_⟩; rintro h (h1|h1) hf; simp at h1; cases h1; simp
  | cons y l ih =>
    rw [List.foldl_cons]
    obtain ⟨s1, s2⟩ := List.pairwise_cons.1 sorted
    have := ih (betterFree s b y) s2 (by
      intro x hx
      unfold betterFree at hx
      split at hx
      · rename_i hy
        cases b with
        | none => simp at hx; subst hx; exact ⟨hy, s1⟩
        | some z =>
          simp only at hx
          split at hx
          · simp at hx; subst hx; exact ⟨hy, s1⟩
          · simp at hx; subst hx; exact ⟨(hb _ rfl).1, fun w hw => (hb _ rfl).2 w (by simp [hw])⟩
      · exact ⟨(hb _ hx).1, fun w hw => (hb _ hx).2 w (by simp [hw])⟩)
    cases hr : l.foldl (betterFree s) (betterFree s b y) with
    | none =>
      rw [hr] at this
      obtain ⟨a, c⟩ := this
      simp only
      unfold betterFree at a
      split at a
      · cases b with
        | none => simp at a
        | some z => simp only at a; split at a <;> simp at a
      · rename_i hy; refine ⟨a, fun h hm => ?_⟩
        rcases List.mem_cons.1 hm with e|e
        · subst e; exact hy
        · exact c h e
    | some g =>
      rw [hr] at this
      obtain ⟨a, c⟩ := this
      simp only
      refine ⟨a, fun h hm hf => ?_⟩
      have hy : h = y ∨ (h ∈ l ∨ b = some h) := by
        rcases hm with hm|hm
        · rcases List.mem_cons.1 hm with e|e
          · exact .inl e
          · exact .inr (.inl e)
        · exact .inr (.inr hm)
      rcases hy with e|e|e
      · subst e
        unfold betterFree at c
        rw [if_pos hf] at c
        cases b with
        | none => exact c h (.inr rfl) hf
        | some z =>
          simp only at c
          split at c
          · exact c h (.inr rfl) hf
          · rename_i hl
            have hz := (hb z rfl)
            have := c z (.inr rfl) hz.1
            have := hz.2 h (by simp)
            rcases ‹_ ∨ _› with q|⟨q,q'⟩
            · left; omega
            · rcases Nat.lt_or_ge (s.seg g).erases (s.seg h).erases with w|w
              · exact .inl w
              · right; exact ⟨by omega, le_trans q' (le_of_lt this)⟩
      · exact c h (.inl e) hf
      · subst e
        unfold betterFree at c
        split at c
        · simp only at c
          split at c
          · rename_i hyf hl
            have := c y (.inr rfl) hyf
            have hh := (hb h rfl).2 y (by simp)
            left; omega
          · exact c h (.inr rfl) hf
        · exact c h (.inr rfl) hf

/-- With a FREE segment there is one of lowest erase count, and then of lowest number (R137). -/
theorem State.bestFree_spec (s : State) (h : 1 ≤ s.freeCount) :
    ∃ g, s.bestFree = some g ∧ (s.seg g).state = .free ∧
      ∀ h, (s.seg h).state = .free → (s.seg g).erases < (s.seg h).erases ∨ ((s.seg g).erases = (s.seg h).erases ∧ g ≤ h) := by
  have := betterFree_fold s allSegs none allSegs_sorted (by simp)
  cases hr : allSegs.foldl (betterFree s) none with
  | none =>
    rw [hr] at this
    exfalso
    have hz : s.freeCount = 0 := by
      unfold State.freeCount State.countSegs
      rw [List.countP_eq_zero]
      intro r hr' hs
      obtain ⟨i, hi, he⟩ := List.mem_iff_getElem.1 hr'
      simp at hi
      have := this.2 ⟨i, hi⟩ (List.mem_finRange _)
      apply this
      simp at he hs
      show (s.space.segs[i]).state = _
      rw [he]; exact hs
    omega
  | some g =>
    rw [hr] at this
    exact ⟨g, hr, this.1, fun h hf => this.2 h (.inl (List.mem_finRange _)) hf⟩

/-- A grant from a new front: cell 1 of the FREE segment of R137, which is the front then, the front before it FULL (R136, R137). -/
theorem State.takeNewFront_spec (s : State) (ok : FrontOk s) (h : 1 ≤ s.freeCount) :
    ∃ (g : Seg) (segs : Vector SegRow 256), (s.seg g).state = .free ∧
      (∀ h, (s.seg h).state = .free → (s.seg g).erases < (s.seg h).erases ∨ ((s.seg g).erases = (s.seg h).erases ∧ g ≤ h)) ∧
      (∀ h : Seg, segs[h] =
        if h = g then { state := .front, erases := (s.seg g).erases, live := 1, dead := 0, free := 30 }
        else if s.front = some h then { s.seg h with state := .full } else s.seg h) ∧
      s.takeNewFront = some (⟨g, 1⟩, (s.setSegs segs).setFrontFree dataCells.tail) := by
  obtain ⟨g, hb, hg, hmin⟩ := s.bestFree_spec h
  have row : (s.openFront g).seg g = { state := .front, erases := (s.seg g).erases, live := 0, dead := 0, free := 31 } := by
    show (s.closeFront.setSeg g _).seg g = _
    rw [State.seg_setSeg, if_pos rfl, (s.closeFront_spec ok g).2 (by rw [hg]; decide)]
  refine ⟨g, ((s.openFront g).setSeg g { state := .front, erases := (s.seg g).erases, live := 1, dead := 0, free := 30 }).space.segs,
    hg, hmin, fun x => ?_, ?_⟩
  · show ((s.openFront g).setSeg g _).seg x = _
    rw [State.seg_setSeg]
    by_cases e : x = g
    · rw [if_pos e.symm, if_pos e]
    · rw [if_neg (Ne.symm e), if_neg e]
      show (s.closeFront.setSeg g _).seg x = _
      rw [State.seg_setSeg, if_neg (Ne.symm e)]
      unfold State.closeFront
      cases hf : s.front with
      | none => rfl
      | some f => simp only [State.setSegState, State.seg_setSeg, Option.some.injEq]; by_cases q : f = x <;> simp [q]
  · unfold State.takeNewFront State.takeFront
    simp only [hb, s.openFront_front ok g, show (s.openFront g).space.frontFree = 1 :: dataCells.tail from by show dataCells = _; decide, row]
    unfold State.openFront State.closeFront
    cases s.front <;> rfl

/-! ## A grant touches the Space Manager alone -/

theorem State.openFront_space (s : State) (g : Seg) : s.openFront g = { s with space := (s.openFront g).space } := by
  unfold State.openFront State.closeFront; split <;> rfl

theorem State.takeFront_space {s t : State} {pos : Pos} (h : s.takeFront = some (pos, t)) : t = { s with space := t.space } := by
  unfold State.takeFront at h
  split at h
  · simp only [Option.some.injEq, Prod.mk.injEq] at h; rw [← h.2]; rfl
  · cases h

theorem State.copyGrant_space {s t : State} {pos : Pos} (h : s.copyGrant = some (pos, t)) : t = { s with space := t.space } := by
  unfold State.copyGrant at h
  split at h
  · rename_i x hx
    cases h
    exact State.takeFront_space hx
  · unfold State.takeNewFront at h
    split at h
    · rename_i g _
      have := State.takeFront_space h
      rw [State.openFront_space] at this
      exact this
    · cases h

end Sys2Proof.Machine
end

