-- ==== Sys2Proof/Laws/Mount.lean ====
section
/-! SUPPORT. Mount's choices, said once: which copy of a key is current (R158), in which order the repair targets stand, which segment is the front (R159), which generation and count are the highest (R156), and what the directory's limit keeps (R163). -/

namespace Sys2Proof.Machine

/-! ## An entry put in the directory -/

theorem lookup_put_same (d : List Entry) (e : Entry) : lookup (putEntry d e) e.key = some e := by
  induction d with
  | nil => simp [putEntry, lookup]
  | cons x d ih =>
    unfold putEntry
    split
    · simp [lookup]
    · rename_i h1
      split
      · simp [lookup]
      · have : (x.key == e.key) = false := by simpa using h1
        simp only [lookup, List.find?_cons, this] at *
        exact ih

theorem lookup_put_other (d : List Entry) (e : Entry) (k : Key) (h : k ≠ e.key) : lookup (putEntry d e) k = lookup d k := by
  have he : (e.key == k) = false := by simpa using Ne.symm h
  induction d with
  | nil => simp [putEntry, lookup, he]
  | cons x d ih =>
    unfold putEntry
    split
    · rename_i h1
      simp only [lookup, List.find?_cons, he, h1]
    · split
      · simp only [lookup, List.find?_cons, he]
      · simp only [lookup, List.find?_cons] at *
        rw [ih]

/-! ## The order of R158 -/

/-- A cell's place in the array's order. -/
def posRank (p : Pos) : Nat := p.seg.val * 32 + p.cell.val

/-- A committed cell's rank among those of its key: version, sequence number, place (R158, log entry 27). -/
def copyRank (x : Pos × Body) : Nat := (x.2.version.toNat * 2 ^ 32 + x.2.seq.toNat) * 2 ^ 13 + posRank x.1

theorem posRank_lt (p : Pos) : posRank p < 2 ^ 13 := by
  unfold posRank; have := p.seg.isLt; have := p.cell.isLt; omega

theorem Pos.before_iff {a b : Pos} : a.before b = true ↔ a.seg < b.seg ∨ (a.seg = b.seg ∧ a.cell < b.cell) := by
  unfold Pos.before; simp

theorem Pos.before_rank {a b : Pos} : a.before b = true ↔ posRank a < posRank b := by
  rw [Pos.before_iff]; unfold posRank
  have := a.cell.isLt; have := b.cell.isLt
  rw [Fin.lt_def, Fin.lt_def, Fin.ext_iff]; omega

theorem posRank_inj {a b : Pos} (h : posRank a = posRank b) : a = b := by
  unfold posRank at h
  have := a.cell.isLt; have := b.cell.isLt
  cases a; cases b
  simp only [Pos.mk.injEq, Fin.ext_iff] at *
  omega

/-- A copy is not current exactly when another of its key ranks above it. -/
theorem losesTo_rank {x y : Pos × Body} : losesTo x y = true ↔ x.2.key = y.2.key ∧ copyRank x < copyRank y := by
  unfold losesTo
  simp only [Bool.and_eq_true, Bool.or_eq_true, beq_iff_eq, decide_eq_true_eq, Pos.before_rank, BitVec.lt_def,
     ← BitVec.toNat_inj (x := x.2.version), ← BitVec.toNat_inj (x := x.2.seq)]
  apply and_congr_right; intro _
  unfold copyRank
  have := posRank_lt x.1; have := posRank_lt y.1
  have := x.2.seq.isLt; have := y.2.seq.isLt
  generalize x.2.version.toNat = a at *; generalize y.2.version.toNat = b at *
  generalize x.2.seq.toNat = c at *; generalize y.2.seq.toNat = d at *
  generalize posRank x.1 = e at *; generalize posRank y.1 = f at *
  omega

theorem losesTo_iff {x y : Pos × Body} :
    losesTo x y = true ↔ x.2.key = y.2.key ∧ (x.2.version < y.2.version ∨ (x.2.version = y.2.version ∧
      (x.2.seq < y.2.seq ∨ (x.2.seq = y.2.seq ∧ (x.1.seg < y.1.seg ∨ (x.1.seg = y.1.seg ∧ x.1.cell < y.1.cell)))))) := by
  unfold losesTo
  simp [Pos.before_iff]

/-- Every key with a committed cell has a current one. -/
theorem exists_current (cs : List (Pos × Body)) (x : Pos × Body) (hx : x ∈ cs) : ∃ y ∈ currentCells cs, y.2.key = x.2.key := by
  have : ∀ n, ∀ x ∈ cs, 2 ^ 80 - copyRank x ≤ n → ∃ y ∈ currentCells cs, y.2.key = x.2.key := by
    intro n
    induction n with
    | zero =>
      intro x hx hn
      exfalso
      have : copyRank x < 2 ^ 80 := by
        unfold copyRank
        have := posRank_lt x.1; have := x.2.seq.isLt; have := x.2.version.isLt
        generalize x.2.version.toNat = a at *
        generalize x.2.seq.toNat = c at *
        generalize posRank x.1 = e at *
        omega
      omega
    | succ n ih =>
      intro x hx hn
      by_cases c : cs.any (fun y => losesTo x y) = true
      · obtain ⟨y, hy, hl⟩ := List.any_eq_true.1 c
        rw [losesTo_rank] at hl
        obtain ⟨z, hz, hk⟩ := ih y hy (by omega)
        exact ⟨z, hz, hk.trans hl.1.symm⟩
      · exact ⟨x, List.mem_filter.2 ⟨hx, by simpa using c⟩, rfl⟩
  exact this _ x hx le_rfl

/-- The directory built from some cells has the entries it had and theirs. -/
theorem lookup_putAll (l : List (Pos × Body)) (d : List Entry) (k : Key) :
    (∀ e, lookup (l.foldl (fun d x => putEntry d (committedEntry none x.2 x.1)) d) k = some e →
      lookup d k = some e ∨ ∃ x ∈ l, x.2.key = k ∧ e = committedEntry none x.2 x.1) ∧
    (lookup (l.foldl (fun d x => putEntry d (committedEntry none x.2 x.1)) d) k = none → lookup d k = none ∧ ∀ x ∈ l, x.2.key ≠ k) := by
  induction l generalizing d with
  | nil => simp
  | cons a l ih =>
    rw [List.foldl_cons]
    obtain ⟨h1, h2⟩ := ih (putEntry d (committedEntry none a.2 a.1))
    have hk : (committedEntry none a.2 a.1).key = a.2.key := rfl
    refine ⟨fun e he => ?_, fun hn => ?_⟩
    · rcases h1 e he with h | ⟨x, hx, h⟩
      · by_cases c : k = a.2.key
        · subst c
          have := lookup_put_same d (committedEntry none a.2 a.1)
          rw [hk] at this
          rw [this] at h
          exact .inr ⟨a, by simp, rfl, by cases h; rfl⟩
        · rw [lookup_put_other _ _ _ (by rw [hk]; exact c)] at h
          exact .inl h
      · exact .inr ⟨x, by simp [hx], h⟩
    · obtain ⟨a1, a2⟩ := h2 hn
      by_cases c : k = a.2.key
      · subst c
        have := lookup_put_same d (committedEntry none a.2 a.1)
        rw [hk] at this
        rw [this] at a1; cases a1
      · rw [lookup_put_other _ _ _ (by rw [hk]; exact c)] at a1
        refine ⟨a1, fun x hx => ?_⟩
        rcases List.mem_cons.1 hx with rfl | hx
        · exact Ne.symm c
        · exact a2 x hx

/-- Targets in the array's order, sorted by key, keep that order within a key. -/
theorem sortByKey_stable (l : List (Key × Pos)) (h : l.Pairwise (fun x y => x.2.before y.2 = true)) :
    (l.insertionSort (fun a b => a.1.toNat ≤ b.1.toNat)).Pairwise (fun x y =>
      x.1 < y.1 ∨ (x.1 = y.1 ∧ x.2.before y.2 = true)) := by
  induction l with
  | nil => simp
  | cons a l ih =>
    obtain ⟨h1, h2⟩ := List.pairwise_cons.1 h
    have ih := ih h2
    rw [List.insertionSort_cons]
    have hm : ∀ x ∈ l.insertionSort (fun a b => a.1.toNat ≤ b.1.toNat), a.2.before x.2 = true := by
      intro x hx; exact h1 x ((List.mem_insertionSort _).1 hx)
    generalize l.insertionSort (fun a b => a.1.toNat ≤ b.1.toNat) = s at ih hm
    induction s with
    | nil => simp
    | cons b s ih2 =>
      obtain ⟨s1, s2⟩ := List.pairwise_cons.1 ih
      rw [List.orderedInsert_cons]
      split
      · rename_i c
        refine List.pairwise_cons.2 ⟨fun x hx => ?_, ih⟩
        have hax := hm x hx
        have kb : a.1.toNat ≤ x.1.toNat := by
          rcases List.mem_cons.1 hx with rfl | hx'
          · exact c
          · rcases s1 x hx' with k | k
            · have := BitVec.lt_def.1 k; omega
            · rw [← k.1]; exact c
        rcases Nat.lt_or_eq_of_le kb with k | k
        · exact .inl (BitVec.lt_def.2 k)
        · exact .inr ⟨BitVec.eq_of_toNat_eq k, hax⟩
      · rename_i c
        refine List.pairwise_cons.2 ⟨fun x hx => ?_, ih2 s2 (fun x hx => hm x (by simp [hx]))⟩
        rcases (List.mem_orderedInsert _).1 hx with rfl | hx'
        · exact .inl (BitVec.lt_def.2 (by omega))
        · exact s1 x hx'

/-! ## Classes and the front (R156, R159) -/

theorem Mount.classOf_of {m : Mount} {g : Seg} {c : SegClass} (h : m.classes[g.val]? = some c) : m.classOf g = c := by
  unfold Mount.classOf; rw [h]; rfl

theorem Mount.classOf_all {m : Mount} (all : m.classes.length = 256) (g : Seg) : m.classes[g.val]? = some (m.classOf g) := by
  unfold Mount.classOf
  have : g.val < m.classes.length := by omega
  rw [List.getElem?_eq_getElem this]; rfl

theorem Mount.isCurrent_iff {m : Mount} {gen : Generation} {g : Seg} :
    m.isCurrent gen g = true ↔ ∃ n, m.classes[g.val]? = some (.valid gen n) := by
  unfold Mount.isCurrent Mount.classOf
  cases h : m.classes[g.val]? with
  | none => simp
  | some c => cases c <;> simp

theorem Mount.mem_valids {m : Mount} {gen : Generation} {n : Nat} : (gen, n) ∈ m.valids ↔ SegClass.valid gen n ∈ m.classes := by
  unfold Mount.valids
  rw [List.mem_filterMap]
  constructor
  · rintro ⟨c, hc, hx⟩
    cases c <;> simp at hx
    obtain ⟨rfl, rfl⟩ := hx
    exact hc
  · intro h; exact ⟨_, h, rfl⟩

/-- The highest generation of some headers. -/
theorem topGen_fold (l : List (Generation × Nat)) (t : Generation) :
    (l.foldl (fun t x => if t < x.1 then x.1 else t) t = t ∨ ∃ x ∈ l, x.1 = l.foldl (fun t x => if t < x.1 then x.1 else t) t) ∧
    t ≤ l.foldl (fun t x => if t < x.1 then x.1 else t) t ∧
    ∀ x ∈ l, x.1 ≤ l.foldl (fun t x => if t < x.1 then x.1 else t) t := by
  induction l generalizing t with
  | nil => simp
  | cons a l ih =>
    rw [List.foldl_cons]
    obtain ⟨h1, h2, h3⟩ := ih (if t < a.1 then a.1 else t)
    by_cases c : t < a.1
    · simp only [c, if_true] at h1 h2 h3 ⊢
      refine ⟨?_, BitVec.le_trans (BitVec.le_of_lt c) h2, ?_⟩
      · right
        rcases h1 with h | ⟨x, hx, h⟩
        · exact ⟨a, by simp, h.symm⟩
        · exact ⟨x, by simp [hx], h⟩
      · intro x hx
        rcases List.mem_cons.1 hx with e | e
        · subst e; exact h2
        · exact h3 x e
    · simp only [c, if_false] at h1 h2 h3 ⊢
      refine ⟨?_, h2, ?_⟩
      · rcases h1 with h | ⟨x, hx, h⟩
        · exact .inl h
        · exact .inr ⟨x, by simp [hx], h⟩
      · intro x hx
        rcases List.mem_cons.1 hx with e | e
        · subst e; exact BitVec.le_trans (BitVec.not_lt.1 c) h2
        · exact h3 x e

/-- The highest erase count of a generation. -/
theorem topCount_fold (gen : Generation) (l : List (Generation × Nat)) (t : Nat) :
    (l.foldl (fun t x => if x.1 = gen then max t x.2 else t) t = t ∨
      ∃ x ∈ l, x.1 = gen ∧ x.2 = l.foldl (fun t x => if x.1 = gen then max t x.2 else t) t) ∧
    t ≤ l.foldl (fun t x => if x.1 = gen then max t x.2 else t) t ∧
    ∀ x ∈ l, x.1 = gen → x.2 ≤ l.foldl (fun t x => if x.1 = gen then max t x.2 else t) t := by
  induction l generalizing t with
  | nil => simp
  | cons a l ih =>
    rw [List.foldl_cons]
    obtain ⟨h1, h2, h3⟩ := ih (if a.1 = gen then max t a.2 else t)
    by_cases c : a.1 = gen
    · simp only [c, if_true] at h1 h2 h3 ⊢
      refine ⟨?_, by omega, ?_⟩
      · rcases h1 with h | ⟨x, hx, h⟩
        · rcases Nat.le_total t a.2 with k | k
          · right; exact ⟨a, by simp, c, by rw [h]; omega⟩
          · left; rw [h]; omega
        · exact .inr ⟨x, by simp [hx], h⟩
      · intro x hx hg
        rcases List.mem_cons.1 hx with e | e
        · subst e; omega
        · exact h3 x e hg
    · simp only [c, if_false] at h1 h2 h3 ⊢
      refine ⟨?_, h2, ?_⟩
      · rcases h1 with h | ⟨x, hx, h⟩
        · exact .inl h
        · exact .inr ⟨x, by simp [hx], h⟩
      · intro x hx hg
        rcases List.mem_cons.1 hx with e | e
        · subst e; exact absurd hg c
        · exact h3 x e hg

/-- The highest sequence number among some cells found, none when no body is good. -/
theorem topSeq_fold (l : List Found) (t : Option Nat) :
    (∀ n, l.foldl (fun t f => match f.body with | some b => some (max (t.getD 0) b.seq.toNat) | none => t) t = some n →
      (∀ x, t = some x → x ≤ n) ∧ (∀ f ∈ l, ∀ b, f.body = some b → b.seq.toNat ≤ n) ∧
        (t = some n ∨ ∃ f ∈ l, ∃ b, f.body = some b ∧ n = b.seq.toNat)) ∧
    (l.foldl (fun t f => match f.body with | some b => some (max (t.getD 0) b.seq.toNat) | none => t) t = none →
      t = none ∧ ∀ f ∈ l, f.body = none) := by
  induction l generalizing t with
  | nil =>
    refine ⟨fun n h => ⟨fun x hx => ?_, by simp, .inl (by simpa using h)⟩, fun h => ⟨by simpa using h, by simp⟩⟩
    rw [List.foldl_nil, hx] at h
    exact le_of_eq (Option.some.inj h)
  | cons a l ih =>
    rw [List.foldl_cons]
    obtain ⟨h1, h2⟩ := ih (match a.body with | some b => some (max (t.getD 0) b.seq.toNat) | none => t)
    refine ⟨fun n hn => ?_, fun hn => ?_⟩
    · obtain ⟨p, q, r⟩ := h1 n hn
      cases hb : a.body with
      | none =>
        simp only [hb] at p r
        refine ⟨p, fun f hf b hfb => ?_, ?_⟩
        · rcases List.mem_cons.1 hf with rfl | hf
          · rw [hb] at hfb; cases hfb
          · exact q f hf b hfb
        · rcases r with r | ⟨f, hf, r⟩
          · exact .inl r
          · exact .inr ⟨f, by simp [hf], r⟩
      | some b =>
        simp only [hb] at p r
        have pm := p _ rfl
        refine ⟨fun x hx => ?_, fun f hf b' hfb => ?_, ?_⟩
        · subst hx; simp at pm; omega
        · rcases List.mem_cons.1 hf with rfl | hf
          · rw [hb] at hfb; cases hfb; omega
          · exact q f hf b' hfb
        · rcases r with r | ⟨f, hf, r⟩
          · cases t with
            | none => right; exact ⟨a, by simp, b, hb, by simp at r; exact r.symm⟩
            | some x =>
              simp at r
              rcases Nat.le_total x b.seq.toNat with k | k
              · right; exact ⟨a, by simp, b, hb, by omega⟩
              · left; congr 1; omega
          · exact .inr ⟨f, by simp [hf], r⟩
    · obtain ⟨p, q⟩ := h2 hn
      cases hb : a.body with
      | none =>
        simp only [hb] at p
        refine ⟨p, fun f hf => ?_⟩
        rcases List.mem_cons.1 hf with rfl | hf
        · exact hb
        · exact q f hf
      | some b => simp only [hb] at p; cases p

/-- The order of R159 among partly filled segments: whether the front may be `g` beside `h`. -/
def Mount.Fits (m : Mount) (g h : Seg) : Prop :=
  match m.topIn h, m.topIn g with
  | some y, some x => y ≤ x
  | some _, none => False
  | none, some _ => True
  | none, none => g ≤ h

theorem Mount.betterFront_fold (m : Mount) (gen : Generation) (l : List Seg) (b : Option Seg) (sorted : l.Pairwise (· < ·))
    (hb : ∀ x, b = some x → m.partly gen x = true ∧ ∀ y ∈ l, x < y) :
    match l.foldl (m.betterFront gen) b with
    | some g => m.partly gen g = true ∧ ∀ h, (h ∈ l ∨ b = some h) → m.partly gen h = true → m.Fits g h
    | none => b = none ∧ ∀ h ∈ l, m.partly gen h = false := by
  induction l generalizing b with
  | nil =>
    simp only [List.foldl_nil]
    cases b with
    | none => simp
    | some x =>
      refine ⟨(hb x rfl).1, ?_⟩
      rintro h (h1|h1) hf
      · simp at h1
      · cases h1; unfold Mount.Fits; cases m.topIn x <;> simp
  | cons y l ih =>
    rw [List.foldl_cons]
    obtain ⟨s1, s2⟩ := List.pairwise_cons.1 sorted
    have step : (m.partly gen y = false → m.betterFront gen b y = b) ∧
        (m.partly gen y = true → ∃ g, m.betterFront gen b y = some g ∧ (g = y ∨ b = some g) ∧ m.Fits g y ∧
          ∀ x, b = some x → m.Fits g x) := by
      unfold Mount.betterFront
      refine ⟨fun h => by rw [if_neg (by simp [h])], fun h => ?_⟩
      rw [if_pos h]
      have refl : ∀ z, m.Fits z z := by intro z; unfold Mount.Fits; cases m.topIn z <;> simp
      cases b with
      | none => exact ⟨y, rfl, .inl rfl, refl y, by simp⟩
      | some x =>
        have lt := (hb x rfl).2 y (by simp)
        dsimp only
        cases h1 : m.topIn x with
        | none =>
          cases h2 : m.topIn y with
          | none => exact ⟨x, rfl, .inr rfl, by unfold Mount.Fits; simp [h1, h2]; exact le_of_lt lt, by rintro z ⟨⟩; exact refl _⟩
          | some n => exact ⟨y, rfl, .inl rfl, refl y, by rintro z ⟨⟩; unfold Mount.Fits; simp [h1, h2]⟩
        | some k =>
          cases h2 : m.topIn y with
          | none => exact ⟨x, rfl, .inr rfl, by unfold Mount.Fits; simp [h1, h2], by rintro z ⟨⟩; exact refl _⟩
          | some n =>
            by_cases c : k < n
            · exact ⟨y, by simp [c], .inl rfl, refl y, by rintro z ⟨⟩; unfold Mount.Fits; simp [h1, h2]; omega⟩
            · exact ⟨x, by simp [c], .inr rfl, by unfold Mount.Fits; simp [h1, h2]; omega, by rintro z ⟨⟩; exact refl _⟩
    have trans : ∀ a c d, m.Fits a c → m.Fits c d → m.Fits a d := by
      intro a c d
      unfold Mount.Fits
      cases m.topIn a <;> cases m.topIn c <;> cases m.topIn d <;> simp
      · exact fun h1 h2 => le_trans h1 h2
      · omega
    have := ih (m.betterFront gen b y) s2 (by
      intro x hx
      cases hy : m.partly gen y with
      | false => rw [step.1 hy] at hx; exact ⟨(hb x hx).1, fun w hw => (hb x hx).2 w (by simp [hw])⟩
      | true =>
        obtain ⟨g, hg, hor, _⟩ := step.2 hy
        rw [hg] at hx; cases hx
        rcases hor with rfl | hor
        · exact ⟨hy, s1⟩
        · exact ⟨(hb _ hor).1, fun w hw => (hb _ hor).2 w (by simp [hw])⟩)
    cases hr : l.foldl (m.betterFront gen) (m.betterFront gen b y) with
    | none =>
      rw [hr] at this
      obtain ⟨a, c⟩ := this
      simp only
      have hy : m.partly gen y = false := by
        cases hy : m.partly gen y with
        | false => rfl
        | true => obtain ⟨g, hg, _⟩ := step.2 hy; rw [hg] at a; cases a
      rw [step.1 hy] at a
      refine ⟨a, fun h hm => ?_⟩
      rcases List.mem_cons.1 hm with rfl | hm
      · exact hy
      · exact c h hm
    | some g =>
      rw [hr] at this
      obtain ⟨a, c⟩ := this
      simp only
      refine ⟨a, fun h hm hf => ?_⟩
      cases hy : m.partly gen y with
      | false =>
        rw [step.1 hy] at c
        rcases hm with hm | hm
        · rcases List.mem_cons.1 hm with rfl | hm
          · rw [hy] at hf; cases hf
          · exact c h (.inl hm) hf
        · exact c h (.inr hm) hf
      | true =>
        obtain ⟨g', hg', hor, h3, h4⟩ := step.2 hy
        have pg' : m.partly gen g' = true := by
          rcases hor with rfl | hor
          · exact hy
          · exact (hb _ hor).1
        have gg' := c g' (.inr hg') pg'
        rcases hm with hm | hm
        · rcases List.mem_cons.1 hm with rfl | hm
          · exact trans _ _ _ gg' h3
          · exact c h (.inl hm) hf
        · exact trans _ _ _ gg' (h4 h hm)

/-- The front that mount chooses is partly filled and fits beside every other; with none chosen no segment is (R159). -/
theorem Mount.chooseFront_spec (m : Mount) (gen : Generation) :
    (∀ g, m.chooseFront gen = some g → m.partly gen g = true ∧ ∀ h, m.partly gen h = true → m.Fits g h) ∧
    (m.chooseFront gen = none → ∀ h, m.partly gen h = false) := by
  have := m.betterFront_fold gen allSegs none (List.pairwise_lt_finRange 256) (by simp)
  unfold Mount.chooseFront
  constructor
  · intro g hg; rw [hg] at this; exact ⟨this.1, fun h hf => this.2 h (.inl (List.mem_finRange _)) hf⟩
  · intro hn; rw [hn] at this; exact fun h => this.2 h (List.mem_finRange _)

theorem Mount.mem_foundIn {m : Mount} {g : Seg} {f : Found} : f ∈ m.foundIn g ↔ f ∈ m.found ∧ f.pos.seg = g := by
  unfold Mount.foundIn; simp

theorem Mount.partly_iff {m : Mount} {gen : Generation} {g : Seg} :
    m.partly gen g = true ↔
      (∃ n, m.classes[g.val]? = some (.valid gen n)) ∧ 1 ≤ (m.foundIn g).length ∧ (m.foundIn g).length < 31 := by
  unfold Mount.partly Mount.classOf
  cases h : m.classes[g.val]? with
  | none => simp
  | some c =>
    cases c <;> simp
    constructor
    · rintro ⟨⟨e, a⟩, b⟩; exact ⟨e, List.length_pos_iff.2 a, b⟩
    · rintro ⟨e, a, b⟩; exact ⟨⟨e, List.length_pos_iff.1 a⟩, b⟩

/-! ## The directory's limit (R163) -/

theorem DirOk.inj {d : List Entry} (h : DirOk d) {x y : Entry} (hx : x ∈ d) (hy : y ∈ d) (e : x.key = y.key) : x = y := by
  unfold DirOk at h
  induction d with
  | nil => simp at hx
  | cons a d ih =>
    obtain ⟨h1, h2⟩ := List.pairwise_cons.1 h
    rcases List.mem_cons.1 hx with ex | hx' <;> rcases List.mem_cons.1 hy with ey | hy'
    · rw [ex, ey]
    · have := h1 y hy'; rw [← ex, e] at this; exact absurd this (BitVec.lt_irrefl _)
    · have := h1 x hx'; rw [← ey, e] at this; exact absurd this (BitVec.lt_irrefl _)
    · exact ih h2 hx' hy'

theorem DirOk.take_below {d : List Entry} (h : DirOk d) (n : Nat) {x y : Entry} (hx : x ∈ d.take n) (hy : y ∈ d) (lt : y.key < x.key) :
    y ∈ d.take n := by
  unfold DirOk at h
  induction d generalizing n with
  | nil => simp at hy
  | cons a d ih =>
    cases n with
    | zero => simp at hx
    | succ n =>
      simp only [List.take_succ_cons, List.mem_cons] at hx hy ⊢
      obtain ⟨h1, h2⟩ := List.pairwise_cons.1 h
      rcases hy with rfl | hy
      · exact .inl rfl
      · rcases hx with rfl | hx
        · have := h1 y hy; exact absurd (BitVec.lt_trans lt this) (BitVec.lt_irrefl _)
        · exact .inr (ih h2 n hx hy)

/-- There are 255 permanent keys. -/
theorem DirOk.permanent_few {d : List Entry} (h : DirOk d) : (d.filter (fun e => isPermanent e.key)).length ≤ 255 := by
  have hk : ((d.filter (fun e => isPermanent e.key)).map (fun e => e.key.toNat)).Nodup := by
    have : (d.filter (fun e => isPermanent e.key)).Pairwise (fun x y => x.key < y.key) := h.filter _
    apply List.Pairwise.map (R := fun x y => x.key < y.key) _ _ this
    intro a b hab e
    have := BitVec.lt_def.1 hab
    omega
  have hs : ∀ n ∈ ((d.filter (fun e => isPermanent e.key)).map (fun e => e.key.toNat)), n ∈ (List.range' 65280 255) := by
    intro n hn
    obtain ⟨e, he, rfl⟩ := List.mem_map.1 hn
    have := (List.mem_filter.1 he).2
    simp only [isPermanent, Bool.and_eq_true, decide_eq_true_eq, bne_iff_ne, Config.noKey] at this
    obtain ⟨p, q⟩ := this
    have p' := BitVec.le_def.1 p
    have q' : e.key.toNat ≠ 65535 := by intro hh; apply q; apply BitVec.eq_of_toNat_eq; rw [hh]; rfl
    have := e.key.isLt
    rw [List.mem_range'_1]
    simp at p'
    omega
  have := (List.subperm_of_subset hk hs).length_le
  simpa using this

theorem countP_split (d : List Entry) (p q : Entry → Bool) :
    d.countP p = d.countP (fun e => p e && q e) + d.countP (fun e => p e && !q e) := by
  induction d with
  | nil => rfl
  | cons a d ih => simp only [List.countP_cons, ih]; cases p a <;> cases q a <;> simp <;> omega

theorem DirOk.count_take {d : List Entry} (h : DirOk d) (n : Nat) :
    d.countP (fun e => (d.take n).any (fun o => o.key == e.key)) = (d.take n).length := by
  have : d.filter (fun e => (d.take n).any (fun o => o.key == e.key)) = d.take n := by
    conv_lhs => rw [← List.take_append_drop n d]
    rw [List.filter_append]
    rw [List.filter_eq_self.2, List.filter_eq_nil_iff.2, List.append_nil]
    · intro a ha
      simp only [List.take_append_drop]
      intro hc
      obtain ⟨o, ho, e⟩ := List.any_eq_true.1 hc
      have e : o.key = a.key := by simpa using e
      have := h
      unfold DirOk at this
      rw [← List.take_append_drop n d, List.pairwise_append] at this
      have := this.2.2 o ho a ha
      rw [e] at this
      exact absurd this (BitVec.lt_irrefl _)
    · intro a ha
      simp only [List.take_append_drop]
      exact List.any_eq_true.2 ⟨a, ha, by simp⟩
  rw [List.countP_eq_length_filter, this]

theorem limitDir_small {d : List Entry} (h : masterCount d ≤ 4095) : limitDir d = d := by
  unfold limitDir; rw [if_pos (show masterCount d ≤ Config.masterEntries from h)]

/-- What the limit keeps of a directory with too many entries: the permanent keys and the lowest others, 4,095 in all (R163). -/
theorem limitDir_spec {d : List Entry} (ok : DirOk d) (big : 4095 < masterCount d) :
    masterCount (limitDir d) = 4095 ∧ (limitDir d).Sublist d ∧
      (∀ e ∈ d, e.key = 0x0000#16 ∨ isPermanent e.key = true → e ∈ limitDir d) ∧
      (∀ e ∈ limitDir d, ∀ x ∈ d, x.key < e.key → isPermanent e.key = false → x ∈ limitDir d) := by
  unfold limitDir
  rw [if_neg (show ¬ masterCount d ≤ Config.masterEntries from by show ¬ _ ≤ 4095; omega)]
  extract_lets k o
  have oOk : DirOk (d.filter (fun e => !isPermanent e.key && e.key != Config.configKey)) := ok.filter _
  have memo : ∀ e ∈ d, o.any (fun o => o.key == e.key) = true ↔ e ∈ o := by
    intro e he
    rw [List.any_eq_true]
    constructor
    · rintro ⟨x, hx, hk⟩
      have : x ∈ d := (List.mem_filter.1 (List.mem_of_mem_take hx)).1
      rw [← ok.inj this he (by simpa using hk)]; exact hx
    · intro h; exact ⟨e, h, by simp⟩
  refine ⟨?_, List.filter_sublist, fun e he h => ?_, fun e he x hx lt np => ?_⟩
  · have c1 := ok.permanent_few
    have c2 : masterCount d = (d.filter (fun e => isPermanent e.key)).length +
        (d.filter (fun e => !isPermanent e.key && e.key != Config.configKey)).length := by
      unfold masterCount
      simp only [← List.countP_eq_length_filter]
      rw [countP_split d _ (fun e => isPermanent e.key)]
      congr 1
      · apply List.countP_congr; intro e _
        simp only [Bool.and_eq_true, bne_iff_ne, and_iff_right_iff_imp]
        intro h c; rw [c] at h; exact absurd h (by decide)
      · apply List.countP_congr; intro e _; simp [and_comm]
    have lo : o.length = k := by
      show (List.take k _).length = k
      rw [List.length_take]
      have : k = 4095 - (d.filter (fun e => isPermanent e.key)).length := rfl
      omega
    have hk : k = 4095 - (d.filter (fun e => isPermanent e.key)).length := rfl
    unfold masterCount
    rw [List.filter_filter, ← List.countP_eq_length_filter, countP_split d _ (fun e => isPermanent e.key)]
    have a1 : d.countP (fun e => (e.key != Config.configKey &&
          (e.key == Config.configKey || isPermanent e.key || o.any (fun o => o.key == e.key))) && isPermanent e.key) =
        (d.filter (fun e => isPermanent e.key)).length := by
      rw [← List.countP_eq_length_filter]
      apply List.countP_congr; intro e _
      constructor
      · intro h; simp only [Bool.and_eq_true] at h; exact h.2
      · intro h
        have : e.key ≠ Config.configKey := by intro c; rw [c] at h; exact absurd h (by decide)
        simp [h, this]
    have a2 : d.countP (fun e => (e.key != Config.configKey &&
          (e.key == Config.configKey || isPermanent e.key || o.any (fun o => o.key == e.key))) && !isPermanent e.key) =
        o.length := by
      have : o.length = _ := (oOk.count_take k).symm
      rw [this, List.countP_filter]
      apply List.countP_congr; intro e _
      show _ ↔ (o.any (fun o => o.key == e.key) && _) = true
      cases h1 : isPermanent e.key <;> by_cases h2 : e.key = Config.configKey <;> simp [h2]
    rw [a1, a2]
    omega
  · rw [List.mem_filter]; refine ⟨he, ?_⟩
    rcases h with h | h <;> simp [h, Config.configKey]
  · rw [List.mem_filter] at he ⊢
    refine ⟨hx, ?_⟩
    obtain ⟨hed, he⟩ := he
    simp only [np, Bool.or_false, Bool.or_eq_true, beq_iff_eq] at he
    have he : e ∈ o := by
      rcases he with c | c
      · rw [c] at lt; exact absurd lt (BitVec.not_lt_zero)
      · exact (memo e hed).1 c
    by_cases c1 : x.key = Config.configKey
    · simp [c1]
    by_cases c2 : isPermanent x.key = true
    · simp [c2]
    have : x ∈ o := oOk.take_below k he (List.mem_filter.2 ⟨hx, by simp [c1, c2]⟩) lt
    simp only [(memo x hx).2 this, Bool.or_true]

end Sys2Proof.Machine
end

