-- ==== Sys2Proof/Laws/Results.lean ====
section
/-! SUPPORT. A result always finds its place: each operation of the Engine takes a busy machine to a fine one, and so every row and every tick keeps a machine fine. -/

namespace Sys2Proof.Machine

variable {s t : State} {p : Port} {c : Cmd} {u : Update} {pos : Pos}

/-! ## Updates -/

theorem State.grantGiven_fine (h : Busy p s) : Fine (s.grantGiven p c u pos) := by
  unfold State.grantGiven
  exact ((State.bumpSeq_calm (.refl _)).busy p (h.setWork rfl (by simp))).present rfl

theorem State.requestGrant_fine (h : Busy p s) : Fine (s.requestGrant p c u) := by
  unfold State.requestGrant
  extract_lets u' s'
  have b : Busy p s' := h.setWork rfl (by simp)
  split
  · exact b.endCommand
  · split
    · rename_i take
      exact State.grantGiven_fine ((State.takeFront_calm (.refl _) take).busy p b)
    · split
      · split
        · rename_i take
          exact (State.trigger_calm (.refl _)).fine (State.grantGiven_fine ((State.takeNewFront_calm (.refl _) take).busy p b))
        · exact b.hold rfl
      · exact b.hold rfl

theorem State.answerHeld_fine (h : Fine s) (held : s.space.held = true) : Fine s.answerHeld := by
  obtain ⟨q, c, u, w, aw⟩ := Work.awaitsGrant_updating (h.engine.2.2.2 held)
  have b : Busy q (s.setHeld false) := h.busy_held (by rw [w]; rfl) aw (by rw [w]; simp)
  unfold State.answerHeld
  rw [w]
  dsimp only
  split
  · rename_i take
    exact (State.trigger_calm (.refl _)).fine (State.grantGiven_fine ((State.copyGrant_calm (.refl _) take).busy q b))
  · exact b.fine

theorem State.attemptFailed_fine (h : Busy p s) : Fine (s.attemptFailed p c u pos) := by
  have b : Busy p (s.reportDead pos) := (State.reportDead_calm (.refl _)).busy p h
  unfold State.attemptFailed State.endProgramFail
  dsimp only
  split
  · exact State.requestGrant_fine b
  · exact b.endCommand

theorem State.updateBody_fine {ok : Bool} (h : Busy p s) : Fine (s.updateBody p c u pos ok) := by
  unfold State.updateBody
  split
  · exact (h.setWork rfl (by simp)).present rfl
  · exact State.attemptFailed_fine h

theorem State.retryStep_fine (h : Busy p s) : Fine (s.retryStep p c u) := by
  unfold State.retryStep State.finishUpdate
  split
  · split
    · exact (h.setWork rfl (by simp)).present rfl
    · exact h.endCommand
  · exact h.endCommand

theorem State.updateCommitted_fine (h : Busy p s) : Fine (s.updateCommitted p c u pos) := by
  unfold State.updateCommitted
  extract_lets previous s₁ s₂
  have q : Calm s s₂ := by
    simp only [s₂, s₁]
    split
    · exact State.adoptGuardSet_calm (State.commitBody_calm (.refl _))
    · exact State.commitBody_calm (.refl _)
  have b : Busy p s₂ := q.busy p h
  cases previous with
  | some cell => exact (b.setWork rfl (by simp)).present rfl
  | none => exact State.retryStep_fine b

theorem State.updateSuperseded_fine {ok : Bool} (h : Busy p s) : Fine (s.updateSuperseded p c u pos ok) := by
  unfold State.updateSuperseded
  extract_lets s₁ s₂
  have q : Calm s s₂ := by
    simp only [s₂, s₁]
    split <;> simp
  exact State.retryStep_fine ((State.reportSuperseded_calm q).busy p h)

theorem State.updateRetried_fine {ok : Bool} (h : Busy p s) : Fine (s.updateRetried p c u pos ok) := by
  unfold State.updateRetried State.finishUpdate
  extract_lets s₁
  have q : Calm s s₁ := by
    simp only [s₁]
    split <;> simp
  exact (q.busy p h).endCommand

theorem State.updateMark_fine {ok : Bool} (h : Busy p s) : Fine (s.updateMark p c u pos ok) := by
  unfold State.updateMark State.updateCommitMark
  split
  · split
    · exact State.updateCommitted_fine h
    · exact State.attemptFailed_fine h
  · exact State.updateSuperseded_fine h
  · exact State.updateRetried_fine h
  all_goals exact h.fine

/-! ## Record commands -/

theorem State.checked_fine {fail : Option Reason} {k : Key} {go : State} (h : Busy p s) (hg : Fine go) : Fine (s.checked p c fail k go) := by
  unfold State.checked
  split
  · exact h.endCommand
  · exact hg

theorem State.endGuarded_fine {r : Result} (h : Busy p s) : Fine (s.endGuarded p r) :=
  ((State.setFlag_calm (.refl _)).busy p h).endCommand

theorem State.beginUpdate_fine (h : Busy p s) : Fine (s.beginUpdate p c) := by
  unfold State.beginUpdate
  dsimp only
  split
  · split
    · exact (h.setWork rfl (by simp)).present rfl
    · exact h.fine
  · exact State.requestGrant_fine h

theorem State.admitUpdate_fine (h : Busy p s) : Fine (s.admitUpdate p c) := by
  unfold State.admitUpdate
  split
  · exact h.endCommand
  · exact h.endCommand
  · split
    · exact State.endGuarded_fine h
    · split
      · exact h.endCommand
      · exact State.beginUpdate_fine h

theorem State.patchOldRead_fine {r : CellRead} (h : Busy p s) : Fine (s.patchOldRead p c u r) := by
  unfold State.patchOldRead
  split
  · exact State.requestGrant_fine h
  · exact h.endCommand

theorem State.readDone_fine {v : Version} {n : Nat} {r : CellRead} (h : Busy p s) : Fine (s.readDone p c v n r) := by
  unfold State.readDone
  split
  · exact ((State.storeBuffer_calm (.refl _)).busy p h).endCommand
  · exact h.endCommand

theorem State.admitRead_fine (h : Busy p s) : Fine (s.admitRead p c) := by
  unfold State.admitRead
  split
  · exact h.endCommand
  · split
    · exact h.endCommand
    · split
      · exact h.endCommand
      · exact (h.setWork rfl (by simp)).present rfl

theorem State.doStat_fine (h : Busy p s) : Fine (s.doStat p c) := by
  unfold State.doStat
  refine State.checked_fine h ?_
  split <;> exact h.endCommand

/-! ## Scans -/

theorem State.takeScanStep_fine {x : ScanStep} (h : Busy p s) : Fine (s.takeScanStep p c x) := by
  have places : ∀ v : PortUnit, v.results = (s.port p).results → v.resultsOk := fun v e => by
    have := h.results p
    unfold PortUnit.resultsOk at *
    rw [h.slot] at this
    rw [e]
    split
    · simp_all
      omega
    · simpa using this
  unfold State.takeScanStep
  split
  · exact h.endCommand
  · exact (h.setWork rfl (by simp)).present rfl
  · exact h.leave (places _ rfl)
  · exact h.leave (places _ rfl)

theorem State.searchOn_fine {k : ScanCtx} (h : Busy p s) : Fine (s.searchOn p c k) := State.takeScanStep_fine h

theorem State.scanOn_fine {k : ScanCtx} (h : Busy p s) : Fine (s.scanOn p c k) := by
  unfold State.scanOn
  split
  · exact State.takeScanStep_fine h
  · exact State.searchOn_fine h

theorem State.scanRead_fine {k : ScanCtx} {key : Key} {v : Version} {r : CellRead} (h : Busy p s) : Fine (s.scanRead p c k key v r) := by
  unfold State.scanRead State.scanMatch
  dsimp only
  split
  · exact State.scanOn_fine h
  · split
    · exact State.scanOn_fine ((State.storeBuffer_calm (.refl _)).busy p h)
    · exact State.scanOn_fine h

theorem State.doScan_fine (h : Busy p s) : Fine (s.doScan p c) := by
  unfold State.doScan State.admitScan State.beginScan
  refine State.checked_fine h ?_
  split
  · exact h.endCommand
  · split
    · split
      · exact h.endCommand
      · exact State.searchOn_fine h
    · exact h.endCommand

/-! ## Claims, watches, guards, RECLAIM, FORMAT and STORE INFO -/

theorem State.formatted_fine {k : Key} {go : State} (h : Busy p s) (hg : Fine go) : Fine (s.formatted p c k go) := by
  unfold State.formatted
  split
  · exact h.endCommand
  · exact hg

theorem State.claimRequest_fine (h : Busy p s) : Fine (s.claimRequest p c) := by
  have granted : ∀ why, Fine (s.grantClaim p c why) := fun why => ((State.setClaims_calm (.refl _)).busy p h).endCommand
  unfold State.claimRequest
  split
  · split
    · exact granted _
    · exact h.endCommand
  · split
    · exact h.endCommand
    · exact granted _

theorem State.releaseRequest_fine (h : Busy p s) : Fine (s.releaseRequest p c) := by
  unfold State.releaseRequest
  split
  · split
    · exact ((State.setClaims_calm (.refl _)).busy p h).endCommand
    · exact h.endCommand
  · exact h.endCommand

theorem State.watchSetRequest_fine (h : Busy p s) : Fine (s.watchSetRequest p c) := by
  have set : ∀ old, Fine (s.setWatch p c old) := fun old => ((State.setWatches_calm (.refl _)).busy p h).endCommand
  unfold State.watchSetRequest
  split
  · exact set _
  · split
    · exact set _
    · exact h.endCommand

theorem State.guardSetReady_fine {r : Port} {g : Guard} (h : Busy p s) : Fine (s.guardSetReady p c r g) := by
  unfold State.guardSetReady
  split
  · exact State.endGuarded_fine h
  · split
    · exact h.endCommand
    · split
      · exact h.endCommand
      · exact State.requestGrant_fine h

theorem State.doGuardSet_fine (h : Busy p s) : Fine (s.doGuardSet p c) := by
  unfold State.doGuardSet State.admitGuardSet
  split
  · split
    · exact h.endCommand
    · exact h.endCommand
    · exact State.guardSetReady_fine h
  · exact h.endCommand

theorem State.doGuardRead_fine (h : Busy p s) : Fine (s.doGuardRead p c) := by
  unfold State.doGuardRead
  split <;> exact h.endCommand

theorem State.doReclaim_fine (h : Busy p s) : Fine (s.doReclaim p c) := by
  unfold State.doReclaim State.reclaimReady
  split
  · exact h.endCommand
  · exact h.endCommand
  · split
    · exact h.endCommand
    · exact h.endCommand
    · split
      · exact ((State.startPass_calm (.refl _)).busy p h).endCommand
      · exact ((State.degrade_calm (.refl _)).busy p h).endCommand

theorem State.acceptFormat_fine (h : Busy p s) : Fine (s.acceptFormat p c) := by
  have f : Fine (s.setWork (.formatting p c)) := by
    refine ⟨⟨fun q hq => ?_, fun x => ?_, fun x => ?_, fun x => ?_⟩, h.results⟩
    · obtain rfl := Option.some.inj hq
      exact h.slot
    · have x : s.array.waitEngine.isSome = true ∨ s.array.servesEngine = true := x
      simp [h.wait, h.serves] at x
    · have x : s.array.waitEngine.isSome = true := x
      simp [h.wait] at x
    · have x : s.space.held = true := x
      simp [h.held] at x
  unfold State.acceptFormat
  exact (State.formatErases_calm (State.setFrontFree_calm (State.setGeneration_calm (State.setMove_calm (State.setDir_calm
    (State.formatAbandon_calm (State.endScansAndClaims_calm (State.enterStore_calm (.refl _))))))))).fine f

theorem State.doFormat_fine (h : Busy p s) : Fine (s.doFormat p c) := by
  unfold State.doFormat State.formatChecks
  dsimp only
  split
  · exact h.endCommand
  · split
    · exact State.endGuarded_fine h
    · split
      · exact h.endCommand
      · split
        · exact h.endCommand
        · split
          · exact h.endCommand
          · exact State.acceptFormat_fine h

/-! ## Settling -/

theorem State.arbitrate_fine (h : Fine s) : Fine s.arbitrate := by
  have engine : ∀ op, s.array.inFlight = none → s.array.waitEngine = some op → Fine (s.grantEngine op) := fun op free wait =>
    ⟨⟨h.engine.1, fun _ => h.engine.2.1 (.inl (by rw [wait]; rfl)), fun x => absurd x (by simp [State.grantEngine, State.grantOp]),
      h.engine.2.2.2⟩, h.results⟩
  have store : ∀ op, s.array.inFlight = none → Fine (s.grantStore op) := fun op free =>
    Same.fine (s := s) (t := s.grantStore op) (.of_eq rfl rfl rfl
      (by simp [ArrayCtl.servesEngine, State.grantStore, State.grantOp, State.setInFlight, free]) rfl) h
  have space : ∀ op, s.array.inFlight = none → Fine (s.grantSpace op) := fun op free => by
    unfold State.grantSpace
    split
    · exact (State.setErase_calm (State.withdrawSpace_calm (.refl _))).fine h
    · exact Same.fine (s := s) (t := s.withdrawSpace.grantOp .space _) (.of_eq rfl rfl rfl
        (by simp [ArrayCtl.servesEngine, State.withdrawSpace, State.grantOp, State.setInFlight, free]) rfl) h
  unfold State.arbitrate
  split
  · exact h
  · rename_i free still
    unfold State.arbitrateFree
    split
    · exact store _ free
    · rename_i op _ wait _
      exact engine op free wait
    · rename_i op op' _ wait _
      split
      · exact space _ free
      · exact engine op free wait
    · exact space _ free
    · exact h
  · rename_i e free _
    split
    · unfold State.arbitrateSuspended
      split
      · rename_i op wait
        exact engine op free wait
      · exact (State.setErase_calm (.refl _)).fine h
    · exact h
    · exact h

theorem State.takePort_fine (h : Fine s) (idle : s.engine.work = .idle) (can : s.eligible p = true) : Fine (s.takePort p) := by
  have array : ¬ (s.array.waitEngine.isSome = true ∨ s.array.servesEngine = true) := fun x => by
    have := h.engine.2.1 x
    simp [idle, Work.awaitsArray] at this
  have held : ¬ s.space.held = true := fun x => by
    have := h.engine.2.2.2 x
    simp [idle, Work.awaitsGrant] at this
  have take : ∀ (v : PortUnit) (w : Work) (r : Port), v.slot = .executing → v.resultsOk → w.port = some p →
      Fine (((s.setPort p v).setWork w).setPointer r) := fun v w r slot places port => by
    refine ⟨⟨fun q hq => ?_, fun x => absurd x array, fun x => absurd (.inl x) array, fun x => absurd x held⟩, fun q => ?_⟩
    · obtain rfl := Option.some.inj (port.symm.trans hq)
      simpa using slot
    · by_cases same : q = p
      · subst same
        simpa using places
      · rw [State.setPointer_port, State.setWork_port, State.setPort_port_other _ _ same]
        exact h.results q
  have ok := h.results p
  unfold PortUnit.resultsOk at ok
  unfold State.takePort
  dsimp only
  split
  · rename_i slot
    rw [slot] at ok
    exact take _ _ _ rfl (by simpa [PortUnit.resultsOk] using ok) rfl
  · rename_i slot cs
    have room : (s.port p).results.length < Config.resultPlaces := by
      simp only [State.eligible, PortUnit.hasWork, slot, Bool.and_eq_true, decide_eq_true_eq] at can
      exact can.2.2
    exact take _ _ _ rfl (by simpa [PortUnit.resultsOk] using room) rfl
  · exact h

theorem State.settle_fine (h : Fine s) : Fine s.settle := by
  unfold State.settle
  split
  · exact h
  · rcases s.arbitrate.select_eq with e | ⟨p, can, idle, e⟩
    · rw [e]
      exact State.arbitrate_fine h
    · rw [e]
      exact State.takePort_fine (State.arbitrate_fine h) idle can

/-! ## Completions -/

/-- The Engine's operation has completed: it awaits nothing more of the array. -/
theorem Fine.landed_engine (h : Fine s) (serves : s.array.servesEngine = true) :
    Fine s.landed ∧ ∀ p, s.engine.work.port = some p → Busy p s.landed := by
  have wait : s.array.waitEngine = none := by
    cases hw : s.array.waitEngine with
    | none => rfl
    | some op =>
      have := h.engine.2.2.1 (by rw [hw]; rfl)
      rw [serves] at this
      exact absurd this (by simp)
  have awaits := h.engine.2.1 (.inr serves)
  have grant : s.engine.work.awaitsGrant = false := by
    cases hw : s.engine.work <;> simp_all [Work.awaitsArray, Work.awaitsGrant]
  have held : s.space.held = false := by
    have := h.engine.2.2.2
    rw [grant] at this
    simpa using this
  have f : Fine s.landed :=
    ⟨⟨h.engine.1, fun x => absurd x (by simp [State.landed, ArrayCtl.servesEngine, State.setInFlight, wait]),
      fun _ => rfl, h.engine.2.2.2⟩, h.results⟩
  exact ⟨f, fun p port => ⟨port, fun q c e => by
    have e : s.engine.work = .formatting q c := e
    rw [e] at awaits
    exact absurd awaits (by simp [Work.awaitsArray]), h.engine.1 p port, wait, rfl, held, h.results⟩⟩

/-- An operation has completed. -/
theorem Fine.landed (h : Fine s) : Fine s.landed := by
  cases serves : s.array.servesEngine with
  | true => exact (h.landed_engine serves).1
  | false => exact Same.fine (s := s) (t := s.landed) (.of_eq rfl rfl rfl serves.symm rfl) h

variable {r : Requester} {ok : Bool}

theorem State.deliverRead_fine {b : Bool} (h : Fine s) (serves : r = .engine → s.array.servesEngine = true) :
    Fine (s.landed.deliverRead r pos b) := by
  cases r with
  | engine =>
    obtain ⟨f, busy⟩ := h.landed_engine (serves rfl)
    show Fine (s.landed.engineRead _)
    unfold State.engineRead
    split
    · rename_i w
      exact State.patchOldRead_fine (busy _ (show s.engine.work.port = _ by rw [show s.engine.work = _ from w]; rfl))
    · rename_i w
      exact State.readDone_fine (busy _ (show s.engine.work.port = _ by rw [show s.engine.work = _ from w]; rfl))
    · rename_i w
      exact State.scanRead_fine (busy _ (show s.engine.work.port = _ by rw [show s.engine.work = _ from w]; rfl))
    · exact f
  | space =>
    show Fine (s.landed.spaceRead _)
    unfold State.spaceRead
    split
    · split
      · exact (State.victimRead_calm (.refl _)).fine h.landed
      · exact h.landed
    · exact h.landed
  | store =>
    show Fine s.landed.storeRead
    unfold State.storeRead
    split
    · exact (State.mountRead_calm (.refl _)).fine h.landed
    · exact h.landed

theorem State.deliverBody_fine (h : Fine s) (serves : r = .engine → s.array.servesEngine = true) :
    Fine (s.landed.deliverBody r pos ok) := by
  unfold State.deliverBody
  cases r with
  | engine =>
    obtain ⟨f, busy⟩ := h.landed_engine (serves rfl)
    dsimp only
    split
    · rename_i w
      exact State.updateBody_fine (busy _ (show s.engine.work.port = _ by rw [show s.engine.work = _ from w]; rfl))
    · exact f
  | space =>
    dsimp only
    split
    · exact (State.passBody_calm (.refl _)).fine h.landed
    · exact h.landed
  | store =>
    dsimp only
    split
    · exact (State.mountBody_calm (.refl _)).fine h.landed
    · exact (State.formatBodyDone_calm (.refl _)).fine h.landed
    · exact h.landed

theorem State.deliverMark_fine (h : Fine s) (serves : r = .engine → s.array.servesEngine = true) :
    Fine (s.landed.deliverMark r pos ok) := by
  unfold State.deliverMark
  cases r with
  | engine =>
    obtain ⟨f, busy⟩ := h.landed_engine (serves rfl)
    dsimp only
    split
    · rename_i w
      exact State.updateMark_fine (busy _ (show s.engine.work.port = _ by rw [show s.engine.work = _ from w]; rfl))
    · exact f
  | space =>
    dsimp only
    split
    · exact (State.passMark_calm (.refl _)).fine h.landed
    · exact h.landed
  | store =>
    dsimp only
    split
    · exact (State.mountMark_calm (.refl _)).fine h.landed
    · exact (State.formatMark_calm (.refl _)).fine h.landed
    · exact h.landed

/-! ## The rows of the inner blocks -/

theorem State.perform_fine {code : Byte} {f : Port → Cmd → State} (h : Fine s) (hf : ∀ p c, Busy p s → Fine (f p c))
    (e : s.perform code f = .next t) : Fine t := by
  obtain ⟨p, c, taken, rfl⟩ := State.perform_eq_next.mp e
  refine State.settle_fine (hf p c ?_)
  unfold State.takenCmd at taken
  split at taken
  · rename_i w
    split at taken
    · obtain ⟨rfl, rfl⟩ := Prod.mk.inj (Option.some.inj taken)
      exact h.busy (by rw [w]; rfl) (by rw [w]; rfl) (by rw [w]; rfl) (by rw [w]; simp)
    · exact absurd taken (by simp)
  · exact absurd taken (by simp)

theorem execBadCommand_fine (h : Fine s) (e : execBadCommand s = .next t) : Fine t := by
  unfold execBadCommand at e
  split at e
  · rename_i w
    split at e
    · obtain rfl := Host.Outcome.next.inj e
      exact State.settle_fine (h.busy (by rw [w]; rfl) (by rw [w]; rfl) (by rw [w]; rfl) (by rw [w]; simp)).endCommand
    · exact absurd e (by simp)
  · exact absurd e (by simp)

theorem execScanResume_fine (h : Fine s) (e : execScanResume s = .next t) : Fine t := by
  unfold execScanResume at e
  split at e
  · rename_i w
    split at e
    · obtain rfl := Host.Outcome.next.inj e
      exact State.settle_fine
        (State.searchOn_fine (h.busy (by rw [w]; rfl) (by rw [w]; rfl) (by rw [w]; rfl) (by rw [w]; simp)))
    · exact absurd e (by simp)
  · exact absurd e (by simp)

theorem execClaimExpiry_fine {k : Key} (h : Fine s) (e : execClaimExpiry k s = .next t) : Fine t := by
  unfold execClaimExpiry at e
  split at e
  · split at e
    · obtain rfl := Host.Outcome.next.inj e
      exact State.settle_fine ((State.expire_calm (.refl _)).fine h)
    · exact absurd e (by simp)
  · exact absurd e (by simp)

theorem ArrayCtl.serves_of {a : ArrayCtl} {op : ArrayOp} {age : Nat} (f : a.inFlight = some { requester := r, op := op, age := age }) :
    r = .engine → a.servesEngine = true := fun e => by
  simp [ArrayCtl.servesEngine, f, e]

theorem execCellReadDone_fine (h : Fine s) (e : execCellReadDone s = .next t) : Fine t := by
  unfold execCellReadDone at e
  split at e
  · rename_i f
    obtain rfl := Host.Outcome.next.inj e
    exact State.settle_fine (State.deliverRead_fine h (ArrayCtl.serves_of f))
  · exact absurd e (by simp)

theorem execBodyProgramDone_fine {left : List Host.Cell} (h : Fine s) (e : execBodyProgramDone left s = .next t) : Fine t := by
  unfold execBodyProgramDone at e
  split at e
  · rename_i f
    obtain rfl := Host.Outcome.next.inj e
    exact State.settle_fine (State.deliverBody_fine ((State.setCells_calm (.refl _)).fine h) (ArrayCtl.serves_of f))
  · exact absurd e (by simp)

theorem execHeaderProgramDone_fine {left : List Host.Cell} (h : Fine s) (e : execHeaderProgramDone left s = .next t) : Fine t := by
  unfold execHeaderProgramDone at e
  split at e
  · obtain rfl := Host.Outcome.next.inj e
    exact State.settle_fine ((State.deliverHeader_calm (.refl _)).fine ((State.setCells_calm (.refl _)).fine h).landed)
  · exact absurd e (by simp)

theorem execMarkProgramDone_fine {fails : Bool} (h : Fine s) (e : execMarkProgramDone fails s = .next t) : Fine t := by
  unfold execMarkProgramDone at e
  split at e
  · rename_i f
    obtain rfl := Host.Outcome.next.inj e
    exact State.settle_fine (State.deliverMark_fine ((State.setCells_calm (.refl _)).fine h) (ArrayCtl.serves_of f))
  · exact absurd e (by simp)

theorem execSegmentEraseDone_fine {left : List Host.Cell} (h : Fine s) (e : execSegmentEraseDone left s = .next t) : Fine t := by
  unfold execSegmentEraseDone at e
  split at e
  · obtain rfl := Host.Outcome.next.inj e
    exact State.settle_fine ((State.deliverErase_calm (.refl _)).fine ((State.setCells_calm (.refl _)).fine h).landed)
  · split at e
    · obtain rfl := Host.Outcome.next.inj e
      exact State.settle_fine
        ((State.deliverReclaimErase_calm (State.setErase_calm (State.setCells_calm (.refl _)))).fine h)
    · exact absurd e (by simp)
  · exact absurd e (by simp)

theorem State.whenDue_fine {due : Bool} {x : State} (hx : due = true → Fine x) (e : State.whenDue due x = .next t) : Fine t := by
  obtain ⟨d, rfl⟩ := State.whenDue_eq_next.mp e
  exact State.settle_fine (hx d)

/-! ## Frames, port resets and the lines -/

theorem State.setPort_fine {v : PortUnit} (h : Fine s) (slot : v.slot = (s.port p).slot)
    (results : v.results.length ≤ (s.port p).results.length) : Fine (s.setPort p v) :=
  (State.setPort_calm (.refl s) slot results).fine h

/-- An effect at a frame's end that leaves a fine machine fine. -/
def FrameEffect.Fine (effect : FrameEffect) : Prop := ∀ n f u, Machine.Fine u → Machine.Fine (effect n f u)

theorem State.openFrame_fine {k : FrameKind} (h : Fine s) : Fine (s.openFrame p k) := by
  unfold State.openFrame
  dsimp only
  split
  · exact h
  · exact State.setPort_fine h rfl (le_refl _)

theorem State.closeFrame_fine {k : FrameKind} {off n : Nat} {whole : Bool} {effect : FrameEffect} (he : effect.Fine) (h : Fine s) :
    Fine (s.closeFrame p k off n whole effect) := by
  unfold State.closeFrame State.frameEnd State.refuseFrame State.ended
  split
  · split
    · dsimp only
      have ended : ∀ out, Fine (s.setPort p { s.port p with frame := none, dataOut := out }) := fun _ =>
        State.setPort_fine h rfl (le_refl _)
      split
      · split
        · exact (State.setFlag_calm (.refl _)).fine (ended _)
        · exact ended _
      · exact he _ _ _ (ended _)
    · exact h
  · exact h

theorem State.frameMoment_fine {k : FrameKind} {m : FrameMoment} {off : Nat} {effect : FrameEffect} (he : effect.Fine) (h : Fine s) :
    Fine (s.frameMoment p k m off effect) := by
  unfold State.frameMoment State.clockKind State.clockOut
  split
  · split
    · exact State.openFrame_fine h
    · split
      · split
        · exact State.setPort_fine h rfl (le_refl _)
        · exact h
      · exact h
    · split
      · split
        · exact State.setPort_fine h rfl (le_refl _)
        · exact h
      · exact h
    · exact State.closeFrame_fine he h
    · split
      · exact State.closeFrame_fine he (State.openFrame_fine h)
      · exact h
  · exact h

theorem noEffect_fine : noEffect.Fine := fun _ _ _ h => h

theorem queueCommand_fine : FrameEffect.Fine (fun _ _ s => s.queueCommand p c) := fun _ _ u h => by
  show Fine (u.queueCommand p c)
  unfold State.queueCommand
  split
  · exact State.settle_fine (State.setPort_fine h rfl (le_refl _))
  · exact (State.setFlag_calm (.refl _)).fine h

theorem resultEffect_fine : (resultEffect p).Fine := fun _ _ u h => by
  unfold resultEffect
  split
  · exact State.settle_fine (State.setPort_fine h rfl (by simp))
  · exact h

theorem eventEffect_fine : (eventEffect p).Fine := fun _ _ u h => by
  unfold eventEffect
  split
  · exact State.setPort_fine h rfl (le_refl _)
  · exact h

theorem bufferWriteEffect_fine {off : Nat} {data : List Byte} : (bufferWriteEffect p off data).Fine := fun _ _ u h => by
  have stored : ∀ bs, Fine (u.setPort p { u.port p with buffer := bufferStore (u.port p).buffer off bs }) := fun _ =>
    State.setPort_fine h rfl (le_refl _)
  unfold bufferWriteEffect State.storeFrame
  dsimp only
  split
  · exact (State.setFlag_calm (.refl _)).fine (stored _)
  · exact stored _

theorem bufferReadEffect_fine {off : Nat} : (bufferReadEffect p off).Fine := fun _ _ u h => by
  unfold bufferReadEffect
  split
  · exact (State.setFlag_calm (.refl _)).fine h
  · exact h

theorem setEnables_fine {g : Enables → Enables} : FrameEffect.Fine (fun _ _ s => s.setEnables p g) := fun _ _ _ h =>
  State.setPort_fine h rfl (le_refl _)

theorem clearPortFlags_fine {mask : Byte} : FrameEffect.Fine (fun _ _ s => s.clearPortFlags p mask) := fun _ _ _ h =>
  State.setPort_fine h rfl (le_refl _)

theorem State.proceedReset_calm : Calm s (s.proceedReset p) :=
  State.setWatches_calm (State.setClaims_calm (State.setPort_calm (.refl s) rfl (Nat.zero_le _)))

theorem arriveReset_fine : FrameEffect.Fine (fun _ _ s => s.arriveReset p) := fun _ _ u h => by
  show Fine (u.arriveReset p)
  unfold State.arriveReset
  extract_lets v slot u₁
  have arrived : Fine u₁ := by
    refine ⟨⟨fun q hq => ?_, h.engine.2.1, h.engine.2.2.1, h.engine.2.2.2⟩, fun q => ?_⟩
    · have executing := h.engine.1 q hq
      by_cases same : q = p
      · subst same
        rw [State.setPort_port]
        simp [slot, v, executing, Slot.atReset]
      · rw [State.setPort_port_other _ _ same]
        exact executing
    · by_cases same : q = p
      · subst same
        rw [State.setPort_port]
        have ok := h.results q
        unfold PortUnit.resultsOk at *
        simp only [slot, v]
        by_cases none : (u.port q).slot = .none
        · simpa [none, Slot.atReset] using ok
        · rw [if_neg none] at ok
          split <;> omega
      · rw [State.setPort_port_other _ _ same]
        exact h.results q
  split
  · exact State.proceedReset_calm.fine arrived
  · exact arrived

theorem State.volatileReset_fine (cells : List Host.Cell) : Fine (s.volatileReset cells) := by
  refine ⟨⟨fun q hq => absurd hq (by simp [State.volatileReset, Engine.reset, Work.port]),
    fun x => absurd x (by simp [State.volatileReset, ArrayCtl.servesEngine]), fun x => absurd x (by simp [State.volatileReset]),
    fun x => absurd x (by simp [State.volatileReset, Space.reset])⟩, fun q => ?_⟩
  cases q <;> exact Nat.zero_le _

theorem State.startMount_fine (h : Fine s) : Fine s.startMount :=
  ⟨⟨h.engine.1, fun x => absurd x (by simp [State.startMount, ArrayCtl.reset, ArrayCtl.servesEngine]),
    fun x => absurd x (by simp [State.startMount, ArrayCtl.reset]), h.engine.2.2.2⟩, h.results⟩

theorem State.setPins_fine {x : Pins} (h : Fine s) : Fine (s.setPins x) := (State.setPins_calm (.refl _)).fine h

/-! ## Every row, and a tick -/

/-- A row that answers a next state leaves a fine machine fine. -/
theorem exec_fine {i : Instr} (ok : Fine s) (h : exec i s = .next t) : Fine t := by
  have frame : ∀ {p : Port} {k : FrameKind} {m : FrameMoment} {off : Nat} {effect : FrameEffect},
      effect.Fine → Host.Outcome.next (s.frameMoment p k m off effect) = (.next t : Host.Outcome State Fault Refusal) → Fine t :=
    fun he h => Host.Outcome.next.inj h ▸ State.frameMoment_fine he ok
  cases i with
  | statusRead p m => exact frame noEffect_fine h
  | command p m code tag params => exact frame queueCommand_fine h
  | resultRead p m => exact frame resultEffect_fine h
  | eventRead p m => exact frame eventEffect_fine h
  | bufferWrite p m offset data => exact frame bufferWriteEffect_fine h
  | bufferRead p m offset => exact frame bufferReadEffect_fine h
  | notifySet p m mask => exact frame setEnables_fine h
  | notifyClear p m mask => exact frame setEnables_fine h
  | flagsClear p m mask => exact frame clearPortFlags_fine h
  | portReset p m => exact frame arriveReset_fine h
  | unknownFrameKind p m kind =>
    have h : execUnknownFrameKind p m kind s = .next t := h
    unfold execUnknownFrameKind at h
    split at h
    · exact frame noEffect_fine h
    · exact absurd h (by simp)
  | resetNLow cut eraseCut =>
    obtain rfl := Host.Outcome.next.inj h
    refine State.setPins_fine ?_
    split
    · exact State.volatileReset_fine _
    · exact ok
  | resetNHigh =>
    obtain rfl := Host.Outcome.next.inj h
    refine State.setPins_fine ?_
    split
    · exact State.startMount_fine ok
    · exact ok
  | powerOn =>
    have h : execPowerOn s = .next t := h
    unfold execPowerOn at h
    split at h
    · exact absurd h (by simp)
    · obtain rfl := Host.Outcome.next.inj h
      have reset : Fine ((s.volatileReset s.array.cells).setPins { s.pins with power := true }) :=
        State.setPins_fine (State.volatileReset_fine _)
      split
      · exact State.startMount_fine reset
      · exact reset
  | powerLoss cut eraseCut =>
    have h : execPowerLoss cut eraseCut s = .next t := h
    unfold execPowerLoss at h
    split at h
    · obtain rfl := Host.Outcome.next.inj h
      exact State.setPins_fine (State.volatileReset_fine _)
    · exact absurd h (by simp)
  | guardEnChange level =>
    obtain rfl := Host.Outcome.next.inj h
    exact State.setPins_fine ok
  | portResetProceed p => exact State.whenDue_fine (fun _ => State.proceedReset_calm.fine ok) h
  | write => exact State.perform_fine ok (fun _ _ b => State.checked_fine b (State.admitUpdate_fine b)) h
  | patch => exact State.perform_fine ok (fun _ _ b => State.checked_fine b (State.admitUpdate_fine b)) h
  | remove => exact State.perform_fine ok (fun _ _ b => State.checked_fine b (State.admitUpdate_fine b)) h
  | read => exact State.perform_fine ok (fun _ _ b => State.checked_fine b (State.admitRead_fine b)) h
  | stat => exact State.perform_fine ok (fun _ _ b => State.doStat_fine b) h
  | scan => exact State.perform_fine ok (fun _ _ b => State.doScan_fine b) h
  | claim => exact State.perform_fine ok (fun _ _ b => State.checked_fine b (State.formatted_fine b (State.claimRequest_fine b))) h
  | release => exact State.perform_fine ok (fun _ _ b => State.checked_fine b (State.formatted_fine b (State.releaseRequest_fine b))) h
  | watchSet => exact State.perform_fine ok (fun _ _ b => State.checked_fine b (State.formatted_fine b (State.watchSetRequest_fine b))) h
  | watchClear =>
    exact State.perform_fine ok (fun p _ b => State.checked_fine b (State.formatted_fine b
      ((State.setWatches_calm (.refl _)).busy p b).endCommand)) h
  | watchList =>
    exact State.perform_fine ok (fun p _ b => State.checked_fine b (State.formatted_fine b
      ((State.storeBuffer_calm (.refl _)).busy p b).endCommand)) h
  | guardSet => exact State.perform_fine ok (fun _ _ b => State.doGuardSet_fine b) h
  | guardRead => exact State.perform_fine ok (fun _ _ b => State.doGuardRead_fine b) h
  | reclaim => exact State.perform_fine ok (fun _ _ b => State.doReclaim_fine b) h
  | format => exact State.perform_fine ok (fun _ _ b => State.doFormat_fine b) h
  | storeInfo =>
    exact State.perform_fine ok (fun p _ b => State.checked_fine b ((State.storeBuffer_calm (.refl _)).busy p b).endCommand) h
  | badCommand => exact execBadCommand_fine ok h
  | scanResume => exact execScanResume_fine ok h
  | cellReadDone => exact execCellReadDone_fine ok h
  | bodyProgramDone left => exact execBodyProgramDone_fine ok h
  | headerProgramDone left => exact execHeaderProgramDone_fine ok h
  | markProgramDone fails => exact execMarkProgramDone_fine ok h
  | segmentEraseDone left => exact execSegmentEraseDone_fine ok h
  | eraseSuspendBegin => exact State.whenDue_fine (fun _ => (State.setErase_calm (.refl _)).fine ok) h
  | eraseStop => exact State.whenDue_fine (fun _ => (State.setErase_calm (.refl _)).fine ok) h
  | claimExpiry key => exact execClaimExpiry_fine ok h
  | heldGrantAnswered =>
    refine State.whenDue_fine (fun due => State.answerHeld_fine ok ?_) h
    simp only [State.heldDue, Bool.and_eq_true] at due
    exact due.1.1.2

/-- A tick changes nothing that results depend on. -/
theorem State.tick_calm : Calm s s.tick := by
  unfold State.tick
  split
  · refine Same.calm (.of_eq rfl rfl rfl ?_ rfl)
    show (s.array.inFlight.map InFlight.tick).any _ = s.array.inFlight.any _
    cases s.array.inFlight <;> rfl
  · exact .refl s

end Sys2Proof.Machine
end

