-- ==== Sys2Proof/Laws/Still.lean ====
section
/-! SUPPORT. What the operations of the Space Manager, of the ports and of the Coordination Unit leave of the directory's places and of the store: `Fewer d e` says what a directory may lose, and `Still s t` holds of a state and what such an operation makes of it. -/

namespace Sys2Proof.Machine

variable {s t : State} {p : Port} {c : Cmd} {q : Pass} {pos : Pos} {ok : Bool} {d e : List Entry} {k : Key}

/-! ## What a directory may lose -/

/-- The second directory is in order when the first is, has no more entries, and has room where the first has. -/
structure Fewer (d e : List Entry) : Prop where
  order : DirOk d → DirOk e
  count : masterCount e ≤ masterCount d
  room : ∀ k, masterCount d ≤ Config.masterEntries → HasRoom d k → HasRoom e k
  empty : d = [] → e = []

theorem Fewer.refl (d : List Entry) : Fewer d d := ⟨id, le_refl _, fun _ _ => id, id⟩

theorem Fewer.trans {f : List Entry} (h : Fewer d e) (g : Fewer e f) : Fewer d f where
  order := g.order ∘ h.order
  count := g.count.trans h.count
  room k few room := g.room k (h.count.trans few) (h.room k few room)
  empty := g.empty ∘ h.empty

theorem lookup_none : lookup d k = none ↔ ∀ x ∈ d, x.key ≠ k := by
  simp [lookup, List.find?_eq_none]

theorem masterCount_eq (d : List Entry) : masterCount d = (d.map Entry.key).countP (fun k => k != Config.configKey) := by
  unfold masterCount
  rw [← List.countP_eq_length_filter, List.countP_map]
  rfl

theorem lookup_none_keys : lookup d k = none ↔ k ∉ d.map Entry.key := by
  rw [lookup_none]
  simp

/-- A directory with the same keys. -/
theorem Fewer.of_keys (h : e.map Entry.key = d.map Entry.key) : Fewer d e where
  order ok := by
    have ok : (d.map Entry.key).Pairwise (· < ·) := List.pairwise_map.mpr ok
    exact List.pairwise_map.mp (h ▸ ok)
  count := by rw [masterCount_eq, masterCount_eq, h]
  room k _ room other none := by
    rw [masterCount_eq, h, ← masterCount_eq]
    exact room other (lookup_none_keys.mpr (h ▸ lookup_none_keys.mp none))
  empty x := by
    subst x
    exact List.map_eq_nil_iff.mp h

theorem mapEntry_keys {f : Entry → Entry} (key : ∀ x, (f x).key = x.key) : (mapEntry d k f).map Entry.key = d.map Entry.key := by
  unfold mapEntry
  rw [List.map_map]
  refine List.map_congr_left fun x _ => ?_
  simp only [Function.comp]
  split
  · exact key x
  · rfl

theorem mapEntry_fewer {f : Entry → Entry} (key : ∀ x, (f x).key = x.key) : Fewer d (mapEntry d k f) := .of_keys (mapEntry_keys key)

/-- A part of a directory: a key that has lost its entry has left a place. -/
theorem Fewer.of_sublist (h : e.Sublist d) : Fewer d e where
  order ok := ok.sublist h
  count := (h.filter _).length_le
  room k few room other none := by
    rcases Nat.lt_or_ge (masterCount e) (masterCount d) with less | same
    · exact less.trans_le few
    · have all : e.filter (fun x => x.key != Config.configKey) = d.filter (fun x => x.key != Config.configKey) :=
        (h.filter _).eq_of_length_le same
      have gone : lookup d k = Option.none := lookup_none.mpr fun x hx key => by
        have kept : x ∈ e.filter (fun x => x.key != Config.configKey) :=
          all ▸ List.mem_filter.mpr ⟨hx, by simpa [key] using other⟩
        exact lookup_none.mp none x (List.mem_filter.mp kept).1 key
      exact (h.filter _).length_le.trans_lt (room other gone)
  empty x := by
    subst x
    exact List.sublist_nil.mp h

theorem dropEntry_fewer : Fewer d (dropEntry d k) := .of_sublist List.filter_sublist

theorem eraseReport_fewer {g : Seg} {keys : List Key} : Fewer d (eraseReport d g keys) := by
  unfold eraseReport
  induction keys generalizing d with
  | nil => exact .refl d
  | cons x keys ih => exact (mapEntry_fewer (f := fun y => y.reportErased g) fun _ => rfl).trans ih

/-! ## The relation -/

/-- What such an operation leaves: the part's power, the directory's places, the Engine's work unless it ends, the store state unless READY becomes DEGRADED, and the progress of mount or FORMAT. -/
structure Still (s t : State) : Prop where
  running : t.running = s.running
  dir : Fewer s.engine.dir t.engine.dir
  work : t.engine.work = s.engine.work ∨ t.engine.work = .idle
  state : t.store.state = s.store.state ∨ (s.store.state = .ready ∧ t.store.state = .degraded)
  progress : t.store.progress = s.store.progress

@[simp] theorem Still.refl (s : State) : Still s s := ⟨rfl, .refl _, .inl rfl, .inl rfl, rfl⟩

theorem Still.trans {u : State} (h : Still s t) (g : Still t u) : Still s u where
  running := g.running.trans h.running
  dir := h.dir.trans g.dir
  work := by
    rcases g.work with x | x
    · rw [x]
      exact h.work
    · exact .inr x
  state := by
    rcases g.state with x | ⟨x, y⟩
    · rw [x]
      exact h.state
    · rcases h.state with z | ⟨-, z⟩
      · exact .inr ⟨z ▸ x, y⟩
      · rw [z] at x
        exact absurd x (by decide)
  progress := g.progress.trans h.progress

/-- An operation that touches none of these. -/
theorem Still.of_eq {u : State} (h : Still s t) (pins : u.pins = t.pins) (dir : u.engine.dir = t.engine.dir)
    (work : u.engine.work = t.engine.work) (store : u.store = t.store) : Still s u :=
  h.trans ⟨by unfold State.running; rw [pins], by rw [dir]; exact .refl _, .inl work, .inl (by rw [store]), by rw [store]⟩

/-! ## Setters -/

@[simp] theorem State.setPort_still {u : PortUnit} (h : Still s t) : Still s (t.setPort p u) := h.of_eq rfl rfl rfl rfl

@[simp] theorem State.setIdle_still (h : Still s t) : Still s (t.setWork .idle) := h.trans ⟨rfl, .refl _, .inr rfl, .inl rfl, rfl⟩

@[simp] theorem State.setPointer_still (h : Still s t) : Still s (t.setPointer p) := h.of_eq rfl rfl rfl rfl

@[simp] theorem State.setMove_still {m : Option Move} (h : Still s t) : Still s (t.setMove m) := h.of_eq rfl rfl rfl rfl

@[simp] theorem State.setSeq_still {n : SeqNo} (h : Still s t) : Still s (t.setSeq n) := h.of_eq rfl rfl rfl rfl

@[simp] theorem State.bumpSeq_still (h : Still s t) : Still s t.bumpSeq := State.setSeq_still h

theorem State.setDir_still (h : Still s t) (hd : Fewer t.engine.dir d) : Still s (t.setDir d) :=
  h.trans ⟨rfl, hd, .inl rfl, .inl rfl, rfl⟩

@[simp] theorem State.setClaims_still {cs : List Claim} (h : Still s t) : Still s (t.setClaims cs) := h.of_eq rfl rfl rfl rfl

@[simp] theorem State.setWatches_still {ws : List Watch} (h : Still s t) : Still s (t.setWatches p ws) := h.of_eq rfl rfl rfl rfl

@[simp] theorem State.setGuard_still {g : GuardUnit} (h : Still s t) : Still s (t.setGuard g) := h.of_eq rfl rfl rfl rfl

@[simp] theorem State.setSegs_still {v : Vector SegRow 256} (h : Still s t) : Still s (t.setSegs v) := h.of_eq rfl rfl rfl rfl

@[simp] theorem State.setSeg_still {g : Seg} {r : SegRow} (h : Still s t) : Still s (t.setSeg g r) := State.setSegs_still h

@[simp] theorem State.setSegState_still {g : Seg} {x : SegState} (h : Still s t) : Still s (t.setSegState g x) := State.setSegs_still h

@[simp] theorem State.countDead_still (h : Still s t) : Still s (t.countDead pos) := State.setSegs_still h

@[simp] theorem State.setFrontFree_still {l : List CellNo} (h : Still s t) : Still s (t.setFrontFree l) := h.of_eq rfl rfl rfl rfl

@[simp] theorem State.setPass_still {x : Option Pass} (h : Still s t) : Still s (t.setPass x) := h.of_eq rfl rfl rfl rfl

@[simp] theorem State.setHeld_still {b : Bool} (h : Still s t) : Still s (t.setHeld b) := h.of_eq rfl rfl rfl rfl

@[simp] theorem State.setCells_still {x : List Host.Cell} (h : Still s t) : Still s (t.setCells x) := h.of_eq rfl rfl rfl rfl

@[simp] theorem State.setErase_still {x : Option EraseCtx} (h : Still s t) : Still s (t.setErase x) := h.of_eq rfl rfl rfl rfl

@[simp] theorem State.landed_still (h : Still s t) : Still s t.landed := h.of_eq rfl rfl rfl rfl

@[simp] theorem State.presentEngine_still {op : ArrayOp} (h : Still s t) : Still s (t.presentEngine op) := h.of_eq rfl rfl rfl rfl

@[simp] theorem State.presentSpace_still {op : ArrayOp} (h : Still s t) : Still s (t.presentSpace op) := h.of_eq rfl rfl rfl rfl

@[simp] theorem State.presentStore_still {op : ArrayOp} (h : Still s t) : Still s (t.presentStore op) := h.of_eq rfl rfl rfl rfl

@[simp] theorem State.withdrawSpace_still (h : Still s t) : Still s t.withdrawSpace := h.of_eq rfl rfl rfl rfl

@[simp] theorem State.setGeneration_still {g : Generation} (h : Still s t) : Still s (t.setGeneration g) :=
  h.trans ⟨rfl, .refl _, .inl rfl, .inl rfl, rfl⟩

/-- A run of operations over a list is still when each of them is. -/
theorem foldl_still {α : Type} {f : State → α → State} (step : ∀ t x, Still t (f t x)) (xs : List α) (h : Still s t) :
    Still s (xs.foldl f t) := by
  induction xs generalizing t with
  | nil => exact h
  | cons x xs ih => exact ih (h.trans (step t x))

/-! ## Ports -/

@[simp] theorem State.setFlag_still {f : Flags} (h : Still s t) : Still s (t.setFlag p f) := State.setPort_still h

@[simp] theorem State.storeBuffer_still {off : Nat} {bs : List Byte} (h : Still s t) : Still s (t.storeBuffer p off bs) :=
  State.setPort_still h

@[simp] theorem State.offer_still {x : Event} (h : Still s t) : Still s (t.offer p x) := State.setPort_still h

@[simp] theorem State.offerAll_still {x : Event} (h : Still s t) : Still s (t.offerAll x) :=
  foldl_still (fun _ _ => State.offer_still (.refl _)) _ h

@[simp] theorem State.endCommand_still {r : Result} (h : Still s t) : Still s (t.endCommand p r) := State.setIdle_still (State.setPort_still h)

@[simp] theorem State.endGuarded_still {r : Result} (h : Still s t) : Still s (t.endGuarded p r) :=
  State.endCommand_still (State.setFlag_still h)

/-! ## The Space Manager -/

@[simp] theorem State.closeFront_still (h : Still s t) : Still s t.closeFront := by
  unfold State.closeFront
  split <;> simp [h]

@[simp] theorem State.openFront_still {g : Seg} (h : Still s t) : Still s (t.openFront g) :=
  State.setFrontFree_still (State.setSeg_still (State.closeFront_still h))

theorem State.takeFront_still {u : State} (h : Still s t) (take : t.takeFront = some (pos, u)) : Still s u := by
  unfold State.takeFront at take
  split at take
  · obtain ⟨-, rfl⟩ := Prod.mk.inj (Option.some.inj take)
    simp [h]
  · exact absurd take (by simp)

theorem State.takeNewFront_still {u : State} (h : Still s t) (take : t.takeNewFront = some (pos, u)) : Still s u := by
  unfold State.takeNewFront at take
  split at take
  · exact State.takeFront_still (State.openFront_still h) take
  · exact absurd take (by simp)

theorem State.copyGrant_still {u : State} (h : Still s t) (take : t.copyGrant = some (pos, u)) : Still s u := by
  unfold State.copyGrant at take
  split at take
  · rename_i x hx
    obtain rfl := Option.some.inj take
    exact State.takeFront_still h hx
  · exact State.takeNewFront_still h take

@[simp] theorem State.refuseHeld_still (h : Still s t) : Still s t.refuseHeld := by
  unfold State.refuseHeld State.endReadOnly
  repeat' split
  all_goals simp [h]

@[simp] theorem State.degrade_still (h : Still s t) : Still s t.degrade := by
  unfold State.degrade
  split
  · rename_i ready
    have signal : Still t (t.setStoreState .degraded) := ⟨rfl, .refl _, .inl rfl, .inr ⟨ready, rfl⟩, rfl⟩
    exact State.refuseHeld_still (State.offerAll_still (h.trans signal))
  · exact h

@[simp] theorem State.startPass_still {v : Seg} (h : Still s t) : Still s (t.startPass v) :=
  State.presentSpace_still (State.setPass_still (State.setSegState_still h))

@[simp] theorem State.trigger_still (h : Still s t) : Still s t.trigger := by
  unfold State.trigger
  repeat' split
  all_goals simp [h]

@[simp] theorem State.reportDead_still (h : Still s t) : Still s (t.reportDead pos) := State.trigger_still (State.countDead_still h)

@[simp] theorem State.reportSuperseded_still {done : Bool} (h : Still s t) : Still s (t.reportSuperseded pos k done) :=
  State.trigger_still (State.setPass_still (State.countDead_still h))

/-! ## Reports of commits, adoption, claims -/

@[simp] theorem State.offerWatch_still {x : Triggers} {v : Version} {a : Author} (h : Still s t) : Still s (t.offerWatch k x v a p) := by
  unfold State.offerWatch
  repeat' split
  all_goals simp [h]

@[simp] theorem State.reportCommit_still {x y : KeyState} {v : Version} {a : Author} (h : Still s t) : Still s (t.reportCommit k x y v a) :=
  foldl_still (fun _ _ => State.offerWatch_still (.refl _)) _ h

@[simp] theorem State.adoptGuardSet_still {u : Update} (h : Still s t) : Still s (t.adoptGuardSet p c u) := by
  unfold State.adoptGuardSet
  dsimp only
  split
  · exact foldl_still (fun _ _ => State.offer_still (.refl _)) _ (State.setGuard_still h)
  · exact State.setGuard_still h

@[simp] theorem State.expire_still {x : Claim} (h : Still s t) : Still s (t.expire x) := State.offer_still (State.setClaims_still h)

/-! ## Reclaim -/

@[simp] theorem State.endPass_still (h : Still s t) : Still s t.endPass := State.trigger_still (State.setPass_still h)

@[simp] theorem State.abandon_still (h : Still s t) : Still s (t.abandon q) := State.setPass_still (State.setSegState_still h)

@[simp] theorem State.abandonNoCell_still (h : Still s t) : Still s (t.abandonNoCell q) := State.trigger_still (State.abandon_still h)

@[simp] theorem State.abandonFailed_still (h : Still s t) : Still s (t.abandonFailed q) := by
  unfold State.abandonFailed
  split
  · exact State.trigger_still (State.degrade_still (State.abandon_still h))
  · exact State.degrade_still (State.trigger_still (State.abandon_still h))

@[simp] theorem State.readVictim_still (h : Still s t) : Still s (t.readVictim q) := State.presentSpace_still (State.setPass_still h)

@[simp] theorem State.requestErase_still (h : Still s t) : Still s (t.requestErase q) :=
  State.presentSpace_still (State.setPass_still (State.setSegState_still h))

@[simp] theorem State.advance_still (h : Still s t) : Still s (t.advance q) := by
  unfold State.advance
  repeat' split
  all_goals simp [h]

@[simp] theorem State.startCopy_still {b : Body} (h : Still s t) : Still s (t.startCopy q b) := by
  unfold State.startCopy
  split
  · rename_i take
    exact State.presentSpace_still (State.bumpSeq_still (State.setPass_still (State.copyGrant_still h take)))
  · simp [h]

@[simp] theorem State.copyFailed_still {b : Body} (h : Still s t) : Still s (t.copyFailed q b) := by
  unfold State.copyFailed
  split <;> simp [h]

@[simp] theorem State.acceptMove_still {b : Body} {x y : Pos} (h : Still s t) : Still s (t.acceptMove b x y) :=
  State.setMove_still (State.setDir_still h (mapEntry_fewer fun _ => rfl))

@[simp] theorem State.copyBodyDone_still {b : Body} (h : Still s t) : Still s (t.copyBodyDone q b pos ok) := by
  unfold State.copyBodyDone
  repeat' split
  all_goals simp (maxDischargeDepth := 6) [h]

/-- A move resolved leaves every key its entry. -/
theorem State.resolveMove_fewer {m : Move} : Fewer t.engine.dir (t.resolveMove m ok).1 := by
  unfold State.resolveMove
  dsimp only
  repeat' split
  all_goals first
    | exact .refl _
    | refine mapEntry_fewer fun x => ?_
      simp only [Entry.settleMove, Entry.revert, Entry.uncount]
      try split
      all_goals rfl

@[simp] theorem State.copyCommitDone_still {b : Body} (h : Still s t) : Still s (t.copyCommitDone q b pos ok) := by
  unfold State.copyCommitDone
  split
  · rename_i m _
    dsimp only
    have r : Still s ((t.setDir (t.resolveMove m ok).1).setMove none) := State.setMove_still (State.setDir_still h State.resolveMove_fewer)
    split
    · exact State.copyFailed_still (State.countDead_still r)
    · exact State.advance_still (State.countDead_still r)
  · simp [h]

@[simp] theorem State.dropMarkDone_still {b : Body} (h : Still s t) : Still s (t.dropMarkDone q b ok) := by
  unfold State.dropMarkDone
  split
  · exact State.advance_still (State.countDead_still (State.setDir_still h dropEntry_fewer))
  · split
    · exact State.startCopy_still (State.setDir_still h (mapEntry_fewer fun _ => rfl))
    · exact State.startCopy_still h

@[simp] theorem State.victimRead_still {r : CellRead} (h : Still s t) : Still s (t.victimRead q r) := by
  unfold State.victimRead State.handleNamed State.handleUnnamed
  dsimp only
  repeat' split
  all_goals simp [h]

@[simp] theorem State.recordErase_still {g : Seg} {n : Nat} (h : Still s t) : Still s (t.recordErase g n ok) := State.setSeg_still h

@[simp] theorem State.degradeIfWorn_still (h : Still s t) : Still s t.degradeIfWorn := by
  unfold State.degradeIfWorn
  split <;> simp [h]

@[simp] theorem State.eraseDone_still {g : Seg} {n : Nat} (h : Still s t) : Still s (t.eraseDone q g n ok) := by
  unfold State.eraseDone
  extract_lets s₁ s₂
  have r : Still s s₂ := State.setDir_still (State.recordErase_still h) eraseReport_fewer
  split <;> simp (maxDischargeDepth := 6) [r]

@[simp] theorem State.passBody_still (h : Still s t) : Still s (t.passBody q ok) := by
  unfold State.passBody
  split <;> simp [h]

@[simp] theorem State.passMark_still (h : Still s t) : Still s (t.passMark q ok) := by
  unfold State.passMark
  split <;> simp [h]

/-! ## FORMAT's acceptance and end, port resets, the array arbiter, a tick -/

@[simp] theorem State.endFormat_still {r : Cmd → Result} (h : Still s t) : Still s (t.endFormat r) := by
  unfold State.endFormat
  split <;> simp [h]

@[simp] theorem State.endParked_still (h : Still s t) : Still s (t.endParked p) := by
  unfold State.endParked
  split <;> simp [h]

@[simp] theorem State.endScansAndClaims_still (h : Still s t) : Still s t.endScansAndClaims := by
  unfold State.endScansAndClaims
  exact foldl_still (fun _ _ => State.offer_still (.refl _)) _
    (State.setClaims_still (foldl_still (fun _ _ => State.endParked_still (.refl _)) _ h))

@[simp] theorem State.formatAbandon_still (h : Still s t) : Still s t.formatAbandon := by
  unfold State.formatAbandon
  split
  · dsimp only
    split
    · exact State.setSegState_still (State.setPass_still (State.withdrawSpace_still h))
    · simp [h]
  · exact h

@[simp] theorem State.proceedReset_still (h : Still s t) : Still s (t.proceedReset p) :=
  State.setWatches_still (State.setClaims_still (State.setPort_still h))

@[simp] theorem State.arriveReset_still (h : Still s t) : Still s (t.arriveReset p) := by
  unfold State.arriveReset
  dsimp only
  split <;> simp [h]

@[simp] theorem State.arbitrate_still (h : Still s t) : Still s t.arbitrate := h.of_eq (by simp) (by simp) (by simp) (by simp)

theorem State.tick_still : Still s s.tick := by
  unfold State.tick
  split
  · exact (Still.refl s).of_eq rfl rfl rfl rfl
  · exact .refl s

end Sys2Proof.Machine
end

