-- ==== Sys2Proof/Laws/Room.lean ====
section
/-! SUPPORT. Why the directory keeps within its places (R40): `Roomy s` is the directory's order with `StoreOk` and `DirectoryFits`; `Writes k s` holds while the Engine may commit a body of key k, and each operation of an update keeps it; `Begun s` holds when the Engine executes a command, and each command leaves `Roomy`. -/

namespace Sys2Proof.Machine

variable {s t : State} {p : Port} {c : Cmd} {u : Update} {pos : Pos} {ok : Bool} {d : List Entry} {k : Key}

/-! ## The places of a directory -/

/-- A key that has an entry keeps its place when the entry is replaced. -/
theorem putEntry_again {e : Entry} (sorted : DirOk d) (again : lookup d e.key ≠ none) : (putEntry d e).map Entry.key = d.map Entry.key := by
  induction d with
  | nil => exact absurd rfl again
  | cons x d ih =>
    obtain ⟨above, rest⟩ := List.pairwise_cons.mp sorted
    unfold putEntry
    split
    · rename_i same
      simp [same]
    · rename_i differ
      split
      · rename_i less
        refine absurd (lookup_none.mpr fun y hy => ?_) again
        rcases List.mem_cons.mp hy with rfl | hy
        · exact differ
        · exact fun same => BitVec.lt_irrefl _ (BitVec.lt_trans (same ▸ less) (same ▸ above y hy))
      · rw [List.map_cons, List.map_cons, ih rest]
        intro none
        refine again (lookup_none.mpr fun y hy => ?_)
        rcases List.mem_cons.mp hy with rfl | hy
        · exact differ
        · exact lookup_none.mp none y hy

/-- An entry put in a directory takes one place at most, and that of the configuration key takes none of the 4,095. -/
theorem putEntry_count (e : Entry) : masterCount (putEntry d e) ≤ masterCount d + if e.key = Config.configKey then 0 else 1 := by
  simp only [masterCount_eq]
  induction d with
  | nil => by_cases h : e.key = Config.configKey <;> simp [putEntry, h]
  | cons x d ih =>
    unfold putEntry
    split
    · rename_i same
      simp [same]
    · split
      · by_cases h : e.key = Config.configKey <;> simp [List.countP_cons, h]
      · simp only [List.map_cons, List.countP_cons]
        omega

/-- A directory in order holds one entry of the configuration key at most. -/
theorem DirOk.length_le (h : DirOk d) : d.length ≤ masterCount d + 1 := by
  induction d with
  | nil => simp
  | cons x d ih =>
    obtain ⟨above, rest⟩ := List.pairwise_cons.mp h
    by_cases config : x.key = Config.configKey
    · have all : d.filter (fun e => e.key != Config.configKey) = d := List.filter_eq_self.mpr fun y hy => by
        have := above y hy
        rw [config] at this
        simpa using fun same => BitVec.lt_irrefl _ (same ▸ this)
      simp [masterCount, config, all]
    · have := ih rest
      simp only [masterCount, List.length_cons] at *
      rw [List.filter_cons_of_pos (by simpa using config), List.length_cons]
      omega

theorem limitDir_count (h : DirOk d) : masterCount (limitDir d) ≤ Config.masterEntries := by
  rcases Nat.lt_or_ge 4095 (masterCount d) with big | small
  · exact (limitDir_spec h big).1.le
  · rw [limitDir_small small]
    exact small

/-! ## The machine in order -/

/-- The directory in order and within its places, and the store state with what goes with it. -/
structure Roomy (s : State) : Prop where
  order : DirOk s.engine.dir
  store : StoreOk s
  fits : DirectoryFits s

theorem Still.roomy (h : Still s t) (r : Roomy s) : Roomy t := by
  obtain ⟨down, idle, opened, mounting, formatting⟩ := r.store
  obtain ⟨few, room, none, dark, first⟩ := r.fits
  have mount : t.store.state = .mounting → s.store.state = .mounting := fun x => by
    rcases h.state with y | ⟨-, y⟩
    · rw [← y, x]
    · rw [x] at y
      exact absurd y (by decide)
  have work : ∀ p c u, t.engine.work = .updating p c u → s.engine.work = .updating p c u := fun p c u x => by
    rcases h.work with y | y
    · rw [← y, x]
    · rw [x] at y
      exact absurd y (by simp)
  have isOpen : s.store.state = .ready ∨ s.store.state = .degraded → t.store.state = .ready ∨ t.store.state = .degraded := fun x => by
    rcases h.state with y | ⟨-, y⟩
    · rw [y]
      exact x
    · exact .inr y
  have wasOpen : t.store.state = .ready ∨ t.store.state = .degraded → s.store.state = .ready ∨ s.store.state = .degraded := fun x => by
    rcases h.state with y | ⟨y, -⟩
    · rw [← y]
      exact x
    · exact .inl y
  have still : s.store.state ≠ .ready → t.store.state = s.store.state := fun x => by
    rcases h.state with y | ⟨y, -⟩
    · exact y
    · exact absurd y x
  refine ⟨h.dir.order r.order, ⟨fun x => ?_, fun x => ?_, fun p c u x => isOpen (opened p c u (work p c u x)), fun m x => ?_, fun f x => ?_⟩,
    ⟨fun x => h.dir.count.trans (few (wasOpen x)), fun p c u x => ?_, fun x => ?_, fun x => h.dir.empty (dark (h.running ▸ x)),
      fun m x y => ?_⟩⟩
  · have x := down (h.running ▸ x)
    rw [still (by rw [x]; decide), x]
  · rcases h.work with y | y
    · rw [y]
      exact idle (mount x)
    · exact y
  · have x := mounting m (h.progress ▸ x)
    rw [still (by rw [x]; decide), x]
  · have x := formatting f (h.progress ▸ x)
    rw [still (by rw [x]; decide), x]
  · have x := work p c u x
    exact h.dir.room _ (few (opened p c u x)) (room p c u x)
  · refine h.dir.empty (none ?_)
    rcases h.state with y | ⟨-, y⟩
    · rw [← y]
      exact x
    · rw [y] at x
      exact absurd x (by decide)
  · exact h.dir.empty (first m (h.progress ▸ x) y)

/-- The Engine takes up work other than an update, in a store that is open. -/
theorem Roomy.setWork {w : Work} (h : Roomy s) (isOpen : s.store.state ≠ .mounting) (other : ∀ p c u, w ≠ .updating p c u) :
    Roomy (s.setWork w) where
  order := h.order
  store := ⟨h.store.1, fun x => absurd x isOpen, fun p c u x => absurd x (other p c u), h.store.2.2.2.1, h.store.2.2.2.2⟩
  fits := ⟨h.fits.1, fun p c u x => absurd x (other p c u), h.fits.2.2.1, h.fits.2.2.2.1, h.fits.2.2.2.2⟩

theorem State.isOpen_not_mounting (h : s.isOpen = true) : s.store.state ≠ .mounting := fun x => by
  simp [State.isOpen, x] at h

theorem State.takePort_roomy (h : Roomy s) (can : s.eligible p = true) : Roomy (s.takePort p) := by
  have isOpen : s.store.state ≠ .mounting := by
    simp only [State.eligible, Bool.and_eq_true] at can
    exact State.isOpen_not_mounting can.1.2
  have take : ∀ (v : PortUnit) (w : Work) (r : Port), (∀ p c u, w ≠ .updating p c u) → Roomy (((s.setPort p v).setWork w).setPointer r) :=
    fun _ _ _ other => (State.setPointer_still (.refl _)).roomy (((State.setPort_still (.refl s)).roomy h).setWork isOpen other)
  unfold State.takePort
  dsimp only
  split
  · exact take _ _ _ (by simp)
  · exact take _ _ _ (by simp)
  · exact h

theorem State.settle_roomy (h : Roomy s) : Roomy s.settle := by
  unfold State.settle
  split
  · exact h
  · have a := (State.arbitrate_still (.refl s)).roomy h
    rcases s.arbitrate.select_eq with e | ⟨p, can, -, e⟩
    · rw [e]
      exact a
    · rw [e]
      exact State.takePort_roomy a can

/-! ## Updates -/

/-- The Engine may commit a body of a key: the store is READY or DEGRADED, the key has room, and an update under way is of that key. -/
structure Writes (k : Key) (s : State) : Prop where
  roomy : Roomy s
  isOpen : s.store.state = .ready ∨ s.store.state = .degraded
  room : HasRoom s.engine.dir k
  same : ∀ p c u, s.engine.work = .updating p c u → u.key = k

theorem Writes.few (h : Writes k s) : masterCount s.engine.dir ≤ Config.masterEntries := h.roomy.fits.1 h.isOpen

theorem Writes.not_mounting (h : Writes k s) : s.store.state ≠ .mounting := fun x => by
  have := h.isOpen
  rw [x] at this
  exact absurd this (by decide)

theorem Still.writes (h : Still s t) (w : Writes k s) : Writes k t where
  roomy := h.roomy w.roomy
  isOpen := by
    rcases h.state with x | ⟨-, x⟩
    · rw [x]
      exact w.isOpen
    · exact .inr x
  room := h.dir.room k w.few w.room
  same p c u x := by
    rcases h.work with y | y
    · exact w.same p c u (y ▸ x)
    · rw [x] at y
      exact absurd y (by simp)

/-- An update under way may commit. -/
theorem Roomy.writes (h : Roomy s) (work : s.engine.work = .updating p c u) : Writes u.key s where
  roomy := h
  isOpen := h.store.2.2.1 p c u work
  room := h.fits.2.1 p c u work
  same p' c' u' x := by
    rw [work] at x
    cases x
    rfl

theorem Writes.setUpdating (h : Writes k s) (key : u.key = k) : Writes k (s.setWork (.updating p c u)) := by
  have here : ∀ (p' : Port) (c' : Cmd) (u' : Update), Work.updating p c u = .updating p' c' u' → u'.key = k := fun p' c' u' x => by
    cases x
    exact key
  exact
    { roomy :=
        { order := h.roomy.order
          store := ⟨h.roomy.store.1, fun x => absurd x h.not_mounting, fun _ _ _ _ => h.isOpen, h.roomy.store.2.2.2.1, h.roomy.store.2.2.2.2⟩
          fits := ⟨h.roomy.fits.1, fun p' c' u' x => by rw [here p' c' u' x]; exact h.room, h.roomy.fits.2.2.1, h.roomy.fits.2.2.2.1,
            h.roomy.fits.2.2.2.2⟩ }
      isOpen := h.isOpen, room := h.room, same := here }

/-- A commit of the key finds its place, and the key has an entry from then on. -/
theorem Writes.commitBody {b : Body} (h : Writes k s) (key : b.key = k) : Writes k (s.commitBody b pos) := by
  subst key
  have grown : ∀ e : Entry, e.key = b.key → Writes b.key (s.setDir (putEntry s.engine.dir e)) := fun e key => by
    have few : masterCount (putEntry s.engine.dir e) ≤ Config.masterEntries := by
      by_cases again : lookup s.engine.dir e.key = none
      · refine (putEntry_count e).trans ?_
        split
        · exact h.few
        · rename_i other
          rw [key] at again other
          exact h.room other again
      · rw [masterCount_eq, putEntry_again h.roomy.order again, ← masterCount_eq]
        exact h.few
    have room : HasRoom (putEntry s.engine.dir e) b.key := fun _ none => by
      rw [← key, lookup_put_same] at none
      exact absurd none (by simp)
    have isOpen := h.isOpen
    refine ⟨⟨putEntry_ok e h.roomy.order, h.roomy.store, fun _ => few, fun p' c' u' x => ?_, fun x => ?_, fun x => ?_, fun m x _ => ?_⟩,
      h.isOpen, room, h.same⟩
    · rw [h.same p' c' u' x]
      exact room
    · have x : s.store.state = .unformatted ∨ s.store.state = .formatting := x
      rcases isOpen with y | y <;> simp [y] at x
    · exact absurd (h.roomy.store.1 x) h.not_mounting
    · exact absurd (h.roomy.store.2.2.2.1 m x) h.not_mounting
  exact (State.reportCommit_still (.refl _)).writes (grown _ rfl)

theorem State.withPayload_key : (s.withPayload p c u).key = u.key := by
  unfold State.withPayload
  split <;> rfl

theorem State.grantGiven_writes (h : Writes u.key s) : Writes u.key (s.grantGiven p c u pos) := by
  unfold State.grantGiven
  dsimp only
  exact (State.presentEngine_still (State.bumpSeq_still (.refl _))).writes (h.setUpdating State.withPayload_key)

theorem State.requestGrant_writes (h : Writes u.key s) : Writes u.key (s.requestGrant p c u) := by
  unfold State.requestGrant State.endReadOnly
  extract_lets u' s'
  have w : Writes u'.key s' := h.setUpdating rfl
  have held : Writes u'.key (s'.setHeld true) := (State.setHeld_still (.refl _)).writes w
  split
  · exact (State.endCommand_still (.refl _)).writes w
  · split
    · rename_i take
      exact State.grantGiven_writes ((State.takeFront_still (.refl _) take).writes w)
    · split
      · split
        · rename_i take
          exact (State.trigger_still (.refl _)).writes (State.grantGiven_writes ((State.takeNewFront_still (.refl _) take).writes w))
        · exact held
      · exact held

theorem State.answerHeld_roomy (h : Roomy s) : Roomy s.answerHeld := by
  unfold State.answerHeld
  split
  · rename_i work
    have w := (State.setHeld_still (b := false) (.refl s)).writes (h.writes work)
    dsimp only
    split
    · rename_i take
      exact (State.trigger_still (.refl _)).roomy (State.grantGiven_writes ((State.copyGrant_still (.refl _) take).writes w)).roomy
    · exact w.roomy
  · exact (State.trigger_still (State.setHeld_still (.refl s))).roomy h

theorem State.attemptFailed_writes (h : Writes u.key s) : Writes u.key (s.attemptFailed p c u pos) := by
  have w : Writes u.key (s.reportDead pos) := (State.reportDead_still (.refl _)).writes h
  unfold State.attemptFailed State.endProgramFail
  dsimp only
  split
  · exact State.requestGrant_writes (u := { u with attempt := u.attempt + 1 }) w
  · exact (State.endCommand_still (.refl _)).writes w

theorem State.updateBody_writes (h : Writes u.key s) : Writes u.key (s.updateBody p c u pos ok) := by
  unfold State.updateBody
  split
  · exact (State.presentEngine_still (.refl _)).writes (h.setUpdating rfl)
  · exact State.attemptFailed_writes h

theorem State.retryStep_writes (h : Writes u.key s) : Writes u.key (s.retryStep p c u) := by
  have finished : Writes u.key (s.finishUpdate p c u) := (State.endCommand_still (.refl _)).writes h
  unfold State.retryStep
  split
  · split
    · exact (State.presentEngine_still (.refl _)).writes (h.setUpdating rfl)
    · exact finished
  · exact finished

theorem State.updateCommitted_writes (h : Writes u.key s) : Writes u.key (s.updateCommitted p c u pos) := by
  unfold State.updateCommitted
  extract_lets previous s₁ s₂
  have w₁ : Writes u.key s₁ := h.commitBody rfl
  have w₂ : Writes u.key s₂ := by
    simp only [s₂]
    split
    · exact (State.adoptGuardSet_still (.refl _)).writes w₁
    · exact w₁
  cases previous with
  | some cell => exact (State.presentEngine_still (.refl _)).writes (w₂.setUpdating rfl)
  | none => exact State.retryStep_writes w₂

theorem State.updateSuperseded_writes (h : Writes u.key s) : Writes u.key (s.updateSuperseded p c u pos ok) := by
  unfold State.updateSuperseded
  extract_lets s₁ s₂
  have still : Still s s₂ := by
    simp only [s₂, s₁]
    split
    · simp
    · exact State.setMove_still (State.setDir_still (.refl s) (mapEntry_fewer fun _ => rfl))
  exact State.retryStep_writes ((State.reportSuperseded_still still).writes h)

theorem State.updateRetried_writes (h : Writes u.key s) : Writes u.key (s.updateRetried p c u pos ok) := by
  unfold State.updateRetried State.finishUpdate
  extract_lets s₁
  have still : Still s s₁ := by
    simp only [s₁]
    split
    · exact State.setMove_still (State.setDir_still (.refl s) (mapEntry_fewer fun x => x.retried_key pos))
    · exact .refl s
  exact (State.endCommand_still still).writes h

theorem State.updateMark_writes (h : Writes u.key s) : Writes u.key (s.updateMark p c u pos ok) := by
  unfold State.updateMark State.updateCommitMark
  split
  · split
    · exact State.updateCommitted_writes h
    · exact State.attemptFailed_writes h
  · exact State.updateSuperseded_writes h
  · exact State.updateRetried_writes h
  all_goals exact h

/-! ## Commands -/

/-- The Engine has taken a command and is about to execute it. -/
structure Begun (s : State) : Prop where
  roomy : Roomy s
  running : s.running = true
  isOpen : s.isOpen = true
  other : ∀ p c u, s.engine.work ≠ .updating p c u

theorem Begun.still (h : Begun s) (x : Still s t) : Roomy t := x.roomy h.roomy

/-- A command ends, perhaps after what it leaves elsewhere. -/
theorem Begun.ends {r : Result} (h : Begun s) : Roomy (s.endCommand p r) := h.still (State.endCommand_still (.refl s))

theorem Begun.guarded {r : Result} (h : Begun s) : Roomy (s.endGuarded p r) := h.still (State.endGuarded_still (.refl s))

/-- A command presents a read. -/
theorem Begun.reads {w : Work} {op : ArrayOp} (h : Begun s) (other : ∀ p c u, w ≠ .updating p c u) : Roomy ((s.setWork w).presentEngine op) :=
  (State.presentEngine_still (.refl _)).roomy (h.roomy.setWork (State.isOpen_not_mounting h.isOpen) other)

/-- A command that UNFORMATTED and DEGRADED do not refuse is in READY, where a key with room may be written. -/
theorem Begun.writes (h : Begun s) (formatted : s.store.state ≠ .unformatted) (writable : s.store.state ≠ .degraded)
    (room : HasRoom s.engine.dir k) : Writes k s where
  roomy := h.roomy
  isOpen := by
    have := h.isOpen
    unfold State.isOpen at this
    cases x : s.store.state <;> simp_all
  room := room
  same p c u x := absurd x (h.other p c u)

theorem State.checked_roomy {fail : Option Reason} {go : State} (h : Begun s) (hg : Roomy go) : Roomy (s.checked p c fail k go) := by
  unfold State.checked
  split
  · exact h.ends
  · exact hg

theorem State.formatted_roomy {go : State} (h : Begun s) (hg : Roomy go) : Roomy (s.formatted p c k go) := by
  unfold State.formatted
  split
  · exact h.ends
  · exact hg

/-- A key that passes the check of R69 has room. -/
theorem State.failUpdate_room (h : s.failUpdate p c = none) : HasRoom s.engine.dir c.key := fun _ absent => by
  simp only [State.failUpdate, Option.or_eq_none_iff] at h
  have full := h.2.2.2.2.1
  unfold State.failFull at full
  split at full
  · exact absurd full (by simp)
  · rename_i places
    exact Nat.lt_of_not_le fun x => places ⟨by rw [absent]; rfl, x⟩

theorem State.beginUpdate_roomy (h : Writes c.key s) : Roomy (s.beginUpdate p c) := by
  unfold State.beginUpdate
  dsimp only
  split
  · split
    · exact ((State.presentEngine_still (.refl _)).writes (h.setUpdating (u := { s.newUpdate p c with stage := .oldRead }) rfl)).roomy
    · exact h.roomy
  · exact (State.requestGrant_writes (u := s.newUpdate p c) h).roomy

theorem State.admitUpdate_roomy (h : Begun s) : Roomy (s.admitUpdate p c) := by
  unfold State.admitUpdate
  split
  · exact h.ends
  · exact h.ends
  · rename_i formatted writable
    split
    · exact h.guarded
    · split
      · exact h.ends
      · rename_i pass
        exact State.beginUpdate_roomy (h.writes formatted writable (State.failUpdate_room pass))

theorem State.patchOldRead_roomy {r : CellRead} (h : Writes u.key s) : Roomy (s.patchOldRead p c u r) := by
  unfold State.patchOldRead
  split
  · rename_i b _
    exact (State.requestGrant_writes (u := { u with old := b.payload }) h).roomy
  · exact (State.endCommand_still (.refl s)).roomy h.roomy

theorem State.readDone_still {v : Version} {n : Nat} {r : CellRead} : Still s (s.readDone p c v n r) := by
  unfold State.readDone
  split <;> simp

theorem State.admitRead_roomy (h : Begun s) : Roomy (s.admitRead p c) := by
  unfold State.admitRead
  split
  · exact h.ends
  · split
    · exact h.ends
    · split
      · exact h.ends
      · exact h.reads (by simp)

/-! ## Scans -/

theorem State.takeScanStep_roomy {x : ScanStep} (h : Roomy s) (isOpen : s.store.state ≠ .mounting) : Roomy (s.takeScanStep p c x) := by
  unfold State.takeScanStep State.dropSlot
  split
  · exact (State.endCommand_still (.refl s)).roomy h
  · exact (State.presentEngine_still (.refl _)).roomy (h.setWork isOpen (by simp))
  · exact (State.setIdle_still (State.setPort_still (.refl s))).roomy h
  · exact (State.setIdle_still (State.setPort_still (.refl s))).roomy h

theorem State.searchOn_roomy {x : ScanCtx} (h : Roomy s) (isOpen : s.store.state ≠ .mounting) : Roomy (s.searchOn p c x) :=
  State.takeScanStep_roomy h isOpen

theorem State.scanOn_roomy {x : ScanCtx} (h : Roomy s) (isOpen : s.store.state ≠ .mounting) : Roomy (s.scanOn p c x) := by
  unfold State.scanOn
  split
  · exact State.takeScanStep_roomy h isOpen
  · exact State.searchOn_roomy h isOpen

theorem State.scanRead_roomy {x : ScanCtx} {v : Version} {r : CellRead} (h : Roomy s) (isOpen : s.store.state ≠ .mounting) :
    Roomy (s.scanRead p c x k v r) := by
  unfold State.scanRead State.scanMatch
  dsimp only
  split
  · exact State.scanOn_roomy h isOpen
  · split
    · exact State.scanOn_roomy ((State.storeBuffer_still (.refl s)).roomy h) isOpen
    · exact State.scanOn_roomy h isOpen

theorem State.doScan_roomy (h : Begun s) : Roomy (s.doScan p c) := by
  unfold State.doScan State.admitScan State.beginScan
  refine State.checked_roomy h ?_
  split
  · exact h.ends
  · split
    · split
      · exact h.ends
      · exact State.searchOn_roomy h.roomy (State.isOpen_not_mounting h.isOpen)
    · exact h.ends

/-! ## Claims, watches, guards and RECLAIM -/

theorem State.claimRequest_still : Still s (s.claimRequest p c) := by
  unfold State.claimRequest State.grantClaim
  repeat' split
  all_goals simp

theorem State.releaseRequest_still : Still s (s.releaseRequest p c) := by
  unfold State.releaseRequest
  repeat' split
  all_goals simp

theorem State.watchSetRequest_still : Still s (s.watchSetRequest p c) := by
  unfold State.watchSetRequest State.setWatch
  repeat' split
  all_goals simp

theorem State.doGuardSet_roomy (h : Begun s) : Roomy (s.doGuardSet p c) := by
  unfold State.doGuardSet State.admitGuardSet State.guardSetReady
  split
  · split
    · exact h.ends
    · exact h.ends
    · rename_i formatted writable
      have w : Writes Config.configKey s := h.writes formatted writable fun config => absurd rfl config
      split
      · exact h.guarded
      · split
        · exact h.ends
        · split
          · exact h.ends
          · exact (State.requestGrant_writes (u := s.newConfigUpdate p _) w).roomy
  · exact h.ends

theorem State.doGuardRead_still : Still s (s.doGuardRead p c) := by
  unfold State.doGuardRead
  split <;> simp

theorem State.doReclaim_still : Still s (s.doReclaim p c) := by
  unfold State.doReclaim State.reclaimReady
  repeat' split
  all_goals simp

end Sys2Proof.Machine
end

