-- ==== Sys2Proof/Laws/RoomStore.lean ====
section
/-! SUPPORT. The directory keeps within its places through mount and FORMAT: `AtMount s` holds while mount is under way, `AtFormat s` while FORMAT is, and each of their operations leaves `Roomy`. -/

namespace Sys2Proof.Machine

variable {s t : State} {p : Port} {c : Cmd} {pos : Pos} {ok : Bool} {d : List Entry} {m : Mount} {f : FormatAwaits}

/-! ## Mount -/

/-- Mount is under way in a running part: the Engine is IDLE and the directory in order. -/
structure AtMount (s : State) : Prop where
  order : DirOk s.engine.dir
  running : s.running = true
  state : s.store.state = .mounting
  work : s.engine.work = .idle

theorem Roomy.atMount (h : Roomy s) (running : s.running = true) (progress : s.store.progress = .mounting m) : AtMount s :=
  ⟨h.order, running, h.store.2.2.2.1 m progress, h.store.2.1 (h.store.2.2.2.1 m progress)⟩

theorem Still.atMount (h : Still s t) (a : AtMount s) : AtMount t where
  order := h.dir.order a.order
  running := h.running.trans a.running
  state := by
    rcases h.state with x | ⟨x, -⟩
    · rw [x, a.state]
    · rw [a.state] at x
      exact absurd x (by decide)
  work := by
    rcases h.work with x | x
    · rw [x, a.work]
    · exact x

theorem AtMount.setDir (h : AtMount s) (order : DirOk d) : AtMount (s.setDir d) := ⟨order, h.running, h.state, h.work⟩

/-- Mount goes on to its next operation; the directory is empty as long as its first step lasts. -/
theorem AtMount.next {a : MountAwaits} {op : ArrayOp} (h : AtMount s) (first : a.atFirstStep = true → s.engine.dir = []) :
    Roomy (s.mountNext m a op) := by
  have idle : ∀ p c u, s.engine.work ≠ .updating p c u := fun p c u x => by
    rw [h.work] at x
    exact absurd x (by simp)
  refine ⟨h.order, ⟨fun _ => h.state, fun _ => h.work, fun p c u x => absurd x (idle p c u), fun _ _ => h.state, (fun _ x => nomatch x)⟩,
    ⟨fun x => ?_, fun p c u x => absurd x (idle p c u), fun x => ?_, fun x => ?_, fun m x y => ?_⟩⟩
  · have x : s.store.state = .ready ∨ s.store.state = .degraded := x
    simp [h.state] at x
  · have x : s.store.state = .unformatted ∨ s.store.state = .formatting := x
    simp [h.state] at x
  · have x : s.running = false := x
    simp [h.running] at x
  · obtain rfl := Progress.mounting.inj x
    exact first y

/-- Mount or FORMAT ends: the store enters another state, with a directory that fits it. -/
theorem Roomy.enters {x : StoreState} (order : DirOk s.engine.dir) (running : s.running = true)
    (few : masterCount s.engine.dir ≤ Config.masterEntries) (work : ∀ p c u, s.engine.work ≠ .updating p c u) (idle : x = .mounting → s.engine.work = .idle)
    (empty : x = .unformatted ∨ x = .formatting → s.engine.dir = []) : Roomy ((s.setProgress .none).enterStore x) := by
  have entered : Roomy ((s.setProgress .none).setStoreState x) := by
    refine ⟨order, ⟨fun y => ?_, idle, fun p c u y => absurd y (work p c u), (fun _ y => nomatch y), (fun _ y => nomatch y)⟩,
      ⟨fun _ => few, fun p c u y => absurd y (work p c u), empty, fun y => ?_, (fun _ y => nomatch y)⟩⟩
    · have y : s.running = false := y
      simp [running] at y
    · have y : s.running = false := y
      simp [running] at y
  exact (State.offerAll_still (.refl _)).roomy entered

theorem AtMount.enters {x : StoreState} (h : AtMount s) (few : masterCount s.engine.dir ≤ Config.masterEntries)
    (empty : x = .unformatted ∨ x = .formatting → s.engine.dir = []) : Roomy ((s.setProgress .none).enterStore x) :=
  Roomy.enters h.order h.running few (fun p c u y => by rw [h.work] at y; exact absurd y (by simp)) (fun _ => h.work) empty

theorem State.mountHandover_roomy (h : AtMount s) : Roomy s.mountHandover := by
  unfold State.mountHandover
  extract_lets kept removed s₁
  have a : AtMount ((s.setDir kept).countTable) := (State.setSegs_still (.refl _)).atMount (h.setDir (limitDir_ok h.order))
  have few : masterCount kept ≤ Config.masterEntries := limitDir_count h.order
  split
  · exact a.enters few (by simp)
  · exact (State.trigger_still (.refl _)).roomy (a.enters few (by simp))

theorem State.mountUnformatted_roomy (h : AtMount s) : Roomy s.mountUnformatted := by
  unfold State.mountUnformatted
  refine AtMount.enters (s := ((s.setDir []).setGuard _).countTable) ?_ (Nat.zero_le _) (fun _ => rfl)
  exact (State.setSegs_still (State.setGuard_still (.refl _))).atMount (h.setDir List.Pairwise.nil)

theorem State.mountWriteDefaults_roomy {n : Nat} (h : AtMount s) : Roomy (s.mountWriteDefaults m n) := by
  unfold State.mountWriteDefaults
  split
  · rename_i take
    exact ((State.bumpSeq_still (State.copyGrant_still (.refl _) take)).atMount h).next (by simp [MountAwaits.atFirstStep])
  · exact State.mountUnformatted_roomy h

theorem State.mountDefaultsFailed_roomy {n : Nat} (h : AtMount s) : Roomy (s.mountDefaultsFailed m pos n) := by
  have a : AtMount (s.countDead pos) := (State.countDead_still (.refl s)).atMount h
  unfold State.mountDefaultsFailed
  split
  · exact State.mountWriteDefaults_roomy a
  · exact State.mountUnformatted_roomy a

theorem State.mountConfigCommitted_roomy (h : AtMount s) : Roomy (s.mountConfigCommitted pos) := by
  unfold State.mountConfigCommitted
  extract_lets b s₁
  have a : AtMount s₁ := (State.reportCommit_still (.refl _)).atMount (h.setDir (putEntry_ok _ h.order))
  exact State.mountHandover_roomy ((State.setGuard_still (.refl _)).atMount a)

theorem State.mountConfigRead_roomy {r : CellRead} (h : AtMount s) : Roomy (s.mountConfigRead r) := by
  unfold State.mountConfigRead
  split
  · exact State.mountHandover_roomy ((State.setGuard_still (.refl _)).atMount h)
  · exact State.mountHandover_roomy ((State.setGuard_still (.refl _)).atMount h)

theorem State.mountConfig_roomy (h : AtMount s) : Roomy (s.mountConfig m) := by
  unfold State.mountConfig
  split
  · exact h.next (by simp [MountAwaits.atFirstStep])
  · exact State.mountWriteDefaults_roomy h

theorem State.mountErases_roomy (h : AtMount s) : Roomy (s.mountErases m) := by
  unfold State.mountErases
  split
  · exact h.next (by simp [MountAwaits.atFirstStep])
  · exact State.mountConfig_roomy h

theorem State.mountTargets_roomy (h : AtMount s) : Roomy (s.mountTargets m) := by
  unfold State.mountTargets
  split
  · exact h.next (by simp [MountAwaits.atFirstStep])
  · exact State.mountErases_roomy h

theorem State.mountMarked_roomy (h : AtMount s) : Roomy (s.mountMarked m ok) := by
  unfold State.mountMarked
  split
  · refine State.mountTargets_roomy ?_
    split
    · exact h
    · exact h.setDir (mapEntry_ok (fun _ => rfl) h.order)
  · exact State.mountTargets_roomy h

theorem State.mountErased_roomy {n : Nat} (h : AtMount s) : Roomy (s.mountErased m n ok) := by
  unfold State.mountErased
  dsimp only
  split
  · rename_i g _ _
    have a : AtMount (s.recordErase g n ok) := (State.recordErase_still (.refl s)).atMount h
    split
    · exact State.mountErases_roomy a
    · exact a.next (by simp [MountAwaits.atFirstStep])
  · exact State.mountErases_roomy h

theorem State.mountTable_roomy (h : AtMount s) : Roomy (s.mountTable m) :=
  State.mountTargets_roomy ((State.setFrontFree_still (State.setSegs_still (.refl s))).atMount h)

theorem State.mountChoose_roomy (h : AtMount s) : Roomy (s.mountChoose m) :=
  State.mountTable_roomy ((State.setSeq_still (.refl _)).atMount (h.setDir (buildDir_ok _)))

theorem State.mountReadFrom_roomy {n : Nat} (h : AtMount s) : Roomy (s.mountReadFrom m n) := by
  unfold State.mountReadFrom
  split
  · exact h.next (by simp [MountAwaits.atFirstStep])
  · exact State.mountChoose_roomy h

theorem State.mountDataRead_roomy {r : CellRead} (h : AtMount s) : Roomy (s.mountDataRead m pos r) := by
  unfold State.mountDataRead
  dsimp only
  split
  · exact h.next (by simp [MountAwaits.atFirstStep])
  · exact State.mountReadFrom_roomy h

theorem State.mountBlanks_roomy (h : AtMount s) : Roomy (s.mountBlanks m) := by
  unfold State.mountBlanks
  split
  · exact h.next (by simp [MountAwaits.atFirstStep])
  · exact State.mountReadFrom_roomy h

theorem State.mountHeaderDone_roomy {g : Seg} (h : AtMount s) : Roomy (s.mountHeaderDone m g ok) := by
  unfold State.mountHeaderDone
  split
  · exact State.mountBlanks_roomy h
  · exact h.next (by simp [MountAwaits.atFirstStep])

theorem State.mountNothing_roomy (h : AtMount s) (empty : s.engine.dir = []) : Roomy (s.mountNothing m) := by
  unfold State.mountNothing
  exact AtMount.enters (s := (s.setSegs _).setSeq _) ((State.setSeq_still (State.setSegs_still (.refl s))).atMount h)
    (show masterCount s.engine.dir ≤ _ by rw [empty]; exact Nat.zero_le _) (fun _ => empty)

theorem State.mountClassified_roomy (h : AtMount s) (empty : s.engine.dir = []) : Roomy (s.mountClassified m) := by
  unfold State.mountClassified
  split
  · exact State.mountNothing_roomy h empty
  · exact State.mountBlanks_roomy ((State.setGeneration_still (.refl s)).atMount h)

theorem State.mountHeaders_roomy (h : AtMount s) (empty : s.engine.dir = []) : Roomy (s.mountHeaders m) := by
  unfold State.mountHeaders
  split
  · exact h.next (fun _ => empty)
  · exact State.mountClassified_roomy h empty

theorem State.mountHeaderRead_roomy {g : Seg} {r : HeaderRead} (h : AtMount s) (empty : s.engine.dir = []) : Roomy (s.mountHeaderRead m g r) := by
  unfold State.mountHeaderRead
  repeat' split
  all_goals first
    | exact State.mountHeaders_roomy h empty
    | exact h.next (fun _ => empty)

theorem State.mountBlankRead_roomy {r : CellRead} (h : AtMount s) (empty : s.engine.dir = []) : Roomy (s.mountBlankRead m pos r) := by
  unfold State.mountBlankRead
  dsimp only
  repeat' split
  all_goals first
    | exact State.mountHeaders_roomy h empty
    | exact h.next (fun _ => empty)

/-! ## Completions taken by mount -/

theorem State.mountRead_roomy (h : Roomy s) (running : s.running = true) (progress : s.store.progress = .mounting m) : Roomy (s.mountRead m) := by
  have a := h.atMount running progress
  have first := h.fits.2.2.2.2 m progress
  unfold State.mountRead
  cases x : m.awaits with
  | header g => exact State.mountHeaderRead_roomy a (first (by rw [x]; rfl))
  | blankCell pos => exact State.mountBlankRead_roomy a (first (by rw [x]; rfl))
  | dataCell pos => exact State.mountDataRead_roomy a
  | configRead =>
    dsimp only
    split
    · exact State.mountConfigRead_roomy a
    · exact h
  | _ => exact h

theorem State.mountBody_roomy (h : Roomy s) (running : s.running = true) (progress : s.store.progress = .mounting m) :
    Roomy (s.mountBody m ok) := by
  have a := h.atMount running progress
  unfold State.mountBody
  split
  · split
    · exact a.next (by simp [MountAwaits.atFirstStep])
    · exact State.mountDefaultsFailed_roomy a
  · exact h

theorem State.mountHeader_roomy (h : Roomy s) (running : s.running = true) (progress : s.store.progress = .mounting m) :
    Roomy (s.mountHeader m ok) := by
  unfold State.mountHeader
  split
  · exact State.mountHeaderDone_roomy (h.atMount running progress)
  · exact h

theorem State.mountMark_roomy (h : Roomy s) (running : s.running = true) (progress : s.store.progress = .mounting m) :
    Roomy (s.mountMark m ok) := by
  have a := h.atMount running progress
  have first := h.fits.2.2.2.2 m progress
  unfold State.mountMark
  cases x : m.awaits with
  | wornMark g => exact State.mountHeaders_roomy a (first (by rw [x]; rfl))
  | blankMark g => exact State.mountBlanks_roomy a
  | repairMark => exact State.mountMarked_roomy a
  | repairRetire g => exact State.mountErases_roomy a
  | configMark pos attempt =>
    dsimp only
    split
    · exact State.mountConfigCommitted_roomy a
    · exact State.mountDefaultsFailed_roomy a
  | _ => exact h

theorem State.mountErase_roomy {n : Nat} (h : Roomy s) (running : s.running = true) (progress : s.store.progress = .mounting m) :
    Roomy (s.mountErase m n ok) := by
  unfold State.mountErase
  split
  · exact State.mountErased_roomy (h.atMount running progress)
  · exact h

/-! ## FORMAT -/

/-- FORMAT is under way in a running part: the directory is empty and no update is carried out. -/
structure AtFormat (s : State) : Prop where
  running : s.running = true
  state : s.store.state = .formatting
  empty : s.engine.dir = []
  work : ∀ p c u, s.engine.work ≠ .updating p c u

theorem Roomy.atFormat (h : Roomy s) (progress : s.store.progress = .formatting f) : AtFormat s where
  state := h.store.2.2.2.2 f progress
  running := by
    cases x : s.running with
    | true => rfl
    | false =>
      have := h.store.1 x
      rw [h.store.2.2.2.2 f progress] at this
      exact absurd this (by decide)
  empty := h.fits.2.2.1 (.inr (h.store.2.2.2.2 f progress))
  work p c u x := by
    have := h.store.2.2.1 p c u x
    rw [h.store.2.2.2.2 f progress] at this
    exact absurd this (by decide)

theorem Still.atFormat (h : Still s t) (a : AtFormat s) : AtFormat t where
  running := h.running.trans a.running
  state := by
    rcases h.state with x | ⟨x, -⟩
    · rw [x, a.state]
    · rw [a.state] at x
      exact absurd x (by decide)
  empty := h.dir.empty a.empty
  work p c u x := by
    rcases h.work with y | y
    · exact a.work p c u (y ▸ x)
    · rw [x] at y
      exact absurd y (by simp)

/-- FORMAT's progress recorded. -/
theorem AtFormat.progress (h : AtFormat s) : Roomy (s.setProgress (.formatting f)) := by
  refine ⟨?_, ⟨fun x => ?_, fun x => ?_, fun p c u x => absurd x (h.work p c u), (fun _ x => nomatch x), fun _ _ => h.state⟩,
    ⟨fun x => ?_, fun p c u x => absurd x (h.work p c u), fun _ => h.empty, fun _ => h.empty, (fun _ x => nomatch x)⟩⟩
  · show DirOk s.engine.dir
    rw [h.empty]
    exact List.Pairwise.nil
  · have x : s.running = false := x
    simp [h.running] at x
  · have x : s.store.state = .mounting := x
    simp [h.state] at x
  · have x : s.store.state = .ready ∨ s.store.state = .degraded := x
    simp [h.state] at x

theorem AtFormat.next {op : ArrayOp} (h : AtFormat s) : Roomy (s.formatNext f op) := (State.presentStore_still (.refl _)).roomy h.progress

theorem State.formatFailed_roomy {aux : Half} (h : AtFormat s) : Roomy (s.formatFailed aux) := by
  unfold State.formatFailed
  refine (State.endFormat_still (.refl _)).roomy (Roomy.enters (s := s.setGuard _) ?_ h.running ?_ h.work (by simp) (fun _ => h.empty))
  · show DirOk s.engine.dir
    rw [h.empty]
    exact List.Pairwise.nil
  · show masterCount s.engine.dir ≤ _
    rw [h.empty]
    exact Nat.zero_le _

theorem State.formatWrite_roomy {n : Nat} (h : AtFormat s) : Roomy (s.formatWrite n) := by
  unfold State.formatWrite
  dsimp only
  split
  · rename_i take
    exact ((State.bumpSeq_still (State.copyGrant_still (.refl _) take)).atFormat h).next
  · exact State.formatFailed_roomy h

theorem State.formatWriteFailed_roomy {n : Nat} (h : AtFormat s) : Roomy (s.formatWriteFailed pos n) := by
  have a : AtFormat (s.countDead pos) := (State.countDead_still (.refl s)).atFormat h
  unfold State.formatWriteFailed
  split
  · exact State.formatWrite_roomy a
  · exact State.formatFailed_roomy a

theorem State.formatBody_key : s.formatBody.key = Config.configKey := by
  unfold State.formatBody
  split <;> rfl

/-- The commit of FORMAT's configuration puts the one entry of the configuration key in an empty directory. -/
theorem State.formatCommitted_roomy {n : Nat} (h : AtFormat s) : Roomy (s.formatCommitted pos n) := by
  unfold State.formatCommitted State.formatDone
  extract_lets b s₁ s₂ usable s₃
  have still : Still (s.setDir (putEntry s.engine.dir (committedEntry (lookup s.engine.dir b.key) b pos)))
      (s₁.setGuard (s₁.guard.adopt b.payload .loaded)) :=
    State.setGuard_still (State.reportCommit_still (.refl _))
  refine (State.trigger_still (State.endFormat_still (.refl _))).roomy (Roomy.enters (still.dir.order ?_) (still.running.trans h.running)
    (still.dir.count.trans ?_) (fun p c u x => ?_) (fun x => ?_) (fun x => ?_))
  · show DirOk (putEntry s.engine.dir _)
    rw [h.empty]
    exact putEntry_ok _ List.Pairwise.nil
  · refine (putEntry_count (d := s.engine.dir) _).trans ?_
    rw [if_pos (show (committedEntry _ b pos).key = _ from State.formatBody_key), h.empty]
    exact Nat.zero_le _
  · rcases still.work with y | y
    · exact h.work p c u (y ▸ x)
    · rw [x] at y
      exact absurd y (by simp)
  · split at x <;> exact absurd x (by decide)
  · split at x <;> exact absurd x (by decide)

theorem State.formatErases_roomy {n : Nat} {owes : List Seg} (h : AtFormat s) : Roomy (s.formatErases n owes) := by
  unfold State.formatErases
  split
  · exact h.next
  · split
    · exact h.next
    · exact State.formatWrite_roomy h

theorem State.acceptFormat_roomy (h : Begun s) : Roomy (s.acceptFormat p c) := by
  unfold State.acceptFormat
  extract_lets s₁ s₂ s₃
  have r₁ : s₁.running = true ∧ s₁.store.state = .formatting ∧ s₁.engine.work = .formatting p c := by
    have still : Still ((s.setWork (.formatting p c)).setStoreState .formatting) s₁ := State.offerAll_still (.refl _)
    refine ⟨still.running.trans h.running, ?_, rfl⟩
    rcases still.state with x | ⟨x, -⟩
    · exact x
    · exact absurd (show StoreState.formatting = .ready from x) (by decide)
  have still : Still s₁ s₂ := State.formatAbandon_still (State.endScansAndClaims_still (.refl _))
  have a : AtFormat s₃ := by
    refine ⟨still.running.trans r₁.1, ?_, rfl, fun q c' u x => ?_⟩
    · rcases still.state with x | ⟨x, -⟩
      · exact x.trans r₁.2.1
      · rw [r₁.2.1] at x
        exact absurd x (by decide)
    · have x : s₂.engine.work = .updating q c' u := x
      rcases still.work with y | y
      · rw [y, r₁.2.2] at x
        exact absurd x (by simp)
      · rw [x] at y
        exact absurd y (by simp)
  exact State.formatErases_roomy ((State.setFrontFree_still (.refl _)).atFormat a)

theorem State.doFormat_roomy (h : Begun s) : Roomy (s.doFormat p c) := by
  unfold State.doFormat State.formatChecks
  dsimp only
  split
  · exact h.ends
  · split
    · exact h.guarded
    · split
      · exact h.ends
      · split
        · exact h.ends
        · split
          · exact h.ends
          · exact State.acceptFormat_roomy h

theorem State.formatBodyDone_roomy (h : Roomy s) (progress : s.store.progress = .formatting f) : Roomy (s.formatBodyDone f ok) := by
  have a := h.atFormat progress
  unfold State.formatBodyDone
  split
  · split
    · exact a.next
    · exact State.formatWriteFailed_roomy a
  · exact h

theorem State.formatMark_roomy (h : Roomy s) (progress : s.store.progress = .formatting f) : Roomy (s.formatMark f ok) := by
  have a := h.atFormat progress
  unfold State.formatMark
  split
  · exact State.formatErases_roomy a
  · split
    · exact State.formatCommitted_roomy a
    · exact State.formatWriteFailed_roomy a
  · exact h

theorem State.formatErase_roomy {n : Nat} (h : Roomy s) (progress : s.store.progress = .formatting f) : Roomy (s.formatErase f n ok) := by
  unfold State.formatErase State.formatErased
  split
  · exact State.formatErases_roomy ((State.recordErase_still (.refl _)).atFormat (h.atFormat progress))
  · exact h

theorem State.formatAfterReclaim_roomy {g : Seg} {n : Nat} (h : Roomy s) : Roomy (s.formatAfterReclaim g n ok) := by
  unfold State.formatAfterReclaim
  have r : Roomy (s.recordErase g n ok) := (State.recordErase_still (.refl s)).roomy h
  dsimp only
  split
  · rename_i progress
    have a := r.atFormat progress
    split
    · exact State.formatErases_roomy a
    · exact a.progress
  · exact r

end Sys2Proof.Machine
end

