-- ==== Sys2Proof/Laws/RoomStep.lean ====
section
/-! SUPPORT. The directory keeps within its places at every row: completions, frames, the lines, and `exec`; that a tick does is `State.tick_still`. -/

namespace Sys2Proof.Machine

variable {s t : State} {p : Port} {c : Cmd} {pos : Pos} {ok : Bool} {k : Key} {r : Requester}

/-! ## Completions -/

theorem State.deliverRead_roomy {b : Bool} (h : Roomy s) (running : s.running = true) : Roomy (s.deliverRead r pos b) := by
  cases r with
  | engine =>
    show Roomy (s.engineRead _)
    unfold State.engineRead
    split
    · rename_i work
      exact State.patchOldRead_roomy (h.writes work)
    · exact State.readDone_still.roomy h
    · rename_i work
      exact State.scanRead_roomy h fun x => by
        rw [h.store.2.1 x] at work
        exact absurd work (by simp)
    · exact h
  | space =>
    show Roomy (s.spaceRead _)
    unfold State.spaceRead
    split
    · split
      · exact (State.victimRead_still (.refl s)).roomy h
      · exact h
    · exact h
  | store =>
    show Roomy s.storeRead
    unfold State.storeRead
    split
    · rename_i progress
      exact State.mountRead_roomy h running progress
    · exact h

theorem State.deliverBody_roomy (h : Roomy s) (running : s.running = true) : Roomy (s.deliverBody r pos ok) := by
  unfold State.deliverBody
  cases r with
  | engine =>
    dsimp only
    split
    · rename_i work
      exact (State.updateBody_writes (h.writes work)).roomy
    · exact h
  | space =>
    dsimp only
    split
    · exact (State.passBody_still (.refl s)).roomy h
    · exact h
  | store =>
    dsimp only
    split
    · rename_i progress
      exact State.mountBody_roomy h running progress
    · rename_i progress
      exact State.formatBodyDone_roomy h progress
    · exact h

theorem State.deliverHeader_roomy (h : Roomy s) (running : s.running = true) : Roomy (s.deliverHeader ok) := by
  unfold State.deliverHeader
  split
  · rename_i progress
    exact State.mountHeader_roomy h running progress
  · exact h

theorem State.deliverMark_roomy (h : Roomy s) (running : s.running = true) : Roomy (s.deliverMark r pos ok) := by
  unfold State.deliverMark
  cases r with
  | engine =>
    dsimp only
    split
    · rename_i work
      exact (State.updateMark_writes (h.writes work)).roomy
    · exact h
  | space =>
    dsimp only
    split
    · exact (State.passMark_still (.refl s)).roomy h
    · exact h
  | store =>
    dsimp only
    split
    · rename_i progress
      exact State.mountMark_roomy h running progress
    · rename_i progress
      exact State.formatMark_roomy h progress
    · exact h

theorem State.deliverErase_roomy {n : Nat} (h : Roomy s) (running : s.running = true) : Roomy (s.deliverErase n ok) := by
  unfold State.deliverErase
  split
  · rename_i progress
    exact State.mountErase_roomy h running progress
  · rename_i progress
    exact State.formatErase_roomy h progress
  · exact h

theorem State.deliverReclaimErase_roomy {g : Seg} {n : Nat} (h : Roomy s) : Roomy (s.deliverReclaimErase g n ok) := by
  unfold State.deliverReclaimErase
  split
  · exact (State.eraseDone_still (.refl s)).roomy h
  · exact State.formatAfterReclaim_roomy h

/-! ## The rows of the inner blocks -/

theorem State.perform_roomy {code : Byte} {g : Port → Cmd → State} (h : Roomy s) (hg : ∀ p c, Begun s → Roomy (g p c))
    (e : s.perform code g = .next t) : Roomy t := by
  obtain ⟨p, c, taken, rfl⟩ := State.perform_eq_next.mp e
  refine State.settle_roomy (hg p c ?_)
  unfold State.takenCmd at taken
  split at taken
  · rename_i work
    split at taken
    · rename_i due
      exact ⟨h, due.2.1, due.2.2, by rw [work]; simp⟩
    · exact absurd taken (by simp)
  · exact absurd taken (by simp)

/-- A command whose whole effect is still. -/
theorem State.perform_still {code : Byte} {g : Port → Cmd → State} (h : Roomy s) (hg : ∀ p c, Still s (g p c))
    (e : s.perform code g = .next t) : Roomy t :=
  State.perform_roomy h (fun p c b => b.still (hg p c)) e

theorem execBadCommand_roomy (h : Roomy s) (e : execBadCommand s = .next t) : Roomy t := by
  unfold execBadCommand at e
  split at e
  · split at e
    · obtain rfl := Host.Outcome.next.inj e
      exact State.settle_roomy ((State.endCommand_still (.refl s)).roomy h)
    · exact absurd e (by simp)
  · exact absurd e (by simp)

theorem execScanResume_roomy (h : Roomy s) (e : execScanResume s = .next t) : Roomy t := by
  unfold execScanResume at e
  split at e
  · split at e
    · rename_i due
      obtain rfl := Host.Outcome.next.inj e
      exact State.settle_roomy (State.searchOn_roomy h (State.isOpen_not_mounting due.2))
    · exact absurd e (by simp)
  · exact absurd e (by simp)

theorem execClaimExpiry_roomy (h : Roomy s) (e : execClaimExpiry k s = .next t) : Roomy t := by
  unfold execClaimExpiry at e
  split at e
  · split at e
    · obtain rfl := Host.Outcome.next.inj e
      exact State.settle_roomy ((State.expire_still (.refl _)).roomy h)
    · exact absurd e (by simp)
  · exact absurd e (by simp)

theorem execCellReadDone_roomy (h : Roomy s) (e : execCellReadDone s = .next t) : Roomy t := by
  unfold execCellReadDone at e
  split at e
  · rename_i running _
    obtain rfl := Host.Outcome.next.inj e
    exact State.settle_roomy (State.deliverRead_roomy ((State.landed_still (.refl s)).roomy h) running)
  · exact absurd e (by simp)

theorem execBodyProgramDone_roomy {left : List Host.Cell} (h : Roomy s) (e : execBodyProgramDone left s = .next t) : Roomy t := by
  unfold execBodyProgramDone at e
  split at e
  · rename_i running _
    obtain rfl := Host.Outcome.next.inj e
    exact State.settle_roomy (State.deliverBody_roomy ((State.landed_still (State.setCells_still (.refl s))).roomy h) running)
  · exact absurd e (by simp)

theorem execHeaderProgramDone_roomy {left : List Host.Cell} (h : Roomy s) (e : execHeaderProgramDone left s = .next t) : Roomy t := by
  unfold execHeaderProgramDone at e
  split at e
  · rename_i running _
    obtain rfl := Host.Outcome.next.inj e
    exact State.settle_roomy (State.deliverHeader_roomy ((State.landed_still (State.setCells_still (.refl s))).roomy h) running)
  · exact absurd e (by simp)

theorem execMarkProgramDone_roomy {fails : Bool} (h : Roomy s) (e : execMarkProgramDone fails s = .next t) : Roomy t := by
  unfold execMarkProgramDone at e
  split at e
  · rename_i running _
    obtain rfl := Host.Outcome.next.inj e
    exact State.settle_roomy (State.deliverMark_roomy ((State.landed_still (State.setCells_still (.refl s))).roomy h) running)
  · exact absurd e (by simp)

theorem execSegmentEraseDone_roomy {left : List Host.Cell} (h : Roomy s) (e : execSegmentEraseDone left s = .next t) : Roomy t := by
  unfold execSegmentEraseDone at e
  split at e
  · rename_i running _
    obtain rfl := Host.Outcome.next.inj e
    exact State.settle_roomy (State.deliverErase_roomy ((State.landed_still (State.setCells_still (.refl s))).roomy h) running)
  · split at e
    · obtain rfl := Host.Outcome.next.inj e
      exact State.settle_roomy (State.deliverReclaimErase_roomy ((State.setErase_still (State.setCells_still (.refl s))).roomy h))
    · exact absurd e (by simp)
  · exact absurd e (by simp)

theorem State.whenDue_roomy {due : Bool} {x : State} (hx : Roomy x) (e : State.whenDue due x = .next t) : Roomy t := by
  obtain ⟨-, rfl⟩ := State.whenDue_eq_next.mp e
  exact State.settle_roomy hx

/-! ## Frames -/

/-- An effect at a frame's end that keeps the order. -/
def FrameEffect.Roomy (effect : FrameEffect) : Prop := ∀ n f u, Machine.Roomy u → Machine.Roomy (effect n f u)

theorem FrameEffect.Roomy.of_still {effect : FrameEffect} (h : ∀ n f u, Still u (effect n f u)) : effect.Roomy := fun n f u => (h n f u).roomy

theorem State.openFrame_still {x : FrameKind} : Still s (s.openFrame p x) := by
  unfold State.openFrame
  dsimp only
  split <;> simp

theorem State.closeFrame_roomy {x : FrameKind} {off n : Nat} {whole : Bool} {effect : FrameEffect} (he : effect.Roomy) (h : Roomy s) :
    Roomy (s.closeFrame p x off n whole effect) := by
  unfold State.closeFrame State.frameEnd State.refuseFrame
  split
  · split
    · dsimp only
      have ended : ∀ out, Roomy (s.ended p out) := fun _ => (State.setPort_still (.refl s)).roomy h
      split
      · split
        · exact (State.setFlag_still (.refl _)).roomy (ended _)
        · exact ended _
      · exact he _ _ _ (ended _)
    · exact h
  · exact h

theorem State.frameMoment_roomy {x : FrameKind} {y : FrameMoment} {off : Nat} {effect : FrameEffect} (he : effect.Roomy) (h : Roomy s) :
    Roomy (s.frameMoment p x y off effect) := by
  unfold State.frameMoment State.clockKind State.clockOut
  split
  · split
    · exact State.openFrame_still.roomy h
    · split
      · split
        · exact (State.setPort_still (.refl s)).roomy h
        · exact h
      · exact h
    · split
      · split
        · exact (State.setPort_still (.refl s)).roomy h
        · exact h
      · exact h
    · exact State.closeFrame_roomy he h
    · split
      · exact State.closeFrame_roomy he (State.openFrame_still.roomy h)
      · exact h
  · exact h

theorem queueCommand_roomy : FrameEffect.Roomy (fun _ _ s => s.queueCommand p c) := fun _ _ u h => by
  show Roomy (u.queueCommand p c)
  unfold State.queueCommand
  split
  · exact State.settle_roomy ((State.setPort_still (.refl u)).roomy h)
  · exact (State.setFlag_still (.refl u)).roomy h

theorem resultEffect_roomy : (resultEffect p).Roomy := fun _ _ u h => by
  unfold resultEffect
  split
  · exact State.settle_roomy ((State.setPort_still (.refl u)).roomy h)
  · exact h

theorem eventEffect_roomy : (eventEffect p).Roomy := .of_still fun _ _ u => by
  unfold eventEffect
  split <;> simp

theorem bufferWriteEffect_roomy {off : Nat} {data : List Byte} : (bufferWriteEffect p off data).Roomy := .of_still fun _ _ u => by
  unfold bufferWriteEffect State.storeFrame
  dsimp only
  split <;> simp

theorem bufferReadEffect_roomy {off : Nat} : (bufferReadEffect p off).Roomy := .of_still fun _ _ u => by
  unfold bufferReadEffect
  split <;> simp

/-! ## RESET_N and power -/

/-- A part that is down, or about to begin mount: MOUNTING, the Engine IDLE, the directory empty. -/
structure Down (s : State) : Prop where
  state : s.store.state = .mounting
  work : s.engine.work = .idle
  empty : s.engine.dir = []
  progress : ∀ f, s.store.progress ≠ .formatting f

theorem Down.roomy (h : Down s) : Roomy s := by
  have idle : ∀ p c u, s.engine.work ≠ .updating p c u := fun p c u x => by
    rw [h.work] at x
    exact absurd x (by simp)
  exact
    { order := by rw [h.empty]; exact List.Pairwise.nil
      store := ⟨fun _ => h.state, fun _ => h.work, fun p c u x => absurd x (idle p c u), fun _ _ => h.state, fun f x => absurd x (h.progress f)⟩
      fits := ⟨fun _ => by rw [h.empty]; exact Nat.zero_le _, fun p c u x => absurd x (idle p c u), fun _ => h.empty, fun _ => h.empty,
        fun _ _ _ => h.empty⟩ }

theorem Roomy.down (h : Roomy s) (off : s.running = false) : Down s where
  state := h.store.1 off
  work := h.store.2.1 (h.store.1 off)
  empty := h.fits.2.2.2.1 off
  progress f x := by
    have := h.store.2.2.2.2 f x
    rw [h.store.1 off] at this
    exact absurd this (by decide)

theorem Down.setPins {x : Pins} (h : Down s) : Down (s.setPins x) := ⟨h.state, h.work, h.empty, h.progress⟩

theorem State.volatileReset_down (cells : List Host.Cell) : Down (s.volatileReset cells) := ⟨rfl, rfl, rfl, fun _ x => nomatch x⟩

theorem Down.startMount (h : Down s) : Down s.startMount := ⟨rfl, h.work, h.empty, fun _ x => nomatch x⟩

/-! ## Every row, and a tick -/

/-- A row that answers a next state keeps the directory's order and places, and the order of the store. -/
theorem exec_roomy {i : Instr} (ok : Roomy s) (h : exec i s = .next t) : Roomy t := by
  have frame : ∀ {p : Port} {x : FrameKind} {y : FrameMoment} {off : Nat} {effect : FrameEffect},
      effect.Roomy → Host.Outcome.next (s.frameMoment p x y off effect) = (.next t : Host.Outcome State Fault Refusal) → Roomy t :=
    fun he h => Host.Outcome.next.inj h ▸ State.frameMoment_roomy he ok
  cases i with
  | statusRead p y => exact frame (.of_still fun _ _ _ => .refl _) h
  | command p y code tag params => exact frame queueCommand_roomy h
  | resultRead p y => exact frame resultEffect_roomy h
  | eventRead p y => exact frame eventEffect_roomy h
  | bufferWrite p y offset data => exact frame bufferWriteEffect_roomy h
  | bufferRead p y offset => exact frame bufferReadEffect_roomy h
  | notifySet p y mask => exact frame (.of_still fun _ _ _ => State.setPort_still (.refl _)) h
  | notifyClear p y mask => exact frame (.of_still fun _ _ _ => State.setPort_still (.refl _)) h
  | flagsClear p y mask => exact frame (.of_still fun _ _ _ => State.setPort_still (.refl _)) h
  | portReset p y => exact frame (.of_still fun _ _ _ => State.arriveReset_still (.refl _)) h
  | unknownFrameKind p y kind =>
    have h : execUnknownFrameKind p y kind s = .next t := h
    unfold execUnknownFrameKind at h
    split at h
    · exact frame (.of_still fun _ _ _ => .refl _) h
    · exact absurd h (by simp)
  | resetNLow cut eraseCut =>
    obtain rfl := Host.Outcome.next.inj h
    refine (Down.setPins ?_).roomy
    split
    · exact State.volatileReset_down _
    · rename_i off
      exact ok.down (by simpa using off)
  | resetNHigh =>
    obtain rfl := Host.Outcome.next.inj h
    split
    · rename_i held
      exact (ok.down (by simp [State.running, held])).startMount.setPins.roomy
    · rename_i other
      cases off : s.running with
      | false => exact (ok.down off).setPins.roomy
      | true =>
        simp only [State.running, Bool.and_eq_true] at off
        have same : s.setPins { s.pins with resetN := true } = s := by rw [← off.2]; rfl
        rw [same]
        exact ok
  | powerOn =>
    have h : execPowerOn s = .next t := h
    unfold execPowerOn at h
    split at h
    · exact absurd h (by simp)
    · obtain rfl := Host.Outcome.next.inj h
      have down : Down ((s.volatileReset s.array.cells).setPins { s.pins with power := true }) := (State.volatileReset_down _).setPins
      split
      · exact down.startMount.roomy
      · exact down.roomy
  | powerLoss cut eraseCut =>
    have h : execPowerLoss cut eraseCut s = .next t := h
    unfold execPowerLoss at h
    split at h
    · obtain rfl := Host.Outcome.next.inj h
      exact (State.volatileReset_down _).setPins.roomy
    · exact absurd h (by simp)
  | guardEnChange level =>
    obtain rfl := Host.Outcome.next.inj h
    exact Still.roomy (s := s) ⟨rfl, .refl _, .inl rfl, .inl rfl, rfl⟩ ok
  | portResetProceed p => exact State.whenDue_roomy ((State.proceedReset_still (.refl s)).roomy ok) h
  | write => exact State.perform_roomy ok (fun _ _ b => State.checked_roomy b (State.admitUpdate_roomy b)) h
  | patch => exact State.perform_roomy ok (fun _ _ b => State.checked_roomy b (State.admitUpdate_roomy b)) h
  | remove => exact State.perform_roomy ok (fun _ _ b => State.checked_roomy b (State.admitUpdate_roomy b)) h
  | read => exact State.perform_roomy ok (fun _ _ b => State.checked_roomy b (State.admitRead_roomy b)) h
  | stat =>
    refine State.perform_roomy ok (fun _ _ b => State.checked_roomy b ?_) h
    split <;> exact b.ends
  | scan => exact State.perform_roomy ok (fun _ _ b => State.doScan_roomy b) h
  | claim =>
    exact State.perform_roomy ok (fun _ _ b => State.checked_roomy b (State.formatted_roomy b (b.still State.claimRequest_still))) h
  | release =>
    exact State.perform_roomy ok (fun _ _ b => State.checked_roomy b (State.formatted_roomy b (b.still State.releaseRequest_still))) h
  | watchSet =>
    exact State.perform_roomy ok (fun _ _ b => State.checked_roomy b (State.formatted_roomy b (b.still State.watchSetRequest_still))) h
  | watchClear =>
    exact State.perform_roomy ok (fun _ _ b => State.checked_roomy b (State.formatted_roomy b
      (b.still (State.endCommand_still (State.setWatches_still (.refl s)))))) h
  | watchList =>
    exact State.perform_roomy ok (fun _ _ b => State.checked_roomy b (State.formatted_roomy b
      (b.still (State.endCommand_still (State.storeBuffer_still (.refl s)))))) h
  | guardSet => exact State.perform_roomy ok (fun _ _ b => State.doGuardSet_roomy b) h
  | guardRead => exact State.perform_still ok (fun _ _ => State.doGuardRead_still) h
  | reclaim => exact State.perform_still ok (fun _ _ => State.doReclaim_still) h
  | format => exact State.perform_roomy ok (fun _ _ b => State.doFormat_roomy b) h
  | storeInfo =>
    exact State.perform_roomy ok (fun _ _ b => State.checked_roomy b
      (b.still (State.endCommand_still (State.storeBuffer_still (.refl s))))) h
  | badCommand => exact execBadCommand_roomy ok h
  | scanResume => exact execScanResume_roomy ok h
  | cellReadDone => exact execCellReadDone_roomy ok h
  | bodyProgramDone left => exact execBodyProgramDone_roomy ok h
  | headerProgramDone left => exact execHeaderProgramDone_roomy ok h
  | markProgramDone fails => exact execMarkProgramDone_roomy ok h
  | segmentEraseDone left => exact execSegmentEraseDone_roomy ok h
  | eraseSuspendBegin => exact State.whenDue_roomy ((State.setErase_still (.refl s)).roomy ok) h
  | eraseStop => exact State.whenDue_roomy ((State.setErase_still (.refl s)).roomy ok) h
  | claimExpiry key => exact execClaimExpiry_roomy ok h
  | heldGrantAnswered => exact State.whenDue_roomy (State.answerHeld_roomy ok) h

end Sys2Proof.Machine
end

