-- ==== Sys2Proof/Laws/Step.lean ====
section
/-! SUPPORT. What a row can do, said once: `Keeps s t` says that the queue of commands is as it was and that every part that was in order still is. The rows of the inner blocks are quiet, which is more; frames, port resets and the lines keep. -/

namespace Sys2Proof.Machine

/-- What every row keeps at a Port Unit. -/
structure PortUnit.Keeps (u v : PortUnit) : Prop where
  buffer : BufferOk u.buffer → BufferOk v.buffer
  queues : u.queuesOk → v.queuesOk
  reset : u.resetOk → v.resetOk

/-- What every row keeps in the machine. -/
structure Keeps (s t : State) : Prop where
  pending : t.pending = s.pending
  ports : ∀ p, (s.port p).Keeps (t.port p)
  cells : CellsOk s.array.cells → CellsOk t.array.cells
  dir : DirOk s.engine.dir → DirOk t.engine.dir
  claims : ClaimTableOk s.coord.claims → ClaimTableOk t.coord.claims
  watches : ∀ p, WatchListOk (s.coord.watches.get p) → WatchListOk (t.coord.watches.get p)
  erase : s.array.eraseOk → t.array.eraseOk
  front : OneFront s.space.segs → OneFront t.space.segs
  free : FreeCellsOk s.space.frontFree → FreeCellsOk t.space.frontFree
  threshold : s.guard.settings.thresholdOk → t.guard.settings.thresholdOk

variable {s t u : State} {p : Port}

theorem PortUnit.Keeps.refl (v : PortUnit) : v.Keeps v := ⟨id, id, id⟩

theorem Keeps.refl (s : State) : Keeps s s := ⟨rfl, fun _ => .refl _, id, id, id, fun _ => id, id, id, id, id⟩

theorem Keeps.trans (h : Keeps s t) (k : Keeps t u) : Keeps s u where
  pending := k.pending.trans h.pending
  ports p := ⟨(k.ports p).buffer ∘ (h.ports p).buffer, (k.ports p).queues ∘ (h.ports p).queues, (k.ports p).reset ∘ (h.ports p).reset⟩
  cells := k.cells ∘ h.cells
  dir := k.dir ∘ h.dir
  claims := k.claims ∘ h.claims
  watches p := k.watches p ∘ h.watches p
  erase := k.erase ∘ h.erase
  front := k.front ∘ h.front
  free := k.free ∘ h.free
  threshold := k.threshold ∘ h.threshold

theorem Quiet.keeps (h : Quiet s t) : Keeps s t where
  pending := h.pending
  ports p := ⟨(h.ports p).buffer, (h.ports p).queues, (h.ports p).reset⟩
  cells := fun ok => h.cells ▸ ok
  dir := h.dir
  claims := h.claims
  watches := h.watches
  erase := h.erase
  front := h.front
  free := h.free
  threshold := h.threshold

theorem State.setPort_keeps {v : PortUnit} (hv : (s.port p).Keeps v) : Keeps s (s.setPort p v) :=
  { Keeps.refl s with
    ports := fun r => by
      by_cases same : r = p
      · subst same
        simpa using hv
      · rw [State.setPort_port_other _ _ same]
        exact .refl _ }

/-! ## The rows of the inner blocks -/

theorem State.perform_quiet {code : Byte} {f : Port → Cmd → State} (hf : ∀ p c, Quiet s (f p c)) (h : s.perform code f = .next t) : Quiet s t := by
  obtain ⟨p, c, -, rfl⟩ := State.perform_eq_next.mp h
  exact State.settle_quiet (hf p c)

theorem State.whenDue_quiet {due : Bool} {x : State} (hx : Quiet s x) (h : State.whenDue due x = .next t) : Quiet s t := by
  obtain ⟨-, rfl⟩ := State.whenDue_eq_next.mp h
  exact State.settle_quiet hx

theorem execBadCommand_quiet (h : execBadCommand s = .next t) : Quiet s t := by
  unfold execBadCommand at h
  split at h
  · split at h
    · obtain rfl := Host.Outcome.next.inj h
      simp
    · exact absurd h (by simp)
  · exact absurd h (by simp)

theorem execScanResume_quiet (h : execScanResume s = .next t) : Quiet s t := by
  unfold execScanResume at h
  split at h
  · split at h
    · obtain rfl := Host.Outcome.next.inj h
      simp
    · exact absurd h (by simp)
  · exact absurd h (by simp)

theorem execClaimExpiry_quiet {k : Key} (h : execClaimExpiry k s = .next t) : Quiet s t := by
  unfold execClaimExpiry at h
  split at h
  · split at h
    · obtain rfl := Host.Outcome.next.inj h
      simp
    · exact absurd h (by simp)
  · exact absurd h (by simp)

theorem execCellReadDone_quiet (h : execCellReadDone s = .next t) : Quiet s t := by
  unfold execCellReadDone at h
  split at h
  · obtain rfl := Host.Outcome.next.inj h
    exact State.settle_quiet (State.deliverRead_quiet (State.landed_quiet (.refl s)))
  · exact absurd h (by simp)

theorem execBodyProgramDone_quiet {left : List Host.Cell} (h : execBodyProgramDone left s = .next t) :
    Quiet (s.setCells (s.cellsAfter (.bodyProgramDone left))) t := by
  unfold execBodyProgramDone at h
  split at h
  · rename_i fl
    obtain rfl := Host.Outcome.next.inj h
    simp only [State.cellsAfter, fl]
    exact State.settle_quiet State.completeBody_quiet
  · exact absurd h (by simp)

theorem execHeaderProgramDone_quiet {left : List Host.Cell} (h : execHeaderProgramDone left s = .next t) :
    Quiet (s.setCells (s.cellsAfter (.headerProgramDone left))) t := by
  unfold execHeaderProgramDone at h
  split at h
  · rename_i fl
    obtain rfl := Host.Outcome.next.inj h
    simp only [State.cellsAfter, fl]
    exact State.settle_quiet State.completeHeader_quiet
  · exact absurd h (by simp)

theorem execMarkProgramDone_quiet {fails : Bool} (h : execMarkProgramDone fails s = .next t) :
    Quiet (s.setCells (s.cellsAfter (.markProgramDone fails))) t := by
  unfold execMarkProgramDone at h
  split at h
  · rename_i fl
    obtain rfl := Host.Outcome.next.inj h
    simp only [State.cellsAfter, fl]
    exact State.settle_quiet State.completeMark_quiet
  · exact absurd h (by simp)

theorem execSegmentEraseDone_quiet {left : List Host.Cell} (h : execSegmentEraseDone left s = .next t) :
    Quiet (s.setCells (s.cellsAfter (.segmentEraseDone left))) t := by
  unfold execSegmentEraseDone at h
  split at h
  · rename_i fl
    obtain rfl := Host.Outcome.next.inj h
    simp only [State.cellsAfter, fl]
    exact State.settle_quiet State.completeErase_quiet
  · rename_i fl er
    split at h
    · obtain rfl := Host.Outcome.next.inj h
      simp only [State.cellsAfter, fl, er]
      exact State.settle_quiet State.completeReclaimErase_quiet
    · exact absurd h (by simp)
  · exact absurd h (by simp)

theorem execEraseSuspendBegin_quiet (h : execEraseSuspendBegin s = .next t) : Quiet s t := by
  unfold execEraseSuspendBegin at h
  obtain ⟨due, rfl⟩ := State.whenDue_eq_next.mp h
  refine State.settle_quiet (State.setErase_quiet (.refl s) (fun ok e he => ?_))
  obtain ⟨x, hx, rfl⟩ := Option.map_eq_some_iff.mp he
  simp only [State.suspendDue, hx, Bool.and_eq_true, beq_iff_eq, decide_eq_true_eq] at due
  refine ⟨?_, fun _ => (ok x hx).2 (by simp [EraseCtx.moving, due.2.1.1.1])⟩
  exact due.2.2

theorem execEraseStop_quiet (h : execEraseStop s = .next t) : Quiet s t := by
  unfold execEraseStop at h
  refine State.whenDue_quiet (State.setErase_quiet (.refl s) (fun ok e he => ?_)) h
  obtain ⟨x, hx, rfl⟩ := Option.map_eq_some_iff.mp he
  exact ⟨(ok x hx).1, fun moving => by simp [EraseCtx.moving] at moving⟩

/-- The bytes after a row keep the canonical form. -/
theorem State.cellsAfter_ok (i : Instr) (h : CellsOk s.array.cells) : CellsOk (s.cellsAfter i) := by
  unfold State.cellsAfter
  split
  · exact putArea_wf _ _ h
  · exact putArea_wf _ _ h
  · exact putMark_wf _ _ _ h
  · exact eraseLeft_wf _ _ _ _ h
  · exact eraseLeft_wf _ _ _ _ h
  · split
    · exact cutArray_wf _ _ h
    · exact h
  · exact cutArray_wf _ _ h
  · exact h

/-- The bytes of the array set as a row leaves them, and nothing else. -/
theorem State.setCells_keeps (i : Instr) : Keeps s (s.setCells (s.cellsAfter i)) :=
  { Keeps.refl s with cells := State.cellsAfter_ok i }

/-- A step of an inner block leaves the bytes of the array as its row does, and is quiet otherwise. -/
theorem exec_inner_quiet {i : Instr} (inner : innerRow i = true) (h : exec i s = .next t) : Quiet (s.setCells (s.cellsAfter i)) t := by
  cases i with
  | write => exact State.perform_quiet (fun _ _ => State.doWrite_quiet (.refl s)) h
  | patch => exact State.perform_quiet (fun _ _ => State.doPatch_quiet (.refl s)) h
  | remove => exact State.perform_quiet (fun _ _ => State.doRemove_quiet (.refl s)) h
  | read => exact State.perform_quiet (fun _ _ => State.doRead_quiet (.refl s)) h
  | stat => exact State.perform_quiet (fun _ _ => State.doStat_quiet (.refl s)) h
  | scan => exact State.perform_quiet (fun _ _ => State.doScan_quiet (.refl s)) h
  | claim => exact State.perform_quiet (fun _ _ => State.doClaim_quiet (.refl s)) h
  | release => exact State.perform_quiet (fun _ _ => State.doRelease_quiet (.refl s)) h
  | watchSet => exact State.perform_quiet (fun _ _ => State.doWatchSet_quiet (.refl s)) h
  | watchClear => exact State.perform_quiet (fun _ _ => State.doWatchClear_quiet (.refl s)) h
  | watchList => exact State.perform_quiet (fun _ _ => State.doWatchList_quiet (.refl s)) h
  | guardSet => exact State.perform_quiet (fun _ _ => State.doGuardSet_quiet (.refl s)) h
  | guardRead => exact State.perform_quiet (fun _ _ => State.doGuardRead_quiet (.refl s)) h
  | reclaim => exact State.perform_quiet (fun _ _ => State.doReclaim_quiet (.refl s)) h
  | format => exact State.perform_quiet (fun _ _ => State.doFormat_quiet (.refl s)) h
  | storeInfo => exact State.perform_quiet (fun _ _ => State.doStoreInfo_quiet (.refl s)) h
  | badCommand => exact execBadCommand_quiet h
  | scanResume => exact execScanResume_quiet h
  | cellReadDone => exact execCellReadDone_quiet h
  | bodyProgramDone left => exact execBodyProgramDone_quiet h
  | headerProgramDone left => exact execHeaderProgramDone_quiet h
  | markProgramDone fails => exact execMarkProgramDone_quiet h
  | segmentEraseDone left => exact execSegmentEraseDone_quiet h
  | eraseSuspendBegin => exact execEraseSuspendBegin_quiet h
  | eraseStop => exact execEraseStop_quiet h
  | claimExpiry key => exact execClaimExpiry_quiet h
  | heldGrantAnswered => exact State.whenDue_quiet (State.answerHeld_quiet (.refl s)) h
  | _ => exact absurd inner (by simp [innerRow, framePort, lineRow, resetRow])

/-! ## Frames -/

theorem State.fixRecord_resetting (f : Frame) : (s.fixRecord p f).resetting = f.resetting := by
  unfold State.fixRecord
  repeat' split
  all_goals rfl

theorem State.fixRecord_kind (f : Frame) : (s.fixRecord p f).kind = f.kind := by
  unfold State.fixRecord
  repeat' split
  all_goals rfl

theorem State.frameAtEnd_resetting (f : Frame) (n : Nat) : (s.frameAtEnd p f n).resetting = f.resetting := by
  unfold State.frameAtEnd
  split
  · rfl
  · exact State.fixRecord_resetting f

theorem State.frameAtEnd_kind (f : Frame) (n : Nat) : (s.frameAtEnd p f n).kind = f.kind := by
  unfold State.frameAtEnd
  split
  · rfl
  · exact State.fixRecord_kind f

theorem State.openFrame_keeps (k : FrameKind) : Keeps s (s.openFrame p k) := by
  unfold State.openFrame
  dsimp only
  split
  · exact .refl s
  · refine State.setPort_keeps ⟨id, id, fun ok => ⟨ok.1, fun f hf notReset => ?_⟩⟩
    obtain rfl := Option.some.inj hf
    dsimp only at notReset ⊢
    revert notReset
    cases (s.port p).state <;> simp [Frame.begun]

theorem State.clockKind_keeps (k : FrameKind) : Keeps s (s.clockKind p k) := by
  unfold State.clockKind
  split
  · rename_i f hf
    split
    · refine State.setPort_keeps ⟨id, id, fun ok => ⟨ok.1, fun g hg notReset => ?_⟩⟩
      obtain rfl := Option.some.inj hg
      exact ok.2 f hf (State.fixRecord_resetting f ▸ notReset)
    · exact .refl s
  · exact .refl s

theorem State.clockOut_keeps (k : FrameKind) (off : Nat) : Keeps s (s.clockOut p k off) := by
  unfold State.clockOut
  split
  · rename_i f hf
    split
    · refine State.setPort_keeps ⟨id, id, fun ok => ⟨ok.1, fun g hg notReset => ?_⟩⟩
      obtain rfl := Option.some.inj hg
      exact ok.2 f hf notReset
    · exact .refl s
  · exact .refl s

/-- What is known of a frame's effect: it keeps what a state in which the frame has just ended keeps; a frame that did not begin in RESETTING ends at an ACTIVE port. -/
def FrameEffect.Keeping (effect : FrameEffect) (s : State) (p : Port) (k : FrameKind) : Prop :=
  ∀ n whole f u, f.refused n whole = false → f.kind = k → (u.port p).frame = none → Keeps s u →
    ((s.port p).resetOk → f.resetting = false → (u.port p).state = .active) → Keeps s (effect n f u)

/-- An effect that keeps wherever it stands. -/
theorem FrameEffect.Keeping.of_all {effect : FrameEffect} {k : FrameKind} (h : ∀ n f u, Keeps u (effect n f u)) : effect.Keeping s p k :=
  fun n _ f u _ _ _ hu _ => hu.trans (h n f u)

theorem State.refuseFrame_keeps (f : Frame) : Keeps s (s.refuseFrame p f) := by
  unfold State.refuseFrame
  split
  · exact (State.setFlag_quiet (.refl s)).keeps
  · exact .refl s

theorem State.closeFrame_keeps {k : FrameKind} {off n : Nat} {whole : Bool} {effect : FrameEffect} (he : effect.Keeping s p k) :
    Keeps s (s.closeFrame p k off n whole effect) := by
  unfold State.closeFrame
  split
  · rename_i f hf
    split
    · rename_i kind
      unfold State.frameEnd State.ended
      extract_lets v₁ s₁
      have closed : Keeps s s₁ := State.setPort_keeps ⟨id, id, fun ok => ⟨ok.1, fun g hg _ => absurd hg (by simp)⟩⟩
      split
      · exact closed.trans (State.refuseFrame_keeps _)
      · rename_i notRefused
        refine he n whole _ s₁ (by simpa using notRefused) ((State.frameAtEnd_kind f n).trans kind) (by simp [s₁]) closed (fun ok notReset => ?_)
        have := ok.2 f hf (State.frameAtEnd_resetting (s := s) (p := p) f n ▸ notReset)
        simpa [s₁] using this
    · exact .refl s
  · exact .refl s

theorem State.frameMoment_keeps {k : FrameKind} {m : FrameMoment} {off : Nat} {effect : FrameEffect} (he : ∀ x, effect.Keeping x p k) :
    Keeps s (s.frameMoment p k m off effect) := by
  unfold State.frameMoment
  split
  · split
    · exact State.openFrame_keeps k
    · exact State.clockKind_keeps k
    · exact State.clockOut_keeps k off
    · exact State.closeFrame_keeps (he _)
    · split
      · exact (State.openFrame_keeps k).trans (State.closeFrame_keeps (he _))
      · exact .refl s
  · exact .refl s

theorem noEffect_keeping {k : FrameKind} : noEffect.Keeping s p k := .of_all (fun _ _ u => .refl u)

theorem queueCommand_keeping {c : Cmd} : FrameEffect.Keeping (fun _ _ s => s.queueCommand p c) s p .command := by
  intro n whole f u notRefused kind _ hu active
  have notReset : f.resetting = false := by
    simp only [Frame.refused, Frame.inReset, kind, Bool.or_eq_false_iff] at notRefused
    simpa using notRefused.2
  unfold State.queueCommand
  dsimp only
  split
  · rename_i room
    have step : Keeps s (u.setPort p { u.port p with commands := (u.port p).commands ++ [c] }) := by
      refine { hu.trans (Keeps.refl u) with ports := fun r => ?_ }
      by_cases same : r = p
      · subst same
        rw [State.setPort_port]
        refine ⟨(hu.ports r).buffer, fun ok => ⟨?_, ((hu.ports r).queues ok).2⟩, fun ok => ⟨fun h => ?_, ((hu.ports r).reset ok).2⟩⟩
        · simpa using room
        · dsimp only at h
          rw [active ok notReset] at h
          exact absurd h (by decide)
      · rw [State.setPort_port_other _ _ same]
        exact hu.ports r
    exact step.trans (State.settle_quiet (.refl _)).keeps
  · exact hu.trans (State.setFlag_quiet (.refl u)).keeps

theorem resultEffect_keeping {k : FrameKind} : (resultEffect p).Keeping s p k := .of_all (fun n f u => by
  unfold resultEffect
  split
  · have removed : Keeps u (u.setPort p { u.port p with results := (u.port p).results.tail }) := State.setPort_keeps ⟨id, id, id⟩
    exact removed.trans (State.settle_quiet (.refl _)).keeps
  · exact .refl u)

theorem eventEffect_keeping {k : FrameKind} : (eventEffect p).Keeping s p k := .of_all (fun n f u => by
  unfold eventEffect
  split
  · exact State.setPort_keeps ⟨id, fun ok => ⟨ok.1, by simpa using Nat.le_trans (Nat.sub_le _ _) ok.2.1, ok.2.2.sublist (List.tail_sublist _)⟩, id⟩
  · exact .refl u)

theorem bufferWriteEffect_keeping {k : FrameKind} {off : Nat} {data : List Byte} : (bufferWriteEffect p off data).Keeping s p k :=
  .of_all (fun n f u => by
    unfold bufferWriteEffect State.storeFrame
    have stored : ∀ bs, Keeps u (u.setPort p { u.port p with buffer := bufferStore (u.port p).buffer off bs }) := fun bs =>
      State.setPort_keeps ⟨bufferStore_wf, id, id⟩
    dsimp only
    split
    · exact (stored _).trans (State.setFlag_quiet (.refl _)).keeps
    · exact stored _)

theorem bufferReadEffect_keeping {k : FrameKind} {off : Nat} : (bufferReadEffect p off).Keeping s p k := .of_all (fun n f u => by
  unfold bufferReadEffect
  split
  · exact (State.setFlag_quiet (.refl u)).keeps
  · exact .refl u)

theorem setEnables_keeping {k : FrameKind} {g : Enables → Enables} : FrameEffect.Keeping (fun _ _ s => s.setEnables p g) s p k :=
  .of_all (fun _ _ _ => State.setPort_keeps ⟨id, id, id⟩)

theorem clearPortFlags_keeping {k : FrameKind} {mask : Byte} : FrameEffect.Keeping (fun _ _ s => s.clearPortFlags p mask) s p k :=
  .of_all (fun _ _ _ => State.setPort_keeps ⟨id, id, id⟩)

/-! ## Port resets -/

theorem State.proceedReset_keeps : Keeps s (s.proceedReset p) := by
  have port : Keeps s (s.setPort p (s.port p).afterReset) :=
    State.setPort_keeps ⟨id, fun ok => ⟨ok.1, Nat.zero_le _, List.Pairwise.nil⟩, fun _ => ⟨fun h => absurd h (by simp [PortUnit.afterReset]), fun _ _ _ => rfl⟩⟩
  unfold State.proceedReset
  refine port.trans (Quiet.keeps (State.setWatches_quiet (State.setClaims_quiet (.refl _) ?_) ?_))
  · exact claims_sublist_ok List.filter_sublist
  · exact fun _ => ⟨List.Pairwise.nil, Nat.zero_le _⟩

theorem Slot.atReset_atReset (x : Slot) : x.atReset.atReset = x.atReset := by
  cases x <;> rfl

theorem arriveReset_keeping {k : FrameKind} : FrameEffect.Keeping (fun _ _ s => s.arriveReset p) s p k := by
  intro n whole f u _ _ noFrame hu _
  show Keeps s (u.arriveReset p)
  unfold State.arriveReset
  extract_lets v slot u₁
  have arrived : Keeps u u₁ := State.setPort_keeps
    ⟨id, fun ok => ⟨Nat.zero_le _, ok.2⟩, fun _ => ⟨fun _ => ⟨rfl, Slot.atReset_atReset _⟩, fun g hg => by
      have hg : (u.port p).frame = some g := hg
      rw [noFrame] at hg
      exact absurd hg (by simp)⟩⟩
  split
  · exact hu.trans (arrived.trans State.proceedReset_keeps)
  · exact hu.trans arrived

/-! ## The lines -/

theorem PortUnit.reset_keeps (u : PortUnit) : u.Keeps PortUnit.reset :=
  ⟨fun _ => Memory.wf_nil _ _, fun _ => ⟨Nat.zero_le _, Nat.zero_le _, List.Pairwise.nil⟩, fun _ => ⟨fun _ => ⟨rfl, rfl⟩, fun _ h => absurd h (by simp [PortUnit.reset])⟩⟩

theorem OneFront.unlisted : OneFront Space.reset.segs := by
  intro g h hg
  exact absurd hg (by simp [Space.reset, SegRow.unlisted])

theorem State.volatileReset_keeps {c : List Host.Cell} (hc : CellsOk s.array.cells → CellsOk c) : Keeps s (s.volatileReset c) where
  pending := rfl
  ports p := by cases p <;> exact PortUnit.reset_keeps _
  cells := hc
  dir _ := List.Pairwise.nil
  claims _ := ⟨List.Pairwise.nil, Nat.zero_le _, fun _ => Nat.zero_le _⟩
  watches p _ := by cases p <;> exact ⟨List.Pairwise.nil, Nat.zero_le _⟩
  erase _ e h := absurd h (by simp [State.volatileReset])
  front _ := OneFront.unlisted
  free _ := noCells_ok
  threshold _ := defaultThreshold_ok

theorem State.startMount_keeps : Keeps s s.startMount :=
  { Keeps.refl s with erase := fun _ e h => absurd h (by simp [State.startMount, ArrayCtl.reset]) }

theorem State.setPins_keeps {x : Pins} : Keeps s (s.setPins x) := { Keeps.refl s with }

theorem State.cutShort_keeps (cut eraseCut : List Host.Cell) : Keeps s (s.cutShort cut eraseCut) :=
  State.volatileReset_keeps (cutArray_wf cut eraseCut)

theorem execResetNLow_keeps {cut eraseCut : List Host.Cell} (h : execResetNLow cut eraseCut s = .next t) : Keeps s t := by
  unfold execResetNLow at h
  obtain rfl := Host.Outcome.next.inj h
  dsimp only
  split
  · exact (State.cutShort_keeps cut eraseCut).trans State.setPins_keeps
  · exact State.setPins_keeps

theorem execResetNHigh_keeps (h : execResetNHigh s = .next t) : Keeps s t := by
  unfold execResetNHigh at h
  obtain rfl := Host.Outcome.next.inj h
  dsimp only
  split
  · exact State.startMount_keeps.trans State.setPins_keeps
  · exact State.setPins_keeps

theorem execPowerOn_keeps (h : execPowerOn s = .next t) : Keeps s t := by
  unfold execPowerOn at h
  split at h
  · exact absurd h (by simp)
  · obtain rfl := Host.Outcome.next.inj h
    have reset : Keeps s ((s.volatileReset s.array.cells).setPins { s.pins with power := true }) :=
      (State.volatileReset_keeps id).trans State.setPins_keeps
    split
    · exact reset.trans State.startMount_keeps
    · exact reset

theorem execPowerLoss_keeps {cut eraseCut : List Host.Cell} (h : execPowerLoss cut eraseCut s = .next t) : Keeps s t := by
  unfold execPowerLoss at h
  split at h
  · obtain rfl := Host.Outcome.next.inj h
    exact (State.cutShort_keeps cut eraseCut).trans State.setPins_keeps
  · exact absurd h (by simp)

/-! ## Every row, and a tick -/

/-- A row that answers a next state keeps. -/
theorem exec_keeps {i : Instr} (h : exec i s = .next t) : Keeps s t := by
  have frame : ∀ {p : Port} {k : FrameKind} {m : FrameMoment} {off : Nat} {effect : FrameEffect},
      (∀ x, effect.Keeping x p k) → Host.Outcome.next (s.frameMoment p k m off effect) = (.next t : Host.Outcome State Fault Refusal) → Keeps s t :=
    fun he h => Host.Outcome.next.inj h ▸ State.frameMoment_keeps he
  cases i with
  | statusRead p m => exact frame (fun _ => noEffect_keeping) h
  | command p m code tag params => exact frame (fun _ => queueCommand_keeping) h
  | resultRead p m => exact frame (fun _ => resultEffect_keeping) h
  | eventRead p m => exact frame (fun _ => eventEffect_keeping) h
  | bufferWrite p m offset data => exact frame (fun _ => bufferWriteEffect_keeping) h
  | bufferRead p m offset => exact frame (fun _ => bufferReadEffect_keeping) h
  | notifySet p m mask => exact frame (fun _ => setEnables_keeping) h
  | notifyClear p m mask => exact frame (fun _ => setEnables_keeping) h
  | flagsClear p m mask => exact frame (fun _ => clearPortFlags_keeping) h
  | portReset p m => exact frame (fun _ => arriveReset_keeping) h
  | unknownFrameKind p m kind =>
    have h : execUnknownFrameKind p m kind s = .next t := h
    unfold execUnknownFrameKind at h
    split at h
    · exact frame (fun _ => noEffect_keeping) h
    · exact absurd h (by simp)
  | resetNLow cut eraseCut => exact execResetNLow_keeps h
  | resetNHigh => exact execResetNHigh_keeps h
  | powerOn => exact execPowerOn_keeps h
  | powerLoss cut eraseCut => exact execPowerLoss_keeps h
  | guardEnChange level =>
    obtain rfl := Host.Outcome.next.inj h
    exact State.setPins_keeps
  | portResetProceed p =>
    obtain ⟨-, rfl⟩ := State.whenDue_eq_next.mp h
    exact State.proceedReset_keeps.trans (State.settle_quiet (.refl _)).keeps
  | _ => exact (State.setCells_keeps _).trans (exec_inner_quiet rfl h).keeps

theorem Claim.tick_key (x : Claim) : x.tick.key = x.key := by
  unfold Claim.tick
  split <;> rfl

theorem Claim.tick_holder (x : Claim) : x.tick.holder = x.holder := by
  unfold Claim.tick
  split <;> rfl

/-- A tick is quiet. -/
theorem State.tick_quiet : Quiet s s.tick := by
  unfold State.tick
  split
  · unfold State.microsecond
    have claims : Quiet s (s.setClaims (s.coord.claims.map Claim.tick)) :=
      State.setClaims_quiet (.refl s) (claims_map_ok Claim.tick_key Claim.tick_holder)
    refine claims.trans
      { Quiet.refl _ with
        erase := fun ok e he => ?_ }
    obtain ⟨x, hx, rfl⟩ := Option.map_eq_some_iff.mp (show s.array.erase.map EraseCtx.tick = some e from he)
    have := ok x hx
    have same : x.tick.suspendCount = x.suspendCount ∧ x.tick.moving = x.moving := by
      unfold EraseCtx.tick EraseCtx.moving
      split <;> simp_all
    refine ⟨by rw [same.1]; exact this.1, fun moving => ?_⟩
    have none : s.array.inFlight = none := this.2 (same.2 ▸ moving)
    show s.array.inFlight.map InFlight.tick = Option.none
    rw [none]
    rfl
  · exact .refl s

end Sys2Proof.Machine
end

