-- ==== Sys2Proof/Tests/Slice0.lean ====
section
/-! SUPPORT. Tests: ill-formed terms that the check refuses, small results of single steps, and for every statement with hypotheses a state and operands that meet them. -/

namespace Sys2Proof.Tests

open Sys2Proof.Machine

/-! ## The well-formedness check refuses -/

theorem test_wf_byteOut_outside_a_buffer_read : Instr.wellFormed (.statusRead .p0 .byteOut) = false := by decide

theorem test_wf_buffer_write_with_a_data_byte_too_few : Instr.wellFormed (.bufferWrite .p0 (.entire 5 true) 0 [1]) = false := by decide

theorem test_wf_kindless_frame_with_a_byte : Instr.wellFormed (.unknownFrameKind .p0 (.entire 1 true) none) = false := by decide

theorem test_wf_unknown_frame_of_no_byte_with_a_kind : Instr.wellFormed (.unknownFrameKind .p0 (.entire 0 true) (some 0x99)) = false := by
  decide

theorem test_wf_unknown_frame_of_a_known_kind : Instr.wellFormed (.unknownFrameKind .p0 (.entire 1 true) (some 0x20)) = false := by decide

theorem test_wf_cut_beyond_the_part : Instr.wellFormed (.resetNLow [(16512, 0)] []) = false := by decide

theorem test_wf_erase_cut_beyond_the_part : Instr.wellFormed (.powerLoss [] [(16512, 0)]) = false := by decide

theorem test_wf_body_residue_beyond_the_cell : Instr.wellFormed (.bodyProgramDone [(512, 0)]) = false := by decide

theorem test_wf_header_residue_beyond_the_cell : Instr.wellFormed (.headerProgramDone [(512, 0)]) = false := by decide

theorem test_wf_erase_residue_beyond_the_segment : Instr.wellFormed (.segmentEraseDone [(16512, 0)]) = false := by decide

theorem test_wf_expiry_of_no_key : Instr.wellFormed (.claimExpiry 0xFFFF) = false ∧ Instr.wellFormed (.claimExpiry 0) = false := by decide

/-- The table gives no row any bits, so no word spells a command. -/
theorem test_no_word_spells_a_command : decodeTableWord 8 0x10 = none := rfl

/-! ## Small states -/

/-- A command from its code and its leading parameter bytes, the others 0. -/
def cmd (code : Byte) (bs : List Byte) : Cmd := { code := code, tag := 0x77, params := Vector.ofFn (fun i : Fin 16 => bs.getD i.val 0) }

/-- Power is on, mount has ended, and nothing is in flight. -/
def opened (st : StoreState) : State := ((State.reset.setInFlight none).setProgress .none).setStoreState st

/-- The Engine has taken a command of P0. -/
def taken (st : StoreState) (c : Cmd) : State :=
  ((opened st).setPort .p0 { PortUnit.reset with slot := .executing }).setWork (.taken .p0 c)

/-- The Engine is busy with a command of P0 and awaits an array operation. -/
def carrying (w : Work) (r : Requester) (op : ArrayOp) : State :=
  (((opened .ready).setPort .p0 { PortUnit.reset with slot := .executing }).setWork w).setInFlight
    (some { requester := r, op := op, age := 0 })

/-- A directory entry in cell 1 of segment 3. -/
def entry (k : Key) (st : EntryState) (v : Version) (n : Nat) : Entry :=
  { key := k, state := st, cell := ⟨3, 1⟩, version := v, length := n, author := .port .p1, stale := 0, retry := none,
    movePending := false }

/-- An update of key 0101h at a stage. -/
def update (k : Kind) (stage : Stage) (attempt : Nat) : Update :=
  { key := 0x0101#16, kind := k, version := 2, author := .port .p0, payload := some ([], 0xFFFF#16), old := [], attempt := attempt,
    granted := some ⟨3, 2⟩, stage := stage, retryAtStart := none }

/-- P1 is in a frame. -/
def inFrame (k : FrameKind) (r : Option (List Byte)) (removable : Bool) (u : PortUnit) : State :=
  State.reset.setPort .p1 { u with
    frame := some { kind := k, resetting := false, record := r, removable := removable, merged := false, out := [] } }

/-- A scan context over all keys, one byte wide. -/
def scanCtx : ScanCtx :=
  { high := 0xFFFE#16, windowOffset := 0, width := 1, relation := .eq, limit := 1, outLast := 100, pattern := [7], cursor := 1#16,
    outPos := 50, matched := 0, short := 0, checkFailed := 0, examined := 0, slice := 0 }

/-- A port whose queues are full. -/
def fullPort : PortUnit :=
  { PortUnit.reset with
    commands := List.replicate 4 (cmd codeStat [1, 1])
    results := List.replicate 4 ((cmd codeStat [1, 1]).nt .done 0x0101#16 1 0 0)
    events := List.ofFn (fun i : Fin 8 => Event.watchHit (BitVec.ofNat 16 (i.val + 1)) 1 1 .internal) }

/-- An idle machine in order, with a claim, a watch, a front, an erase and a command waiting. -/
def busy : State :=
  ((((((opened .ready).setPort .p2 fullPort).setDir [entry 0x0101#16 .live 1 0]).setClaims
    [{ key := 0x0101#16, holder := .p1, remaining := 5, overdue := 0 }]).setWatches .p1 [{ key := 0x0101#16, triggers := 1, self := false }]
    ).setSeg 3 { state := .front, erases := 0, live := 1, dead := 0, free := 30 }).setPending [.statusRead .p0 (.entire 5 true)]

/-- An erase context that has run since its start. -/
def erasing (st : EraseState) (n : Nat) : EraseCtx :=
  { seg := 5, generation := 1, count := 2, state := st, accumulated := 400, sinceResume := 400, suspendCount := n, stopAge := 0 }

/-- The machine after a row, or as it was when the row answers no next state. -/
def after (i : Instr) (s : State) : State :=
  match exec i s with
  | .next t => t
  | .fault _ => s
  | .refused _ => s

/-! ## The machine -/

theorem test_tick_premises :
    (∃ s : State, s.pending = [] ∧ s.running = true ∧ s.urgentEvent = false) ∧
    (∃ s : State, s.pending = [] ∧ s.running = false) ∧ ∃ s : State, s.pending = [] ∧ s.urgentEvent = true :=
  ⟨⟨State.reset, rfl, rfl, rfl⟩, ⟨State.reset.setPins { power := false, resetN := true, guardEn := false }, rfl, rfl⟩,
    ⟨taken .ready (cmd codeStat [1, 1]), rfl, rfl⟩⟩

theorem test_timer_premises :
    (∃ x : Claim, x.remaining = 0 ∧ x.remainingMs = 1) ∧ (∃ x : Claim, x.remaining = 59999999 + 1 ∧ x.remainingMs = 60000) ∧
    (∀ st n, (erasing st n).state = st) ∧ (EraseState.running ≠ .suspended) ∧
    (∀ n, Claim.late { key := 1, holder := .p0, remaining := 0, overdue := n } = decide (1000 ≤ n)) :=
  ⟨⟨{ key := 1, holder := .p0, remaining := 0, overdue := 0 }, rfl, by decide⟩,
    ⟨{ key := 1, holder := .p0, remaining := 60000000, overdue := 0 }, rfl, by decide⟩, fun _ _ => rfl, by decide, fun _ => rfl⟩

theorem test_invariant_premises :
    MemoryOk busy ∧ QueuesOk busy ∧ ResettingOk busy ∧ DirectoryOk busy ∧ StoreOk busy ∧ DirectoryFits busy ∧ ClaimsOk busy ∧ WatchesOk busy ∧ EraseOk busy ∧
      ThresholdOk busy ∧ ∃ t, step busy = .next t := by
  refine ⟨⟨by decide, fun p => by cases p <;> decide⟩, fun p => by cases p <;> (unfold PortUnit.queuesOk; decide),
    fun p => ⟨fun h => absurd h (by cases p <;> decide),
      fun f h => absurd (show (none : Option Frame) = some f from by cases p <;> exact h) (by simp)⟩,
    List.pairwise_singleton _ _,
    ⟨(fun h => nomatch h), (fun h => nomatch h), (fun _ _ _ h => nomatch h), (fun _ h => nomatch h), (fun _ h => nomatch h)⟩,
    ⟨fun _ => (by decide : masterCount _ ≤ 4095), (fun _ _ _ h => nomatch h), (fun h => absurd h (by decide)), (fun h => nomatch h),
      (fun _ h => nomatch h)⟩,
    ⟨List.pairwise_singleton _ _, by decide, fun p => by cases p <;> decide⟩,
    fun p => by cases p <;> (unfold WatchListOk; decide),
    fun e h => absurd (show (none : Option EraseCtx) = some e from h) (by simp),
    by unfold ThresholdOk Settings.thresholdOk; decide, _, rfl⟩

/-- The Engine commits an update of key 0101h while the directory holds some entries. -/
def committing (d : List Entry) : State :=
  (carrying (.updating .p0 (cmd codeWrite [1, 1]) (update .data .commitMark 1)) .engine (.programMark ⟨3, 2⟩ .first)).setDir d

/-- Entries of other keys, in order, as many as asked for. -/
def others (n : Nat) : List Entry := (List.range n).map (fun i => entry (BitVec.ofNat 16 (0x0102 + i)) .live 1 0)

theorem test_others_leave_room (n : Nat) (h : n ≤ 0xF000) : DirOk (others n) ∧ masterCount (others n) = n ∧ lookup (others n) 0x0101#16 = none := by
  have key : ∀ i ∈ List.range n, (BitVec.ofNat 16 (0x0102 + i)).toNat = 0x0102 + i := fun i hi => by
    have := List.mem_range.1 hi
    rw [BitVec.toNat_ofNat]
    omega
  refine ⟨List.pairwise_map.2 (List.pairwise_lt_range.imp_of_mem fun {i j} hi hj lt => ?_), ?_, ?_⟩
  · simp only [entry, BitVec.lt_def, key i hi, key j hj]
    omega
  · rw [masterCount, others, ← List.countP_eq_length_filter, List.countP_map, List.countP_eq_length.2, List.length_range]
    intro i hi
    have := key i hi
    simp only [Function.comp, entry, Config.configKey, bne_iff_ne, ne_eq, ← BitVec.toNat_inj, this]
    simp
  · simp only [lookup, List.find?_eq_none, others, List.mem_map]
    rintro e ⟨i, hi, rfl⟩
    have := key i hi
    simp only [entry, beq_iff_eq, ← BitVec.toNat_inj, this]
    simp
    omega

theorem test_committing_fits (d : List Entry) (sorted : DirOk d) (room : masterCount d < 4095) :
    DirectoryOk (committing d) ∧ StoreOk (committing d) ∧ DirectoryFits (committing d) ∧
      ∃ t, step ((committing d).setPending [.markProgramDone false]) = .next t := by
  refine ⟨sorted, ⟨(fun h => nomatch h), (fun h => nomatch h), fun _ _ _ _ => .inl rfl, (fun _ h => nomatch h), (fun _ h => nomatch h)⟩,
    ⟨fun _ => room.le, fun p c u h => ?_, (by rintro (h | h) <;> cases h), (fun h => nomatch h), (fun _ h => nomatch h)⟩, _, rfl⟩
  cases h
  exact fun _ _ => room

theorem test_full_directory_fits (d : List Entry) (sorted : DirOk d) (few : masterCount d ≤ 4095) :
    DirectoryOk ((opened .ready).setDir d) ∧ DirectoryFits ((opened .ready).setDir d) ∧
      ((opened .ready).setDir d).store.state ≠ .mounting :=
  ⟨sorted, ⟨fun _ => few, (fun _ _ _ h => nomatch h), (by rintro (h | h) <;> cases h), (fun h => nomatch h), (fun _ h => nomatch h)⟩,
    (fun h => nomatch h)⟩

/-- The bounds are met: an update takes the last place of 4,095, and a directory with no place left has the configuration entry beside them. -/
theorem test_directory_bounds_are_met :
    (DirOk (others 4094) ∧ masterCount (others 4094) = 4094 ∧ lookup (others 4094) 0x0101#16 = none) ∧
    DirOk (entry 0x0000#16 .live 1 6 :: others 4095) ∧ masterCount (entry 0x0000#16 .live 1 6 :: others 4095) = 4095 := by
  obtain ⟨sorted, all, -⟩ := test_others_leave_room 4095 (by decide)
  refine ⟨test_others_leave_room 4094 (by decide), List.pairwise_cons.2 ⟨fun e he => ?_, sorted⟩, ?_⟩
  · obtain ⟨i, hi, rfl⟩ := List.mem_map.1 he
    have := List.mem_range.1 hi
    simp only [entry, BitVec.lt_def, BitVec.toNat_ofNat]
    omega
  · generalize others 4095 = l at all
    simpa [masterCount, entry, Config.configKey] using all

theorem test_front_premises : FrontOk busy ∧ ∃ t, step busy = .next t := by
  have only : ∀ g : Seg, busy.space.segs[g].state = .front → g = 3 := by decide +kernel
  exact ⟨⟨fun g h hg hh => (only g hg).trans (only h hh).symm, List.Pairwise.nil, by decide⟩, _, rfl⟩

theorem test_erase_premises :
    EraseOk ((opened .ready).setErase (some (erasing .running 12))) ∧ ∃ t, step ((opened .ready).setErase (some (erasing .running 12))) = .next t := by
  refine ⟨fun e h => ?_, _, rfl⟩
  obtain rfl : erasing .running 12 = e := Option.some.inj h
  exact ⟨by decide, fun _ => rfl⟩

theorem test_resetting_premises :
    ResettingOk (State.reset.setPort .p1 { PortUnit.reset with state := .resetting }) ∧
      ((State.reset.setPort .p1 { PortUnit.reset with state := .resetting }).port .p1).state = .resetting := by
  refine ⟨fun p => ⟨fun _ => ?_, fun f h => absurd (show (none : Option Frame) = some f from by cases p <;> exact h) (by simp)⟩, rfl⟩
  cases p <;> exact ⟨rfl, rfl⟩

theorem test_flags_stand_premises :
    ∃ (i : Instr) (s t : State) (p : Port), exec i s = .next t ∧ clearsFlags p i = false ∧ changesEnables p i = false ∧
      hardReset i = false ∧ s.guard.session = true :=
  ⟨.statusRead .p0 (.entire 5 true), State.reset.setGuard { GuardUnit.reset with session := true }, _, .p0, rfl, rfl, rfl, rfl, rfl⟩

theorem test_rows_keep_premises :
    (∃ (i : Instr) (p : Port) (s t : State), framePort i = some p ∧ (∀ m, i ≠ .portReset p m) ∧ exec i s = .next t) ∧
      ∃ (i : Instr) (s t : State), innerRow i = true ∧ exec i s = .next t :=
  ⟨⟨.flagsClear .p0 (.entire 2 true) 1, .p0, State.reset, _, rfl, by simp, rfl⟩, ⟨.badCommand, taken .ready (cmd 0 []), _, rfl, rfl⟩⟩

theorem test_results_premises :
    (EngineOk busy ∧ ResultsOk busy ∧ ∃ t, step busy = .next t) ∧
    EngineOk (carrying (.updating .p0 (cmd codeWrite [1, 1]) (update .data .oldRead 1)) .engine (.readCell ⟨3, 1⟩ true)) := by
  refine ⟨⟨⟨fun p h => absurd (show (none : Option Port) = some p from h) (by simp), by decide, by decide, by decide⟩,
      fun p => by cases p <;> (unfold PortUnit.resultsOk; decide), _, rfl⟩,
    fun p h => ?_, by decide, by decide, by decide⟩
  obtain rfl : Port.p0 = p := Option.some.inj h
  rfl

theorem test_guard_en_premises :
    (∀ c, (taken .ready c).guard.modeInForce ≠ .pin) ∧
    (∃ s : State, s.guard.modeInForce = .pin ∧ s.guard.session = true) ∧
    (∃ (i : Instr) (s t : State), i ≠ .guardRead ∧ (∀ l, i ≠ .guardEnChange l) ∧ i ≠ .guardSet ∧ i ≠ .format ∧ exec i s = .next t) ∧
    ∃ s t : State, s.pending = [] ∧ step s = .next t :=
  ⟨fun _ => show LockMode.opened ≠ .pin by decide,
    ⟨State.reset.setGuard { settings := { Settings.default with mode := .pin }, standing := .loaded, session := true }, by decide, rfl⟩,
    ⟨.statusRead .p0 (.entire 5 true), State.reset, _, by decide, by decide, by decide, by decide, rfl⟩, State.reset, _, rfl, rfl⟩

/-! ## Frames -/

theorem test_listens : State.reset.listens .p1 := ⟨rfl, rfl, rfl⟩

theorem test_status_read_premises :
    (∃ (s : State) (p : Port) (n : Nat), s.running = true ∧ (s.port p).frame = none ∧ 1 ≤ n) ∧
    (∃ (s : State) (p : Port) (f : Frame), s.running = true ∧ (s.port p).frame = some f ∧ f.kind = .statusRead ∧ f.record = none) ∧
    (∃ (s : State) (p : Port) (f : Frame) (bs : List Byte), s.running = true ∧ (s.port p).frame = some f ∧ f.kind = .statusRead ∧
      f.record = some bs) ∧
    ∃ (s : State) (p : Port), (s.port p).commands.length = 4 ∧ (s.port p).results.length = 4 ∧ (s.port p).events.length = 8 :=
  ⟨⟨State.reset, .p0, 1, rfl, rfl, le_refl _⟩, ⟨inFrame .statusRead none false .reset, .p1, _, rfl, rfl, rfl, rfl⟩,
    ⟨inFrame .statusRead (some [0x38, 0, 0, 0]) false .reset, .p1, _, _, rfl, rfl, rfl, rfl⟩, ⟨busy, .p2, rfl, rfl, rfl⟩⟩

/-- A whole STATUS READ of a busy port: READY, ACTIVE, no current command, 4 commands, 4 results, 8 events. -/
theorem test_status_read_bytes : statusBytes busy .p2 = [0x30, 0x44, 0x80, 0x00] := by decide

theorem test_command_frame_premises :
    (∃ s : State, s.listens .p2 ∧ (s.port .p2).commands.length < 4) ∧ ∃ s : State, s.listens .p2 ∧ ¬ (s.port .p2).commands.length < 4 :=
  ⟨⟨State.reset, ⟨rfl, rfl, rfl⟩, by decide⟩, ⟨busy, ⟨rfl, rfl, rfl⟩, by decide⟩⟩

theorem test_result_read_premises :
    (∃ (s : State) (f : Frame), s.running = true ∧ (s.port .p1).frame = some f ∧ f.kind = .resultRead ∧ f.resetting = false ∧
      f.record = none ∧ (s.port .p1).results ≠ []) ∧
    (∃ (s : State) (f : Frame) (bs : List Byte), s.running = true ∧ (s.port .p1).frame = some f ∧ f.kind = .resultRead ∧
      f.resetting = false ∧ f.record = some bs ∧ f.removable = true) ∧
    (∃ s t : State, exec (.resultRead .p2 (.release 15 false)) s = .next t ∧ (s.port .p2).results ≠ []) ∧
    ∃ s : State, s.listens .p2 ∧ (s.port .p2).results ≠ [] :=
  ⟨⟨inFrame .resultRead none false fullPort, _, rfl, rfl, rfl, rfl, rfl, by decide⟩,
    ⟨inFrame .resultRead (some emptyResultBytes) true fullPort, _, _, rfl, rfl, rfl, rfl, rfl, rfl⟩,
    ⟨busy, _, rfl, by decide⟩, ⟨busy, ⟨rfl, rfl, rfl⟩, by decide⟩⟩

theorem test_event_read_premises :
    (∃ (s : State) (f : Frame), s.running = true ∧ (s.port .p1).frame = some f ∧ f.kind = .eventRead ∧ f.resetting = false ∧
      f.record = none ∧ (s.port .p1).events ≠ []) ∧
    (∃ (s : State) (f : Frame) (bs : List Byte), s.running = true ∧ (s.port .p1).frame = some f ∧ f.kind = .eventRead ∧
      f.resetting = false ∧ f.record = some bs ∧ f.removable = true ∧ f.merged = false) ∧
    (∃ s t : State, exec (.eventRead .p2 (.release 11 false)) s = .next t ∧ (s.port .p2).events ≠ []) ∧
    (∃ s : State, s.listens .p2 ∧ (s.port .p2).events ≠ []) ∧
    (∃ (u : PortUnit) (f : Frame) (bs : List Byte) (h e m : Event) (rest : List Event), u.state = .active ∧ u.frame = some f ∧
      f.kind = .eventRead ∧ f.record = some bs ∧ u.events = h :: rest ∧ h.merge e = some m) ∧
    ∃ (u : PortUnit) (e h : Event) (rest : List Event), u.events = h :: rest ∧ mergeInto u.events e = none :=
  ⟨⟨inFrame .eventRead none false fullPort, _, rfl, rfl, rfl, rfl, rfl, by decide⟩,
    ⟨inFrame .eventRead (some emptyEventBytes) true fullPort, _, _, rfl, rfl, rfl, rfl, rfl, rfl, rfl⟩,
    ⟨busy, _, rfl, by decide⟩, ⟨busy, ⟨rfl, rfl, rfl⟩, by decide⟩,
    ⟨{ PortUnit.reset with
        events := [.storeState .ready 1]
        frame := some { kind := .eventRead, resetting := false, record := some [], removable := true, merged := false, out := [] } },
      _, _, _, .storeState .degraded 1, _, _, rfl, rfl, rfl, rfl, rfl, rfl⟩,
    ⟨{ PortUnit.reset with events := [.storeState .ready 1] }, .watchHit 1 1 1 .internal, _, _, rfl, by decide⟩⟩

/-- An EVENT READ of 11 bytes removes the oldest event, one of 10 does not. -/
theorem test_event_read_removes :
    ((after (.eventRead .p2 (.entire 11 true)) busy).port .p2).events.length = 7 ∧
      ((after (.eventRead .p2 (.entire 10 true)) busy).port .p2).events.length = 8 := by
  decide

/-- Two bytes written at the buffer's last position: the first is stored, the second sets BUFFER_EDGE. -/
theorem test_buffer_write_at_the_edge :
    bufferByteAt ((after (.bufferWrite .p1 (.entire 5 true) 0x07FF#16 [0xAA, 0xBB]) State.reset).port .p1).buffer 2047 = 0xAA ∧
      bufferByteAt ((after (.bufferWrite .p1 (.entire 5 true) 0x07FF#16 [0xAA, 0xBB]) State.reset).port .p1).buffer 0 = 0 ∧
      ((after (.bufferWrite .p1 (.entire 5 true) 0x07FF#16 [0xAA, 0xBB]) State.reset).port .p1).flags = flagBufferEdge := by
  decide

theorem test_buffer_frame_premises :
    (∃ (s : State) (n : Nat) (whole : Bool), s.listens .p1 ∧ (whole = false ∨ n < 3)) ∧
    (∃ (s : State) (n : Nat), s.listens .p1 ∧ 3 ≤ n) ∧
    (∃ (s : State) (f : Frame), s.running = true ∧ (s.port .p1).frame = some f ∧ f.kind = .bufferRead ∧ f.resetting = false ∧
      3 = 3 + f.out.length) ∧ ∃ x : Nat, 2048 ≤ x :=
  ⟨⟨State.reset, 2, true, test_listens, .inr (by decide)⟩, ⟨State.reset, 3, test_listens, le_refl _⟩,
    ⟨inFrame .bufferRead none false .reset, _, rfl, rfl, rfl, rfl, rfl⟩, ⟨2048, le_refl _⟩⟩

theorem test_mask_frame_premises : State.reset.listens .p1 ∧ State.reset.running = true := ⟨test_listens, rfl⟩

theorem test_port_reset_premises :
    (∃ s : State, s.listens .p0 ∧ (s.port .p0).slot = .executing) ∧ ∃ s : State, s.listens .p0 ∧ (s.port .p0).slot ≠ .executing :=
  ⟨⟨taken .ready (cmd codeStat [1, 1]), ⟨rfl, rfl, rfl⟩, rfl⟩, ⟨State.reset, ⟨rfl, rfl, rfl⟩, by decide⟩⟩

theorem test_refused_frame_premises :
    (∃ (i : Instr) (p : Port) (k : FrameKind) (n : Nat) (whole : Bool) (s : State), framePort i = some p ∧
      frameOf i = some (k, .entire n whole) ∧ i.wellFormed = true ∧ s.running = true ∧ (s.port p).frame = none ∧ (s.port p).state = .active ∧
      whole = false) ∧
    (∃ (i : Instr) (p : Port) (k : FrameKind) (n : Nat) (s : State), framePort i = some p ∧ frameOf i = some (k, .entire n true) ∧
      i.wellFormed = true ∧ s.running = true ∧ (s.port p).frame = none ∧ (s.port p).state = .active ∧ n < k.minimum) ∧
    (∃ (i : Instr) (p : Port) (n : Nat) (s : State), framePort i = some p ∧ frameOf i = some (.unknown, .entire n true) ∧
      i.wellFormed = true ∧ s.running = true ∧ (s.port p).frame = none ∧ (s.port p).state = .active) ∧
    (∃ (i : Instr) (p : Port) (k : FrameKind) (n : Nat) (s : State), framePort i = some p ∧ frameOf i = some (k, .entire n true) ∧
      i.wellFormed = true ∧ s.running = true ∧ (s.port p).frame = none ∧ (s.port p).state = .resetting ∧ k ≠ .statusRead) ∧
    ∃ (i : Instr) (p : Port) (s : State), framePort i = some p ∧ i.wellFormed = true ∧ s.running = false :=
  ⟨⟨.resultRead .p1 (.entire 15 false), .p1, _, _, _, State.reset, rfl, rfl, rfl, rfl, rfl, rfl, rfl⟩,
    ⟨.command .p1 (.entire 18 true) 5 1 (Vector.replicate 16 0), .p1, _, _, State.reset, rfl, rfl, rfl, rfl, rfl, rfl, by decide⟩,
    ⟨.unknownFrameKind .p1 (.entire 0 true) none, .p1, _, State.reset, rfl, rfl, rfl, rfl, rfl, rfl⟩,
    ⟨.resultRead .p1 (.entire 15 true), .p1, _, _, State.reset.setPort .p1 { PortUnit.reset with state := .resetting }, rfl, rfl, rfl,
      rfl, rfl, rfl, by decide⟩,
    ⟨.resultRead .p1 (.entire 15 true), .p1, State.reset.setPins { power := false, resetN := true, guardEn := false }, rfl, rfl, rfl⟩⟩

theorem test_moments_premises :
    ∃ (i : Instr) (s a b : State), framePort i = some .p2 ∧ s.running = true ∧ (s.port .p2).frame = none ∧
      exec (atMoment .select i) s = .next a ∧ exec (atMoment .kindByte i) a = .next b :=
  ⟨.resultRead .p2 .select, busy, _, _, rfl, rfl, rfl, rfl, rfl⟩

theorem test_event_merge_premises :
    (∃ (u : PortUnit) (h e m x : Event) (rest : List Event), u.events = h :: x :: rest ∧ h.merge e = none ∧ x.merge e = some m) ∧
    (∃ (u : PortUnit) (f : Frame), u.frame = some f ∧ f.kind ≠ .eventRead) ∧
    ∃ (u : PortUnit) (f : Frame), u.frame = some f ∧ f.kind = .eventRead ∧ f.record = none :=
  ⟨⟨fullPort, _, .watchHit 2 1 1 .internal, _, _, _, rfl, by decide, rfl⟩,
    ⟨(inFrame .statusRead none false .reset).ports.p1, _, rfl, by decide⟩, (inFrame .eventRead none false .reset).ports.p1, _, rfl, rfl, rfl⟩

/-- A frame during which its port was RESETTING. -/
def resetFrame (k : FrameKind) (r : Option (List Byte)) : State :=
  State.reset.setPort .p1 { PortUnit.reset with
    frame := some { kind := k, resetting := true, record := r, removable := false, merged := false, out := [] } }

theorem test_resetting_frame_premises :
    (∀ r, ∃ f, ((resetFrame .resultRead r).port .p1).frame = some f ∧ f.resetting = true ∧ f.kind = .resultRead ∧ f.record = r ∧
      (resetFrame .resultRead r).running = true) ∧
    (frameOf (.resultRead .p1 (.release 15 true)) = some (.resultRead, .release 15 true) ∧
      frameOf (.resultRead .p1 .kindByte) = some (.resultRead, .kindByte) ∧ Instr.wellFormed (.resultRead .p1 .kindByte) = true ∧
      Instr.wellFormed (.resultRead .p1 (.release 15 true)) = true) ∧
    (frameOf (.bufferRead .p1 .byteOut 0) = some (.bufferRead, .byteOut) ∧ Instr.wellFormed (.bufferRead .p1 .byteOut 0) = true) ∧
    ∃ f, ((resetFrame .bufferRead none).port .p1).frame = some f ∧ f.resetting = true ∧ f.kind = .bufferRead :=
  ⟨fun _ => ⟨_, rfl, rfl, rfl, rfl, rfl⟩, by decide, by decide, _, rfl, rfl, rfl⟩

/-! ## Lines, power and the array -/

theorem test_power_premises :
    (∃ s : State, s.pins.power = true) ∧ ∃ s : State, s.pins.power = false ∧ s.pins.resetN = true :=
  ⟨⟨State.reset, rfl⟩, ⟨State.reset.setPins { power := false, resetN := true, guardEn := false }, rfl, rfl⟩⟩

theorem test_cut_premises :
    (∃ (op : ArrayOp) (a : Nat), op.spares a ∧ a + 1 = op.part.1) ∧ (∃ (op : ArrayOp) (a : Nat), op.spares a ∧ a = op.part.1 + op.part.2) ∧
      markWord [] ⟨3, 1⟩ .first = Config.markErased ∧ markWord [] ⟨3, 1⟩ .second = Config.markErased :=
  ⟨⟨.programMark ⟨3, 1⟩ .first, 50563, .inl (by decide), rfl⟩, ⟨.programMark ⟨3, 1⟩ .first, 50566, .inr (by decide), rfl⟩,
    by decide, by decide⟩

theorem test_carries (w : Work) (r : Requester) (op : ArrayOp) : (carrying w r op).carries r op := ⟨rfl, 0, rfl⟩

theorem test_array_row_premises :
    ((carrying .idle .store (.programHeader 3 1 2)).carries .store (.programHeader 3 1 2)) ∧
    ((carrying .idle .store (.eraseSegment 3 1 2)).carries .store (.eraseSegment 3 1 2)) ∧
    ((carrying .idle .engine (.programMark ⟨3, 1⟩ .first)).carries .engine (.programMark ⟨3, 1⟩ .first)) ∧
    markReading (markWord (putMark [] ⟨3, 1⟩ .first Config.markPresent) ⟨3, 1⟩ .first) ≠ .erased ∧
    markReading (markWord [] ⟨3, 1⟩ .first) = .erased ∧
    ∃ (i : Instr) (s t : State), exec i s = .next t ∧ i = .cellReadDone :=
  ⟨test_carries _ _ _, test_carries _ _ _, test_carries _ _ _, by decide +kernel, by decide, _, State.reset, _, rfl, rfl⟩

theorem test_segment_erase_premises :
    (∃ (s : State) (e : EraseCtx), s.running = true ∧ s.array.inFlight = none ∧ s.array.erase = some e ∧ e.state ≠ .suspended) ∧
    eraseVerifies [] 5 1 2 [] = true ∧ eraseVerifies [] 5 1 2 [(0, 0)] = false :=
  ⟨⟨(opened .ready).setErase (some (erasing .suspending 1)), _, rfl, rfl, rfl, by decide⟩, by decide +kernel, by decide +kernel⟩

theorem test_suspension_premises :
    (∃ (s : State) (e : EraseCtx), s.running = true ∧ s.array.erase = some e ∧ e.state = .running ∧ s.array.waitEngine ≠ none ∧
      400 ≤ e.sinceResume ∧ e.suspendCount < 12) ∧
    (∃ (s : State) (e : EraseCtx), s.running = true ∧ s.array.erase = some e ∧
      ¬ (e.state = .running ∧ s.array.waitEngine ≠ none ∧ 400 ≤ e.sinceResume ∧ e.suspendCount < 12)) ∧
    (∃ (s : State) (e : EraseCtx), s.running = true ∧ s.array.erase = some e ∧ e.state = .suspending) ∧
    (∃ (s : State) (e : EraseCtx) (op : ArrayOp), s.array.inFlight = none ∧ s.array.erase = some e ∧ e.state = .suspended ∧
      s.array.waitEngine = some op) ∧
    ∃ (s : State) (e : EraseCtx), s.array.inFlight = none ∧ s.array.erase = some e ∧ e.state = .suspended ∧ s.array.waitEngine = none :=
  ⟨⟨((opened .ready).setErase (some (erasing .running 11))).presentEngine (.readCell ⟨3, 1⟩ true), _, rfl, rfl, rfl, by decide, by decide,
      by decide⟩,
    ⟨((opened .ready).setErase (some (erasing .running 12))).presentEngine (.readCell ⟨3, 1⟩ true), _, rfl, rfl, by decide⟩,
    ⟨(opened .ready).setErase (some (erasing .suspending 1)), _, rfl, rfl, rfl⟩,
    ⟨((opened .ready).setErase (some (erasing .suspended 1))).presentEngine (.readCell ⟨3, 1⟩ true), _, _, rfl, rfl, rfl, rfl⟩,
    ⟨(opened .ready).setErase (some (erasing .suspended 1)), _, rfl, rfl, rfl, rfl⟩⟩

/-- Power off in a machine that was running. -/
theorem test_power_refused :
    exec (.powerLoss [] []) (State.reset.setPins { power := false, resetN := true, guardEn := false }) = .refused .notDue ∧
      exec .powerOn State.reset = .refused .notDue := ⟨rfl, rfl⟩

/-- A cut mark of an update, and a cut repair mark, may read present; the commit mark of a configuration write does not. -/
theorem test_cut_marks :
    markWord (cutOp [] .engine [(0, 0), (1, 0)] (.programMark ⟨3, 1⟩ .first)) ⟨3, 1⟩ .first = Config.markPresent ∧
      markWord (cutOp [] .store [(0, 0), (1, 0)] (.programMark ⟨3, 1⟩ .second)) ⟨3, 1⟩ .second = Config.markPresent ∧
      markWord (cutOp [] .store [(0, 0), (1, 0)] (.programMark ⟨3, 1⟩ .first)) ⟨3, 1⟩ .first ≠ Config.markPresent ∧
      markWord [] ⟨3, 1⟩ .first ≠ Config.markPresent := by decide +kernel

/-! ## Refusals of commands -/

theorem test_bad_code_and_key_premises :
    (∃ (s : State) (c : Cmd), s.starts .p0 c ∧ c.code ∉ knownCodes) ∧
    (∃ (s : State) (c : Cmd), s.starts .p0 c ∧ c.code ∈ singleKeyCodes ∧ c.key = 0x0000#16) ∧
    ∃ (s : State) (c : Cmd), s.starts .p0 c ∧ c.code ∈ singleKeyCodes ∧ c.key = 0xFFFF#16 :=
  ⟨⟨taken .ready (cmd 0x06 []), _, ⟨rfl, rfl, rfl⟩, by decide⟩, ⟨taken .ready (cmd codeWrite []), _, ⟨rfl, rfl, rfl⟩, by decide, by decide⟩,
    ⟨taken .ready (cmd codeWatchClear [0xFF, 0xFF]), _, ⟨rfl, rfl, rfl⟩, by decide, by decide⟩⟩

theorem test_update_parameter_premises :
    (∃ (s : State) (c : Cmd), s.starts .p0 c ∧ c.code ∈ updateCodes ∧ checkUpdate c = some .badField) ∧
    (∃ (s : State) (c : Cmd), s.starts .p0 c ∧ c.code ∈ updateCodes ∧ checkUpdate c = some .tooLong ∧ c.dataLength = 481) ∧
    (∃ (s : State) (c : Cmd), s.starts .p0 c ∧ c.code ∈ updateCodes ∧ checkUpdate c = some .tooLong ∧ c.patchOffset + c.dataLength = 481) ∧
    ∃ (s : State) (c : Cmd), s.starts .p0 c ∧ c.code ∈ updateCodes ∧ checkUpdate c = some .badRange ∧ c.bufOffset + c.dataLength = 2049 :=
  ⟨⟨taken .ready (cmd codeRemove [1, 1, 2]), _, ⟨rfl, rfl, rfl⟩, by decide, by decide⟩,
    ⟨taken .ready (cmd codeWrite [1, 1, 0, 0, 0, 0, 0, 0, 0, 1, 0xE1]), _, ⟨rfl, rfl, rfl⟩, by decide, by decide, by decide⟩,
    ⟨taken .ready (cmd codePatch [1, 1, 0, 0, 0, 0, 0, 0, 0, 0, 1, 1, 0xE0]), _, ⟨rfl, rfl, rfl⟩, by decide, by decide, by decide⟩,
    ⟨taken .ready (cmd codeWrite [1, 1, 0, 0, 0, 0, 0, 7, 0xFF, 0, 2]), _, ⟨rfl, rfl, rfl⟩, by decide, by decide, by decide⟩⟩

/-- The last byte of the buffer, and no byte at its last position, pass the range check. -/
theorem test_update_parameters_pass :
    checkWrite (cmd codeWrite [1, 1, 0, 0, 0, 0, 0, 7, 0xFF, 0, 1]) = none ∧ checkWrite (cmd codeWrite [1, 1, 0, 0, 0, 0, 0, 7, 0xFF, 0, 0]) = none ∧
      checkPatch (cmd codePatch [1, 1, 0, 0, 0, 0, 0, 0, 0, 0, 0, 1, 0xE0]) = none := by decide

theorem test_other_parameter_premises :
    checkRead (cmd codeRead [1, 1, 0, 0, 0, 0, 0, 0, 2]) = some .badField ∧ checkKey (cmd codeStat []) = some .badKey ∧
    checkScan (cmd codeScan [0, 2, 0, 1]) = some .badField ∧ checkClaim (cmd codeClaim [1, 1, 0xEA, 0x61]) = some .badField ∧
    checkWatchSet (cmd codeWatchSet [1, 1, 1, 2]) = some .badField ∧ checkWatchClear (cmd codeWatchClear [1, 1, 8]) = some .badField ∧
    checkWatchList (cmd codeWatchList [8, 0]) = some .badRange ∧ checkStoreInfo (cmd codeStoreInfo [7, 0xE1]) = some .badRange ∧
    checkFormat (cmd codeFormat [0, 17]) = some .badField ∧ (cmd codeGuardSet [4]).target = none ∧
    (cmd codeGuardSet [0, 0x0A]).newGuard = none ∧ (4 : Byte) < (cmd codeGuardSet [0, 0, 5]).byte 2 ∧
    ∀ c, (taken .ready c).starts .p0 c :=
  ⟨by decide, by decide, by decide, by decide, by decide, by decide, by decide, by decide, by decide, by decide, by decide, by decide,
    fun _ => ⟨rfl, rfl, rfl⟩⟩

theorem test_store_state_premises :
    (∀ c, (taken .unformatted c).starts .p0 c ∧ (taken .unformatted c).store.state = .unformatted ∧
      (taken .degraded c).starts .p0 c ∧ (taken .degraded c).store.state = .degraded) ∧
    checkUpdate (cmd codeWrite [1, 1]) = none ∧ checkRead (cmd codeRead [1, 1]) = none ∧ checkKey (cmd codeStat [1, 1]) = none ∧
    checkScan (cmd codeScan [0, 1, 0xFF, 0xFE, 0, 0, 1, 1, 1, 0, 0, 0, 1, 0, 9]) = none ∧ checkClaim (cmd codeClaim [1, 1, 0, 1]) = none ∧
    checkWatchSet (cmd codeWatchSet [1, 1, 7, 1]) = none ∧ checkWatchClear (cmd codeWatchClear [1, 1, 7]) = none ∧
    checkWatchList (cmd codeWatchList [0, 0, 7, 0xFF]) = none ∧ (cmd codeGuardSet [3, 0xC9, 4]).target ≠ none ∧
    (cmd codeGuardSet [3, 0xC9, 4]).newGuard ≠ none ∧ (cmd codeGuardSet [3, 0xC9, 4]).byte 2 ≤ 4 :=
  ⟨fun _ => ⟨⟨rfl, rfl, rfl⟩, rfl, ⟨rfl, rfl, rfl⟩, rfl⟩, by decide, by decide, by decide, by decide, by decide, by decide, by decide,
    by decide, by decide, by decide, by decide⟩

/-- A DEGRADED machine of standing UNREADABLE whose Engine has taken a GUARD SET of P0, of which every page is guarded or none. -/
def unreadableGuardSet (x : Settings) : State :=
  (taken .degraded (cmd codeGuardSet [3, 0xC9, 4])).setGuard { settings := x, standing := .unreadable, session := false }

/-- It ends AT READ_ONLY at its state check, and no guard is consulted: no flag is set (Tables 7-4 and 9-2, log entry 29). -/
theorem test_unreadable_guard_set_ends_read_only :
    (unreadableGuardSet .closed).starts .p0 (cmd codeGuardSet [3, 0xC9, 4]) ∧ (unreadableGuardSet .closed).unguarded .p0 = false ∧
    ((after .guardSet (unreadableGuardSet .closed)).port .p0).results = [(cmd codeGuardSet [3, 0xC9, 4]).at_ .readOnly 0 0 0 0] ∧
    ((after .guardSet (unreadableGuardSet .closed)).port .p0).flags = 0 :=
  ⟨⟨rfl, rfl, rfl⟩, by decide, by decide +kernel, by decide +kernel⟩

/-! ## Updates -/

theorem test_condition_premises :
    (cmd codeWrite [1, 1]).condKind = 0 ∧
    ((cmd codeWrite [1, 1, 1]).condKind ≠ 0 ∧ (cmd codeWrite [1, 1, 1]).expected = 0) ∧
    ((cmd codeWrite [1, 1, 1, 0, 0, 0, 1]).condKind ≠ 0 ∧ (cmd codeWrite [1, 1, 1, 0, 0, 0, 1]).expected ≠ 0 ∧
      (cmd codeWrite [1, 1, 1, 0, 0, 0, 1]).expected = (entry 0x0101#16 .live 1 0).version ∧
      (cmd codeWrite [1, 1, 1, 0, 0, 0, 1]).expected ≠ (entry 0x0101#16 .live 2 0).version) := by decide

/-- The Engine has taken an update and the directory holds one entry. -/
def updating (c : Cmd) (d : List Entry) : State := (taken .ready c).setDir d

theorem test_update_starts (c : Cmd) (d : List Entry) :
    (updating c d).starts .p0 c ∧ (updating c d).store.state = .ready ∧ ∀ k, guardProtects ((updating c d).guardOfPort .p0) (pageOf k) = false := by
  refine ⟨⟨rfl, rfl, rfl⟩, rfl, fun k => ?_⟩
  show guardProtects Guard.none (pageOf k) = false
  simp [guardProtects, guardPages, Guard.none]

theorem test_guarded_update_premises :
    ∃ (s : State) (c : Cmd), s.starts .p0 c ∧ c.code ∈ updateCodes ∧ checkUpdate c = none ∧ s.store.state = .ready ∧
      guardProtects (s.guardOfPort .p0) (pageOf c.key) = true :=
  ⟨(taken .ready (cmd codeWrite [1, 1])).setGuard { GuardUnit.reset with settings := Settings.closed }, _, ⟨rfl, rfl, rfl⟩, by decide,
    by decide, rfl, by decide⟩

theorem test_update_check_premises :
    (checkUpdate (cmd codeWrite [0xFF, 0]) = none ∧ isPermanent (cmd codeWrite [0xFF, 0]).key = true ∧
      lookup [entry 0xFF00#16 .live 1 0] (cmd codeWrite [0xFF, 0]).key = some (entry 0xFF00#16 .live 1 0)) ∧
    (checkUpdate (cmd codeWrite [0xFE, 0xFF]) = none ∧ isPermanent (cmd codeWrite [0xFE, 0xFF]).key = false) ∧
    (lookup [entry 0xFF00#16 .gone 1 0] (cmd codeWrite [0xFF, 0]).key = some (entry 0xFF00#16 .gone 1 0)) ∧
    (((updating (cmd codeWrite [1, 1]) []).setClaims [{ key := 0x0101#16, holder := .p1, remaining := 5, overdue := 0 }]).holderOf 0x0101#16 =
      some .p1) ∧
    (conditionFailure (cmd codeWrite [1, 1, 1, 0, 0, 0, 1]) none = some (.versionMismatch, 0)) ∧
    (checkUpdate (cmd codeRemove [1, 1]) = none ∧ conditionFailure (cmd codeRemove [1, 1]) none = none ∧
      (cmd codeRemove [1, 1]).code ≠ codeWrite) ∧
    (checkUpdate (cmd codePatch [1, 1, 0, 0, 0, 0, 0, 0, 0, 0, 0, 0, 5]) = none ∧
      (entry 0x0101#16 .live 1 4).length < (cmd codePatch [1, 1, 0, 0, 0, 0, 0, 0, 0, 0, 0, 0, 5]).patchOffset) ∧
    (cmd codePatch [1, 1, 0, 0, 0, 0, 0, 0, 0, 0, 0, 0, 5]).patchOffset ≤ (entry 0x0101#16 .live 1 5).length := by
  decide

theorem test_directory_full_premises : ∀ n, masterCount (List.replicate n (entry 0x0202#16 .live 1 0)) = n ∧
    lookup (List.replicate n (entry 0x0202#16 .live 1 0)) 0x0101#16 = none := by
  intro n
  constructor
  · simp [masterCount, entry, Config.configKey]
  · simp only [lookup, List.find?_eq_none]
    intro e he
    rw [List.eq_of_mem_replicate he]
    decide

theorem test_update_begins_premises :
    (∃ (s : State) (c : Cmd), s.starts .p0 c ∧ c.code = codeWrite ∧ checkUpdate c = none ∧ s.store.state = .ready ∧
      guardProtects (s.guardOfPort .p0) (pageOf c.key) = false ∧ s.failUpdate .p0 c = none) ∧
    (∃ (s : State) (c : Cmd), s.starts .p0 c ∧ c.code = codeRemove ∧ checkUpdate c = none ∧ s.store.state = .ready ∧
      guardProtects (s.guardOfPort .p0) (pageOf c.key) = false ∧ s.failUpdate .p0 c = none) ∧
    ∃ (s : State) (c : Cmd) (e : Entry), s.starts .p0 c ∧ c.code = codePatch ∧ checkUpdate c = none ∧ s.store.state = .ready ∧
      guardProtects (s.guardOfPort .p0) (pageOf c.key) = false ∧ s.failUpdate .p0 c = none ∧ lookup s.engine.dir c.key = some e :=
  ⟨⟨updating (cmd codeWrite [1, 1]) [], _, ⟨rfl, rfl, rfl⟩, rfl, by decide, rfl, by decide, by decide⟩,
    ⟨updating (cmd codeRemove [1, 1]) [entry 0x0101#16 .live 1 0], _, ⟨rfl, rfl, rfl⟩, rfl, by decide, rfl, by decide, by decide⟩,
    ⟨updating (cmd codePatch [1, 1]) [entry 0x0101#16 .live 1 0], _, entry 0x0101#16 .live 1 0, ⟨rfl, rfl, rfl⟩, rfl, by decide, rfl,
      by decide, by decide, by decide⟩⟩

/-- A record of key 0101h at version 1 with no payload. -/
def record : Body :=
  { key := 0x0101#16, version := 1, seq := 1, length := 0, author := .port .p0, kind := .data, check := 0xFFFF#16, payload := [] }

/-- The array with the record committed in cell 1 of segment 3. -/
def stored : List Host.Cell := putMark (putArea [] ⟨3, 1⟩ (bodyBytes record)) ⟨3, 1⟩ .first Config.markPresent

/-- The array with the record's payload check disturbed. -/
def disturbed : List Host.Cell := putArea [] ⟨3, 1⟩ (bodyBytes { record with check := 0 })

theorem test_stored_record_reads_back :
    (readData stored ⟨3, 1⟩).body = some record ∧ (readData stored ⟨3, 1⟩).payloadGood = true ∧
      (readData stored ⟨3, 1⟩).cond = .committed := by
  decide +kernel

theorem test_disturbed_record_fails_its_check :
    (readData disturbed ⟨3, 1⟩).payloadGood = false ∧ (readData disturbed ⟨3, 1⟩).cond = .allocated := by
  decide +kernel

/-- An update under way, with the operation it awaits, over an array's bytes and a directory. -/
def updatingWith (c : Cmd) (u : Update) (op : ArrayOp) (cells : List Host.Cell) (d : List Entry) : State :=
  ((carrying (.updating .p0 c u) .engine op).setCells cells).setDir d

theorem test_old_payload_premises :
    (∃ (s : State) (c : Cmd) (u : Update) (b : Body), s.carries .engine (.readCell ⟨3, 1⟩ true) ∧ s.engine.work = .updating .p0 c u ∧
      (readData s.array.cells ⟨3, 1⟩).body = some b ∧ b.key = u.key ∧ b.version = entryVersion s.engine.dir u.key ∧
      (readData s.array.cells ⟨3, 1⟩).payloadGood = true) ∧
    (∃ (s : State) (c : Cmd) (u : Update), s.carries .engine (.readCell ⟨3, 1⟩ true) ∧ s.engine.work = .updating .p0 c u ∧
      ∀ b, (readData s.array.cells ⟨3, 1⟩).body = some b → b.key = u.key → b.version = entryVersion s.engine.dir u.key →
        (readData s.array.cells ⟨3, 1⟩).payloadGood = false) ∧
    ∃ (old : List Byte) (offset : Nat), offset = old.length :=
  ⟨⟨updatingWith (cmd codePatch [1, 1]) (update .data .oldRead 1) (.readCell ⟨3, 1⟩ true) stored [entry 0x0101#16 .live 1 0], _, _, record,
      ⟨rfl, 0, rfl⟩, rfl, test_stored_record_reads_back.1, rfl, by decide, test_stored_record_reads_back.2.1⟩,
    ⟨updatingWith (cmd codePatch [1, 1]) (update .data .oldRead 1) (.readCell ⟨3, 1⟩ true) disturbed [entry 0x0101#16 .live 1 0], _, _,
      ⟨rfl, 0, rfl⟩, rfl, fun _ _ _ _ => test_disturbed_record_fails_its_check.1⟩, ⟨[1, 2], 2, rfl⟩⟩

/-- Bytes taken over the middle of an old payload, and beyond its end. -/
theorem test_patch_payload : patchPayload [1, 2, 3, 4] 1 [9, 9] = [1, 9, 9, 4] ∧ patchPayload [1, 2] 2 [9] = [1, 2, 9] := by decide

/-- A machine with a segment in FRONT. -/
def fronted (cells : List CellNo) : State :=
  ((opened .ready).setSeg 3 { state := .front, erases := 0, live := 1, dead := 0, free := 30 }).setFrontFree cells

/-- A machine with two FREE segments. -/
def twoFree : State :=
  ((opened .ready).setSeg 4 { state := .free, erases := 2, live := 0, dead := 0, free := 0 }).setSeg 5
    { state := .free, erases := 1, live := 0, dead := 0, free := 0 }

theorem test_grant_premises :
    (opened .degraded).store.state = .degraded ∧
    ((fronted [31]).store.state ≠ .degraded ∧ (fronted [31]).front = some 3 ∧ (fronted [31]).space.frontFree = [31]) ∧
    ((update .data .body 1).payload = some ([], 0xFFFF#16) ∧ ({ update .data .body 1 with payload := none } : Update).payload = none) ∧
    ((fronted []).space.frontFree = [] ∧ (fronted []).freeCount < 2) ∧
    (twoFree.front = none ∧ twoFree.freeCount = 2 ∧ twoFree.bestFree = some 5) := by
  decide +kernel

theorem test_twoFree_has_no_front : FrontOk twoFree := by
  have none_front : ∀ g : Seg, twoFree.space.segs[g].state ≠ .front := by decide +kernel
  exact ⟨fun g h hg _ => absurd hg (none_front g), List.Pairwise.nil, by decide⟩

theorem test_program_end_premises :
    (∃ (s : State) (c : Cmd) (u : Update), s.carries .engine (.programBody ⟨3, 2⟩ record) ∧ s.engine.work = .updating .p0 c u ∧
      u.attempt < 3) ∧
    (∃ (s : State) (c : Cmd) (u : Update), s.carries .engine (.programBody ⟨3, 2⟩ record) ∧ s.engine.work = .updating .p0 c u ∧
      3 ≤ u.attempt) ∧
    (∃ (s : State) (c : Cmd) (u : Update), s.carries .engine (.programMark ⟨3, 2⟩ .first) ∧ s.engine.work = .updating .p0 c u ∧
      u.stage = .commitMark ∧ markLeft (markWord s.array.cells ⟨3, 2⟩ .first) true ≠ Config.markPresent ∧ u.attempt < 3) ∧
    ∃ (s : State) (c : Cmd) (u : Update), s.carries .engine (.programMark ⟨3, 2⟩ .first) ∧ s.engine.work = .updating .p0 c u ∧
      u.stage = .commitMark ∧ markLeft (markWord s.array.cells ⟨3, 2⟩ .first) true ≠ Config.markPresent ∧ 3 ≤ u.attempt :=
  ⟨⟨updatingWith (cmd codeWrite [1, 1]) (update .data .body 2) _ [] [], _, _, ⟨rfl, 0, rfl⟩, rfl, by decide⟩,
    ⟨updatingWith (cmd codeWrite [1, 1]) (update .data .body 3) _ [] [], _, _, ⟨rfl, 0, rfl⟩, rfl, by decide⟩,
    ⟨updatingWith (cmd codeWrite [1, 1]) (update .data .commitMark 2) _ [] [], _, _, ⟨rfl, 0, rfl⟩, rfl, rfl, by decide, by decide⟩,
    ⟨updatingWith (cmd codeWrite [1, 1]) (update .data .commitMark 3) _ [] [], _, _, ⟨rfl, 0, rfl⟩, rfl, rfl, by decide, by decide⟩⟩

/-- A body program with nothing left otherwise verifies in an erased cell, and one that left a zero byte does not. -/
theorem test_body_program_outcomes :
    bodyLeft (dataArea [] ⟨3, 2⟩) (bodyBytes record) [] = bodyBytes record ∧
      bodyLeft (dataArea [] ⟨3, 2⟩) (bodyBytes record) [(0, 0xFF)] ≠ bodyBytes record := by
  decide +kernel

theorem test_commit_premises :
    (∃ (s : State) (c : Cmd) (u : Update) (e : Entry), s.carries .engine (.programMark ⟨3, 2⟩ .first) ∧ s.engine.work = .updating .p0 c u ∧
      u.stage = .commitMark ∧ u.kind ≠ .config ∧ markLeft (markWord s.array.cells ⟨3, 2⟩ .first) false = Config.markPresent ∧
      lookup s.engine.dir u.key = some e) ∧
    (∃ (s : State) (c : Cmd) (u : Update), s.carries .engine (.programMark ⟨3, 2⟩ .first) ∧ s.engine.work = .updating .p0 c u ∧
      u.stage = .commitMark ∧ u.kind ≠ .config ∧ markLeft (markWord s.array.cells ⟨3, 2⟩ .first) false = Config.markPresent ∧
      lookup s.engine.dir u.key = none) ∧
    (∃ (s : State) (b : Body) (w : Watch), (s.coord.watches.get .p1).find? (fun w => w.key == b.key) = some w ∧
      w.triggers &&& firedTrigger (keyState s.engine.dir b.key) .live ≠ 0 ∧ b.author ≠ .port .p1) ∧
    ∃ (s : State) (b : Body) (w : Watch), (s.coord.watches.get .p1).find? (fun w => w.key == b.key) = some w ∧
      w.triggers &&& firedTrigger (keyState s.engine.dir b.key) .live = 0 :=
  ⟨⟨updatingWith (cmd codeWrite [1, 1]) (update .data .commitMark 1) _ [] [entry 0x0101#16 .live 1 0], _, _, entry 0x0101#16 .live 1 0,
      ⟨rfl, 0, rfl⟩, rfl, rfl, by decide, by decide, by decide⟩,
    ⟨updatingWith (cmd codeWrite [1, 1]) (update .data .commitMark 1) _ [] [], _, _, ⟨rfl, 0, rfl⟩, rfl, rfl, by decide, by decide, by decide⟩,
    ⟨busy.setDir [], record, { key := 0x0101#16, triggers := 1, self := false }, by decide, by decide, by decide⟩,
    ⟨busy, record, { key := 0x0101#16, triggers := 1, self := false }, by decide, by decide⟩⟩

theorem test_supersede_premises :
    (∃ (s : State) (c : Cmd) (u : Update), s.carries .engine (.programMark ⟨3, 1⟩ .second) ∧ s.engine.work = .updating .p0 c u ∧
      u.stage = .supersede ∧ markLeft (markWord s.array.cells ⟨3, 1⟩ .second) false = Config.markPresent ∧
      markLeft (markWord s.array.cells ⟨3, 1⟩ .second) true ≠ Config.markPresent) ∧
    (∃ (s : State) (u : Update) (r : Pos), (lookup s.engine.dir u.key).bind Entry.retry = some r ∧ u.retryAtStart = some r ∧
      (s.seg r.seg).state ≠ .victim ∧ (s.seg r.seg).state ≠ .erasing) ∧
    ∃ (s : State) (c : Cmd) (u : Update), s.carries .engine (.programMark ⟨2, 1⟩ .second) ∧ s.engine.work = .updating .p0 c u ∧
      u.stage = .retryMark :=
  ⟨⟨updatingWith (cmd codeWrite [1, 1]) (update .data .supersede 1) _ [] [entry 0x0101#16 .live 1 0], _, _, ⟨rfl, 0, rfl⟩, rfl, rfl,
      by decide, by decide⟩,
    ⟨(opened .ready).setDir [{ entry 0x0101#16 .live 1 0 with stale := 1, retry := some ⟨2, 1⟩ }],
      { update .data .supersede 1 with retryAtStart := some ⟨2, 1⟩ }, ⟨2, 1⟩, by decide, rfl, by decide, by decide⟩,
    ⟨updatingWith (cmd codeWrite [1, 1]) (update .data .retryMark 1) _ [] [], _, _, ⟨rfl, 0, rfl⟩, rfl, rfl⟩⟩

/-- A retried mark of the cell that the pending move copies to, which takes and which does not. -/
theorem test_retried_move_premises :
    ∃ (s : State) (c : Cmd) (u : Update) (m : Move), s.carries .engine (.programMark ⟨8, 2⟩ .second) ∧ s.engine.work = .updating .p0 c u ∧
      u.stage = .retryMark ∧ s.engine.move = some m ∧ m.copy = ⟨8, 2⟩ ∧ s.markTakes ⟨8, 2⟩ .second false ∧ ¬ s.markTakes ⟨8, 2⟩ .second true :=
  ⟨(updatingWith (cmd codeWrite [1, 1]) (update .data .retryMark 1) _ [] []).setMove
      (some { key := 0x0101#16, version := 1, victim := ⟨3, 1⟩, copy := ⟨8, 2⟩, overtaken := .unmarked }), _, _, _, ⟨rfl, 0, rfl⟩, rfl, rfl, rfl,
    rfl, by unfold State.markTakes; decide, by unfold State.markTakes; decide⟩

/-! ## Reads and scans -/

theorem test_read_premises :
    (∃ (s : State) (c : Cmd), s.starts .p0 c ∧ c.code = codeRead ∧ checkRead c = none ∧ s.store.state ≠ .unformatted ∧
      ∀ e, lookup s.engine.dir c.key = some e → e.state = .gone) ∧
    (∃ (s : State) (c : Cmd) (e : Entry), s.starts .p0 c ∧ c.code = codeRead ∧ checkRead c = none ∧ s.store.state ≠ .unformatted ∧
      lookup s.engine.dir c.key = some e ∧ e.state = .live ∧ e.length < c.readOffset) ∧
    ∃ (s : State) (c : Cmd) (e : Entry), s.starts .p0 c ∧ c.code = codeRead ∧ checkRead c = none ∧ s.store.state ≠ .unformatted ∧
      lookup s.engine.dir c.key = some e ∧ e.state = .live ∧ c.readOffset = e.length :=
  ⟨⟨updating (cmd codeRead [1, 1]) [entry 0x0101#16 .gone 1 0], _, ⟨rfl, rfl, rfl⟩, rfl, by decide, by decide, fun e h => by
      obtain rfl : entry 0x0101#16 .gone 1 0 = e := Option.some.inj h
      rfl⟩,
    ⟨updating (cmd codeRead [1, 1, 0, 5]) [entry 0x0101#16 .live 1 4], _, entry 0x0101#16 .live 1 4, ⟨rfl, rfl, rfl⟩, rfl, by decide,
      by decide, by decide, rfl, by decide⟩,
    ⟨updating (cmd codeRead [1, 1, 0, 4]) [entry 0x0101#16 .live 1 4], _, entry 0x0101#16 .live 1 4, ⟨rfl, rfl, rfl⟩, rfl, by decide,
      by decide, by decide, rfl, by decide⟩⟩

/-- The Engine reads a cell over an array's bytes. -/
def reading (w : Work) (cells : List Host.Cell) : State := (carrying w .engine (.readCell ⟨3, 1⟩ true)).setCells cells

theorem test_read_completion_premises :
    (∃ (s : State) (c : Cmd) (b : Body), s.carries .engine (.readCell ⟨3, 1⟩ true) ∧ s.engine.work = .reading .p0 c 1 0 ∧
      (readData s.array.cells ⟨3, 1⟩).body = some b ∧ b.key = c.key ∧ b.version = 1 ∧ (readData s.array.cells ⟨3, 1⟩).payloadGood = true) ∧
    (∃ (s : State) (c : Cmd), s.carries .engine (.readCell ⟨3, 1⟩ true) ∧ s.engine.work = .reading .p0 c 1 0 ∧
      ∀ b, (readData s.array.cells ⟨3, 1⟩).body = some b → b.key = c.key → b.version = 1 →
        (readData s.array.cells ⟨3, 1⟩).payloadGood = false) :=
  ⟨⟨reading (.reading .p0 (cmd codeRead [1, 1]) 1 0) stored, _, record, ⟨rfl, 0, rfl⟩, rfl, test_stored_record_reads_back.1, by decide, rfl,
      test_stored_record_reads_back.2.1⟩,
    ⟨reading (.reading .p0 (cmd codeRead [1, 1]) 1 0) disturbed, _, ⟨rfl, 0, rfl⟩, rfl,
      fun _ _ _ _ => test_disturbed_record_fails_its_check.1⟩⟩

/-- The stop byte is copied and counted, and comes before the record's and the buffer's ends. -/
theorem test_read_copy :
    readCopy (some 9) 2 [5, 9, 6] = ([5, 9], .stopByte) ∧ readCopy none 2 [5, 9] = ([5, 9], .endOfRecord) ∧
      readCopy none 2 [5, 9, 6] = ([5, 9], .bufferEnd) := by decide

theorem test_stat_premises :
    (∃ (s : State) (c : Cmd), s.starts .p0 c ∧ c.code = codeStat ∧ c.key ≠ 0x0000#16 ∧ c.key ≠ 0xFFFF#16 ∧ s.store.state = .unformatted) ∧
    (∃ (s : State) (c : Cmd) (e : Entry), s.starts .p0 c ∧ c.code = codeStat ∧ c.key ≠ 0x0000#16 ∧ c.key ≠ 0xFFFF#16 ∧
      s.store.state ≠ .unformatted ∧ lookup s.engine.dir c.key = some e) ∧
    ∃ (s : State) (c : Cmd), s.starts .p0 c ∧ c.code = codeStat ∧ c.key ≠ 0x0000#16 ∧ c.key ≠ 0xFFFF#16 ∧
      s.store.state ≠ .unformatted ∧ lookup s.engine.dir c.key = none :=
  ⟨⟨taken .unformatted (cmd codeStat [1, 1]), _, ⟨rfl, rfl, rfl⟩, rfl, by decide, by decide, rfl⟩,
    ⟨updating (cmd codeStat [1, 1]) [entry 0x0101#16 .live 1 4], _, entry 0x0101#16 .live 1 4, ⟨rfl, rfl, rfl⟩, rfl, by decide, by decide,
      by decide, by decide⟩,
    ⟨updating (cmd codeStat [1, 1]) [], _, ⟨rfl, rfl, rfl⟩, rfl, by decide, by decide, by decide, by decide⟩⟩

theorem test_scan_premises :
    (∃ (s : State) (c : Cmd), s.starts .p0 c ∧ c.code = codeScan ∧ checkScan c = none ∧ s.store.state ≠ .unformatted ∧
      c.scanOutLast < c.scanOutFirst + 1) ∧
    (∃ (s : State) (c : Cmd), s.starts .p0 c ∧ c.code = codeScan ∧ checkScan c = none ∧ s.store.state ≠ .unformatted ∧
      c.scanOutFirst + 1 = c.scanOutLast) ∧
    (∃ (s : State) (c : Cmd), s.engine.work = .resuming .p0 c scanCtx ∧ s.running = true ∧ s.isOpen = true) ∧
    (∃ (d : List Entry) (k : ScanCtx), (∀ e ∈ d, k.cursor ≤ e.key → e.key ≤ k.high → e.key ≠ 0x0000#16 → e.state = .gone) ∧ DirOk d ∧ d ≠ []) ∧
    (∃ (d : List Entry) (k : ScanCtx) (e : Entry), DirOk d ∧ e ∈ d ∧ k.cursor ≤ e.key ∧ e.key ≤ k.high ∧ e.key ≠ 0x0000#16 ∧
      e.key ≠ 0xFFFF#16 ∧ e.state = .live ∧ (∀ x ∈ d, k.cursor ≤ x.key → x.key < e.key → x.key = 0x0000#16 ∨ x.state = .gone) ∧
      k.windowOffset + k.width = e.length) ∧
    ∃ (d : List Entry) (k : ScanCtx) (e : Entry), DirOk d ∧ e ∈ d ∧ k.cursor ≤ e.key ∧ e.key ≤ k.high ∧ e.key ≠ 0x0000#16 ∧
      e.key ≠ 0xFFFF#16 ∧ e.state = .live ∧ (∀ x ∈ d, k.cursor ≤ x.key → x.key < e.key → x.key = 0x0000#16 ∨ x.state = .gone) ∧
      e.length < k.windowOffset + k.width :=
  ⟨⟨taken .ready (cmd codeScan [0, 1, 0xFF, 0xFE, 0, 0, 1, 1, 1, 0, 0, 0, 1, 0, 1]), _, ⟨rfl, rfl, rfl⟩, rfl, by decide, by decide, by decide⟩,
    ⟨taken .ready (cmd codeScan [0, 1, 0xFF, 0xFE, 0, 0, 1, 1, 1, 0, 0, 0, 1, 0, 2]), _, ⟨rfl, rfl, rfl⟩, rfl, by decide, by decide, by decide⟩,
    ⟨(opened .ready).setWork (.resuming .p0 (cmd codeScan []) scanCtx), _, rfl, rfl, rfl⟩,
    ⟨[entry 0x0101#16 .gone 1 0], scanCtx, by decide, List.pairwise_singleton _ _, by decide⟩,
    ⟨[entry 0x0101#16 .live 1 1], scanCtx, _, List.pairwise_singleton _ _, List.mem_singleton.2 rfl, by decide, by decide, by decide, by decide,
      rfl, by decide, rfl⟩,
    ⟨[entry 0x0101#16 .live 1 0], scanCtx, _, List.pairwise_singleton _ _, List.mem_singleton.2 rfl, by decide, by decide, by decide, by decide,
      rfl, by decide, by decide⟩⟩

theorem test_scan_examination_premises :
    (∃ (s : State) (c : Cmd), s.carries .engine (.readCell ⟨3, 1⟩ true) ∧ s.engine.work = .scanning .p0 c scanCtx 0x0101#16 1 ∧
      (readData s.array.cells ⟨3, 1⟩).accept 0x0101#16 1 = none) ∧
    (∃ (s : State) (c : Cmd) (b : Body), s.carries .engine (.readCell ⟨3, 1⟩ true) ∧ s.engine.work = .scanning .p0 c scanCtx 0x0101#16 1 ∧
      (readData s.array.cells ⟨3, 1⟩).accept 0x0101#16 1 = some b ∧
      scanCtx.relation.holds ((b.payload.drop scanCtx.windowOffset).take scanCtx.width) scanCtx.pattern = false) ∧
    (∃ (s : State) (c : Cmd) (b : Body) (k : ScanCtx), s.carries .engine (.readCell ⟨3, 1⟩ true) ∧
      s.engine.work = .scanning .p0 c k 0x0101#16 1 ∧ (readData s.array.cells ⟨3, 1⟩).accept 0x0101#16 1 = some b ∧
      k.relation.holds ((b.payload.drop k.windowOffset).take k.width) k.pattern = true) ∧
    { scanCtx with matched := 1 }.afterExam false false = some (.finish .limit { scanCtx with matched := 1 }) ∧
    scanCtx.afterExam false false = none :=
  ⟨⟨reading (.scanning .p0 (cmd codeScan []) scanCtx 0x0101#16 1) disturbed, _, ⟨rfl, 0, rfl⟩, rfl, by decide +kernel⟩,
    ⟨reading (.scanning .p0 (cmd codeScan []) scanCtx 0x0101#16 1) stored, _, record, ⟨rfl, 0, rfl⟩, rfl, by decide +kernel, by decide⟩,
    ⟨reading (.scanning .p0 (cmd codeScan []) { scanCtx with relation := .ne } 0x0101#16 1) stored, _, record, { scanCtx with relation := .ne },
      ⟨rfl, 0, rfl⟩, rfl, by decide +kernel, by decide⟩, by decide, by decide⟩

/-! ## Claims and watches -/

/-- A claim of a port on a key. -/
def claimOf (p : Port) (k : Key) : Claim := { key := k, holder := p, remaining := 0, overdue := 0 }

theorem test_claim_premises :
    (checkClaim (cmd codeClaim [1, 1, 0xEA, 0x60]) = none ∧ (cmd codeClaim [1, 1, 0xEA, 0x60]).code = codeClaim) ∧
    (∃ x, [claimOf .p0 0x0101#16].find? (fun x => x.key == (cmd codeClaim [1, 1, 0, 1]).key) = some x ∧ x.holder = .p0) ∧
    (∃ x, [claimOf .p1 0x0101#16].find? (fun x => x.key == (cmd codeClaim [1, 1, 0, 1]).key) = some x ∧ x.holder ≠ .p0) ∧
    (∃ cs : List Claim, cs.find? (fun x => x.key == (cmd codeClaim [1, 1, 0, 1]).key) = none ∧ claimsOf cs .p0 = 8 ∧ cs.length < 16) ∧
    (∃ cs : List Claim, cs.find? (fun x => x.key == (cmd codeClaim [1, 1, 0, 1]).key) = none ∧ cs.length = 16) ∧
    (∃ cs : List Claim, cs.find? (fun x => x.key == (cmd codeClaim [1, 1, 0, 1]).key) = none ∧ cs.length = 15 ∧ claimsOf cs .p0 = 7) ∧
    (checkKey (cmd codeRelease [1, 1]) = none ∧ (claimOf .p0 0x0101#16).remaining = 0) ∧
    ∀ (c : Cmd) (cs : List Claim), ((taken .ready c).setClaims cs).starts .p0 c ∧ ((taken .ready c).setClaims cs).store.state ≠ .unformatted ∧
      ((taken .ready c).setClaims cs).running = true :=
  ⟨by decide, ⟨_, rfl, rfl⟩, ⟨_, rfl, by decide⟩, ⟨List.replicate 8 (claimOf .p0 2#16), by decide, by decide, by decide⟩,
    ⟨List.replicate 16 (claimOf .p1 2#16), by decide, by decide⟩,
    ⟨List.replicate 7 (claimOf .p0 2#16) ++ List.replicate 8 (claimOf .p1 3#16), by decide, by decide, by decide⟩, by decide,
    fun _ _ => ⟨⟨rfl, rfl, rfl⟩, fun h => StoreState.noConfusion h, rfl⟩⟩

/-- A claim's remaining time is reported in milliseconds, rounded up. -/
theorem test_remaining_ms :
    ({ claimOf .p0 1 with remaining := 1 } : Claim).remainingMs = 1 ∧ ({ claimOf .p0 1 with remaining := 1000 } : Claim).remainingMs = 1 ∧
      ({ claimOf .p0 1 with remaining := 1001 } : Claim).remainingMs = 2 := by decide

/-- A watch on a key. -/
def watch (k : Key) : Watch := { key := k, triggers := 3, self := true }

theorem test_watch_premises :
    (checkWatchSet (cmd codeWatchSet [1, 1, 7, 1]) = none ∧ checkWatchClear (cmd codeWatchClear [1, 1, 1]) = none ∧
      checkWatchList (cmd codeWatchList [7, 0xFF, 7, 0xFF]) = none) ∧
    watchOf [watch 0x0101#16] (cmd codeWatchSet [1, 1, 7, 1]).key = some (watch 0x0101#16) ∧
    (∃ ws : List Watch, watchOf ws (cmd codeWatchSet [1, 1, 7, 1]).key = none ∧ ws.length = 7) ∧
    (∃ ws : List Watch, watchOf ws (cmd codeWatchSet [1, 1, 7, 1]).key = none ∧ ws.length = 8) ∧
    ∀ (c : Cmd) (ws : List Watch), ((taken .ready c).setWatches .p0 ws).starts .p0 c ∧
      ((taken .ready c).setWatches .p0 ws).store.state ≠ .unformatted :=
  ⟨by decide, by decide, ⟨List.replicate 7 (watch 2#16), by decide, rfl⟩, ⟨List.replicate 8 (watch 2#16), by decide, rfl⟩,
    fun _ _ => ⟨⟨rfl, rfl, rfl⟩, fun h => StoreState.noConfusion h⟩⟩

/-! ## Guards, RECLAIM and FORMAT -/

/-- Table 7-1's rows 1 and 8, and the complement. -/
theorem test_guard_pages :
    guardProtects { upper := true, size := 1, complement := false } 0xFF = true ∧
      guardProtects { upper := true, size := 1, complement := false } 0xFE = false ∧
      guardProtects { upper := false, size := 8, complement := true } 0x80 = true ∧
      guardProtects { upper := false, size := 8, complement := true } 0x7F = false := by decide

theorem test_guard_read_premises :
    (taken .ready (cmd codeGuardRead [3])).starts .p0 (cmd codeGuardRead [3]) ∧ (cmd codeGuardRead [3]).target = some .p3 :=
  ⟨⟨rfl, rfl, rfl⟩, by decide⟩

/-- A GUARD SET of P1 with the lock request PIN. -/
def guardSet : Cmd := cmd codeGuardSet [1, 0x09, 2]

/-- The configuration record as GUARD SET writes it. -/
def configUpdate : Update :=
  { update .config .commitMark 1 with key := 0x0000#16, payload := some (settingsBytes Settings.default, crc16 (settingsBytes Settings.default)) }

theorem test_guard_set_premises :
    ((taken .ready guardSet).starts .p0 guardSet ∧ guardSet.target = some .p1 ∧
      guardSet.newGuard = some { upper := false, size := 9, complement := false } ∧ guardSet.byte 2 ≤ 4 ∧
      (taken .ready guardSet).store.state = .ready ∧ (taken .ready guardSet).unguarded .p0 = true ∧ (taken .ready guardSet).lockCheck = none ∧
      entryVersion (taken .ready guardSet).engine.dir 0x0000#16 ≠ 0xFFFFFFFF#32) ∧
    ((taken .ready guardSet).setGuard { GuardUnit.reset with settings := Settings.closed }).unguarded .p0 = false ∧
    ((taken .ready guardSet).setGuard { GuardUnit.reset with session := true }).lockCheck = some 0x0002#16 ∧
    entryVersion ((taken .ready guardSet).setDir [entry 0 .live 0xFFFFFFFF#32 6]).engine.dir 0x0000#16 = 0xFFFFFFFF#32 ∧
    parseSettings configUpdate.bytes = some Settings.default ∧
    ∃ (s : State), s.carries .engine (.programMark ⟨3, 2⟩ .first) ∧ s.engine.work = .updating .p0 guardSet configUpdate ∧
      configUpdate.stage = .commitMark ∧ configUpdate.kind = .config ∧
      markLeft (markWord s.array.cells ⟨3, 2⟩ .first) false = Config.markPresent ∧ lookup s.engine.dir configUpdate.key ≠ none :=
  ⟨⟨⟨rfl, rfl, rfl⟩, by decide, by decide, by decide, rfl, by decide, by decide, by decide⟩, by decide, by decide, by decide, by decide,
    updatingWith guardSet configUpdate _ [] [entry 0 .live 1 6], ⟨rfl, 0, rfl⟩, rfl, rfl, rfl, by decide, by decide⟩

/-- A machine whose Engine has taken a RECLAIM, with a FULL segment that holds dead cells. -/
def reclaiming (live : Nat) : State :=
  (taken .ready (cmd codeReclaim [])).setSeg 7 { state := .full, erases := 1, live := live, dead := 31 - live, free := 0 }

theorem test_reclaim_premises :
    (∀ n, (reclaiming n).starts .p0 (cmd codeReclaim []) ∧ (reclaiming n).store.state = .ready ∧ (reclaiming n).space.pass = none) ∧
    (taken .ready (cmd codeReclaim [])).victim = none ∧ (reclaiming 30).victim = some 7 ∧
    (reclaiming 1).space.frontFree.length + 31 * (reclaiming 1).freeCount < ((reclaiming 1).seg 7).live ∧
    ((reclaiming 0).seg 7).live = (reclaiming 0).space.frontFree.length + 31 * (reclaiming 0).freeCount ∧
    (cmd codeStoreInfo [7, 0xE0]).infoOffset = 2016 :=
  ⟨fun _ => ⟨⟨rfl, rfl, rfl⟩, rfl, rfl⟩, by decide +kernel, by decide +kernel, by decide +kernel, by decide +kernel, by decide⟩

/-- A FORMAT that keeps the guards, with reclaim threshold 16. -/
def format : Cmd := cmd codeFormat [0, 16]

theorem test_format_premises :
    ((taken .unformatted format).starts .p0 format ∧ format.code = codeFormat ∧ checkFormat format = none ∧
      (taken .unformatted format).unguarded .p0 = true ∧ (taken .unformatted format).lockCheck = none ∧
      (taken .unformatted format).engine.dir.filter (fun e => isPermanent e.key && e.state == .live) = [] ∧
      (taken .unformatted format).store.generation ≠ 0xFFFF#16 ∧ ((taken .unformatted format).seg 0).state ≠ .retired) ∧
    ((taken .ready format).setGuard { GuardUnit.reset with settings := Settings.closed }).unguarded .p0 = false ∧
    ((taken .ready format).setGuard { GuardUnit.reset with standing := .unreadable }).lockCheck = some 0x0001#16 ∧
    [entry 0xFF00#16 .live 1 0].filter (fun e => isPermanent e.key && e.state == .live) = [entry 0xFF00#16 .live 1 0] ∧
    ((taken .ready format).setGeneration 0xFFFF#16).store.generation = 0xFFFF#16 ∧
    (∀ g, (((taken .ready format).setSegs (Vector.replicate 256 { SegRow.unlisted with state := .retired })).seg g).state = .retired) ∧
    ((taken .ready format).setPort .p1 { PortUnit.reset with slot := .parked (cmd codeScan []) scanCtx }).ports.p1.slot =
      .parked (cmd codeScan []) scanCtx :=
  ⟨⟨⟨rfl, rfl, rfl⟩, rfl, by decide, by decide, by decide, rfl, by decide, by decide⟩, by decide, by decide, by decide, rfl, by decide +kernel, rfl⟩

/-- A FORMAT that ends two claims of P1, and a pass whose request waits: its victim is given, and whether its erase has been requested. -/
def formatOver (v : SegState) : State :=
  ((((taken .ready format).setClaims [{ key := 0x0101#16, holder := .p1, remaining := 5, overdue := 0 },
    { key := 0x0102#16, holder := .p1, remaining := 5, overdue := 0 }]).setPass
      (some { victim := 3, stage := .copying, cursor := 1, image := none, attempt := 1, noted := [], awaits := .victimRead })).setSeg 3
        { state := v, erases := 0, live := 1, dead := 30, free := 0 }).presentSpace (.readCell ⟨3, 1⟩ true)

theorem test_format_acceptance_premises :
    (∀ v, (formatOver v).starts .p0 format ∧ (formatOver v).engine.dir = [] ∧ (formatOver v).store.generation ≠ 0xFFFF#16 ∧
      (formatOver v).unguarded .p0 = true ∧ (formatOver v).lockCheck = none ∧ (formatOver v).array.waitSpace ≠ none ∧
      ((formatOver v).seg 3).state = v ∧ (∃ q, (formatOver v).space.pass = some q ∧ q.victim = 3) ∧
      (formatOver v).coord.claims.filter (fun x => x.holder == .p1) = (formatOver v).coord.claims) ∧
    (taken .ready format).space.pass = none ∧ (SegState.victim ≠ .erasing) :=
  ⟨fun v => ⟨⟨rfl, rfl, rfl⟩, rfl, by cases v <;> decide, by cases v <;> decide, by cases v <;> decide, by simp [formatOver, State.presentSpace],
      rfl, ⟨_, rfl, rfl⟩, by cases v <;> decide⟩, rfl, by decide⟩

/-- FORMAT at a stage, with its operation in flight. -/
def formatDoing (f : FormatAwaits) (op : ArrayOp) : State :=
  (carrying (.formatting .p0 format) .store op).setProgress (.formatting f)

theorem test_format_end_premises :
    (∀ f op, (formatDoing f op).carries .store op ∧ (formatDoing f op).store.progress = .formatting f ∧
      (formatDoing f op).engine.work = .formatting .p0 format) ∧
    ((opened .ready).seg 200).state ≠ .retired ∧
    (∀ g, (((opened .ready).setSegs (Vector.replicate 256 { SegRow.unlisted with state := .retired })).seg g).state = .retired) ∧
    (eraseVerifies [] 5 1 2 [] = true ∧ eraseVerifies [] 5 1 2 [(0, 0)] = false ∧ eraseVerifies [] 5 1 50000 [] = true) ∧
    (∀ h : Seg, ∃ (s : State) (e : EraseCtx), s.running = true ∧ s.array.inFlight = none ∧ s.array.erase = some e ∧ e.state ≠ .suspended ∧
      s.space.pass = none ∧ s.store.progress = .formatting (.erase h []) ∧ e.seg = 5) ∧
    ((fronted [31]).setWork (.formatting .p0 format)).copyGrant ≠ none ∧ ((opened .ready).setWork (.formatting .p0 format)).copyGrant = none ∧
    ({ guards := Settings.default.guards, mode := .opened, threshold := format.threshold } : Settings).thresholdOk :=
  ⟨fun _ _ => ⟨⟨rfl, 0, rfl⟩, rfl, rfl⟩, by decide +kernel, by decide +kernel, by decide +kernel,
    fun h => ⟨((opened .formatting).setErase (some (erasing .running 0))).setProgress (.formatting (.erase h [])), _, rfl, rfl, rfl, by decide, rfl,
      rfl, rfl⟩,
    by decide +kernel, by decide +kernel, by unfold Settings.thresholdOk; decide⟩

/-- A reclaim erase of segment 5 that fails during FORMAT: the mark it owes waits behind the request for segment 0, and stands in place of one for segment 5. -/
theorem test_reclaim_erase_retires_during_format :
    (((opened .formatting).setProgress (.formatting (.erase 0 []))).formatAfterReclaim 5 2 false).store.progress = .formatting (.erase 0 [5]) ∧
    (((opened .formatting).setProgress (.formatting (.erase 5 []))).formatAfterReclaim 5 2 false).array.waitStore =
      some (.programMark ⟨5, 0⟩ .first) ∧
    ((opened .formatting).formatErased 0 [5] 1 true).array.waitStore = some (.programMark ⟨5, 0⟩ .first) ∧
    ((opened .formatting).formatErased 0 [5] 1 true).store.progress = .formatting (.retireMark 5 1 []) := by
  decide +kernel

theorem test_format_write_premises :
    (formatDoing (.configBody ⟨3, 1⟩ 2) (.programBody ⟨3, 1⟩ record)).bodyTakes ⟨3, 1⟩ record [] ∧
    ¬ (formatDoing (.configBody ⟨3, 1⟩ 2) (.programBody ⟨3, 1⟩ record)).bodyTakes ⟨3, 1⟩ record [(0, 0xFF)] ∧
    ¬ (formatDoing (.configBody ⟨3, 1⟩ 3) (.programBody ⟨3, 1⟩ record)).bodyTakes ⟨3, 1⟩ record [(0, 0xFF)] ∧
    (formatDoing (.configMark ⟨3, 1⟩ 1) (.programMark ⟨3, 1⟩ .first)).markTakes ⟨3, 1⟩ .first false ∧
    ¬ (formatDoing (.configMark ⟨3, 1⟩ 2) (.programMark ⟨3, 1⟩ .first)).markTakes ⟨3, 1⟩ .first true ∧
    ¬ (formatDoing (.configMark ⟨3, 1⟩ 3) (.programMark ⟨3, 1⟩ .first)).markTakes ⟨3, 1⟩ .first true := by
  unfold State.bodyTakes State.markTakes
  decide +kernel

/-! ## Reclaim and mount -/

/-- A pass on segment 3 that awaits the read of its cell 1. -/
def pass : Pass := { victim := 3, stage := .copying, cursor := 1, image := none, attempt := 1, noted := [], awaits := .victimRead }

/-- A machine in which the pass's read of its victim's cell 1 is in flight. -/
def passing (cells : List Host.Cell) (d : List Entry) : State :=
  (((((opened .ready).setPass (some pass)).setInFlight (some { requester := .space, op := .readCell ⟨3, 1⟩ true, age := 0 })).setCells cells
    ).setDir d).setFrontFree [2]

theorem test_pass_premises :
    (∀ cells d, (passing cells d).carries .space (.readCell ⟨3, 1⟩ true) ∧ (passing cells d).space.pass = some pass) ∧
    pass.awaits = .victimRead ∧ pass.cursor.val + 1 < 32 ∧ (∀ e ∈ (passing stored []).engine.dir, e.cell ≠ ⟨3, 1⟩) ∧
    namedBy [entry 0x0101#16 .gone 1 0] ⟨3, 1⟩ = some (entry 0x0101#16 .gone 1 0) ∧
    namedBy [entry 0x0101#16 .live 1 0] ⟨3, 1⟩ = some (entry 0x0101#16 .live 1 0) ∧
    ((passing stored [entry 0x0101#16 .live 1 0]).setSeg 8 { state := .front, erases := 0, live := 1, dead := 0, free := 1 }).front = some 8 ∧
    (∃ (s : State) (e : EraseCtx), s.running = true ∧ s.array.inFlight = none ∧ s.array.erase = some e ∧ e.state ≠ .suspended ∧
      s.space.pass = some pass ∧ e.count < 50000 ∧ eraseVerifies s.array.cells e.seg e.generation e.count [] = true) ∧
    ∃ (s : State) (e : EraseCtx), s.running = true ∧ s.array.inFlight = none ∧ s.array.erase = some e ∧ e.state ≠ .suspended ∧
      s.space.pass = some pass ∧ e.count = 50000 :=
  ⟨fun _ _ => ⟨⟨rfl, 0, rfl⟩, rfl⟩, rfl, by decide, by decide, by decide, by decide, by decide +kernel,
    ⟨((opened .ready).setPass (some pass)).setErase (some (erasing .running 0)), _, rfl, rfl, rfl, by decide, rfl, by decide, by decide +kernel⟩,
    ⟨((opened .ready).setPass (some pass)).setErase (some { erasing .running 0 with count := 50000 }), _, rfl, rfl, rfl, by decide, rfl, rfl⟩⟩

/-- The victim cell read with no good body, and read COMMITTED. -/
theorem test_victim_read_premises :
    (readData (passing [] []).array.cells ⟨3, 1⟩).body = none ∧ (readData (passing [] []).array.cells ⟨3, 1⟩).cond ≠ .committed ∧
      (readData (passing stored []).array.cells ⟨3, 1⟩).cond = .committed ∧ pass.noted = [] ∧
      (entry 0x0101#16 .gone 1 0).stale = 0 ∧ (entry 0x0101#16 .live 1 0).state ≠ .gone := by
  decide +kernel

/-- A pass whose operation is in flight, over a directory. -/
def passDoing (q : Pass) (op : ArrayOp) (d : List Entry) : State :=
  (((opened .ready).setPass (some q)).setInFlight (some { requester := .space, op := op, age := 0 })).setDir d

/-- The pass awaiting the outcome of a program for the record of its victim's cell 1. -/
def awaiting (w : Awaits) : Pass := { pass with image := some record, awaits := w }

/-- The copy of that record in cell 2 of segment 8, under way. -/
def moveOf (o : Overtaken) : Move := { key := 0x0101#16, version := 1, victim := ⟨3, 1⟩, copy := ⟨8, 2⟩, overtaken := o }

theorem test_pass_carries (q : Pass) (op : ArrayOp) (d : List Entry) :
    (passDoing q op d).carries .space op ∧ (passDoing q op d).space.pass = some q := ⟨⟨rfl, 0, rfl⟩, rfl⟩

theorem test_copy_body_premises :
    (∀ d, (passDoing (awaiting (.copyBody ⟨8, 2⟩)) (.programBody ⟨8, 2⟩ record) d).bodyTakes ⟨8, 2⟩ record [] ∧
      ¬ (passDoing (awaiting (.copyBody ⟨8, 2⟩)) (.programBody ⟨8, 2⟩ record) d).bodyTakes ⟨8, 2⟩ record [(0, 0xFF)]) ∧
    (∀ e, lookup [entry 0x0101#16 .live 2 0] record.key = some e → e.cell ≠ ⟨3, 1⟩ ∨ e.version ≠ record.version) ∧
    lookup [entry 0x0101#16 .live 1 0] record.key = some (entry 0x0101#16 .live 1 0) ∧
      (entry 0x0101#16 .live 1 0).cell = ⟨3, 1⟩ ∧ (entry 0x0101#16 .live 1 0).version = record.version := by
  have takes : bodyLeft (dataArea [] ⟨8, 2⟩) (bodyBytes record) [] = bodyBytes record ∧
      bodyLeft (dataArea [] ⟨8, 2⟩) (bodyBytes record) [(0, 0xFF)] ≠ bodyBytes record := by decide +kernel
  refine ⟨fun _ => takes, fun e h => ?_, by decide, by decide, by decide⟩
  obtain rfl : entry 0x0101#16 .live 2 0 = e := Option.some.inj h
  exact .inr (by decide)

theorem test_copy_commit_premises :
    (∀ o d, ((passDoing (awaiting (.copyCommit ⟨8, 2⟩)) (.programMark ⟨8, 2⟩ .first) d).setMove (some (moveOf o))).markTakes ⟨8, 2⟩ .first false ∧
      ¬ ((passDoing (awaiting (.copyCommit ⟨8, 2⟩)) (.programMark ⟨8, 2⟩ .first) d).setMove (some (moveOf o))).markTakes ⟨8, 2⟩ .first true) ∧
    (∀ e, lookup [entry 0x0101#16 .live 2 0] (moveOf .none).key = some e → e.cell ≠ (moveOf .none).copy) ∧
    ∃ e, lookup [{ entry 0x0101#16 .live 1 0 with cell := ⟨8, 2⟩ }] (moveOf .none).key = some e ∧ e.cell = (moveOf .none).copy := by
  have takes : markLeft (markWord [] ⟨8, 2⟩ .first) false = Config.markPresent ∧ markLeft (markWord [] ⟨8, 2⟩ .first) true ≠ Config.markPresent := by
    decide
  refine ⟨fun _ _ => takes, fun e h => ?_, _, rfl, rfl⟩
  obtain rfl : entry 0x0101#16 .live 2 0 = e := Option.some.inj h
  decide

theorem test_drop_mark_premises :
    (∀ d, (passDoing (awaiting .dropMark) (.programMark ⟨3, 1⟩ .second) d).markTakes ⟨3, 1⟩ .second false ∧
      ¬ (passDoing (awaiting .dropMark) (.programMark ⟨3, 1⟩ .second) d).markTakes ⟨3, 1⟩ .second true) ∧
    (lookup [entry 0x0101#16 .gone 1 0] record.key = some (entry 0x0101#16 .gone 1 0) ∧ (entry 0x0101#16 .gone 1 0).cell = ⟨3, 1⟩ ∧
      (entry 0x0101#16 .gone 1 0).stale = 0) ∧
    ∀ e, lookup [entry 0x0101#16 .live 1 0] record.key = some e → e.state ≠ .gone ∨ e.cell ≠ ⟨3, 1⟩ ∨ e.stale ≠ 0 := by
  have takes : markLeft (markWord [] ⟨3, 1⟩ .second) false = Config.markPresent ∧ markLeft (markWord [] ⟨3, 1⟩ .second) true ≠ Config.markPresent := by
    decide
  refine ⟨fun _ => takes, by decide, fun e h => ?_⟩
  obtain rfl : entry 0x0101#16 .live 1 0 = e := Option.some.inj h
  exact .inl (by decide)

/-- The tombstone's cell noted, and re-created elsewhere: its drop mark is DONE and the drop is not accepted. -/
def notedDrop : Pass := { awaiting .dropMark with noted := [(1, 0x0101#16), (2, 0x0102#16)] }

theorem test_noted_drop_premises :
    (passDoing notedDrop (.programMark ⟨3, 1⟩ .second) []).markTakes ⟨3, 1⟩ .second false ∧
    (∃ n ∈ notedDrop.noted, n.1 = notedDrop.cursor) ∧ (∀ n ∈ (awaiting .dropMark).noted, n.1 ≠ (awaiting .dropMark).cursor) ∧
    (∀ e, lookup [{ entry 0x0101#16 .live 1 0 with cell := ⟨8, 2⟩, stale := 1, retry := some ⟨3, 1⟩ }] record.key = some e →
      e.state ≠ .gone ∨ e.cell ≠ ⟨3, 1⟩ ∨ e.stale ≠ 0) := by
  refine ⟨by unfold State.markTakes; decide, ⟨_, List.mem_cons_self, rfl⟩, fun n h => absurd h List.not_mem_nil, fun e h => ?_⟩
  obtain rfl : { entry 0x0101#16 .live 1 0 with cell := ⟨8, 2⟩, stale := 1, retry := some ⟨3, 1⟩ } = e := Option.some.inj h
  exact .inl (by decide)

theorem test_retired_mark_premises :
    (passDoing (awaiting .retiredMark) (.programMark ⟨3, 0⟩ .first) []).carries .space (.programMark ⟨3, 0⟩ .first) ∧
      (awaiting .retiredMark).awaits = .retiredMark := ⟨⟨rfl, 0, rfl⟩, rfl⟩

/-- A READY machine with FREE segments, one FULL segment and a number of live cells in it. -/
def waiting (free : List Seg) (live : Nat) : State :=
  (opened .ready).setSegs (Vector.ofFn (fun g =>
    if g ∈ free then { state := .free, erases := 0, live := 0, dead := 0, free := 0 }
    else if g = 7 then { state := .full, erases := 0, live := live, dead := 31 - live, free := 0 }
    else SegRow.unlisted))

theorem test_pass_step_premises :
    ((pass.cursor.val + 1 < 32) ∧ ({ pass with cursor := 31 } : Pass).cursor = 31) ∧
    ((∀ e ∈ (opened .ready).engine.dir, e.cell.seg ≠ pass.victim) ∧ (opened .ready).engine.move = none) ∧
    (∃ e ∈ ((opened .ready).setDir [entry 0x0101#16 .live 1 0]).engine.dir, e.cell.seg = pass.victim) ∧
    ((opened .ready).setMove (some (moveOf .none))).engine.move ≠ none ∧
    pass.attempt < 3 ∧ 3 ≤ ({ pass with attempt := 3 } : Pass).attempt :=
  ⟨⟨by decide, rfl⟩, ⟨fun e h => absurd (show e ∈ ([] : List Entry) from h) List.not_mem_nil, rfl⟩, ⟨_, List.mem_singleton.2 rfl, rfl⟩, by decide, by decide, by decide⟩

theorem test_copy_grant_premises :
    ((fronted [31]).front = some 3 ∧ (fronted [31]).space.frontFree = [31] ∧ (fronted [31]).copyGrant ≠ none) ∧
    (twoFree.front = none ∧ twoFree.freeCount ≠ 0 ∧ twoFree.copyGrant ≠ none) ∧
    (opened .ready).front = none ∧ (opened .ready).freeCount = 0 ∧ (opened .ready).copyGrant = none := by decide +kernel

theorem test_trigger_premises :
    ((waiting [9, 10, 11] 1).store.state = .ready ∧ (waiting [9, 10, 11] 1).space.pass = none ∧
      (waiting [9, 10, 11] 1).freeCount ≤ (waiting [9, 10, 11] 1).guard.settings.threshold ∧ (waiting [9, 10, 11] 1).heldDue = false ∧
      (waiting [9, 10, 11] 1).victim = some 7 ∧
      ((waiting [9, 10, 11] 1).seg 7).live ≤ (waiting [9, 10, 11] 1).space.frontFree.length + 31 * (waiting [9, 10, 11] 1).freeCount) ∧
    ((waiting [] 1).victim = some 7 ∧ (waiting [] 1).heldDue = false ∧
      (waiting [] 1).space.frontFree.length + 31 * (waiting [] 1).freeCount < ((waiting [] 1).seg 7).live) ∧
    ((waiting [] 31).victim = none ∧ (waiting [] 31).heldDue = false) ∧
    (opened .degraded).store.state ≠ .ready := by decide +kernel

theorem test_degrade_premises :
    (opened .degraded).store.state ≠ .ready ∧ ((opened .ready).store.state = .ready ∧ (opened .ready).space.held = false) ∧
    ∃ (s : State) (c : Cmd) (u : Update), s.store.state = .ready ∧ s.space.held = true ∧ s.engine.work = .updating .p0 c u :=
  ⟨by decide, by decide, ((opened .ready).setWork (.updating .p0 (cmd codeWrite [1, 1]) (update .data .grantWait 1))).setHeld true, _, _, rfl, rfl,
    rfl⟩

theorem test_supersede_report_premises :
    (opened .ready).space.pass = none ∧
    (∃ (s : State) (q : Pass), s.space.pass = some q ∧ q.victim = 3 ∧ q.stage = .copying ∧ q.cursor = 1 ∧ q.awaits = .victimRead) ∧
    (∃ q : Pass, q.victim = 3 ∧ q.stage = .select) ∧ (∃ q : Pass, q.victim = 3 ∧ q.stage = .erasing) ∧
    (∃ q : Pass, q.victim = 3 ∧ q.stage = .copying ∧ q.cursor = 1 ∧ q.awaits ≠ .victimRead) ∧ (⟨4, 1⟩ : Pos).seg ≠ pass.victim ∧
    ∃ q : Pass, q.stage = .copying ∧ (⟨3, 1⟩ : Pos).cell < q.cursor ∧ q.cursor < (⟨3, 3⟩ : Pos).cell :=
  ⟨rfl, ⟨(opened .ready).setPass (some pass), _, rfl, rfl, rfl, rfl, rfl⟩, ⟨{ pass with stage := .select }, rfl, rfl⟩,
    ⟨{ pass with stage := .erasing }, rfl, rfl⟩, ⟨{ pass with awaits := .dropMark }, rfl, rfl, rfl, by decide⟩, by decide,
    { pass with cursor := 2 }, rfl, by decide, by decide⟩

/-- Mount awaiting the header of a segment, over an array's bytes. -/
def mounting (g : Seg) (classes : List SegClass) (cells : List Host.Cell) : State :=
  ((State.reset.setInFlight (some { requester := .store, op := .readCell ⟨g, 0⟩ false, age := 0 })).setCells cells).setProgress
    (.mounting { Mount.start with awaits := .header g, classes := classes })

theorem test_mount_header_premises :
    (∀ g classes cells, (mounting g classes cells).carries .store (.readCell ⟨g, 0⟩ false)) ∧
    (readHeader [] 0).cond = .erased ∧ (readHeader [] 0).retired = false ∧
    readHeader (putArea [] ⟨0, 0⟩ (headerBytes 2 49999)) 0 = { cond := .valid, generation := 2, count := 49999, retired := false } ∧
    readHeader (putArea [] ⟨0, 0⟩ (headerBytes 2 50000)) 0 = { cond := .valid, generation := 2, count := 50000, retired := false } ∧
    (readHeader (putArea [] ⟨0, 0⟩ [0]) 0).cond = .bad ∧ (readHeader (putMark [] ⟨0, 0⟩ .first 0) 0).retired = true ∧
    (List.replicate 255 SegClass.damaged).length = (255 : Seg).val ∧
    ∀ x ∈ List.replicate 255 SegClass.damaged ++ [.damaged], ∀ gen n, x ≠ .valid gen n :=
  ⟨fun _ _ _ => ⟨rfl, 0, rfl⟩, by decide +kernel, by decide +kernel, by decide +kernel, by decide +kernel, by decide +kernel, by decide +kernel,
    List.length_replicate, fun x hx gen n h => by
      rcases List.mem_append.1 hx with hx | hx
      · rw [List.eq_of_mem_replicate hx] at h; cases h
      · rw [List.mem_singleton.1 hx] at h; cases h⟩

/-- A committed configuration record of the defaults. -/
def configStored : List Host.Cell :=
  putMark (putArea [] ⟨3, 1⟩ (bodyBytes (configBody .internal Settings.default))) ⟨3, 1⟩ .first Config.markPresent

/-- Mount awaiting the read of the configuration cell. -/
def mountingConfig (cells : List Host.Cell) : State :=
  (((State.reset.setInFlight (some { requester := .store, op := .readCell ⟨3, 1⟩ true, age := 0 })).setCells cells).setDir
    [entry 0 .live 1 6]).setProgress (.mounting { Mount.start with awaits := .configRead })

theorem test_mount_config_premises :
    (∀ cells, (mountingConfig cells).carries .store (.readCell (entry 0 .live 1 6).cell true) ∧
      lookup (mountingConfig cells).engine.dir 0x0000#16 = some (entry 0 .live 1 6)) ∧
    (readData configStored ⟨3, 1⟩).body = some { configBody .internal Settings.default with seq := 0 } ∧
    (readData configStored ⟨3, 1⟩).payloadGood = true ∧
    parseSettings (configBody .internal Settings.default).payload = some Settings.default ∧
    ∀ b, (readData disturbed ⟨3, 1⟩).body = some b →
      b.kind ≠ .config ∨ (readData disturbed ⟨3, 1⟩).payloadGood = false ∨ b.length ≠ 6 ∨ parseSettings b.payload = none :=
  ⟨fun _ => ⟨⟨rfl, 0, rfl⟩, rfl⟩, by decide +kernel, by decide +kernel, by decide, fun _ _ => .inr (.inl test_disturbed_record_fails_its_check.1)⟩

/-- Mount after step 1, with the classes given first and the other segments retired. -/
def classified (first : List SegClass) : Mount :=
  { Mount.start with classes := first ++ List.replicate (256 - first.length) (.retired 0) }

/-- Mount awaiting an operation that is in flight, over an array's bytes. -/
def mountDoing (m : Mount) (op : ArrayOp) (cells : List Host.Cell) : State :=
  ((State.reset.setInFlight (some { requester := .store, op := op, age := 0 })).setCells cells).setProgress (.mounting m)

theorem test_mount_carries (m : Mount) (op : ArrayOp) (cells : List Host.Cell) :
    (mountDoing m op cells).carries .store op ∧ (mountDoing m op cells).store.progress = .mounting m := ⟨⟨rfl, 0, rfl⟩, rfl⟩

theorem test_mount_last_header_premises :
    (List.replicate 255 (SegClass.valid 1 0)).length = (255 : Seg).val ∧ ∃ x ∈ List.replicate 255 (SegClass.valid 1 0) ++ [.damaged], ∃ gen n, x = .valid gen n :=
  ⟨List.length_replicate, _, List.mem_append_left _ (List.mem_replicate.2 ⟨by decide, rfl⟩), _, _, rfl⟩

/-- Mount awaiting the read of a data cell of a segment whose header reads ERASED. -/
theorem test_mount_blank_premises :
    (∀ pos cells, (mountDoing { Mount.start with awaits := .blankCell pos } (.readCell pos true) cells).carries .store (.readCell pos true)) ∧
    (readData [] ⟨3, 30⟩).cond = .erased ∧ (30 : CellNo).val + 1 < 32 ∧ (readData [] ⟨3, 31⟩).cond = .erased ∧
    (readData stored ⟨3, 1⟩).cond ≠ .erased ∧ (∀ gen n, SegClass.valid gen n ∉ (classified [.fresh, .damaged, .retired 7]).classes) := by
  refine ⟨fun _ _ => ⟨rfl, 0, rfl⟩, by decide +kernel, by decide, by decide +kernel, by decide +kernel, fun gen n h => ?_⟩
  rcases List.mem_append.1 h with h | h
  · simp at h
  · cases List.eq_of_mem_replicate h

theorem test_mount_repair_premises :
    ((∃ gen n, SegClass.valid gen n ∈ (classified [.valid 2 7, .damaged, .valid 1 3]).classes) ∧
      (classified [.valid 2 7, .damaged, .valid 1 3]).classes.length = 256) ∧
    ((classified [.damaged, .blank]).classes[(1 : Seg).val]? = some .blank ∧
      ∀ h : Seg, h < 1 → (classified [.damaged, .blank]).classes[h.val]? ≠ some .blank) ∧
    (∀ g : Seg, (classified [.damaged]).classes[g.val]? ≠ some .blank) ∧
    Mount.start.classes.length < 256 ∧ 256 ≤ (classified []).classes.length ∧
    ({ classified [.valid 1 3, .damaged] with erases := [0, 1] }.classes[(0 : Seg).val]? = some (.valid 1 3) ∧
      { classified [.valid 1 3, .damaged] with erases := [1] }.classes[(1 : Seg).val]? = some .damaged) ∧
    lookup (mountingConfig []).engine.dir 0x0000#16 = some (entry 0 .live 1 6) ∧ lookup State.reset.engine.dir 0x0000#16 = none ∧
    ({ Mount.start with targets := [((1 : Key), (⟨3, 1⟩ : Pos))] } : Mount).targets ≠ [] ∧ Mount.start.targets = [] ∧ Mount.start.erases = [] :=
  ⟨⟨⟨_, _, List.mem_append_left _ List.mem_cons_self⟩, by decide +kernel⟩, by decide +kernel, by decide +kernel, by decide, by decide +kernel, by decide,
    by decide, by decide, by decide, rfl, rfl⟩

theorem test_mount_program_premises :
    ((mountDoing { Mount.start with awaits := .blankHeader 3 } (.programHeader 3 1 2) []).headerTakes 3 1 2 [] ∧
      ¬ (mountDoing { Mount.start with awaits := .blankHeader 3 } (.programHeader 3 1 2) []).headerTakes 3 1 2 [(0, 0)]) ∧
    ((mountDoing { Mount.start with awaits := .repairMark, targets := [(1, ⟨3, 1⟩)] } (.programMark ⟨3, 1⟩ .second) []).markTakes ⟨3, 1⟩ .second
        false ∧
      ¬ (mountDoing { Mount.start with awaits := .repairMark, targets := [(1, ⟨3, 1⟩)] } (.programMark ⟨3, 1⟩ .second) []).markTakes ⟨3, 1⟩
        .second true) ∧
    ((mountDoing { Mount.start with awaits := .configBody ⟨3, 1⟩ 2 } (.programBody ⟨3, 1⟩ record) []).bodyTakes ⟨3, 1⟩ record [] ∧
      ¬ (mountDoing { Mount.start with awaits := .configBody ⟨3, 1⟩ 3 } (.programBody ⟨3, 1⟩ record) []).bodyTakes ⟨3, 1⟩ record [(0, 0xFF)]) ∧
    (mountDoing { Mount.start with awaits := .configMark ⟨3, 1⟩ 2 } (.programMark ⟨3, 1⟩ .first) []).markTakes ⟨3, 1⟩ .first false ∧
      ¬ (mountDoing { Mount.start with awaits := .configMark ⟨3, 1⟩ 3 } (.programMark ⟨3, 1⟩ .first) []).markTakes ⟨3, 1⟩ .first true := by
  unfold State.headerTakes State.markTakes State.bodyTakes
  decide +kernel

/-- Two records of a key in cells 1 and 2 of segment 3, the later the newer. -/
def twoRecords : List (Pos × Body) := [(⟨3, 1⟩, record), (⟨3, 2⟩, { record with version := 2 })]

/-- A directory of the newer one, and the older one to be repaired. -/
theorem test_two_records :
    lookup (buildDir twoRecords) 0x0101#16 = some { entry 0x0101#16 .live 2 0 with cell := ⟨3, 2⟩, author := .port .p0 } ∧
      lookup (buildDir twoRecords) 0x0102#16 = none ∧ repairTargets twoRecords = [(0x0101#16, ⟨3, 1⟩)] ∧
      twoRecords.Pairwise (fun x y => x.1.seg < y.1.seg ∨ (x.1.seg = y.1.seg ∧ x.1.cell < y.1.cell)) := by decide +kernel

/-- A number of cells found in a segment, from cell 1 on. -/
def foundIn (g : Seg) (n : Nat) : List Found :=
  (List.range n).map (fun i => { pos := ⟨g, ⟨(i + 1) % 32, Nat.mod_lt _ (by decide)⟩⟩, cond := .torn, body := none })

theorem test_mount_read_premises :
    (∃ pos : Pos, pos.cell.val + 1 < 32) ∧ (⟨3, 31⟩ : Pos).cell = 31 ∧
    ((classified [.damaged, .valid 0 5]).classes[(1 : Seg).val]? = some (.valid State.reset.store.generation 5) ∧
      ∀ h : Seg, h < 1 → ∀ x, (classified [.damaged, .valid 0 5]).classes[h.val]? ≠ some (.valid State.reset.store.generation x)) ∧
    (∀ g : Seg, 2 ≤ g.val → ∀ x, (classified [.damaged, .valid 0 5]).classes[g.val]? ≠ some (.valid State.reset.store.generation x)) := by
  have below : ∀ h : Seg, h < 1 → (classified [.damaged, .valid 0 5]).classes[h.val]? = some .damaged := by decide +kernel
  have beyond : ∀ g : Seg, 2 ≤ g.val → (classified [.damaged, .valid 0 5]).classes[g.val]? = some (.retired 0) := by decide +kernel
  exact ⟨⟨⟨3, 30⟩, by decide⟩, rfl, ⟨by decide, fun h hh x e => by rw [below h hh] at e; cases e⟩, fun g hg x e => by
    rw [beyond g hg] at e; cases e⟩

theorem test_mount_table_premises :
    (foundIn 1 0).countP (fun f => f.pos.seg == 1) = 0 ∧ (foundIn 1 31).countP (fun f => f.pos.seg == 1) = 31 ∧
      (foundIn 1 30).countP (fun f => f.pos.seg == 1) = 30 ∧ (∀ f ∈ foundIn 1 30, f.body = none) ∧
      ({ classified [.retired 4, .valid 0 5, .fresh, .damaged, .valid 1 2] with found := foundIn 1 30 }).classes.take 5 =
        [.retired 4, .valid 0 5, .fresh, .damaged, .valid 1 2] := by decide

theorem test_mount_close_premises :
    (fronted [31]).copyGrant ≠ none ∧ State.reset.copyGrant = none ∧ DirectoryOk State.reset ∧
    (136 ≤ State.reset.usableCount ∧ (State.reset.setSegs (Vector.replicate 256 { SegRow.unlisted with state := .retired })).usableCount < 136 ∧
      State.reset.guard.standing ≠ .unreadable ∧
      masterCount State.reset.engine.dir ≤ 4095) := by
  refine ⟨by decide +kernel, by decide +kernel, List.Pairwise.nil, by decide +kernel⟩

/-- A directory of the keys 1 to 4,096. -/
def overfull : List Entry := (List.range 4096).map (fun i => entry (BitVec.ofNat 16 (i + 1)) .live 1 0)

theorem test_overfull_premises : DirOk overfull ∧ masterCount overfull = 4096 := by
  constructor
  · refine List.pairwise_map.2 (List.pairwise_lt_range.imp_of_mem fun {i j} hi hj h => ?_)
    have := List.mem_range.1 hi; have := List.mem_range.1 hj
    simp only [entry, BitVec.lt_def, BitVec.toNat_ofNat]
    omega
  · rw [masterCount, overfull, ← List.countP_eq_length_filter, List.countP_map, List.countP_eq_length.2, List.length_range]
    intro i hi
    have := List.mem_range.1 hi
    simp only [Function.comp, entry, Config.configKey, bne_iff_ne, ne_eq, ← BitVec.toNat_inj, BitVec.toNat_ofNat]
    omega

/-! ## Arbiters, events and layouts -/

theorem test_held_grant_premises :
    (∃ (s : State) (c : Cmd) (u : Update), s.running = true ∧ s.space.held = true ∧ s.store.state ≠ .degraded ∧
      s.engine.work = .updating .p0 c u ∧ s.front = some 3 ∧ s.space.frontFree = [31]) ∧
    ∃ (s : State) (c : Cmd) (u : Update), s.running = true ∧ s.space.held = true ∧ s.store.state ≠ .degraded ∧
      s.engine.work = .updating .p0 c u ∧ FrontOk s ∧ s.front = none ∧ s.freeCount = 2 :=
  ⟨⟨((fronted [31]).setWork (.updating .p0 (cmd codeWrite [1, 1]) (update .data .grantWait 1))).setHeld true, _, _, rfl, rfl, by decide, rfl,
      by decide +kernel, rfl⟩,
    ⟨(twoFree.setWork (.updating .p0 (cmd codeWrite [1, 1]) (update .data .grantWait 1))).setHeld true, _, _, rfl, rfl, by decide, rfl,
      test_twoFree_has_no_front, by decide +kernel, by decide +kernel⟩⟩

theorem test_fronted_has_one_front (l : List CellNo) (ok : FreeCellsOk l) : FrontOk (fronted l) := by
  have only : ∀ g : Seg, (fronted []).space.segs[g].state = .front → g = 3 := by decide +kernel
  exact ⟨fun g h hg hh => (only g hg).trans (only h hh).symm, ok⟩

theorem test_arbiter_premises :
    (∃ (s : State) (c : Cmd), s.engine.work = .idle ∧ s.heldDue = false ∧
      searchFrom s.engine.pointer = [.p0] ++ .p1 :: [.p2, .p3] ∧ s.eligible .p0 = false ∧ s.eligible .p1 = true ∧
      (s.port .p1).slot = .parked c scanCtx) ∧
    (∃ s : State, s.engine.work = .idle ∧ searchFrom s.engine.pointer = [.p0, .p1] ++ .p2 :: [.p3] ∧
      s.eligible .p0 = false ∧ s.eligible .p1 = false ∧ s.eligible .p2 = true ∧ (s.port .p2).slot = .none ∧ (s.port .p2).commands ≠ []) ∧
    (∃ s : State, s.engine.work ≠ .idle) ∧
    (∃ (s : State) (op : ArrayOp), s.array.inFlight = none ∧ s.array.erase = none ∧ s.array.waitStore = some op) ∧
    (∃ (s : State) (op : ArrayOp), s.array.inFlight = none ∧ s.array.erase = none ∧ s.array.waitStore = none ∧ s.array.waitEngine = some op ∧
      s.array.waitSpace = none) ∧
    (∃ (s : State) (op op' : ArrayOp), s.array.inFlight = none ∧ s.array.erase = none ∧ s.array.waitStore = none ∧
      s.array.waitEngine = some op ∧ s.array.waitSpace = some op' ∧ s.urgent = true ∧ ∀ g gen n, op' ≠ .eraseSegment g gen n) ∧
    ∃ (s : State), s.array.inFlight = none ∧ s.array.erase = none ∧ s.array.waitStore = none ∧ s.array.waitEngine = none ∧
      s.array.waitSpace = some (.eraseSegment 5 1 2) :=
  ⟨⟨(opened .ready).setPort .p1 { PortUnit.reset with slot := .parked (cmd codeScan []) scanCtx }, _, rfl, rfl, rfl, rfl, rfl, rfl⟩,
    ⟨(opened .ready).setPort .p2 { PortUnit.reset with commands := [cmd codeStat [1, 1]] }, rfl, rfl, rfl, rfl, rfl, rfl, by decide⟩,
    ⟨taken .ready (cmd codeStat []), by decide⟩, ⟨(opened .ready).presentStore (.readCell ⟨3, 1⟩ true), _, rfl, rfl, rfl⟩,
    ⟨(opened .ready).presentEngine (.readCell ⟨3, 1⟩ true), _, rfl, rfl, rfl, rfl, rfl⟩,
    ⟨((((opened .ready).setSeg 9 { state := .free, erases := 0, live := 0, dead := 0, free := 0 }).setPass (some pass)).presentEngine
        (.readCell ⟨3, 1⟩ true)).presentSpace (.readCell ⟨3, 2⟩ true), _, _, rfl, rfl, rfl, rfl, rfl, by decide +kernel, by simp⟩,
    ⟨(opened .ready).presentSpace (.eraseSegment 5 1 2), rfl, rfl, rfl, rfl, rfl⟩⟩

/-- P0 is RESETTING while its STAT executes, and P2 has a STAT waiting. -/
def resettingBusy : State :=
  ((taken .ready (cmd codeStat [1, 1])).setPort .p0 { PortUnit.reset with state := .resetting, slot := .executing }).setPort .p2
    { PortUnit.reset with commands := [cmd codeStat [2, 2]] }

/-- At the end of a RESETTING port's command the Engine takes the eligible port at once, and the reset then proceeds (R58, R61, R188). -/
theorem test_selection_at_a_reset_ports_end :
    (after .stat resettingBusy).engine.work = .taken .p2 (cmd codeStat [2, 2]) ∧ (after .stat resettingBusy).anyResetDue = true ∧
    ((after (.portResetProceed .p0) (after .stat resettingBusy)).port .p0).state = .active ∧
    (after (.portResetProceed .p0) (after .stat resettingBusy)).engine.work = .taken .p2 (cmd codeStat [2, 2]) ∧
    (resettingBusy.endCommand .p0 ((cmd codeStat [1, 1]).nt .done 0x0101#16 0 0 0)).heldDue = false ∧ resettingBusy.eligible .p2 = true ∧
    resettingBusy.eligible .p1 = false ∧ resettingBusy.eligible .p3 = false := by
  decide

/-- The array grants nothing: an operation in flight, an erase that runs or is suspending, and no request. -/
theorem test_busy_array_premises :
    (taken .ready format).array.inFlight = none ∧ (carrying .idle .engine (.readCell ⟨3, 1⟩ true)).array.inFlight ≠ none ∧
    (∃ (s : State) (e : EraseCtx), s.array.erase = some e ∧ e.state = .running) ∧
    (∃ (s : State) (e : EraseCtx), s.array.erase = some e ∧ e.state = .suspending) ∧
    ∃ s : State, s.array.inFlight = none ∧ s.array.erase = none ∧ s.array.waitStore = none ∧ s.array.waitEngine = none ∧
      s.array.waitSpace = none :=
  ⟨rfl, by decide, ⟨(opened .ready).setErase (some (erasing .running 0)), _, rfl, rfl⟩,
    ⟨(opened .ready).setErase (some (erasing .suspending 1)), _, rfl, rfl⟩, opened .ready, rfl, rfl, rfl, rfl, rfl⟩

theorem test_waiting_arbiter_premises :
    (((fronted [31]).setWork (.updating .p0 (cmd codeWrite [1, 1]) (update .data .grantWait 1))).setHeld true).heldDue = true ∧
    (State.reset.setPort .p1 { PortUnit.reset with state := .resetting }).anyResetDue = true ∧
    ((opened .ready).engine.work = .idle ∧ ∀ p, (opened .ready).eligible p = false) :=
  ⟨by decide +kernel, by decide, rfl, fun p => by cases p <;> rfl⟩

theorem test_event_premises :
    (∃ u : PortUnit, u.state = .resetting) ∧
    (∃ (u : PortUnit) (e h m : Event) (before rest : List Event), u.state = .active ∧ u.events = before ++ h :: rest ∧ before ≠ [] ∧
      (∀ x ∈ before, x.merge e = none) ∧ h.merge e = some m) ∧
    (∃ (u : PortUnit) (e : Event), u.state = .active ∧ (∀ x ∈ u.events, x.merge e = none) ∧ u.events.length < 8) ∧
    ∃ (u : PortUnit) (e : Event), u.state = .active ∧ (∀ x ∈ u.events, x.merge e = none) ∧ u.events.length = 8 :=
  ⟨⟨{ PortUnit.reset with state := .resetting }, rfl⟩,
    ⟨fullPort, .watchHit 2 2 9 .internal, .watchHit 2 1 1 .internal, .watchHit 2 3 9 .internal, [.watchHit 1 1 1 .internal], _, rfl, rfl,
      by decide, by decide, by decide⟩,
    ⟨PortUnit.reset, .storeState .ready 1, rfl, by decide, by decide⟩, ⟨fullPort, .storeState .ready 1, rfl, by decide, by decide⟩⟩

/-- The record and the default settings meet the premises of the layouts' statement, and so does the highest count. -/
theorem test_layout_premises :
    bodyWellFormed record = true ∧ record.payload.length = record.length ∧ Settings.default.thresholdOk ∧ 65535 < 65536 := by
  refine ⟨by decide, rfl, by unfold Settings.thresholdOk; decide, by decide⟩

/-! ## A few rows whole -/

theorem test_layout_reading_premises :
    parseBody (bodyBytes record) = some record ∧ parseSettings (settingsBytes Settings.default) = some Settings.default ∧
    (readHeader (erasedSegment [] 5 1 2) 5).cond = .valid ∧ (List.replicate 512 0xFF#8).length = 512 ∧
    (State.reset.array.inFlight ≠ none ∧ State.reset.array.erase = none) :=
  ⟨by decide +kernel, by decide, by decide +kernel, List.length_replicate, by decide, rfl⟩

theorem test_row_count_premises :
    (State.reset.seg 0).free = 0 ∧ (busy.seg 3).free = 29 + 1 ∧ State.reset.knownCounts = [] ∧ busy.front = some 3 ∧
    State.reset.front = none ∧ (busy.seg 3).state ≠ .retired ∧ (busy.seg 3).state ≠ .unknown ∧ (busy.seg 3).state ≠ .unlisted := by
  decide +kernel

/-- A COMMAND frame in an idle READY machine: the arbiter takes the command at once, and STAT of an absent key then reports state ABSENT, no author and no holder. -/
theorem test_command_to_result :
    (after (.command .p1 (.entire 19 true) codeStat 0x42 (Vector.ofFn (fun i => if i.val < 2 then 1 else 0))) (opened .ready)).engine.work =
        .taken .p1 { code := codeStat, tag := 0x42, params := Vector.ofFn (fun i => if i.val < 2 then 1 else 0) } ∧
      ((after .stat (after (.command .p1 (.entire 19 true) codeStat 0x42 (Vector.ofFn (fun i => if i.val < 2 then 1 else 0))) (opened .ready))
        ).port .p1).results.map resultBytes = [[0x42, 0x05, 0x00, 0x3F, 0x01, 0x01, 0, 0, 0, 0, 0, 0, 0, 0]] := by
  decide

/-- The first two bytes of a header (Table 11-10) and its count. -/
theorem test_header_bytes : (headerBytes 2 0x1234).take 8 = [0x5A, 0x3C, 0x96, 0xE1, 0x00, 0x02, 0x12, 0x34] := by decide

/-- The check of the nine bytes 31h to 39h, the usual test of this check's polynomial and start (R192). -/
theorem test_check_value : crc16 [0x31, 0x32, 0x33, 0x34, 0x35, 0x36, 0x37, 0x38, 0x39] = 0x29B1#16 := by decide +kernel

end Sys2Proof.Tests
end

/-! SUPPORT. The record commands: the parameter check of the updates (R63), the copy of a READ (R87) and the result of a STAT (R89). -/

namespace Sys2Proof.Machine

/-! ## Parameter checks -/

/-- The first of a list of checks decides when it fails, and passes to the rest otherwise; `P` says when it fails. -/
theorem firstFail_cons {ok : Bool} {P : Prop} [Decidable P] (r : Reason) (rest : List (Bool × Reason)) (h : ok = false ↔ P) :
    firstFail ((ok, r) :: rest) = if P then some r else firstFail rest := by
  cases ok
  · simp [firstFail, h.mp rfl]
  · have passes : ¬ P := fun fails => Bool.noConfusion (h.mpr fails)
    simp [firstFail, passes]

theorem Cmd.condOk_false {c : Cmd} : c.condOk = false ↔ c.condKind ≠ 0 ∧ c.condKind ≠ 1 := by
  simp [Cmd.condOk]

/-- A buffer range is refused when its offset, or the last of its bytes where it has one, lies beyond position 2047 (R63). -/
theorem bufferRangeOk_false {off n : Nat} : bufferRangeOk off n = false ↔ 2047 < off ∨ (1 ≤ n ∧ 2047 < off + n - 1) := by
  simp only [bufferRangeOk, Bool.and_eq_false_iff, Bool.or_eq_false_iff, decide_eq_false_iff_not, beq_eq_false_iff_ne]
  omega

/-- The check of a key alone (R1). -/
theorem checkKey_eq (c : Cmd) : checkKey c = if c.key = 0x0000#16 ∨ c.key = 0xFFFF#16 then some .badKey else none :=
  firstFail_cons _ _ keyOk_false

/-- Step 1 of a WRITE in the order of R63. -/
theorem checkWrite_eq (c : Cmd) :
    checkWrite c =
      (if c.key = 0x0000#16 ∨ c.key = 0xFFFF#16 then some .badKey
      else if c.condKind ≠ 0 ∧ c.condKind ≠ 1 then some .badField
      else if 480 < c.dataLength then some .tooLong
      else if 2047 < c.bufOffset ∨ (1 ≤ c.dataLength ∧ 2047 < c.bufOffset + c.dataLength - 1) then some .badRange
      else none) := by
  have tooLong : decide (c.dataLength ≤ 480) = false ↔ 480 < c.dataLength := by simp
  rw [checkWrite, firstFail_cons _ _ keyOk_false, firstFail_cons _ _ Cmd.condOk_false, firstFail_cons _ _ tooLong,
    firstFail_cons _ _ bufferRangeOk_false]
  rfl

/-- Step 1 of a PATCH in the order of R63: its data may not reach beyond the longest payload either. -/
theorem checkPatch_eq (c : Cmd) :
    checkPatch c =
      (if c.key = 0x0000#16 ∨ c.key = 0xFFFF#16 then some .badKey
      else if c.condKind ≠ 0 ∧ c.condKind ≠ 1 then some .badField
      else if 480 < c.dataLength ∨ 480 < c.patchOffset + c.dataLength then some .tooLong
      else if 2047 < c.bufOffset ∨ (1 ≤ c.dataLength ∧ 2047 < c.bufOffset + c.dataLength - 1) then some .badRange
      else none) := by
  have tooLong : (decide (c.dataLength ≤ 480) && decide (c.patchOffset + c.dataLength ≤ 480)) = false ↔
      480 < c.dataLength ∨ 480 < c.patchOffset + c.dataLength := by
    simp only [Bool.and_eq_false_iff, decide_eq_false_iff_not, Nat.not_le]
  rw [checkPatch, firstFail_cons _ _ keyOk_false, firstFail_cons _ _ Cmd.condOk_false, firstFail_cons _ _ tooLong,
    firstFail_cons _ _ bufferRangeOk_false]
  rfl

/-- Step 1 of a REMOVE, which has no payload and names no buffer range (R63). -/
theorem checkRemove_eq (c : Cmd) :
    checkRemove c =
      (if c.key = 0x0000#16 ∨ c.key = 0xFFFF#16 then some .badKey
      else if c.condKind ≠ 0 ∧ c.condKind ≠ 1 then some .badField
      else none) := by
  rw [checkRemove, firstFail_cons _ _ keyOk_false, firstFail_cons _ _ Cmd.condOk_false]
  rfl

section
variable {s : State} {p : Port} {c : Cmd}

/-- The row of an update is its parameter check, and then the further steps of Table 4-2. -/
theorem exec_update (h : s.starts p c) (update : c.code ∈ updateCodes) :
    exec (rowOf c.code) s = .next (s.checked p c (checkUpdate c) c.key (s.admitUpdate p c)).settle := by
  have codes : c.code = codeWrite ∨ c.code = codePatch ∨ c.code = codeRemove := by simpa [updateCodes] using update
  rcases codes with write | patch | remove
  · rw [show checkUpdate c = checkWrite c by rw [checkUpdate, if_pos write], write]
    exact State.perform_starts h write
  · rw [show checkUpdate c = checkPatch c by rw [checkUpdate, patch]; rfl, patch]
    exact State.perform_starts h patch
  · rw [show checkUpdate c = checkRemove c by rw [checkUpdate, remove]; rfl, remove]
    exact State.perform_starts h remove

/-- An update whose parameter check fails ends IC with that failure (R63). -/
theorem exec_update_refused {r : Reason} (h : s.starts p c) (update : c.code ∈ updateCodes) (fails : checkUpdate c = some r) :
    exec (rowOf c.code) s = .next (s.endCommand p (c.ic r c.key)).settle := by
  rw [exec_update h update, fails, State.checked_fail]

end

/-- Settles O27: the three checks as chains in the order of R63, the row of an update as its check, and Table 11-4. -/
theorem updateParametersAreChecked : Obligations.UpdateParametersAreChecked :=
  ⟨fun c => ⟨checkWrite_eq c, checkPatch_eq c, checkRemove_eq c⟩, fun _ _ _ _ => exec_update_refused,
    fun _ => ⟨fun _ => rfl, rfl, rfl, rfl, rfl, rfl, rfl⟩⟩

/-! ## The copy of a READ -/

/-- Where a copy into `room` positions ends at its first termination: after `n` bytes, the last of them `last`, with no stop byte before it (R87). -/
structure CopyStops (stop : Option Byte) (room : Nat) (rest : List Byte) (n : Nat) (last : Byte) : Prop where
  some_byte : 1 ≤ n
  fits : n ≤ room
  last_is : rest[n - 1]? = some last
  none_before : ∀ i, i + 1 < n → rest[i]? ≠ stop
  copied : (readCopy stop room rest).1 = rest.take n
  reason : (readCopy stop room rest).2 =
    if stop = some last then .stopByte else if n = rest.length then .endOfRecord else .bufferEnd
  ends : stop = some last ∨ n = rest.length ∨ n = room

section
variable {stop : Option Byte} {room n : Nat} {b last : Byte} {rest : List Byte}

/-- A byte at which a termination holds is copied, and the copy ends with the first termination in the order of R87. -/
theorem readCopy_last (ends : stop = some b ∨ rest = [] ∨ room = 0) :
    readCopy stop (room + 1) (b :: rest) =
      ([b], if stop = some b then .stopByte else if rest = [] then .endOfRecord else .bufferEnd) := by
  rw [readCopy]
  by_cases isStop : stop = some b
  · rw [if_pos isStop, if_pos isStop]
  · by_cases isEnd : rest = []
    · rw [if_neg isStop, if_neg isStop, if_pos isEnd, if_pos isEnd]
    · have full : room = 0 := (ends.resolve_left isStop).resolve_left isEnd
      rw [if_neg isStop, if_neg isStop, if_neg isEnd, if_neg isEnd, if_pos full]

/-- A byte at which no termination holds is copied, and the copy goes on. -/
theorem readCopy_more (noStop : stop ≠ some b) (more : rest ≠ []) (space : room ≠ 0) :
    readCopy stop (room + 1) (b :: rest) = (b :: (readCopy stop room rest).1, (readCopy stop room rest).2) := by
  rw [readCopy, if_neg noStop, if_neg more, if_neg space]

theorem copyStops_last (ends : stop = some b ∨ rest = [] ∨ room = 0) : CopyStops stop (room + 1) (b :: rest) 1 b where
  some_byte := le_rfl
  fits := by omega
  last_is := rfl
  none_before i hi := by omega
  copied := by rw [readCopy_last ends]; rfl
  reason := by simp [readCopy_last ends]
  ends := by simpa [eq_comm (a := 0)] using ends

theorem copyStops_more (noStop : stop ≠ some b) (more : rest ≠ []) (space : room ≠ 0) (later : CopyStops stop room rest n last) :
    CopyStops stop (room + 1) (b :: rest) (n + 1) last where
  some_byte := by omega
  fits := Nat.succ_le_succ later.fits
  last_is := by
    obtain ⟨m, rfl⟩ := Nat.exists_eq_add_of_le' later.some_byte
    exact later.last_is
  none_before
    | 0, _ => fun h => noStop h.symm
    | i + 1, hi => later.none_before i (by omega)
  copied := by rw [readCopy_more noStop more space, List.take_succ_cons, later.copied]
  reason := by simp [readCopy_more noStop more space, later.reason]
  ends := by simpa using later.ends

/-- A copy with room and with bytes ends at its first termination: at its first byte, or where the copy of the remaining bytes ends. -/
theorem exists_copyStops (hasRoom : 0 < room) (hasBytes : rest ≠ []) : ∃ n last, CopyStops stop room rest n last := by
  induction rest generalizing room with
  | nil => exact absurd rfl hasBytes
  | cons b rest ih =>
    obtain ⟨room, rfl⟩ := Nat.exists_eq_add_of_le' hasRoom
    by_cases ends : stop = some b ∨ rest = [] ∨ room = 0
    · exact ⟨1, b, copyStops_last ends⟩
    · obtain ⟨noStop, more, space⟩ : stop ≠ some b ∧ rest ≠ [] ∧ room ≠ 0 := by simpa using ends
      obtain ⟨n, last, later⟩ := ih (Nat.pos_of_ne_zero space) more
      exact ⟨n + 1, last, copyStops_more noStop more space later⟩

end

/-- A buffer byte after a store: the byte stored there, if the store covers it within the buffer, and else the byte before (R179). -/
theorem bufferByteAt_store (buf : List Host.Cell) (off : Nat) (bs : List Byte) (x : Nat) :
    bufferByteAt (bufferStore buf off bs) x =
      if off ≤ x ∧ x < off + bs.length ∧ x < 2048 then bs.getD (x - off) 0 else bufferByteAt buf x := by
  by_cases covered : off ≤ x ∧ x < off + bs.length ∧ x < 2048
  · obtain ⟨i, rfl⟩ := Nat.exists_eq_add_of_le covered.1
    rw [if_pos covered, Nat.add_sub_cancel_left]
    exact bufferByteAt_store_inside (by omega) covered.2.2
  · rw [if_neg covered]
    by_cases beyond : x < 2048
    · exact bufferByteAt_store_outside (by omega)
    · have outside : ¬ x < Config.bufferBytes := beyond
      rw [bufferByteAt, if_neg outside, bufferByteAt, if_neg outside]

section
variable {s : State} {p : Port} {c : Cmd} {v : Version} {len : Nat} {pos : Pos} {b : Body} {r : CellRead} {k : Key}

/-- A read is accepted with a body of the entry's key and version and a good payload check (R86). -/
theorem CellRead.accept_of (body : r.body = some b) (key : b.key = k) (version : b.version = v) (good : r.payloadGood = true) :
    r.accept k v = some b := by
  simp [CellRead.accept, body, key, version, good]

/-- The completion of a READ's cell read is the READ's end (R86). -/
theorem exec_cellReadDone_reading (h : s.carries .engine (.readCell pos true)) (w : s.engine.work = .reading p c v len) :
    exec .cellReadDone s = .next ((s.setInFlight none).readDone p c v len (readData s.array.cells pos)).settle := by
  have delivered : (s.setInFlight none).deliverRead .engine pos true =
      (s.setInFlight none).readDone p c v len (readData s.array.cells pos) := by
    simp only [State.deliverRead, State.engineRead, readFor, State.setInFlight_engine, State.setInFlight_array, w, if_true]
  rw [exec_cellReadDone h, delivered]

/-- An accepted read ends its READ with the bytes of `readCopy` stored from the first offset on (R87). -/
theorem State.readDone_accept {bs : List Byte} {why : Reason} (accepted : r.accept c.key v = some b)
    (copy : readCopy c.readStop (c.readLast + 1 - c.readFirst) (b.payload.drop c.readOffset) = (bs, why)) :
    s.readDone p c v len r =
      (s.storeBuffer p c.readFirst bs).endCommand p (c.nt why c.key v (nat16 bs.length) (nat16 len)) := by
  simp only [State.readDone, accepted, copy]

end

/-- Settles O37: the completed read stores what `readCopy` gives, and `readCopy` ends at its first termination, by induction on the bytes. -/
theorem readCopiesItsBytes : Obligations.ReadCopiesItsBytes := by
  refine ⟨fun s p c v len pos b carries reads body key version good => ?_, fun stop rest => ?_, fun stop room hasRoom => ?_,
    fun stop room rest hasRoom hasBytes => ?_, fun c => rfl⟩
  · rcases copy : readCopy c.readStop (c.readLast + 1 - c.readFirst) (b.payload.drop c.readOffset) with ⟨bs, why⟩
    have accepted := CellRead.accept_of body key version good
    refine ⟨bs, why, bufferStore (s.port p).buffer c.readFirst bs, rfl, ?_, bufferByteAt_store _ _ bs⟩
    rw [exec_cellReadDone_reading carries reads, State.readDone_accept accepted copy]
    rfl
  · rw [readCopy]
  · obtain ⟨room, rfl⟩ := Nat.exists_eq_add_of_le' hasRoom
    rfl
  · obtain ⟨n, last, stops⟩ := exists_copyStops (stop := stop) hasRoom hasBytes
    exact ⟨n, last, stops.some_byte, stops.fits, stops.last_is, stops.copied, stops.none_before, stops.reason, stops.ends⟩

/-! ## The result of a STAT -/

/-- Three subfields of 2, 3 and 3 bits packed into a byte, as a number. -/
theorem toNat_pack {a b c : Byte} (ha : a.toNat < 4) (hb : b.toNat < 8) (hc : c.toNat < 8) :
    ((a <<< 6) ||| (b <<< 3) ||| c).toNat = a.toNat * 64 + b.toNat * 8 + c.toNat := by
  have low : b.toNat <<< 3 ||| c.toNat = b.toNat * 8 + c.toNat := by
    rw [← Nat.shiftLeft_add_eq_or_of_lt hc, Nat.shiftLeft_eq]
  have high : a.toNat <<< 6 ||| (b.toNat * 8 + c.toNat) = a.toNat * 64 + (b.toNat * 8 + c.toNat) := by
    rw [← Nat.shiftLeft_add_eq_or_of_lt (by omega), Nat.shiftLeft_eq]
  have a_fits : a.toNat <<< 6 % 2 ^ 8 = a.toNat <<< 6 := Nat.mod_eq_of_lt (by rw [Nat.shiftLeft_eq]; omega)
  have b_fits : b.toNat <<< 3 % 2 ^ 8 = b.toNat <<< 3 := Nat.mod_eq_of_lt (by rw [Nat.shiftLeft_eq]; omega)
  rw [BitVec.toNat_or, BitVec.toNat_or, BitVec.toNat_shiftLeft, BitVec.toNat_shiftLeft, a_fits, b_fits, Nat.or_assoc, low, high,
    Nat.add_assoc]

theorem keyStateCode_lt (st : KeyState) : (keyStateCode st).toNat < 4 := by cases st <;> decide

theorem portCode_lt (p : Port) : (portCode p).toNat < 4 := by cases p <;> decide

theorem authorCode_lt (a : Author) : (authorCode a).toNat < 8 := by
  cases a with
  | port p => exact (portCode_lt p).trans (by decide)
  | internal => decide

theorem holderBits_lt (h : Option Port) : (holderBits h).toNat < 8 := by
  cases h with
  | some p => exact (portCode_lt p).trans (by decide)
  | none => decide

/-- The three subfields of a STAT's packed reason (Table 11-7). -/
theorem statReason_fields (st : KeyState) {author : Byte} (h : author.toNat < 8) (holder : Option Port) :
    (statReason st author holder).toNat / 64 = (keyStateCode st).toNat ∧
      (statReason st author holder).toNat / 8 % 8 = author.toNat ∧
      (statReason st author holder).toNat % 8 = (holderBits holder).toNat := by
  have hs := keyStateCode_lt st
  have hh := holderBits_lt holder
  rw [statReason, toNat_pack hs h hh]
  omega

section
variable {s : State} {p : Port} {c : Cmd} {e : Entry}

/-- STAT's row is its key check, and then the state check and its result (R89). -/
theorem exec_stat (h : s.starts p c) (hc : c.code = codeStat) : exec .stat s = .next (s.doStat p c).settle :=
  State.perform_starts h hc

theorem State.doStat_badKey (bad : c.key = 0x0000#16 ∨ c.key = 0xFFFF#16) :
    s.doStat p c = s.endCommand p (c.ic .badKey c.key) := by
  rw [State.doStat, checkKey_eq, if_pos bad, State.checked_fail]

/-- STAT of a key that may be named ends AT NOT_FORMATTED or with the report of the key. -/
theorem State.doStat_key (low : c.key ≠ 0x0000#16) (high : c.key ≠ 0xFFFF#16) :
    s.doStat p c = s.endCommand p
      (if s.store.state = .unformatted then c.at_ .notFormatted c.key 0 0 0 else s.statResult c) := by
  rw [State.doStat, checkKey_eq, if_neg (not_or.mpr ⟨low, high⟩), State.checked_pass]
  split <;> rfl

theorem State.statResult_absent (h : lookup s.engine.dir c.key = none) :
    s.statResult c = c.result .normal (statReason .absent 7 (s.holderOf c.key)) c.key 0 0 0 := by
  rw [State.statResult, h]

theorem State.statResult_present (h : lookup s.engine.dir c.key = some e) :
    s.statResult c =
      c.result .normal (statReason (keyStateOf e.state) (authorCode e.author) (s.holderOf c.key)) c.key e.version
        (if e.state = .live then nat16 e.length else 0) (nat16 e.stale) := by
  rw [State.statResult, h]
  cases state : e.state <;> simp [state]

theorem keyStateCode_keyStateOf (st : EntryState) : (keyStateCode (keyStateOf st)).toNat = if st = .live then 1 else 2 := by
  cases st <;> rfl

/-- Every report of a STAT is an NT result of its command and key, and its reason holds the holder of any claim in the low bits. -/
theorem State.statResult_common (s : State) (c : Cmd) :
    (s.statResult c).tag = c.tag ∧ (s.statResult c).code = c.code ∧ (s.statResult c).cls = .normal ∧
      (s.statResult c).key = c.key ∧ (s.statResult c).reason.toNat % 8 = (holderBits (s.holderOf c.key)).toNat := by
  cases h : lookup s.engine.dir c.key with
  | none =>
    rw [State.statResult_absent h]
    exact ⟨rfl, rfl, rfl, rfl, (statReason_fields .absent (by decide) _).2.2⟩
  | some e =>
    rw [State.statResult_present h]
    exact ⟨rfl, rfl, rfl, rfl, (statReason_fields _ (authorCode_lt e.author) _).2.2⟩

/-- The report of a key with no entry: state ABSENT, no author, and 0 in its other fields. -/
theorem State.statResult_of_absent (h : lookup s.engine.dir c.key = none) :
    (s.statResult c).reason.toNat / 64 = 0 ∧ (s.statResult c).reason.toNat / 8 % 8 = 7 ∧ (s.statResult c).version = 0 ∧
      (s.statResult c).count = 0 ∧ (s.statResult c).aux = 0 := by
  obtain ⟨state, author, -⟩ := statReason_fields .absent (author := 7) (by decide) (s.holderOf c.key)
  rw [State.statResult_absent h]
  exact ⟨state, author, rfl, rfl, rfl⟩

/-- The report of a key with an entry: its state and author, its version, its length while it is LIVE, and its stale count. -/
theorem State.statResult_of_present (h : lookup s.engine.dir c.key = some e) :
    (s.statResult c).reason.toNat / 64 = (if e.state = .live then 1 else 2) ∧
      (s.statResult c).reason.toNat / 8 % 8 = (authorCode e.author).toNat ∧ (s.statResult c).version = e.version ∧
      (s.statResult c).count = (if e.state = .live then nat16 e.length else 0) ∧ (s.statResult c).aux = nat16 e.stale := by
  obtain ⟨state, author, -⟩ := statReason_fields (keyStateOf e.state) (authorCode_lt e.author) (s.holderOf c.key)
  rw [State.statResult_present h]
  exact ⟨state.trans (keyStateCode_keyStateOf e.state), author, rfl, rfl, rfl⟩

theorem State.holderOf_eq_some {k : Key} {q : Port} :
    s.holderOf k = some q ↔ ∃ x, s.coord.claims.find? (fun x => x.key == k) = some x ∧ x.holder = q :=
  Option.map_eq_some_iff

end

/-- Settles O38: STAT's row in its three outcomes, and the subfields of its packed reason read back. -/
theorem statReportsTheEntry : Obligations.StatReportsTheEntry := by
  refine ⟨fun s p c starts isStat => ⟨fun bad => ?_, fun low high => ?_⟩, fun s k q => State.holderOf_eq_some⟩
  · rw [exec_stat starts isStat, State.doStat_badKey bad]
  · rw [exec_stat starts isStat, State.doStat_key low high]
    refine ⟨fun unformatted => by rw [if_pos unformatted], fun formatted => ⟨s.statResult c, by rw [if_neg formatted], ?_⟩⟩
    obtain ⟨tag, code, cls, key, holder⟩ := s.statResult_common c
    refine ⟨tag, code, cls, key, holder.trans ?_, State.statResult_of_absent, fun e => State.statResult_of_present⟩
    cases s.holderOf c.key <;> rfl

end Sys2Proof.Machine

/-! SUPPORT. The frames at a port: what each row does in terms of the moments of a frame, what a returning frame fixes and drives, what a refused or cut frame leaves, and the notify line (R171 to R186). -/

namespace Sys2Proof.Machine

/-! ## The rows as moments of a frame -/

section
variable {s : State} {p : Port} {m : FrameMoment}

theorem exec_statusRead : exec (.statusRead p m) s = .next (s.frameMoment p .statusRead m 0 noEffect) := rfl

theorem exec_resultRead : exec (.resultRead p m) s = .next (s.frameMoment p .resultRead m 0 (resultEffect p)) := rfl

theorem exec_eventRead : exec (.eventRead p m) s = .next (s.frameMoment p .eventRead m 0 (eventEffect p)) := rfl

theorem exec_bufferWrite {offset : Half} {data : List Byte} :
    exec (.bufferWrite p m offset data) s =
      .next (s.frameMoment p .bufferWrite m offset.toNat (bufferWriteEffect p offset.toNat data)) := rfl

theorem exec_bufferRead {offset : Half} :
    exec (.bufferRead p m offset) s =
      .next (s.frameMoment p .bufferRead m offset.toNat (bufferReadEffect p offset.toNat)) := rfl

theorem exec_notifySet {mask : Byte} :
    exec (.notifySet p m mask) s =
      .next (s.frameMoment p .notifySet m 0 (fun _ _ s => s.setEnables p (fun en => addEnables en mask))) := rfl

theorem exec_notifyClear {mask : Byte} :
    exec (.notifyClear p m mask) s =
      .next (s.frameMoment p .notifyClear m 0 (fun _ _ s => s.setEnables p (fun en => removeEnables en mask))) := rfl

theorem exec_flagsClear {mask : Byte} :
    exec (.flagsClear p m mask) s =
      .next (s.frameMoment p .flagsClear m 0 (fun _ _ s => s.clearPortFlags p mask)) := rfl

end

/-! ## Bytes driven -/

theorem padTo_of_length {n : Nat} {bs : List Byte} (h : bs.length = n) : padTo n bs = bs := by
  subst h
  simp [padTo]

theorem padTo_getD {n i : Nat} (bs : List Byte) (h : i < n) : (padTo n bs).getD i 0 = bs.getD i 0 := by
  by_cases inside : i < bs.length
  · simp [padTo, List.getD_eq_getElem?_getD, h, inside]
  · simp [padTo, List.getD_eq_getElem?_getD, h, inside, List.getElem_append_right (Nat.le_of_not_lt inside)]

section
variable {s : State} {p : Port} {k : FrameKind} {f : Frame} {off n : Nat} {bs : List Byte} {removable : Bool} {effect : FrameEffect}

theorem State.driven_record (notBuffer : f.kind ≠ .bufferRead) : s.driven p f off n = padTo n (0 :: f.record.getD []) := by
  unfold State.driven
  split
  · exact absurd ‹_› notBuffer
  · rfl

/-- A frame that fixes no record drives 00h throughout, unless it returns the buffer (R171). -/
theorem State.driven_begun {resetting : Bool} (notBuffer : k ≠ .bufferRead) :
    s.driven p (Frame.begun k resetting) off n = List.replicate n 0 := by
  rw [State.driven_record notBuffer]
  exact padTo_zeros (m := 1)

/-- A BUFFER READ drives, after its first three bytes, those it has clocked out and the rest as the buffer stands (R181). -/
theorem State.driven_bufferRead (kind : f.kind = .bufferRead) (answered : f.inReset = false) (long : 3 + f.out.length ≤ n) :
    s.driven p f off n =
      [0, 0, 0] ++ (f.out ++ bufferTake (s.port p).buffer (off + f.out.length) (n - 3 - f.out.length)) := by
  simp only [State.driven, kind, State.bufferOut, answered, Bool.false_eq_true, if_false]
  apply padTo_of_length
  simp [bufferTake]
  omega

/-! ## The record a frame fixes -/

/-- A frame answered with a record fixes it at its kind byte (R175, R178, R186). -/
theorem State.fixRecord_answered (kind : f.kind = k) (unfixed : f.record = none) (answered : f.inReset = false)
    (record : s.recordFor p k = some (bs, removable)) :
    s.fixRecord p f = { f with record := some bs, removable := removable } := by
  simp [State.fixRecord, kind, unfixed, answered, record]

theorem State.fixRecord_silent (silent : s.recordFor p f.kind = none) : s.fixRecord p f = f := by
  unfold State.fixRecord
  split
  · rfl
  · rw [silent]
    split <;> rfl

theorem State.frameAtEnd_silent (silent : s.recordFor p f.kind = none) : s.frameAtEnd p f n = f := by
  unfold State.frameAtEnd
  rw [State.fixRecord_silent silent, ite_self]

theorem State.frameAtEnd_clocked (clocked : 1 ≤ n) : s.frameAtEnd p f n = s.fixRecord p f :=
  if_neg (by omega)

theorem State.recordFor_resultRead_cons {r : Result} {rest : List Result} (h : (s.port p).results = r :: rest) :
    s.recordFor p .resultRead = some (resultBytes r, true) := by
  simp [State.recordFor, h]

theorem State.recordFor_resultRead_nil (h : (s.port p).results = []) :
    s.recordFor p .resultRead = some (emptyResultBytes, false) := by
  simp [State.recordFor, h]

theorem State.recordFor_eventRead_cons {e : Event} {rest : List Event} (h : (s.port p).events = e :: rest) :
    s.recordFor p .eventRead = some (eventBytes e, true) := by
  simp [State.recordFor, h]

theorem State.recordFor_eventRead_nil (h : (s.port p).events = []) :
    s.recordFor p .eventRead = some (emptyEventBytes, false) := by
  simp [State.recordFor, h]

/-! ## Refusal -/

/-- Select released with no frame of this kind in progress, or in a part that is down, has no effect (R174). -/
theorem State.frameMoment_release_closed {whole : Bool} (closed : s.running = true → ∀ f, (s.port p).frame = some f → f.kind ≠ k) :
    s.frameMoment p k (.release n whole) off effect = s := by
  unfold State.frameMoment State.closeFrame
  split
  · rename_i run
    dsimp only
    split
    · exact if_neg (closed run _ ‹_›)
    · rfl
  · rfl

theorem Frame.inReset_of_not_resetting (h : f.resetting = false) : f.inReset = false := by
  simp [Frame.inReset, h]

theorem Frame.inReset_of_statusRead (h : f.kind = .statusRead) : f.inReset = false := by
  simp [Frame.inReset, h]

/-- A frame of whole bytes that is long enough is accepted (R172, R173). -/
theorem Frame.refused_eq_false (long : f.kind.minimum ≤ n) (known : f.kind ≠ .unknown) (answered : f.inReset = false) :
    f.refused n true = false := by
  simp [Frame.refused, Nat.not_lt.mpr long, known, answered]

/-- A frame that is cut or too short is refused (R173). -/
theorem Frame.refused_eq_true {whole : Bool} (h : whole = false ∨ n < f.kind.minimum) : f.refused n whole = true := by
  rcases h with rfl | short
  · rfl
  · simp [Frame.refused, short]

/-- An ACTIVE port that refuses a frame sets REFUSED (R173). -/
theorem State.ended_refuseFrame {out : List Byte} (active : (s.port p).state = .active) (answered : f.inReset = false) :
    (s.ended p out).refuseFrame p f =
      s.setPort p { s.port p with frame := none, dataOut := out, flags := (s.port p).flags ||| flagRefused } := by
  simp [State.refuseFrame, active, answered, State.setFlag]

/-! ## Frames that are accepted -/

/-- The kinds that return a record, which have one minimum (Table 10-1). -/
def FrameKind.returnsRecord : FrameKind → Bool
  | .statusRead | .resultRead | .eventRead => true
  | _ => false

theorem FrameKind.minimum_of_returnsRecord (h : k.returnsRecord = true) :
    k.minimum = 1 ∧ k ≠ .unknown ∧ k ≠ .bufferRead := by
  revert h
  cases k <;> decide

/-- A frame whose record is fixed drives it and has its effect at its end. -/
theorem State.frameEnd_fixed (returns : f.kind.returnsRecord = true) (answered : f.inReset = false) (fixed : f.record = some bs)
    (clocked : 1 ≤ n) : s.frameEnd p f off n true effect = effect n f (s.ended p (padTo n (0 :: bs))) := by
  obtain ⟨minimum, known, notBuffer⟩ := FrameKind.minimum_of_returnsRecord returns
  rw [State.frameEnd_accepted (Frame.refused_eq_false (by omega) known answered), State.driven_record notBuffer, fixed]
  rfl

/-- Select released in a frame whose record is fixed. -/
theorem State.frameMoment_release_fixed (run : s.running = true) (open_ : (s.port p).frame = some f) (kind : f.kind = k)
    (returns : k.returnsRecord = true) (answered : f.inReset = false) (fixed : f.record = some bs) (clocked : 1 ≤ n) :
    s.frameMoment p k (.release n true) off effect = effect n f (s.ended p (padTo n (0 :: bs))) := by
  rw [State.frameMoment_release run open_ kind, State.frameAtEnd_clocked clocked, State.fixRecord_fixed fixed]
  exact State.frameEnd_fixed (kind ▸ returns) answered fixed clocked

/-- A whole frame that returns a record: it drives the record as the machine then stands, and has its effect. -/
theorem State.frameMoment_entire_returning (run : s.running = true) (idle : (s.port p).frame = none)
    (returns : k.returnsRecord = true) (answered : (Frame.begun k ((s.port p).state == .resetting)).inReset = false)
    (record : s.recordFor p k = some (bs, removable)) (clocked : 1 ≤ n) :
    s.frameMoment p k (.entire n true) off effect =
      effect n { Frame.begun k ((s.port p).state == .resetting) with record := some bs, removable := removable }
        (s.ended p (padTo n (0 :: bs))) := by
  rw [State.frameMoment_entire run idle, State.frameAtEnd_clocked clocked, State.fixRecord_answered rfl rfl answered record]
  exact State.frameEnd_fixed returns answered rfl clocked

/-- A frame begun at an ACTIVE port is not refused for RESETTING. -/
theorem State.listens.answered (h : s.listens p) : (Frame.begun k ((s.port p).state == .resetting)).inReset = false :=
  Frame.inReset_of_not_resetting (by rw [Frame.begun_resetting, h.2.2]; rfl)

/-- A whole frame without a record at a port that listens. -/
theorem State.frameMoment_entire_silent (h : s.listens p) (silent : s.recordFor p k = none) (known : k ≠ .unknown)
    (long : k.minimum ≤ n) :
    s.frameMoment p k (.entire n true) off effect =
      effect n (Frame.begun k ((s.port p).state == .resetting))
        (s.ended p (s.driven p (Frame.begun k ((s.port p).state == .resetting)) off n)) := by
  rw [State.frameMoment_entire h.1 h.2.1, State.frameAtEnd_silent silent,
    State.frameEnd_accepted (Frame.refused_eq_false long known h.answered)]

/-- A whole frame that is cut or too short at a port that listens has no effect but REFUSED (R173). -/
theorem State.frameMoment_entire_refused {whole : Bool} (h : s.listens p) (silent : s.recordFor p k = none)
    (bad : whole = false ∨ n < k.minimum) :
    s.frameMoment p k (.entire n whole) off effect =
      s.setPort p { s.port p with
        dataOut := s.driven p (Frame.begun k ((s.port p).state == .resetting)) off n
        flags := (s.port p).flags ||| flagRefused } := by
  obtain ⟨run, idle, active⟩ := h
  rw [State.frameMoment_entire run idle, State.frameAtEnd_silent silent, State.frameEnd_refused (Frame.refused_eq_true bad),
    State.ended_refuseFrame active (State.listens.answered ⟨run, idle, active⟩)]
  simp only [idle]

/-- A frame cut mid-byte leaves its port's results and events alone (R173). -/
theorem State.frameMoment_cut_queues :
    ((s.frameMoment p k (.release n false) off effect).port p).results = (s.port p).results ∧
      ((s.frameMoment p k (.release n false) off effect).port p).events = (s.port p).events := by
  by_cases open_ : s.running = true ∧ ∃ f, (s.port p).frame = some f ∧ f.kind = k
  · obtain ⟨run, f, open_, kind⟩ := open_
    rw [State.frameMoment_release run open_ kind, State.frameEnd_refused (Frame.refused_eq_true (.inl rfl))]
    unfold State.refuseFrame State.setFlag
    split <;> simp
  · rw [State.frameMoment_release_closed (by simpa using open_)]
    exact ⟨rfl, rfl⟩

end

/-! ## STATUS READ -/

section
variable {s : State} {p : Port} {f : Frame} {n : Nat} {bs : List Byte}

/-- A byte of two fields: the high one in bits 7 to 4, the low one in bits 3 to 0 (Table 11-3). -/
theorem nibbles_toNat {hi lo : Byte} (high : hi.toNat < 16) (low : lo.toNat < 16) :
    ((hi <<< 4) ||| lo).toNat = 16 * hi.toNat + lo.toNat := by
  have room : hi.toNat * 2 ^ 4 % 2 ^ 8 = 2 ^ 4 * hi.toNat := by omega
  rw [BitVec.toNat_or, BitVec.toNat_shiftLeft, Nat.shiftLeft_eq, room, ← Nat.two_pow_add_eq_or_of_lt low]

theorem count_toNat {n : Nat} (h : n < 16) : (BitVec.ofNat 8 n).toNat = n := by
  rw [BitVec.toNat_ofNat]
  omega

theorem storeCode_lt (st : StoreState) : (storeCode st).toNat < 16 := by
  cases st <;> decide

/-- The low half of status byte 1: the port state in bit 3, the current slot below it. -/
theorem portFields_toNat (ps : PortState) (slot : Slot) :
    (portStateBit ps ||| slotCode slot).toNat < 16 ∧ (portStateBit ps ||| slotCode slot).getLsbD 3 = (ps == .resetting) ∧
      (portStateBit ps ||| slotCode slot).toNat % 8 = (slotCode slot).toNat := by
  have codes : slotCode slot = 0 ∨ slotCode slot = 1 ∨ slotCode slot = 2 := by cases slot <;> simp [slotCode]
  rcases codes with code | code | code <;> rw [code] <;> cases ps <;> decide

/-- The fields of status byte 1: the store state, the port state and the current slot. -/
theorem statusByte1_fields (st : StoreState) (ps : PortState) (slot : Slot) :
    ((storeCode st <<< 4) ||| portStateBit ps ||| slotCode slot).toNat / 16 = (storeCode st).toNat ∧
      ((storeCode st <<< 4) ||| portStateBit ps ||| slotCode slot).getLsbD 3 = (ps == .resetting) ∧
      ((storeCode st <<< 4) ||| portStateBit ps ||| slotCode slot).toNat % 8 = (slotCode slot).toNat := by
  obtain ⟨low, state, current⟩ := portFields_toNat ps slot
  have byte := nibbles_toNat (storeCode_lt st) low
  rw [BitVec.or_assoc]
  exact ⟨by omega, by simpa using state, by omega⟩

/-- The four status bytes hold what R175 lists, while the queues keep within their places. -/
theorem statusBytes_fields (commands : (s.port p).commands.length ≤ 4) (results : (s.port p).results.length ≤ 4)
    (events : (s.port p).events.length ≤ 8) :
    ∃ b1 b2 b3 b4 : Byte, statusBytes s p = [b1, b2, b3, b4] ∧
      b1.toNat / 16 = (storeCode s.store.state).toNat ∧ b1.getLsbD 3 = ((s.port p).state == .resetting) ∧
      b1.toNat % 8 = (slotCode (s.port p).slot).toNat ∧
      b2.toNat = 16 * (s.port p).commands.length + (s.port p).results.length ∧
      b3.toNat = 16 * (s.port p).events.length + (s.port p).enables.toNat ∧
      b4.toNat = (s.port p).flags.toNat := by
  obtain ⟨store, state, slot⟩ := statusByte1_fields s.store.state (s.port p).state (s.port p).slot
  have c := count_toNat (n := (s.port p).commands.length) (by omega)
  have r := count_toNat (n := (s.port p).results.length) (by omega)
  have e := count_toNat (n := (s.port p).events.length) (by omega)
  have enables : ((s.port p).enables.setWidth 8).toNat = (s.port p).enables.toNat := BitVec.toNat_setWidth_of_le (by decide)
  refine ⟨_, _, _, _, rfl, store, state, slot, ?_, ?_, BitVec.toNat_setWidth_of_le (by decide)⟩
  · rw [nibbles_toNat (by omega) (by omega), c, r]
  · rw [nibbles_toNat (by omega) (by omega), e, enables]

end

/-- Settles O13: a STATUS READ is never refused for RESETTING, so it fixes and drives the status bytes in every state. -/
theorem statusReadReturnsTheState : Obligations.StatusReadReturnsTheState := by
  refine ⟨fun s p n run idle clocked => ?_, fun s p f run open_ kind unfixed => ?_, fun s p f bs n run open_ kind fixed clocked => ?_,
    fun s p => statusBytes_fields, fun c k => ⟨rfl, rfl, rfl⟩, ⟨rfl, rfl, rfl, rfl, rfl⟩,
    fun n bs => ⟨padTo_length n bs, fun i => padTo_getD bs⟩, fun s p out => rfl⟩
  · rw [exec_statusRead, State.frameMoment_entire_returning run idle rfl (Frame.inReset_of_statusRead rfl) rfl clocked]
    rfl
  · rw [exec_statusRead, State.frameMoment_kindByte run open_ kind,
      State.fixRecord_answered kind unfixed (Frame.inReset_of_statusRead kind) rfl]
  · rw [exec_statusRead, State.frameMoment_release_fixed run open_ kind rfl (Frame.inReset_of_statusRead kind) fixed clocked]
    rfl

/-! ## RESULT READ -/

section
variable {s : State} {p : Port} {f : Frame} {n : Nat} {out : List Byte}

/-- What a RESULT READ does at a port whose frame has ended (R178). -/
theorem resultEffect_ended :
    resultEffect p n f (s.ended p out) =
      if f.removable = true ∧ 15 ≤ n then
        State.settle (s.setPort p { s.port p with frame := none, dataOut := out, results := (s.port p).results.tail })
      else s.ended p out := by
  simp [resultEffect]

/-- The EMPTY record is 00h but for its class byte. -/
theorem emptyResultBytes_getD {i : Nat} (h : i ≠ 2) : emptyResultBytes.getD i 0 = 0 := by
  have zeros : emptyResultBytes = (List.replicate 14 0).set 2 0xFF := rfl
  rw [zeros, List.getD_eq_getElem?_getD, List.getElem?_set_ne h.symm, List.getElem?_replicate]
  split <;> rfl

/-- The kind byte of a RESULT READ fixes a copy of the oldest result, or EMPTY. -/
theorem exec_resultRead_kindByte (run : s.running = true) (open_ : (s.port p).frame = some f) (kind : f.kind = .resultRead)
    (active : f.resetting = false) (unfixed : f.record = none) :
    exec (.resultRead p .kindByte) s =
      .next (s.setPort p { s.port p with
        frame := some (match (s.port p).results with
          | r :: _ => { f with record := some (resultBytes r), removable := true }
          | [] => { f with record := some emptyResultBytes, removable := false }) }) := by
  have answered := Frame.inReset_of_not_resetting active
  rw [exec_resultRead, State.frameMoment_kindByte run open_ kind]
  cases queue : (s.port p).results with
  | nil => rw [State.fixRecord_answered kind unfixed answered (State.recordFor_resultRead_nil queue)]
  | cons r rest => rw [State.fixRecord_answered kind unfixed answered (State.recordFor_resultRead_cons queue)]

/-- A whole RESULT READ. -/
theorem exec_resultRead_entire (h : s.listens p) (clocked : 1 ≤ n) :
    exec (.resultRead p (.entire n true)) s =
      .next (match (s.port p).results with
        | r :: rest =>
          if 15 ≤ n then
            State.settle (s.setPort p { s.port p with dataOut := padTo n (0 :: resultBytes r), results := rest })
          else s.ended p (padTo n (0 :: resultBytes r))
        | [] => s.ended p (padTo n (0 :: emptyResultBytes))) := by
  rw [exec_resultRead]
  cases queue : (s.port p).results with
  | nil =>
    rw [State.frameMoment_entire_returning h.1 h.2.1 rfl h.answered (State.recordFor_resultRead_nil queue) clocked,
      resultEffect_ended]
    rfl
  | cons r rest =>
    rw [State.frameMoment_entire_returning h.1 h.2.1 rfl h.answered (State.recordFor_resultRead_cons queue) clocked,
      resultEffect_ended]
    simp [queue, h.2.1]

end

/-- Settles O15: the record of the oldest result at the kind byte, its removal at the end, and the layout of Tables 11-5 and 11-6. -/
theorem resultReadRemovesWhatItReturned : Obligations.ResultReadRemovesWhatItReturned := by
  refine ⟨fun s p f => exec_resultRead_kindByte, fun s p f bs n run open_ kind active fixed clocked => ?_,
    fun s t p n cut => ?_, fun s p n => exec_resultRead_entire, fun r => rfl, rfl, rfl, fun i => emptyResultBytes_getD,
    fun ⟨_, _, cls, _, _, _, _, _⟩ => by cases cls <;> rfl, by decide, by decide, by decide⟩
  · rw [exec_resultRead,
      State.frameMoment_release_fixed run open_ kind rfl (Frame.inReset_of_not_resetting active) fixed clocked, resultEffect_ended]
  · obtain rfl := Host.Outcome.next.inj cut
    exact State.frameMoment_cut_queues.1

/-! ## EVENT READ -/

section
variable {s : State} {p : Port} {f : Frame} {n : Nat} {out : List Byte}

/-- What an EVENT READ does at a port whose frame has ended (R186). -/
theorem eventEffect_ended :
    eventEffect p n f (s.ended p out) =
      if f.removable = true ∧ 11 ≤ n ∧ f.merged = false then
        s.setPort p { s.port p with frame := none, dataOut := out, events := (s.port p).events.tail }
      else s.ended p out := by
  simp [eventEffect]

/-- The kind byte of an EVENT READ fixes a copy of the oldest event, or EMPTY. -/
theorem exec_eventRead_kindByte (run : s.running = true) (open_ : (s.port p).frame = some f) (kind : f.kind = .eventRead)
    (active : f.resetting = false) (unfixed : f.record = none) :
    exec (.eventRead p .kindByte) s =
      .next (s.setPort p { s.port p with
        frame := some (match (s.port p).events with
          | e :: _ => { f with record := some (eventBytes e), removable := true }
          | [] => { f with record := some emptyEventBytes, removable := false }) }) := by
  have answered := Frame.inReset_of_not_resetting active
  rw [exec_eventRead, State.frameMoment_kindByte run open_ kind]
  cases queue : (s.port p).events with
  | nil => rw [State.fixRecord_answered kind unfixed answered (State.recordFor_eventRead_nil queue)]
  | cons e rest => rw [State.fixRecord_answered kind unfixed answered (State.recordFor_eventRead_cons queue)]

/-- A whole EVENT READ: nothing falls between its kind byte and its end, so no offer has merged. -/
theorem exec_eventRead_entire (h : s.listens p) (clocked : 1 ≤ n) :
    exec (.eventRead p (.entire n true)) s =
      .next (match (s.port p).events with
        | e :: rest =>
          if 11 ≤ n then s.setPort p { s.port p with dataOut := padTo n (0 :: eventBytes e), events := rest }
          else s.ended p (padTo n (0 :: eventBytes e))
        | [] => s.ended p (padTo n (0 :: emptyEventBytes))) := by
  rw [exec_eventRead]
  cases queue : (s.port p).events with
  | nil =>
    rw [State.frameMoment_entire_returning h.1 h.2.1 rfl h.answered (State.recordFor_eventRead_nil queue) clocked,
      eventEffect_ended]
    rfl
  | cons e rest =>
    rw [State.frameMoment_entire_returning h.1 h.2.1 rfl h.answered (State.recordFor_eventRead_cons queue) clocked,
      eventEffect_ended]
    simp [queue, h.2.1, Frame.begun]

end

/-! ### Offers during a frame -/

section
variable {u : PortUnit} {f : Frame} {h e m : Event} {rest : List Event}

theorem Frame.noteMerge_eventRead {bs : List Byte} (kind : f.kind = .eventRead) (fixed : f.record = some bs) :
    f.noteMerge = { f with merged := true } := by
  simp [Frame.noteMerge, kind, fixed]

/-- Only an EVENT READ whose record is fixed takes note of a merge (R186). -/
theorem Frame.noteMerge_other (other : f.kind ≠ .eventRead ∨ f.record = none) : f.noteMerge = f := by
  unfold Frame.noteMerge
  split
  · rename_i kind fixed
    simp [kind, fixed] at other
  · rfl

/-- An offer that merges into the oldest event. -/
theorem PortUnit.offer_merges_oldest (active : u.state = .active) (queue : u.events = h :: rest) (merges : h.merge e = some m) :
    u.offer e = { u with events := m :: rest, frame := u.frame.map Frame.noteMerge } := by
  simp [PortUnit.offer, active, queue, mergeInto, merges, mergesOldest]

/-- An offer that does not merge into the oldest event leaves it the oldest, and the frame as it was. -/
theorem PortUnit.offer_keeps_oldest (queue : u.events = h :: rest) (apart : h.merge e = none) :
    (u.offer e).frame = u.frame ∧ (u.offer e).events.head? = some h := by
  unfold PortUnit.offer
  split
  · exact ⟨rfl, by rw [queue]; rfl⟩
  · simp only [queue, mergeInto, apart, mergesOldest]
    cases mergeInto rest e with
    | some es => exact ⟨rfl, rfl⟩
    | none =>
      dsimp only [Option.map_none]
      split
      · exact ⟨rfl, rfl⟩
      · exact ⟨rfl, rfl⟩

/-- What an offer makes of a frame: nothing, or the note of a merge. -/
theorem PortUnit.offer_frame (u : PortUnit) (e : Event) : (u.offer e).frame = u.frame ∨ (u.offer e).frame = u.frame.map Frame.noteMerge := by
  unfold PortUnit.offer
  split
  · exact .inl rfl
  · split
    · dsimp only
      split
      · exact .inr rfl
      · exact .inl rfl
    · split <;> exact .inl rfl

theorem PortUnit.offer_other_frame (open_ : u.frame = some f) (other : f.kind ≠ .eventRead ∨ f.record = none) :
    (u.offer e).frame = some f := by
  rcases u.offer_frame e with same | noted
  · rw [same, open_]
  · rw [noted, open_, Option.map_some, Frame.noteMerge_other other]

end

/-! ### The layout of Table 11-8 -/

theorem eventBytes_length (e : Event) : (eventBytes e).length = 10 := by
  cases e <;> rfl

/-- A generation in a version field: two bytes of 00h and its own two. -/
theorem bytes32_generationField (g : Generation) :
    bytes32 (generationField g) = [0, 0, g.extractLsb' 8 8, g.extractLsb' 0 8] := by
  have high : ∀ i, 16 ≤ i → (generationField g).extractLsb' i 8 = 0 := fun i hi => by
    ext j hj
    rw [generationField, BitVec.getElem_extractLsb', BitVec.getLsbD_setWidth, BitVec.getLsbD_of_ge g (i + j) (by omega),
      Bool.and_false]
    exact (BitVec.getElem_zero hj).symm
  have low : ∀ i, i + 8 ≤ 16 → (generationField g).extractLsb' i 8 = g.extractLsb' i 8 := fun i hi => by
    ext j hj
    rw [generationField, BitVec.getElem_extractLsb', BitVec.getLsbD_setWidth, BitVec.getElem_extractLsb',
      decide_eq_true (by omega), Bool.true_and]
  rw [bytes32, high 24 (by decide), high 16 (by decide), low 8 (by decide), low 0 (by decide)]

theorem eventBytes_storeState (st : StoreState) (g : Generation) :
    eventBytes (.storeState st g) = [0x03, 0, 0xFF, 0xFF, 0, 0, g.extractLsb' 8 8, g.extractLsb' 0 8, 0, storeCode st] := by
  rw [eventBytes, bytes32_generationField]
  rfl

/-- Settles O16: the record of the oldest event at the kind byte, its removal at the end, what offers do meanwhile, and Table 11-8. -/
theorem eventReadRemovesWhatItReturned : Obligations.EventReadRemovesWhatItReturned := by
  refine ⟨fun s p f => exec_eventRead_kindByte, fun s p f bs n run open_ kind active fixed clocked => ?_,
    fun s t p n cut => ?_, fun s p n => exec_eventRead_entire, fun u f bs h e m rest active open_ kind fixed queue merges => ?_,
    fun u e h rest => PortUnit.offer_keeps_oldest, fun u f e => PortUnit.offer_other_frame, eventBytes_length, rfl,
    fun k t v a => rfl, fun k h c => by cases c <;> rfl, eventBytes_storeState, fun p m session v => rfl,
    rfl, rfl, rfl, rfl, fun p => rfl, by decide⟩
  · rw [exec_eventRead,
      State.frameMoment_release_fixed run open_ kind rfl (Frame.inReset_of_not_resetting active) fixed clocked, eventEffect_ended]
  · obtain rfl := Host.Outcome.next.inj cut
    exact State.frameMoment_cut_queues.2
  · rw [PortUnit.offer_merges_oldest active queue merges, open_, Option.map_some, Frame.noteMerge_eventRead kind fixed]
    exact ⟨rfl, rfl⟩

/-! ## BUFFER WRITE -/

section
variable {s : State} {p : Port} {f : Frame} {off n : Nat} {out data : List Byte}

/-- What a BUFFER WRITE does at a port whose frame has ended (R180). -/
theorem bufferWriteEffect_ended :
    bufferWriteEffect p off data (data.length + 3) f (s.ended p out) =
      s.setPort p { s.port p with
        frame := none
        dataOut := out
        buffer := bufferStore (s.port p).buffer off data
        flags := if data ≠ [] ∧ 2048 < off + data.length then (s.port p).flags ||| flagBufferEdge else (s.port p).flags } := by
  have clocked : data.take (data.length + 3 - 3) = data := by simp
  unfold bufferWriteEffect State.storeFrame State.setFlag
  rw [clocked]
  by_cases edge : data ≠ [] ∧ 2048 < off + data.length <;> simp [edge, Config.bufferBytes]

end

/-- Settles O17: the frame's end is one store, and `bufferByteAt_store` says what it does to each byte. -/
theorem bufferWriteStoresItsData : Obligations.BufferWriteStoresItsData := by
  refine ⟨fun s p offset data h => ⟨bufferStore (s.port p).buffer offset.toNat data, ?_, bufferByteAt_store _ _ _⟩,
    fun s p n whole offset data h bad => ?_, bufferByteAt_store⟩
  · have long : FrameKind.bufferWrite.minimum ≤ data.length + 3 := Nat.le_add_left 3 _
    rw [exec_bufferWrite, State.frameMoment_entire_silent (k := .bufferWrite) h rfl (by decide) long, bufferWriteEffect_ended,
      State.driven_begun (k := .bufferWrite) (by decide)]
    simp only [h.2.1]
  · rw [exec_bufferWrite, State.frameMoment_entire_refused h rfl bad, State.driven_begun (k := .bufferWrite) (by decide)]

/-! ## BUFFER READ -/

section
variable {s : State} {p : Port} {f : Frame} {off n : Nat} {out : List Byte}

/-- What a BUFFER READ does at a port whose frame has ended (R181). -/
theorem bufferReadEffect_ended :
    bufferReadEffect p off n f (s.ended p out) =
      s.setPort p { s.port p with
        frame := none
        dataOut := out
        flags := if 3 < n ∧ 2048 < off + (n - 3) then (s.port p).flags ||| flagBufferEdge else (s.port p).flags } := by
  unfold bufferReadEffect State.setFlag
  by_cases edge : 3 < n ∧ 2048 < off + (n - 3)
  · simp [edge, Config.bufferBytes]
  · simp [edge, Config.bufferBytes, State.ended]

/-- A buffer byte begins to be clocked out in a BUFFER READ that is not refused. -/
theorem State.frameMoment_byteOut {effect : FrameEffect} (run : s.running = true) (open_ : (s.port p).frame = some f)
    (kind : f.kind = .bufferRead) (answered : f.inReset = false) :
    s.frameMoment p .bufferRead .byteOut off effect =
      s.setPort p { s.port p with
        frame := some { f with out := f.out ++ [bufferByteAt (s.port p).buffer (off + f.out.length)] } } := by
  simp [State.frameMoment, run, State.clockOut, open_, kind, answered]

end

/-- Settles O18: what a BUFFER READ drives is what its moments clocked out and the rest as the buffer stands at its end. -/
theorem bufferReadReturnsTheBuffer : Obligations.BufferReadReturnsTheBuffer := by
  refine ⟨fun s p offset n h long => ?_, fun s p f offset run open_ kind active => ?_,
    fun s p f offset n run open_ kind active length => ?_, fun b x beyond => if_neg (Nat.not_lt.mpr beyond),
    fun s p offset n whole h bad =>
      ⟨s.driven p (Frame.begun .bufferRead ((s.port p).state == .resetting)) offset.toNat n, ?_⟩,
    fun b offset n => rfl⟩
  · rw [exec_bufferRead, State.frameMoment_entire_silent h rfl (by decide) long, bufferReadEffect_ended,
      State.driven_bufferRead rfl h.answered long]
    simp [h.2.1]
  · rw [exec_bufferRead, State.frameMoment_byteOut run open_ kind (Frame.inReset_of_not_resetting active)]
  · have answered := Frame.inReset_of_not_resetting active
    have long : FrameKind.bufferRead.minimum ≤ n := by rw [length]; exact Nat.le_add_right _ _
    have rest : n - 3 - f.out.length = 0 := by omega
    rw [exec_bufferRead, State.frameMoment_release run open_ kind, State.frameAtEnd_silent (by rw [kind]; rfl),
      State.frameEnd_accepted (Frame.refused_eq_false (kind ▸ long) (by rw [kind]; decide) answered), bufferReadEffect_ended,
      State.driven_bufferRead kind answered (by omega), rest]
    simp [bufferTake]
  · rw [exec_bufferRead, State.frameMoment_entire_refused h rfl bad]

/-! ## Masks, flags and the notify line -/

section
variable {s t u : State} {p q r : Port} {k : FrameKind} {m : FrameMoment} {off n : Nat} {whole : Bool} {effect : FrameEffect}

/-- A NOTIFY SET, NOTIFY CLEAR or FLAGS CLEAR that is long enough at a port that listens. -/
theorem State.frameMoment_entire_mask (h : s.listens p) (mask : k = .notifySet ∨ k = .notifyClear ∨ k = .flagsClear)
    (long : 2 ≤ n) :
    s.frameMoment p k (.entire n true) off effect =
      effect n (Frame.begun k ((s.port p).state == .resetting)) (s.ended p (List.replicate n 0)) := by
  have facts : s.recordFor p k = none ∧ k ≠ .unknown ∧ k ≠ .bufferRead ∧ k.minimum = 2 := by
    rcases mask with rfl | rfl | rfl <;> exact ⟨rfl, by decide, by decide, rfl⟩
  obtain ⟨silent, known, notBuffer, minimum⟩ := facts
  rw [State.frameMoment_entire_silent h silent known (minimum ▸ long), State.driven_begun notBuffer]

/-- Bits in and outside a mask, of enables and of flags. -/
theorem enables_getLsbD (en : Enables) (mask : Byte) {i : Nat} (h : i < 3) :
    (addEnables en mask).getLsbD i = (en.getLsbD i || mask.getLsbD i) ∧
      (removeEnables en mask).getLsbD i = (en.getLsbD i && !mask.getLsbD i) := by
  simp [addEnables, removeEnables, h]

theorem clearFlags_getLsbD (fl : Flags) (mask : Byte) {i : Nat} (h : i < 5) :
    (clearFlags fl mask).getLsbD i = (fl.getLsbD i && !mask.getLsbD i) := by
  simp [clearFlags, h]

/-! ### What a port reset leaves at the ports -/

theorem State.proceedReset_port : (s.proceedReset p).port p = (s.port p).afterReset :=
  State.setPort_port _ _ _

theorem State.proceedReset_port_other (other : r ≠ p) : (s.proceedReset p).port r = s.port r :=
  State.setPort_port_other _ _ other

theorem State.arriveReset_port_other (other : r ≠ p) : (s.arriveReset p).port r = s.port r := by
  unfold State.arriveReset
  dsimp only
  split
  · rw [State.proceedReset_port_other other, State.setPort_port_other _ _ other]
  · exact State.setPort_port_other _ _ other

theorem State.volatileReset_port (cells : List Host.Cell) (p : Port) : (s.volatileReset cells).port p = .reset := by
  cases p <;> rfl

/-! ### Flags that stand -/

/-- Every flag set at a port in one state is set there in the other. -/
def FlagsStand (r : Port) (s t : State) : Prop := (t.port r).flags &&& (s.port r).flags = (s.port r).flags

theorem FlagsStand.of_eq (h : (t.port r).flags = (s.port r).flags) : FlagsStand r s t := by
  unfold FlagsStand
  rw [h, BitVec.and_self]

theorem FlagsStand.refl : FlagsStand r s s := .of_eq rfl

theorem FlagsStand.trans (h : FlagsStand r s t) (k : FlagsStand r t u) : FlagsStand r s u := by
  unfold FlagsStand at *
  rw [← h, ← BitVec.and_assoc, k]

theorem Quiet.flagsStand (h : Quiet s t) : FlagsStand r s t := (h.ports r).flags

/-- A port replaced by one with the same flags. -/
theorem State.setPort_flagsStand {v : PortUnit} (same : v.flags = (s.port p).flags) : FlagsStand r s (s.setPort p v) := by
  by_cases here : r = p
  · subst here
    exact .of_eq (by rw [State.setPort_port, same])
  · exact .of_eq (by rw [State.setPort_port_other _ _ here])

theorem FlagsStand.settle (h : FlagsStand r s t) : FlagsStand r s t.settle :=
  h.trans (.of_eq (t.settle_flags r))

theorem State.refuseFrame_flagsStand (f : Frame) : FlagsStand r s (s.refuseFrame p f) := by
  unfold State.refuseFrame
  split
  · exact (State.setFlag_quiet (.refl s)).flagsStand
  · exact .refl

theorem State.frameEnd_flagsStand (f : Frame) (he : ∀ n f u, FlagsStand r u (effect n f u)) :
    FlagsStand r s (s.frameEnd p f off n whole effect) := by
  have ended : FlagsStand r s (s.ended p (s.driven p f off n)) := State.setPort_flagsStand rfl
  unfold State.frameEnd
  dsimp only
  split
  · exact ended.trans (State.refuseFrame_flagsStand f)
  · exact ended.trans (he _ _ _)

theorem State.closeFrame_flagsStand (he : ∀ n f u, FlagsStand r u (effect n f u)) :
    FlagsStand r s (s.closeFrame p k off n whole effect) := by
  unfold State.closeFrame
  split
  · split
    · exact State.frameEnd_flagsStand _ he
    · exact .refl
  · exact .refl

theorem State.openFrame_flagsStand : FlagsStand r s (s.openFrame p k) := by
  unfold State.openFrame
  dsimp only
  split
  · exact .refl
  · exact State.setPort_flagsStand rfl

/-- No moment of a frame clears a flag that the frame's effect does not. -/
theorem State.frameMoment_flagsStand (he : ∀ n f u, FlagsStand r u (effect n f u)) :
    FlagsStand r s (s.frameMoment p k m off effect) := by
  unfold State.frameMoment
  split
  · cases m with
    | select => exact State.openFrame_flagsStand
    | kindByte =>
      dsimp only [State.clockKind]
      split
      · split
        · exact State.setPort_flagsStand rfl
        · exact .refl
      · exact .refl
    | byteOut =>
      dsimp only [State.clockOut]
      split
      · split
        · exact State.setPort_flagsStand rfl
        · exact .refl
      · exact .refl
    | release n whole => exact State.closeFrame_flagsStand he
    | entire n whole =>
      dsimp only
      split
      · exact State.openFrame_flagsStand.trans (State.closeFrame_flagsStand he)
      · exact .refl
  · exact .refl

theorem noEffect_flagsStand (n : Nat) (f : Frame) (u : State) : FlagsStand r u (noEffect n f u) := .refl

theorem State.queueCommand_flagsStand {c : Cmd} : FlagsStand r s (s.queueCommand p c) := by
  unfold State.queueCommand
  split
  · exact FlagsStand.settle (State.setPort_flagsStand rfl)
  · exact (State.setFlag_quiet (.refl s)).flagsStand

theorem resultEffect_flagsStand (n : Nat) (f : Frame) (u : State) : FlagsStand r u (resultEffect p n f u) := by
  unfold resultEffect
  split
  · exact FlagsStand.settle (State.setPort_flagsStand rfl)
  · exact .refl

theorem eventEffect_flagsStand (n : Nat) (f : Frame) (u : State) : FlagsStand r u (eventEffect p n f u) := by
  unfold eventEffect
  split
  · exact State.setPort_flagsStand rfl
  · exact .refl

theorem bufferWriteEffect_flagsStand {data : List Byte} (n : Nat) (f : Frame) (u : State) :
    FlagsStand r u (bufferWriteEffect p off data n f u) := by
  have stored : FlagsStand r u (u.setPort p { u.port p with buffer := bufferStore (u.port p).buffer off (data.take (n - 3)) }) :=
    State.setPort_flagsStand rfl
  unfold bufferWriteEffect State.storeFrame
  dsimp only
  split
  · exact stored.trans (State.setFlag_quiet (.refl _)).flagsStand
  · exact stored

theorem bufferReadEffect_flagsStand (n : Nat) (f : Frame) (u : State) : FlagsStand r u (bufferReadEffect p off n f u) := by
  unfold bufferReadEffect
  split
  · exact (State.setFlag_quiet (.refl u)).flagsStand
  · exact .refl

theorem State.setEnables_flagsStand {g : Enables → Enables} : FlagsStand r s (s.setEnables p g) :=
  State.setPort_flagsStand rfl

/-- A flag that is set stays set at every row but those that may clear flags of its port (R182). -/
theorem exec_flagsStand {i : Instr} (h : exec i s = .next t) (keeps : clearsFlags r i = false) : FlagsStand r s t := by
  have frame : ∀ {p : Port} {k : FrameKind} {m : FrameMoment} {off : Nat} {effect : FrameEffect},
      (∀ n f u, FlagsStand r u (effect n f u)) →
      Host.Outcome.next (s.frameMoment p k m off effect) = (.next t : Host.Outcome State Fault Refusal) → FlagsStand r s t :=
    fun he h => Host.Outcome.next.inj h ▸ State.frameMoment_flagsStand he
  have elsewhere : ∀ {q : Port}, (q == r) = false → r ≠ q := fun differ same => by simp [same] at differ
  cases i with
  | statusRead p m => exact frame noEffect_flagsStand h
  | command p m code tag params => exact frame (fun _ _ _ => State.queueCommand_flagsStand) h
  | resultRead p m => exact frame resultEffect_flagsStand h
  | eventRead p m => exact frame eventEffect_flagsStand h
  | bufferWrite p m offset data => exact frame bufferWriteEffect_flagsStand h
  | bufferRead p m offset => exact frame bufferReadEffect_flagsStand h
  | notifySet p m mask => exact frame (fun _ _ _ => State.setEnables_flagsStand) h
  | notifyClear p m mask => exact frame (fun _ _ _ => State.setEnables_flagsStand) h
  | flagsClear p m mask =>
    exact frame (fun _ _ u => .of_eq (congrArg PortUnit.flags (State.setPort_port_other u _ (elsewhere keeps)))) h
  | portReset p m =>
    exact frame (fun _ _ u => .of_eq (congrArg PortUnit.flags (State.arriveReset_port_other (elsewhere keeps)))) h
  | unknownFrameKind p m kind =>
    have h : execUnknownFrameKind p m kind s = .next t := h
    unfold execUnknownFrameKind at h
    split at h
    · exact frame noEffect_flagsStand h
    · exact absurd h (by simp)
  | resetNLow cut eraseCut => exact Bool.noConfusion keeps
  | powerOn => exact Bool.noConfusion keeps
  | powerLoss cut eraseCut => exact Bool.noConfusion keeps
  | resetNHigh =>
    obtain rfl := Host.Outcome.next.inj h
    dsimp only
    split <;> exact .of_eq rfl
  | guardEnChange level =>
    obtain rfl := Host.Outcome.next.inj h
    exact .of_eq rfl
  | portResetProceed p =>
    obtain ⟨-, rfl⟩ := State.whenDue_eq_next.mp h
    exact .of_eq (by rw [State.settle_flags, State.proceedReset_port_other (elsewhere keeps)])
  | _ => exact (exec_inner_quiet rfl h).flagsStand (r := r)

/-- RESET_N low leaves every port of a running part at its reset values (R174). -/
theorem exec_resetNLow_port (run : s.running = true) (p : Port) (cut eraseCut : List Host.Cell) :
    ∃ t, exec (.resetNLow cut eraseCut) s = .next t ∧ t.port p = .reset := by
  refine ⟨_, rfl, ?_⟩
  dsimp only
  rw [if_pos run]
  exact State.volatileReset_port (s := s) (cutArray s.array cut eraseCut) p

end

/-- Settles O19: each mask frame as its effect on a port whose frame has ended, and `exec_flagsStand`. -/
theorem maskFramesChangeTheNamedBits : Obligations.MaskFramesChangeTheNamedBits := by
  refine ⟨fun s p n mask h long => ⟨?_, ?_⟩, fun en mask i => enables_getLsbD en mask, fun s p => ?_,
    fun s p cut eraseCut run => ?_, fun s p f => rfl, ⟨rfl, rfl, rfl, rfl, rfl⟩, fun i s t p => exec_flagsStand,
    fun s p n mask h long => ?_, fun fl mask i => clearFlags_getLsbD fl mask⟩
  · rw [exec_notifySet, State.frameMoment_entire_mask h (by decide) long]
    simp [State.setEnables, h.2.1]
  · rw [exec_notifyClear, State.frameMoment_entire_mask h (by decide) long]
    simp [State.setEnables, h.2.1]
  · rw [State.proceedReset_port]
    exact ⟨rfl, rfl⟩
  · obtain ⟨t, next, port⟩ := exec_resetNLow_port run p cut eraseCut
    exact ⟨t, next, by rw [port]; rfl, by rw [port]; rfl⟩
  · rw [exec_flagsClear, State.frameMoment_entire_mask h (by decide) long]
    simp [State.clearPortFlags, h.2.1]

theorem flags_ne_zero_iff (fl : Flags) : fl ≠ 0 ↔ ∃ i, i < 5 ∧ fl.getLsbD i = true := by
  constructor
  · intro nonzero
    by_contra unset
    exact nonzero (BitVec.eq_of_getLsbD_eq fun i hi => by simpa using fun bit => unset ⟨i, hi, bit⟩)
  · rintro ⟨i, -, bit⟩ rfl
    simp at bit

/-- Settles O22: the three disjuncts of the notify line, one for each enable. -/
theorem notifyLineFollowsItsConditions : Obligations.NotifyLineFollowsItsConditions := by
  intro u
  have held : ∀ {α : Type} (l : List α), (!l.isEmpty) = true ↔ 1 ≤ l.length := fun l => by cases l <;> simp
  have flagged : (u.flags != 0) = true ↔ ∃ i, i < 5 ∧ u.flags.getLsbD i = true := bne_iff_ne.trans (flags_ne_zero_iff u.flags)
  refine ⟨?_, by simp [PortUnit.notifyLevel]⟩
  simp only [PortUnit.notifyActive, Bool.or_eq_true, Bool.and_eq_true, held, flagged, or_assoc]

end Sys2Proof.Machine

/-! SUPPORT. The machine as a whole: what a step keeps, what a row leaves alone, the level of GUARD_EN, the tick, and the machine right after reset. -/

namespace Sys2Proof.Machine

/-! ## What a step keeps -/

section
variable {s t u : State} {p q r : Port}

/-- What every row and every tick keeps, and what does not depend on the queue of commands, every step keeps. -/
theorem step_preserves {P : State → Prop} (queue : ∀ s l, P s → P (s.setPending l))
    (row : ∀ i s t, P s → exec i s = .next t → P t) (tick : ∀ s, P s → P s.tick) : ∀ s t, P s → step s = .next t → P t := by
  intro s t ok next
  unfold step at next
  split at next
  · exact Host.Outcome.next.inj next ▸ tick s ok
  · exact row _ _ _ (queue s _ ok) next

/-- A property that `Keeps` carries over is kept by every step. -/
theorem step_preserves_of_keeps {P : State → Prop} (queue : ∀ s l, P s → P (s.setPending l)) (keeps : ∀ s t, Keeps s t → P s → P t) :
    ∀ s t, P s → step s = .next t → P t :=
  step_preserves queue (fun _ s t ok next => keeps s t (exec_keeps next) ok) (fun s ok => keeps s _ State.tick_quiet.keeps ok)

end

/-- Settles O4. -/
theorem memoryStaysCanonical : Obligations.MemoryStaysCanonical :=
  step_preserves_of_keeps (fun _ _ ok => ok) (fun _ _ keeps ok => ⟨keeps.cells ok.1, fun p => (keeps.ports p).buffer (ok.2 p)⟩)

/-- Settles O5. -/
theorem queuesStayBounded : Obligations.QueuesStayBounded :=
  step_preserves_of_keeps (fun _ _ ok => ok) (fun _ _ keeps ok p => (keeps.ports p).queues (ok p))

/-- Settles O6. -/
theorem resettingPortsStayDrained : Obligations.ResettingPortsStayDrained :=
  step_preserves_of_keeps (fun _ _ ok => ok) (fun _ _ keeps ok p => (keeps.ports p).reset (ok p))

/-- Outside MOUNTING the directory holds at most 4,095 entries besides that of the configuration key (R40). -/
theorem DirectoryFits.masterCount_le {s : State} (fits : DirectoryFits s) (notMounting : s.store.state ≠ .mounting) :
    masterCount s.engine.dir ≤ 4095 := by
  obtain ⟨few, -, none, -, -⟩ := fits
  cases state : s.store.state with
  | mounting => exact absurd state notMounting
  | ready => exact few (.inl state)
  | degraded => exact few (.inr state)
  | unformatted => rw [none (.inl state)]; exact Nat.zero_le _
  | formatting => rw [none (.inr state)]; exact Nat.zero_le _

/-- Settles O7: `Roomy` is the directory's order with its places and the store's, and every row and tick keeps it. -/
theorem orderedTablesStayInOrder : Obligations.OrderedTablesStayInOrder := by
  have roomy : ∀ s t, Roomy s → step s = .next t → Roomy t :=
    step_preserves (fun _ _ ok => ⟨ok.order, ok.store, ok.fits⟩) (fun _ _ _ ok next => exec_roomy ok next) (fun _ ok => State.tick_still.roomy ok)
  refine ⟨step_preserves_of_keeps (fun _ _ ok => ok) (fun _ _ keeps ok => keeps.dir ok), fun s t order store fits next => ?_,
    fun s order fits notMounting => ?_, fun d => List.countP_eq_length_filter.symm,
    step_preserves_of_keeps (fun _ _ ok => ok) (fun _ _ keeps ok => keeps.claims ok),
    step_preserves_of_keeps (fun _ _ ok => ok) (fun _ _ keeps ok p => keeps.watches p (ok p))⟩
  · have ok := roomy s t ⟨order, store, fits⟩ next
    exact ⟨ok.store, ok.fits⟩
  · have few := fits.masterCount_le notMounting
    have all := DirOk.length_le order
    exact ⟨few, by omega⟩

/-- Settles O8. -/
theorem eraseFrontAndThresholdStayInRange : Obligations.EraseFrontAndThresholdStayInRange :=
  ⟨step_preserves_of_keeps (fun _ _ ok => ok) (fun _ _ keeps ok => keeps.erase ok),
    step_preserves_of_keeps (fun _ _ ok => ok) (fun _ _ keeps ok => ⟨keeps.front ok.1, keeps.free ok.2⟩),
    step_preserves_of_keeps (fun _ _ ok => ok) (fun _ _ keeps ok => keeps.threshold ok)⟩

/-- Settles O9: `Fine` is the Engine's order with every port's places, and every row and tick keeps it. -/
theorem resultsStayBounded : Obligations.ResultsStayBounded := by
  intro s t engine results next
  have fine : Fine t :=
    step_preserves (fun _ _ ok => ⟨ok.engine, ok.results⟩) (fun _ _ _ ok next => exec_fine ok next)
      (fun _ ok => State.tick_calm.fine ok) s t ⟨engine, results⟩ next
  exact ⟨fine.engine, fine.results⟩

/-! ## What a frame can do -/

section
variable {s t u : State} {p q r : Port} {k : FrameKind} {m : FrameMoment} {off : Nat} {effect : FrameEffect} {keepsEnables : Prop}

/-- A port with its frame decoder, what it last drove and its flags replaced: all that the moments of a frame touch themselves. -/
def State.framed (s : State) (p : Port) (f : Option Frame) (out : List Byte) (flags : Flags) : State :=
  s.setPort p { s.port p with frame := f, dataOut := out, flags := flags }

/-- Each moment of a frame is a change of the frame decoder, of the bytes driven and of REFUSED, before or without the frame's effect. -/
theorem State.frameMoment_rel {R : State → State → Prop} (refl : ∀ s, R s s)
    (after : ∀ s t f out flags, R (s.framed p f out flags) t → R s t) (he : ∀ n f u, R u (effect n f u)) :
    R s (s.frameMoment p k m off effect) := by
  have own : ∀ s f out flags, R s (s.framed p f out flags) := fun s f out flags => after s _ f out flags (refl _)
  have flag : ∀ s x, R s (s.setFlag p x) := fun s x => own s (s.port p).frame (s.port p).dataOut ((s.port p).flags ||| x)
  have opened : ∀ s t, R (s.openFrame p k) t → R s t := fun s t h => by
    unfold State.openFrame at h
    dsimp only at h
    split at h
    · exact h
    · exact after s t _ (s.port p).dataOut (s.port p).flags h
  have closed : ∀ s n whole, R s (s.closeFrame p k off n whole effect) := fun s n whole => by
    unfold State.closeFrame
    split
    · split
      · unfold State.frameEnd State.refuseFrame
        dsimp only
        generalize s.driven p _ off n = out
        refine after s _ none out (s.port p).flags ?_
        split
        · split
          · exact flag _ _
          · exact refl _
        · exact he _ _ _
      · exact refl s
    · exact refl s
  unfold State.frameMoment
  split
  · cases m with
    | select => exact opened s _ (refl _)
    | kindByte =>
      dsimp only [State.clockKind]
      split
      · split
        · exact own s _ (s.port p).dataOut (s.port p).flags
        · exact refl s
      · exact refl s
    | byteOut =>
      dsimp only [State.clockOut]
      split
      · split
        · exact own s _ (s.port p).dataOut (s.port p).flags
        · exact refl s
      · exact refl s
    | release n whole => exact closed s n whole
    | entire n whole =>
      dsimp only
      split
      · exact opened s _ (closed _ n whole)
      · exact refl s
  · exact refl s

/-- A row that acts on one Port Unit, with or without the arbiters' look after it. -/
def PortStep (keepsEnables : Prop) (p : Port) (s t : State) : Prop :=
  ∃ v : PortUnit, (keepsEnables → v.enables = (s.port p).enables) ∧ (t = s.setPort p v ∨ t = (s.setPort p v).settle)

theorem PortStep.of_setPort {v : PortUnit} (h : keepsEnables → v.enables = (s.port p).enables) : PortStep keepsEnables p s (s.setPort p v) :=
  ⟨v, h, .inl rfl⟩

theorem PortStep.of_settle {v : PortUnit} (h : keepsEnables → v.enables = (s.port p).enables) :
    PortStep keepsEnables p s (s.setPort p v).settle :=
  ⟨v, h, .inr rfl⟩

theorem PortStep.refl (s : State) : PortStep keepsEnables p s s :=
  ⟨s.port p, fun _ => rfl, .inl (State.setPort_self s p).symm⟩

theorem PortStep.after {w : PortUnit} (hw : keepsEnables → w.enables = (s.port p).enables)
    (h : PortStep keepsEnables p (s.setPort p w) t) : PortStep keepsEnables p s t := by
  obtain ⟨v, enables, next⟩ := h
  simp only [State.setPort_port, State.setPort_setPort] at enables next
  exact ⟨v, fun keeps => (enables keeps).trans (hw keeps), next⟩

/-- A frame whose effect acts on its Port Unit alone. -/
theorem State.frameMoment_portStep (he : ∀ n f u, PortStep keepsEnables p u (effect n f u)) :
    PortStep keepsEnables p s (s.frameMoment p k m off effect) :=
  State.frameMoment_rel PortStep.refl (fun _ _ _ _ _ => PortStep.after fun _ => rfl) he

theorem State.setFlag_portStep {x : Flags} : PortStep keepsEnables p s (s.setFlag p x) := .of_setPort fun _ => rfl

theorem queueCommand_portStep {c : Cmd} (u : State) : PortStep keepsEnables p u (u.queueCommand p c) := by
  unfold State.queueCommand
  split
  · exact .of_settle fun _ => rfl
  · exact .of_setPort fun _ => rfl

theorem resultEffect_portStep (n : Nat) (f : Frame) (u : State) : PortStep keepsEnables p u (resultEffect p n f u) := by
  unfold resultEffect
  split
  · exact .of_settle fun _ => rfl
  · exact .refl u

theorem eventEffect_portStep (n : Nat) (f : Frame) (u : State) : PortStep keepsEnables p u (eventEffect p n f u) := by
  unfold eventEffect
  split
  · exact .of_setPort fun _ => rfl
  · exact .refl u

theorem bufferWriteEffect_portStep {data : List Byte} (n : Nat) (f : Frame) (u : State) :
    PortStep keepsEnables p u (bufferWriteEffect p off data n f u) := by
  unfold bufferWriteEffect State.storeFrame
  dsimp only
  generalize stored : bufferStore (u.port p).buffer off _ = bytes
  split
  · exact .after (w := { u.port p with buffer := bytes }) (fun _ => rfl) State.setFlag_portStep
  · exact .of_setPort fun _ => rfl

theorem bufferReadEffect_portStep (n : Nat) (f : Frame) (u : State) : PortStep keepsEnables p u (bufferReadEffect p off n f u) := by
  unfold bufferReadEffect
  split
  · exact .of_setPort fun _ => rfl
  · exact .refl u

theorem clearPortFlags_portStep {mask : Byte} : PortStep keepsEnables p s (s.clearPortFlags p mask) := .of_setPort fun _ => rfl

/-- A port reset at its arrival: a change of its Port Unit, and of the port's claims and watch list where it proceeds. -/
def ResetStep (p : Port) (s t : State) : Prop :=
  ∃ v : PortUnit, t = s.setPort p v ∨ ∃ cs, t = ((s.setPort p v).setClaims cs).setWatches p []

theorem ResetStep.refl (s : State) : ResetStep p s s := ⟨s.port p, .inl (State.setPort_self s p).symm⟩

theorem ResetStep.after {w : PortUnit} (h : ResetStep p (s.setPort p w) t) : ResetStep p s t := by
  obtain ⟨v, next⟩ := h
  exact ⟨v, by simpa only [State.setPort_setPort] using next⟩

theorem State.proceedReset_resetStep : ResetStep p s (s.proceedReset p) := ⟨(s.port p).afterReset, .inr ⟨_, rfl⟩⟩

theorem State.arriveReset_resetStep : ResetStep p s (s.arriveReset p) := by
  unfold State.arriveReset
  dsimp only
  split
  · exact .after State.proceedReset_resetStep
  · exact ⟨_, .inl rfl⟩

/-- A PORT RESET frame at any of its moments. -/
theorem exec_portReset_resetStep (h : exec (.portReset p m) s = .next t) : ResetStep p s t := by
  obtain rfl := Host.Outcome.next.inj h
  exact State.frameMoment_rel ResetStep.refl (fun _ _ _ _ _ => ResetStep.after) (fun _ _ _ => State.arriveReset_resetStep)

/-- Every other frame at any of its moments acts on its Port Unit alone, and keeps the enables unless it is a NOTIFY SET or NOTIFY CLEAR. -/
theorem exec_frame_portStep {i : Instr} (isFrame : framePort i = some p) (notReset : ∀ m, i ≠ .portReset p m) (h : exec i s = .next t) :
    PortStep (changesEnables p i = false) p s t := by
  have frame : ∀ {q : Port} {k : FrameKind} {m : FrameMoment} {off : Nat} {effect : FrameEffect},
      (∀ n f u, PortStep (changesEnables p i = false) q u (effect n f u)) →
      Host.Outcome.next (s.frameMoment q k m off effect) = (.next t : Host.Outcome State Fault Refusal) →
      PortStep (changesEnables p i = false) q s t := fun he next => Host.Outcome.next.inj next ▸ State.frameMoment_portStep he
  cases i with
  | statusRead q m => obtain rfl := Option.some.inj isFrame; exact frame (fun _ _ u => .refl u) h
  | command q m code tag params => obtain rfl := Option.some.inj isFrame; exact frame (fun _ _ => queueCommand_portStep) h
  | resultRead q m => obtain rfl := Option.some.inj isFrame; exact frame resultEffect_portStep h
  | eventRead q m => obtain rfl := Option.some.inj isFrame; exact frame eventEffect_portStep h
  | bufferWrite q m offset data => obtain rfl := Option.some.inj isFrame; exact frame bufferWriteEffect_portStep h
  | bufferRead q m offset => obtain rfl := Option.some.inj isFrame; exact frame bufferReadEffect_portStep h
  | notifySet q m mask =>
    obtain rfl := Option.some.inj isFrame
    exact frame (fun _ _ _ => .of_setPort fun keeps => by simp [changesEnables] at keeps) h
  | notifyClear q m mask =>
    obtain rfl := Option.some.inj isFrame
    exact frame (fun _ _ _ => .of_setPort fun keeps => by simp [changesEnables] at keeps) h
  | flagsClear q m mask => obtain rfl := Option.some.inj isFrame; exact frame (fun _ _ _ => clearPortFlags_portStep) h
  | portReset q m => obtain rfl := Option.some.inj isFrame; exact absurd rfl (notReset m)
  | unknownFrameKind q m kind =>
    obtain rfl := Option.some.inj isFrame
    have h : execUnknownFrameKind q m kind s = .next t := h
    unfold execUnknownFrameKind at h
    split at h
    · exact frame (fun _ _ u => .refl u) h
    · exact absurd h (by simp)
  | _ => exact absurd isFrame (by simp [framePort])

/-! ## What a frame leaves alone -/

/-- What a frame at a port leaves: every block behind it, and the other ports but for the slot and the command queue of one that the Engine takes. -/
structure LeavesAround (p : Port) (s t : State) : Prop where
  dir : t.engine.dir = s.engine.dir
  move : t.engine.move = s.engine.move
  seq : t.engine.seq = s.engine.seq
  guard : t.guard = s.guard
  space : t.space = s.space
  store : t.store = s.store
  pins : t.pins = s.pins
  cells : t.array.cells = s.array.cells
  watches : ∀ q, q ≠ p → t.coord.watches.get q = s.coord.watches.get q
  ports : ∀ q, q ≠ p → ∃ (x : Slot) (cs : List Cmd), t.port q = { s.port q with slot := x, commands := cs }

theorem State.setPort_leavesAround (s : State) (p : Port) (v : PortUnit) : LeavesAround p s (s.setPort p v) where
  dir := rfl
  move := rfl
  seq := rfl
  guard := rfl
  space := rfl
  store := rfl
  pins := rfl
  cells := rfl
  watches _ _ := rfl
  ports q other := ⟨(s.port q).slot, (s.port q).commands, State.setPort_port_other _ _ other⟩

theorem LeavesAround.settle (h : LeavesAround p s t) : LeavesAround p s t.settle where
  dir := t.settle_dir.trans h.dir
  move := t.settle_move.trans h.move
  seq := t.settle_seq.trans h.seq
  guard := t.settle_guard.trans h.guard
  space := t.settle_space.trans h.space
  store := t.settle_store.trans h.store
  pins := t.settle_pins.trans h.pins
  cells := t.settle_cells.trans h.cells
  watches q other := by rw [State.settle_coord]; exact h.watches q other
  ports q other := by
    obtain ⟨x, cs, before⟩ := h.ports q other
    obtain ⟨y, ds, after⟩ := t.settle_port q
    exact ⟨y, ds, by rw [after, before]⟩

theorem PortStep.leavesAround (h : PortStep keepsEnables p s t) : LeavesAround p s t ∧ t.coord = s.coord := by
  obtain ⟨v, -, rfl | rfl⟩ := h
  · exact ⟨State.setPort_leavesAround s p v, rfl⟩
  · exact ⟨(State.setPort_leavesAround s p v).settle, State.settle_coord _⟩

theorem ResetStep.leavesAround (h : ResetStep p s t) : LeavesAround p s t := by
  obtain ⟨v, rfl | ⟨cs, rfl⟩⟩ := h
  · exact State.setPort_leavesAround s p v
  · exact { State.setPort_leavesAround s p v with watches := fun q other => by simp [Quad.get_set_other _ _ other] }

theorem exec_frame_leavesAround {i : Instr} (isFrame : framePort i = some p) (h : exec i s = .next t) :
    LeavesAround p s t ∧ ((∀ m, i ≠ .portReset p m) → t.coord = s.coord) := by
  by_cases reset : ∃ m, i = .portReset p m
  · obtain ⟨m, rfl⟩ := reset
    exact ⟨(exec_portReset_resetStep h).leavesAround, fun notReset => absurd rfl (notReset m)⟩
  · have notReset : ∀ m, i ≠ .portReset p m := fun m same => reset ⟨m, same⟩
    obtain ⟨leaves, coord⟩ := (exec_frame_portStep isFrame notReset h).leavesAround
    exact ⟨leaves, fun _ => coord⟩

/-! ## Flags, enables and the session lock -/

/-- Every row is a frame, a step of an inner block, a line or power event, or a port reset that proceeds. -/
theorem row_kinds (i : Instr) :
    (∃ p, framePort i = some p) ∨ innerRow i = true ∨ lineRow i = true ∨ ∃ p, i = .portResetProceed p := by
  cases frame : framePort i with
  | some p => exact .inl ⟨p, rfl⟩
  | none =>
    by_cases line : lineRow i = true
    · exact .inr (.inr (.inl line))
    · by_cases reset : resetRow i = true
      · cases i with
        | portResetProceed p => exact .inr (.inr (.inr ⟨p, rfl⟩))
        | _ => exact Bool.noConfusion reset
      · exact .inr (.inl (by simp [innerRow, frame, line, reset]))

/-- A port reset that proceeds at its own row. -/
theorem exec_portResetProceed_leavesAround (h : exec (.portResetProceed p) s = .next t) : LeavesAround p s t := by
  obtain ⟨-, rfl⟩ := State.whenDue_eq_next.mp h
  exact State.proceedReset_resetStep.leavesAround.settle

/-- A line or power event that is no hard reset leaves the ports and the Guard Unit. -/
theorem exec_line_leaves {i : Instr} (line : lineRow i = true) (notReset : hardReset i = false) (h : exec i s = .next t) :
    t.ports = s.ports ∧ t.guard = s.guard := by
  cases i with
  | resetNHigh =>
    obtain rfl := Host.Outcome.next.inj h
    dsimp only
    split <;> exact ⟨rfl, rfl⟩
  | guardEnChange level =>
    obtain rfl := Host.Outcome.next.inj h
    exact ⟨rfl, rfl⟩
  | resetNLow cut eraseCut => exact Bool.noConfusion notReset
  | powerOn => exact Bool.noConfusion notReset
  | powerLoss cut eraseCut => exact Bool.noConfusion notReset
  | _ => exact Bool.noConfusion line

theorem hardReset_of_changesEnables {i : Instr} (line : lineRow i = true) (keeps : changesEnables r i = false) : hardReset i = false := by
  cases i with
  | resetNLow cut eraseCut => exact keeps
  | resetNHigh => rfl
  | powerOn => exact keeps
  | powerLoss cut eraseCut => exact keeps
  | guardEnChange level => rfl
  | _ => exact Bool.noConfusion line

/-- The enables of a port stand at every row but those that may change them (R183). -/
theorem exec_enables {i : Instr} (h : exec i s = .next t) (keeps : changesEnables r i = false) : (t.port r).enables = (s.port r).enables := by
  have leaves : ∀ {p : Port}, r ≠ p → LeavesAround p s t → (t.port r).enables = (s.port r).enables := fun other around => by
    obtain ⟨x, cs, port⟩ := around.ports r other
    rw [port]
  rcases row_kinds i with ⟨p, frame⟩ | inner | line | ⟨p, rfl⟩
  · by_cases other : r = p
    · subst other
      have notReset : ∀ m, i ≠ .portReset r m := by
        rintro m rfl
        simp [changesEnables] at keeps
      obtain ⟨v, enables, rfl | rfl⟩ := exec_frame_portStep frame notReset h
      · rw [State.setPort_port, enables keeps]
      · rw [State.settle_enables, State.setPort_port, enables keeps]
    · exact leaves other (exec_frame_leavesAround frame h).1
  · exact ((exec_inner_quiet inner h).ports r).enables
  · unfold State.port
    rw [(exec_line_leaves line (hardReset_of_changesEnables line keeps) h).1]
  · exact leaves (fun same => by simp [changesEnables, same] at keeps) (exec_portResetProceed_leavesAround h)

/-- The session lock lasts until the next hard reset or power-on (R123). -/
theorem exec_session {i : Instr} (h : exec i s = .next t) (notReset : hardReset i = false) (session : s.guard.session = true) :
    t.guard.session = true := by
  rcases row_kinds i with ⟨p, frame⟩ | inner | line | ⟨p, rfl⟩
  · rw [(exec_frame_leavesAround frame h).1.guard, session]
  · exact (exec_inner_quiet inner h).session session
  · rw [(exec_line_leaves line notReset h).2, session]
  · rw [(exec_portResetProceed_leavesAround h).guard, session]

/-- No row but the line's own changes the level of GUARD_EN. -/
theorem exec_guardEn {i : Instr} (change : ∀ l, i ≠ .guardEnChange l) (h : exec i s = .next t) : t.pins.guardEn = s.pins.guardEn := by
  rcases row_kinds i with ⟨p, frame⟩ | inner | line | ⟨p, rfl⟩
  · rw [(exec_frame_leavesAround frame h).1.pins]
  · exact congrArg Pins.guardEn (exec_inner_quiet inner h).pins
  · cases i with
    | guardEnChange level => exact absurd rfl (change level)
    | resetNLow cut eraseCut => obtain rfl := Host.Outcome.next.inj h; rfl
    | resetNHigh => obtain rfl := Host.Outcome.next.inj h; rfl
    | powerOn =>
      have h : execPowerOn s = .next t := h
      unfold execPowerOn at h
      split at h
      · exact absurd h (by simp)
      · obtain rfl := Host.Outcome.next.inj h
        dsimp only
        split <;> rfl
    | powerLoss cut eraseCut =>
      have h : execPowerLoss cut eraseCut s = .next t := h
      unfold execPowerLoss at h
      split at h
      · obtain rfl := Host.Outcome.next.inj h
        rfl
      · exact absurd h (by simp)
    | _ => exact Bool.noConfusion line
  · rw [(exec_portResetProceed_leavesAround h).pins]

end

/-- Settles O10: `exec_flagsStand`, `exec_enables` and `exec_session`. -/
theorem flagsEnablesAndSessionLockStand : Obligations.FlagsEnablesAndSessionLockStand :=
  ⟨fun _ _ _ _ next => ⟨exec_flagsStand next, exec_enables next⟩, fun _ _ _ => exec_session⟩

/-- Settles O11: `exec_keeps` for the queue, `exec_frame_leavesAround` for a frame, `exec_inner_quiet` for an inner row, and the setters. -/
theorem rowsKeepToTheirBlocks : Obligations.RowsKeepToTheirBlocks := by
  refine ⟨fun c s t next => (exec_keeps next).pending, fun i p s t frame next => ?_, fun i s t inner next => ?_, fun s p q u ws => ?_,
    fun s w p d m n => ⟨rfl, rfl, rfl, rfl, rfl⟩, fun s cs g v l q b => ⟨rfl, rfl, rfl, rfl, rfl, rfl⟩, fun s g h r st => ?_,
    fun s c f e op => ⟨rfl, rfl, rfl, rfl, rfl, rfl⟩, fun s st g x y l => ⟨rfl, rfl, rfl, rfl, rfl⟩,
    fun α q p r x => ⟨rfl, rfl, rfl, rfl, Quad.get_set q p r x⟩, fun s p => rfl⟩
  · obtain ⟨leaves, coord⟩ := exec_frame_leavesAround frame next
    refine ⟨leaves.dir, leaves.move, leaves.seq, leaves.guard, leaves.space, leaves.store, leaves.pins, leaves.cells, coord, fun q other => ?_⟩
    obtain ⟨x, cs, port⟩ := leaves.ports q other
    rw [port]
    exact ⟨leaves.watches q other, rfl, rfl, rfl, rfl, rfl, rfl, rfl, rfl⟩
  · have quiet := exec_inner_quiet inner next
    exact ⟨quiet.pins, fun p => ⟨(quiet.ports p).state, (quiet.ports p).enables, (quiet.ports p).dataOut⟩⟩
  · exact ⟨Quad.get_set s.ports p q u, rfl, Quad.get_set s.coord.watches p q ws, rfl⟩
  · exact ⟨(State.seg_setSeg s g h r).trans (by simp only [eq_comm]), rfl, rfl, rfl⟩

/-! ## The level of GUARD_EN -/

/-- Settles O12: `exec_atLevel` and `step_atLevel`; a row that does not depend on the level and is not the line's own does not change it. -/
theorem guardEnIsSampledOnlyWhereSaid : Obligations.GuardEnIsSampledOnlyWhereSaid := by
  refine ⟨fun i s level read change check => exec_atLevel i read change check, fun i s t => exec_guardEn, fun s t level empty next => ?_⟩
  rw [step_atLevel empty, next]
  rfl

end Sys2Proof.Machine

/-! SUPPORT. A step and a tick, the machine right after reset, lines and power, and the frames that are refused, taken in their moments, or reset their port. -/

namespace Sys2Proof.Machine

/-! ## A step and a tick -/

/-- Settles O1. -/
theorem stepRunsTheFrontCommand : Obligations.StepRunsTheFrontCommand := fun _ _ _ => rfl

section
variable {s : State} {p : Port}

theorem step_empty (h : s.pending = []) : step s = .next s.tick := by
  unfold step
  rw [h]

theorem State.tick_stands (h : s.running = false ∨ s.urgentEvent = true) : s.tick = s := by
  unfold State.tick
  rcases h with down | urgent
  · simp [down]
  · simp [urgent]

theorem State.tick_passes (run : s.running = true) (calm : s.urgentEvent = false) : s.tick = s.microsecond :=
  if_pos ⟨run, calm⟩

/-- A tick touches the claims, the erase context and the operation in flight only. -/
theorem State.tick_eq (s : State) :
    ∃ (cs : List Claim) (e : Option EraseCtx) (f : Option InFlight), s.tick = ((s.setClaims cs).setErase e).setInFlight f := by
  unfold State.tick
  split
  · exact ⟨_, _, _, rfl⟩
  · exact ⟨s.coord.claims, s.array.erase, s.array.inFlight, rfl⟩

theorem State.running_iff : s.running = true ↔ s.pins.power = true ∧ s.pins.resetN = true := by
  simp [State.running]

theorem Claim.tick_pos {x : Claim} {n : Nat} (h : x.remaining = n + 1) : x.tick = { x with remaining := n } := by
  simp only [Claim.tick, h]

theorem Claim.tick_zero {x : Claim} (h : x.remaining = 0) : x.tick = { x with overdue := x.overdue + 1 } := by
  simp only [Claim.tick, h]

theorem Claim.late_iff (x : Claim) : x.late = true ↔ x.remaining = 0 ∧ 1000 ≤ x.overdue := by
  rw [Claim.late, Bool.and_eq_true, beq_iff_eq, decide_eq_true_iff]
  rfl

theorem EraseCtx.overdue_iff (e : EraseCtx) :
    e.overdue = true ↔ e.state ≠ .suspended ∧ (9000 ≤ e.accumulated ∨ (e.state = .suspending ∧ 30 ≤ e.stopAge)) := by
  rw [EraseCtx.overdue, EraseCtx.moving, Bool.and_eq_true, Bool.or_eq_true, Bool.and_eq_true, bne_iff_ne, beq_iff_eq,
    decide_eq_true_iff, decide_eq_true_iff]
  rfl

theorem InFlight.overdue_iff (f : InFlight) : f.overdue = true ↔ f.op.longest ≤ f.age := decide_eq_true_iff

theorem Work.atStart_iff (w : Work) : w.atStart = true ↔ (∃ p c, w = .taken p c) ∨ ∃ p c k, w = .resuming p c k := by
  cases w <;> simp [Work.atStart]

/-- Whether a value that may be there is there with a property. -/
theorem any_eq_true_iff {α : Type} (x : Option α) (f : α → Bool) : x.any f = true ↔ ∃ a, x = some a ∧ f a = true := by
  cases x <;> simp

/-- When a suspension is due (R35). -/
theorem State.suspendDue_iff (s : State) :
    s.suspendDue = true ↔ s.running = true ∧ ∃ e, s.array.erase = some e ∧ e.state = .running ∧ s.array.waitEngine ≠ none ∧
      400 ≤ e.sinceResume ∧ e.suspendCount < 12 := by
  unfold State.suspendDue
  rw [Bool.and_eq_true]
  refine and_congr_right fun _ => ?_
  cases s.array.erase with
  | none => simp
  | some e =>
    have due : (e.state == .running && s.array.waitEngine.isSome && decide (Config.minimumRun ≤ e.sinceResume) &&
        decide (e.suspendCount < Config.suspensions)) = true ↔
        e.state = .running ∧ s.array.waitEngine ≠ none ∧ 400 ≤ e.sinceResume ∧ e.suspendCount < 12 := by
      rw [Bool.and_eq_true, Bool.and_eq_true, Bool.and_eq_true, beq_iff_eq, Option.isSome_iff_ne_none, decide_eq_true_iff,
        decide_eq_true_iff, and_assoc, and_assoc]
      rfl
    exact due.trans ⟨fun h => ⟨e, rfl, h⟩, fun ⟨_, same, h⟩ => Option.some.inj same ▸ h⟩

theorem State.anyResetDue_iff (s : State) :
    s.anyResetDue = true ↔ s.running = true ∧ ∃ p, (s.port p).state = .resetting ∧ (s.port p).slot = .none := by
  have all : ∀ p : Port, p ∈ allPorts := fun p => by cases p <;> decide
  simp [State.anyResetDue, PortUnit.resetDue, all]

/-- The events that come before any time passes (log entry 1). -/
theorem State.urgentEvent_iff (s : State) :
    s.urgentEvent = true ↔
      s.heldDue = true ∨ s.anyResetDue = true ∨ (∃ p c, s.engine.work = .taken p c) ∨ (∃ p c k, s.engine.work = .resuming p c k) ∨
      (s.running = true ∧ ∃ e, s.array.erase = some e ∧ e.state = .running ∧ s.array.waitEngine ≠ none ∧ 400 ≤ e.sinceResume ∧
        e.suspendCount < 12) ∨
      (∃ x ∈ s.coord.claims, x.remaining = 0 ∧ 1000 ≤ x.overdue) ∨
      (∃ f, s.array.inFlight = some f ∧ f.op.longest ≤ f.age) ∨
      (∃ e, s.array.erase = some e ∧ e.state ≠ .suspended ∧ (9000 ≤ e.accumulated ∨ (e.state = .suspending ∧ 30 ≤ e.stopAge))) := by
  simp only [State.urgentEvent, Bool.or_eq_true, Work.atStart_iff, State.suspendDue_iff, List.any_eq_true, Claim.late_iff,
    any_eq_true_iff, InFlight.overdue_iff, EraseCtx.overdue_iff, or_assoc]

end

/-- Settles O2: `State.tick_eq` for what a tick leaves, and each timer as its cases. -/
theorem emptyQueueIsATick : Obligations.EmptyQueueIsATick := by
  refine ⟨fun s empty => ⟨s.tick, step_empty empty, ?_⟩, fun s => State.running_iff, fun x => ⟨fun n => Claim.tick_pos, Claim.tick_zero⟩,
    fun e => ?_, fun f => rfl, State.urgentEvent_iff, fun pos payload b g gen n k => ⟨rfl, rfl, rfl, rfl, rfl⟩⟩
  · have timers : s.running = true → s.urgentEvent = false →
        s.tick.coord.claims = s.coord.claims.map Claim.tick ∧ s.tick.array.erase = s.array.erase.map EraseCtx.tick ∧
          s.tick.array.inFlight = s.array.inFlight.map InFlight.tick := fun run calm => by
      rw [State.tick_passes run calm]
      exact ⟨rfl, rfl, rfl⟩
    have stands : s.running = false ∨ s.urgentEvent = true → s.tick = s := State.tick_stands
    obtain ⟨cs, e, f, tick⟩ := s.tick_eq
    revert timers stands
    rw [tick]
    exact fun timers stands => ⟨rfl, rfl, rfl, rfl, rfl, rfl, rfl, empty, rfl, rfl, rfl, rfl, stands, timers⟩
  · refine ⟨fun running => ?_, fun suspending => ?_, fun suspended => ?_⟩ <;> simp only [EraseCtx.tick, *]

/-! ## Right after reset -/

theorem State.reset_port (p : Port) : State.reset.port p = PortUnit.reset := by
  cases p <;> rfl

theorem State.reset_watches (p : Port) : State.reset.coord.watches.get p = [] := by
  cases p <;> rfl

theorem State.reset_guardOfPort (p : Port) : State.reset.guardOfPort p = Guard.none := by
  cases p <;> rfl

theorem State.reset_seg (g : Seg) : State.reset.seg g = SegRow.unlisted := by
  show (Vector.replicate 256 SegRow.unlisted)[g] = _
  simp

theorem State.reset_front : State.reset.front = none := by
  have outside : ∀ g : Seg, ¬ ((State.reset.seg g).state == .front) = true := fun g => by rw [State.reset_seg]; decide
  exact List.find?_eq_none.mpr fun g _ => outside g

theorem State.reset_freeCount : State.reset.freeCount = 0 := by
  have segs : State.reset.space.segs = Vector.replicate 256 SegRow.unlisted := rfl
  rw [State.freeCount, State.countSegs, segs, Vector.toList_replicate, List.countP_replicate]
  rfl

theorem bufferByteAt_nil (i : Nat) : bufferByteAt [] i = 0 := by
  unfold bufferByteAt
  split <;> rfl

theorem State.reset_memoryOk : MemoryOk State.reset := by
  refine ⟨by unfold CellsOk Memory.wf; exact ⟨List.Pairwise.nil, by simp [State.reset, ArrayCtl.reset]⟩, fun p => ?_⟩
  rw [State.reset_port]
  exact ⟨List.Pairwise.nil, by simp [PortUnit.reset]⟩

theorem State.reset_eraseOk : EraseOk State.reset := fun _ he => nomatch he

theorem State.reset_frontOk : FrontOk State.reset := ⟨OneFront.unlisted, List.Pairwise.nil, fun _ hc => nomatch hc⟩

theorem State.reset_fine : Fine State.reset := State.startMount_fine (State.volatileReset_fine (s := State.reset) [])

theorem State.reset_roomy : Roomy State.reset := ((State.volatileReset_down (s := State.reset) []).startMount).roomy

/-- Settles O3: the values by evaluation, and the invariants of an empty machine. -/
theorem resetStateIsAsGivenAndInOrder : Obligations.ResetStateIsAsGivenAndInOrder := by
  refine ⟨fun p => ?_, rfl, rfl, rfl, rfl, rfl, rfl, rfl, rfl, rfl, State.reset_seg, State.reset_front, State.reset_freeCount, rfl, rfl, rfl,
    rfl, rfl, rfl, rfl, rfl, rfl, rfl, rfl, State.reset_memoryOk, fun p => ?_, fun p => ?_, State.reset_roomy.order, State.reset_roomy.store,
    State.reset_roomy.fits, ?_, fun p => ?_, State.reset_eraseOk, State.reset_frontOk, ?_, State.reset_fine.engine, State.reset_fine.results⟩
  · rw [State.reset_port, State.reset_watches, State.reset_guardOfPort]
    exact ⟨rfl, rfl, rfl, rfl, rfl, rfl, rfl, rfl, rfl, bufferByteAt_nil, rfl, by decide⟩
  · rw [State.reset_port]
    exact ⟨Nat.zero_le _, Nat.zero_le _, List.Pairwise.nil⟩
  · rw [State.reset_port]
    exact ⟨(fun h => nomatch h), fun f h => nomatch h⟩
  · exact ⟨List.Pairwise.nil, Nat.zero_le _, fun p => Nat.zero_le _⟩
  · rw [State.reset_watches]
    exact ⟨List.Pairwise.nil, Nat.zero_le _⟩
  · exact ⟨by decide, by decide⟩

/-! ## Lines and power -/

/-- Settles O24: each row by its cases, and `volatileReset` and `startMount` by their fields. -/
theorem hardResetAndPowerEndVolatileState : Obligations.HardResetAndPowerEndVolatileState := by
  refine ⟨fun s cut eraseCut => rfl, fun s => rfl, fun s cut eraseCut on => if_pos on, fun s cut eraseCut off => if_neg (by simp [off]),
    fun s on => if_pos on, fun s off => ?_, fun s cells => ⟨rfl, rfl, rfl, rfl, rfl, rfl, rfl, rfl, rfl, rfl, rfl, rfl, rfl⟩,
    fun s => ⟨rfl, rfl, rfl, rfl, rfl, rfl, rfl⟩⟩
  have row : exec .powerOn s = execPowerOn s := rfl
  unfold execPowerOn at row
  rw [if_neg (by simp [off])] at row
  refine ⟨_, row, ?_⟩
  dsimp only
  split
  · exact ⟨rfl, rfl, rfl, rfl, rfl, rfl, rfl, fun _ => ⟨rfl, rfl⟩⟩
  · rename_i held
    exact ⟨rfl, rfl, rfl, rfl, rfl, rfl, rfl, fun high => absurd high held⟩

/-! ## Any frame row as moments of a frame -/

section
variable {s t : State} {p : Port} {i : Instr} {k : FrameKind} {m : FrameMoment} {off n : Nat} {whole : Bool} {effect : FrameEffect} {f : Frame}

theorem exec_command {code tag : Byte} {params : Vector Byte 16} :
    exec (.command p m code tag params) s =
      .next (s.frameMoment p .command m 0 (fun _ _ s => s.queueCommand p { code := code, tag := tag, params := params })) := rfl

theorem exec_portReset : exec (.portReset p m) s = .next (s.frameMoment p .portReset m 0 (fun _ _ s => s.arriveReset p)) := rfl

/-- A row that is a frame, at whichever moment, is that moment of its kind of frame; only an UNKNOWN_FRAME_KIND that names a kind is no event (log entry 2). -/
theorem exec_frame_moments (frame : framePort i = some p) :
    (∃ k off effect, (∀ m s, exec (atMoment m i) s = .next (s.frameMoment p k m off effect)) ∧
      ∀ m x, frameOf i = some (x, m) → x = k ∧ atMoment m i = i) ∨
    (i.wellFormed = false ∧ ∀ m s, exec (atMoment m i) s = .fault .illFormed) := by
  have fits : ∀ {j : Instr} {k : FrameKind} {n : FrameMoment}, frameOf j = some (k, n) → atMoment n j = j →
      ∀ m x, frameOf j = some (x, m) → x = k ∧ atMoment m j = j := fun is same m x h => by
    obtain ⟨rfl, rfl⟩ := Prod.mk.inj (Option.some.inj (is.symm.trans h))
    exact ⟨rfl, same⟩
  cases i with
  | statusRead q m => obtain rfl := Option.some.inj frame; exact .inl ⟨_, _, _, fun _ _ => rfl, fits rfl rfl⟩
  | command q m code tag params => obtain rfl := Option.some.inj frame; exact .inl ⟨_, _, _, fun _ _ => rfl, fits rfl rfl⟩
  | resultRead q m => obtain rfl := Option.some.inj frame; exact .inl ⟨_, _, _, fun _ _ => rfl, fits rfl rfl⟩
  | eventRead q m => obtain rfl := Option.some.inj frame; exact .inl ⟨_, _, _, fun _ _ => rfl, fits rfl rfl⟩
  | bufferWrite q m offset data => obtain rfl := Option.some.inj frame; exact .inl ⟨_, _, _, fun _ _ => rfl, fits rfl rfl⟩
  | bufferRead q m offset => obtain rfl := Option.some.inj frame; exact .inl ⟨_, _, _, fun _ _ => rfl, fits rfl rfl⟩
  | notifySet q m mask => obtain rfl := Option.some.inj frame; exact .inl ⟨_, _, _, fun _ _ => rfl, fits rfl rfl⟩
  | notifyClear q m mask => obtain rfl := Option.some.inj frame; exact .inl ⟨_, _, _, fun _ _ => rfl, fits rfl rfl⟩
  | flagsClear q m mask => obtain rfl := Option.some.inj frame; exact .inl ⟨_, _, _, fun _ _ => rfl, fits rfl rfl⟩
  | portReset q m => obtain rfl := Option.some.inj frame; exact .inl ⟨_, _, _, fun _ _ => rfl, fits rfl rfl⟩
  | unknownFrameKind q m kind =>
    obtain rfl := Option.some.inj frame
    by_cases unknown : unknownKind kind = true
    · exact .inl ⟨.unknown, 0, noEffect, fun _ _ => if_pos unknown, fits rfl rfl⟩
    · refine .inr ⟨?_, fun _ _ => if_neg unknown⟩
      cases kind with
      | none => exact absurd rfl unknown
      | some b =>
        have known : kindCodes.contains b = true := by
          have named : ¬ (!kindCodes.contains b) = true := unknown
          simpa using named
        simp only [Instr.wellFormed, known, Bool.not_true, Bool.and_false]
  | _ => exact absurd frame (by simp [framePort])

theorem frameOf_isSome (i : Instr) : (frameOf i).isSome = (framePort i).isSome := by
  cases i <;> rfl

/-- A well-formed row that is a moment of a frame. -/
theorem exec_frame_at (frame : framePort i = some p) (is : frameOf i = some (k, m)) (ok : i.wellFormed = true) :
    ∃ off effect, ∀ s, exec i s = .next (s.frameMoment p k m off effect) := by
  rcases exec_frame_moments frame with ⟨x, off, effect, runs, fits⟩ | ⟨bad, -⟩
  · obtain ⟨rfl, same⟩ := fits m k is
    exact ⟨off, effect, fun s => same ▸ runs m s⟩
  · rw [bad] at ok
    exact Bool.noConfusion ok

/-! ## Refused frames -/

theorem State.fixRecord_inReset (h : f.inReset = true) : s.fixRecord p f = f := by
  unfold State.fixRecord
  split
  · rfl
  · rw [if_pos h]

theorem State.frameAtEnd_inReset (h : f.inReset = true) : s.frameAtEnd p f n = f := by
  unfold State.frameAtEnd
  rw [State.fixRecord_inReset h, ite_self]

/-- A frame refused for RESETTING that fixed no record drives 00h throughout (R173). -/
theorem State.driven_inReset (h : f.inReset = true) (unfixed : f.record = none) : s.driven p f off n = List.replicate n 0 := by
  unfold State.driven
  split
  · rw [State.bufferOut, if_pos h]
    exact padTo_zeros (m := 3)
  · rw [unfixed]
    exact padTo_zeros (m := 1)

theorem Frame.refused_inReset (h : f.inReset = true) : f.refused n whole = true := by
  simp [Frame.refused, h]

theorem State.refuseFrame_inReset (h : f.inReset = true) : s.refuseFrame p f = s :=
  if_neg (by simp [h])

/-- A frame refused for RESETTING ends with no effect (R173). -/
theorem State.frameEnd_inReset (h : f.inReset = true) : s.frameEnd p f off n whole effect = s.ended p (s.driven p f off n) := by
  rw [State.frameEnd_refused (Frame.refused_inReset h), State.refuseFrame_inReset h]

theorem Frame.inReset_of_resetting (h : f.resetting = true) (other : f.kind ≠ .statusRead) : f.inReset = true := by
  simp [Frame.inReset, h, other]

/-- A frame that is refused whichever bytes it clocks ends at an ACTIVE port with REFUSED set (R173). -/
theorem State.frameMoment_entire_active (run : s.running = true) (idle : (s.port p).frame = none) (active : (s.port p).state = .active)
    (bad : whole = false ∨ n < k.minimum ∨ k = .unknown) :
    ∃ out, s.frameMoment p k (.entire n whole) off effect = (s.ended p out).setFlag p flagRefused ∧
      (k = .unknown → out = List.replicate n 0) := by
  have begun := State.frameAtEnd_kind (s := s) (p := p) (Frame.begun k ((s.port p).state == .resetting)) n
  have answered := State.frameAtEnd_resetting (s := s) (p := p) (Frame.begun k ((s.port p).state == .resetting)) n
  rw [State.frameMoment_entire run idle]
  refine ⟨s.driven p (s.frameAtEnd p (Frame.begun k ((s.port p).state == .resetting)) n) off n, ?_, ?_⟩
  · generalize s.frameAtEnd p _ n = f at begun answered ⊢
    have refused : f.refused n whole = true := by
      rcases bad with rfl | short | rfl
      · rfl
      · simp [Frame.refused, begun, short]
      · simp [Frame.refused, begun]
    have notReset : f.inReset = false := Frame.inReset_of_not_resetting (answered.trans (by rw [active]; rfl))
    rw [State.frameEnd_refused refused, State.refuseFrame, if_pos ⟨by simpa using active, notReset⟩]
  · rintro rfl
    rw [State.frameAtEnd_silent rfl, State.driven_begun (by decide)]

/-- A frame other than STATUS READ at a RESETTING port drives 00h and has no effect (R173). -/
theorem State.frameMoment_entire_resetting (run : s.running = true) (idle : (s.port p).frame = none)
    (resetting : (s.port p).state = .resetting) (other : k ≠ .statusRead) :
    s.frameMoment p k (.entire n whole) off effect = s.ended p (List.replicate n 0) := by
  have inReset : (Frame.begun k ((s.port p).state == .resetting)).inReset = true :=
    Frame.inReset_of_resetting (by rw [resetting]; rfl) other
  rw [State.frameMoment_entire run idle, State.frameAtEnd_inReset inReset, State.frameEnd_inReset inReset,
    State.driven_inReset inReset rfl]

/-- A part without power or held in reset ignores its select lines (R174). -/
theorem State.frameMoment_down (down : s.running = false) : s.frameMoment p k m off effect = s :=
  if_neg (by simp [down])

/-- A frame refused for RESETTING fixes no record and clocks out no buffer byte (R173). -/
theorem State.frameMoment_inReset (run : s.running = true) (open_ : (s.port p).frame = some f) (kind : f.kind = k)
    (inReset : f.inReset = true) (moment : m = .kindByte ∨ m = .byteOut) : s.frameMoment p k m off effect = s := by
  rcases moment with rfl | rfl
  · rw [State.frameMoment_kindByte run open_ kind, State.fixRecord_inReset inReset, ← open_]
    exact State.setPort_self s p
  · simp [State.frameMoment, run, State.clockOut, open_, inReset]

end

/-- Settles O21: the frame rows as moments, and what a refused frame leaves at an ACTIVE and at a RESETTING port. -/
theorem refusedFramesHaveNoEffect : Obligations.RefusedFramesHaveNoEffect := by
  refine ⟨fun i p k n whole s frame is ok run idle => ?_, fun i p k f n whole s frame is ok run open_ kind resetting other => ?_,
    fun i p k m f s frame is ok run moment open_ kind resetting other => ?_, ⟨rfl, rfl, rfl, rfl, rfl, rfl, rfl, rfl, rfl, rfl⟩,
    fun i p s frame ok down => ?_⟩
  · obtain ⟨off, effect, row⟩ := exec_frame_at frame is ok
    refine ⟨fun active bad => ?_, fun resetting other => ?_⟩
    · obtain ⟨out, ends, zeros⟩ := State.frameMoment_entire_active (off := off) (effect := effect) run idle active bad
      exact ⟨out, by rw [row, ends], zeros⟩
    · rw [row, State.frameMoment_entire_resetting run idle resetting other]
  · obtain ⟨off, effect, row⟩ := exec_frame_at frame is ok
    have inReset := Frame.inReset_of_resetting resetting (kind ▸ other)
    refine ⟨s.driven p f off n, ?_, State.driven_inReset inReset⟩
    rw [row, State.frameMoment_release run open_ kind, State.frameAtEnd_inReset inReset, State.frameEnd_inReset inReset]
  · obtain ⟨off, effect, row⟩ := exec_frame_at frame is ok
    rw [row, State.frameMoment_inReset run open_ kind (Frame.inReset_of_resetting resetting (kind ▸ other)) moment]
  · obtain ⟨⟨k, m⟩, is⟩ := Option.isSome_iff_exists.mp ((frameOf_isSome i).trans (by rw [frame]; rfl))
    obtain ⟨off, effect, row⟩ := exec_frame_at frame is ok
    rw [row, State.frameMoment_down down]

/-! ## A frame in its moments -/

theorem State.fixRecord_fixRecord (s : State) (p : Port) (f : Frame) : s.fixRecord p (s.fixRecord p f) = s.fixRecord p f := by
  by_cases inReset : f.inReset = true
  · rw [State.fixRecord_inReset inReset, State.fixRecord_inReset inReset]
  · cases record : f.record with
    | some bs => rw [State.fixRecord_fixed record, State.fixRecord_fixed record]
    | none =>
      cases fixes : s.recordFor p f.kind with
      | none => rw [State.fixRecord_silent fixes, State.fixRecord_silent fixes]
      | some x =>
        rw [State.fixRecord_answered rfl record (by simpa using inReset) fixes]
        exact State.fixRecord_fixed rfl

/-- The machine with a frame in progress at a port. -/
def State.inFrame (s : State) (p : Port) (f : Frame) : State := s.setPort p { s.port p with frame := some f }

section
variable {s : State} {p : Port} {k : FrameKind} {off n : Nat} {whole : Bool} {effect : FrameEffect} {f : Frame}

theorem State.inFrame_frame : ((s.inFrame p f).port p).frame = some f := by
  rw [State.inFrame, State.setPort_port]

/-- The kind byte of a frame in progress. -/
theorem State.inFrame_kindByte (run : s.running = true) (kind : f.kind = k) :
    (s.inFrame p f).frameMoment p k .kindByte off effect = s.inFrame p (s.fixRecord p f) := by
  rw [State.frameMoment_kindByte (s := s.inFrame p f) run State.inFrame_frame kind]
  simp only [State.inFrame, State.fixRecord_setFrame, State.setPort_setPort, State.setPort_port]

/-- The release of select in a frame in progress. -/
theorem State.inFrame_release (run : s.running = true) (kind : f.kind = k) :
    (s.inFrame p f).frameMoment p k (.release n whole) off effect = s.frameEnd p (s.frameAtEnd p f n) off n whole effect := by
  rw [State.frameMoment_release (s := s.inFrame p f) run State.inFrame_frame kind]
  simp only [State.inFrame, State.frameEnd_setFrame, State.frameAtEnd, State.fixRecord_setFrame]

end

/-- Settles O23: select and kind byte leave what the whole frame begins with, and a record once fixed is not fixed again. -/
theorem frameInMomentsIsTheWholeFrame : Obligations.FrameInMomentsIsTheWholeFrame := by
  intro i p n whole s a b frame run idle selected
  rcases exec_frame_moments frame with ⟨k, off, effect, runs, -⟩ | ⟨-, faults⟩
  · rw [runs, State.frameMoment_select run idle] at selected
    obtain rfl : s.inFrame p (Frame.begun k ((s.port p).state == .resetting)) = a := Host.Outcome.next.inj selected
    have begun : (Frame.begun k ((s.port p).state == .resetting)).kind = k := rfl
    simp only [runs, State.frameMoment_entire run idle]
    clear selected
    generalize Frame.begun k ((s.port p).state == .resetting) = f at begun
    refine ⟨fun clocked kind => ?_, ?_⟩
    · rw [State.inFrame_kindByte run begun] at kind
      obtain rfl := Host.Outcome.next.inj kind
      rw [State.inFrame_release run ((State.fixRecord_kind f).trans begun), State.frameAtEnd_clocked clocked,
        State.frameAtEnd_clocked clocked, State.fixRecord_fixRecord]
    · rw [State.inFrame_release run begun]
  · rw [faults] at selected
    exact absurd selected (by simp)

/-! ## COMMAND and PORT RESET frames -/

/-- Settles O14. -/
theorem commandFrameQueuesItsCommand : Obligations.CommandFrameQueuesItsCommand := by
  intro s p code tag params n h long
  rw [exec_command, State.frameMoment_entire_silent h rfl (by decide) long, State.driven_begun (by decide)]
  obtain ⟨run, idle, active⟩ := h
  simp only [State.queueCommand, State.ended_port, State.ended_setPort, Config.commandPlaces, State.setFlag, idle]

section
variable {s : State} {p : Port} {out : List Byte}

/-- A PORT RESET frame at a port that listens is the arrival of a reset. -/
theorem exec_portReset_entire {n : Nat} (h : s.listens p) (long : 1 ≤ n) :
    exec (.portReset p (.entire n true)) s = .next ((s.ended p (List.replicate n 0)).arriveReset p) := by
  rw [exec_portReset, State.frameMoment_entire_silent h rfl (by decide) long, State.driven_begun (by decide)]

/-- A port reset that arrives while a command executes waits (R187). -/
theorem State.arriveReset_executing (h : (s.port p).slot = .executing) :
    s.arriveReset p = s.setPort p { s.port p with state := .resetting, commands := [] } := by
  simp [State.arriveReset, h, Slot.atReset]

/-- A port reset that arrives with no command executing proceeds at once, a parked scan dropped (R187, R102). -/
theorem State.arriveReset_idle (h : (s.port p).slot ≠ .executing) :
    s.arriveReset p = (s.setPort p { s.port p with commands := [], slot := .none }).proceedReset p := by
  have dropped : (s.port p).slot.atReset = .none := by
    cases slot : (s.port p).slot with
    | executing => exact absurd slot h
    | none => rfl
    | parked c k => rfl
  simp [State.arriveReset, dropped, State.proceedReset, PortUnit.afterReset]

/-- A port after its reset is not eligible until it holds a command again (R57). -/
theorem State.eligible_eq_false (slot : (s.port p).slot = .none) (commands : (s.port p).commands = []) : s.eligible p = false := by
  simp [State.eligible, PortUnit.hasWork, slot, commands]

end

/-- Settles O20: `arriveReset` in its two cases, and `proceedReset` by its fields. -/
theorem portResetArrivesAndProceeds : Obligations.PortResetArrivesAndProceeds := by
  refine ⟨fun s p n h long => ⟨fun executing => ?_, fun idle => ?_⟩, fun s p run resetting none ok => ?_⟩
  · rw [exec_portReset_entire h long, State.arriveReset_executing (by simpa using executing)]
    simp [h.2.1]
  · rw [exec_portReset_entire h long, State.arriveReset_idle (by simpa using idle)]
    simp [State.proceedReset, PortUnit.afterReset, h.2.1, h.2.2]
  · have drained : (s.port p).commands = [] := ((ok p).1 resetting).1
    have due : (s.running && (s.port p).resetDue) = true := by simp [run, PortUnit.resetDue, resetting, none]
    refine ⟨s.proceedReset p, if_pos due, State.proceedReset_port, ?_, ?_, ?_, fun q other => State.proceedReset_port_other other, rfl, ?_,
      fun q other => ?_, rfl, rfl, rfl, rfl, rfl, rfl⟩
    · rw [State.proceedReset_port]
      exact drained
    · rw [State.proceedReset_port]
      simp [PortUnit.notifyActive, PortUnit.afterReset]
    · exact State.eligible_eq_false (by rw [State.proceedReset_port]; exact none) (by rw [State.proceedReset_port]; exact drained)
    · exact Quad.get_set_same _ _ _
    · exact Quad.get_set_other _ _ other

end Sys2Proof.Machine

/-! SUPPORT. The layouts of Tables 11-10 to 11-12: fields most significant byte first, codes and their inverses, and that bodies, headers and settings are read back as they were written. -/

namespace Sys2Proof.Machine

/-! ## Codes -/

theorem portOf_eq_some {b : Byte} {p : Port} : portOf b = some p ↔ b = portCode p := by
  constructor
  · unfold portOf
    intro h
    split_ifs at h <;> obtain rfl := Option.some.inj h <;> assumption
  · rintro rfl
    cases p <;> rfl

theorem authorOf_eq_some {b : Byte} {a : Author} : authorOf b = some a ↔ b = authorCode a := by
  constructor
  · unfold authorOf
    intro h
    split_ifs at h
    · obtain rfl := Option.some.inj h
      assumption
    · obtain ⟨p, port, rfl⟩ := Option.map_eq_some_iff.mp h
      exact portOf_eq_some.mp port
  · rintro rfl
    rcases a with p | _
    · cases p <;> rfl
    · rfl

theorem kindOf_eq_some {b : Byte} {k : Kind} : kindOf b = some k ↔ b = kindCode k := by
  constructor
  · unfold kindOf
    intro h
    split_ifs at h <;> obtain rfl := Option.some.inj h <;> assumption
  · rintro rfl
    cases k <;> rfl

theorem lockOf_eq_some {b : Byte} {m : LockMode} : lockOf b = some m ↔ b = lockCode m := by
  constructor
  · unfold lockOf
    intro h
    split_ifs at h <;> obtain rfl := Option.some.inj h <;> assumption
  · rintro rfl
    cases m <;> rfl

theorem guardOf_guardByte (g : Guard) : guardOf (guardByte g) = some g := by
  have all : ∀ (upper complement : Bool) (size : Fin 10),
      guardOf (guardByte { upper := upper, size := size, complement := complement }) =
        some { upper := upper, size := size, complement := complement } := by decide
  exact all g.upper g.complement g.size

theorem guardOf_eq_some {b : Byte} {g : Guard} : guardOf b = some g ↔ b = guardByte g := by
  have back : ∀ b : Byte, (guardOf b).all (fun g => b == guardByte g) = true := by decide
  refine ⟨fun h => ?_, fun h => h ▸ guardOf_guardByte g⟩
  have := back b
  rw [h] at this
  exact eq_of_beq this

/-! ## Byte order -/

theorem join16_bytes16 (x : Half) : join16 (x.extractLsb' 8 8) (x.extractLsb' 0 8) = x := by
  exact half16_bytes16 x

theorem join32_bytes32 (y : BitVec 32) :
    join32 (y.extractLsb' 24 8) (y.extractLsb' 16 8) (y.extractLsb' 8 8) (y.extractLsb' 0 8) = y := by
  apply BitVec.eq_of_getLsbD_eq
  intro i hi
  simp only [join32, BitVec.getLsbD_append, BitVec.getLsbD_extractLsb']
  by_cases h0 : i < 8
  · simp [h0, show i < 16 by omega]
  · by_cases h1 : i < 16
    · simp [h0, h1, show i - 8 < 8 by omega, show 8 + (i - 8) = i by omega]
    · by_cases h2 : i < 24
      · simp [h1, show i - 16 < 8 by omega, show 16 + (i - 16) = i by omega]
      · simp [h1, show ¬ i - 16 < 8 by omega, show i - 16 - 8 < 8 by omega, show 24 + (i - 16 - 8) = i by omega]

theorem nat16_toNat {n : Nat} (h : n < 65536) : (nat16 n).toNat = n := by
  rw [nat16, BitVec.toNat_ofNat]
  exact Nat.mod_eq_of_lt h

/-- A byte appended to a string goes through the check bit by bit, from its most significant bit (R20). -/
theorem crc16_append (bs : List Byte) (x : Byte) :
    crc16 (bs ++ [x]) =
      [7, 6, 5, 4, 3, 2, 1, 0].foldl
        (fun (c : Half) (i : Nat) => if (c.msb ^^ x.getLsbD i) = true then (c <<< 1) ^^^ 0x1021#16 else c <<< 1) (crc16 bs) := by
  rw [crc16, List.foldl_append]
  rfl

/-! ## Bodies -/

theorem bodyWellFormed_iff (b : Body) :
    bodyWellFormed b = true ↔
      b.key ≠ 0xFFFF#16 ∧ b.version ≠ 0 ∧ b.length ≤ 480 ∧ (b.kind = .tombstone → b.length = 0) ∧ (b.kind = .config → b.key = 0x0000#16) := by
  unfold bodyWellFormed
  rw [Bool.and_eq_true, Bool.and_eq_true, Bool.and_eq_true, bne_iff_ne, bne_iff_ne, decide_eq_true_iff, and_assoc, and_assoc]
  refine and_congr_right fun _ => and_congr_right fun _ => and_congr_right fun _ => ?_
  cases b.kind <;> simp [Config.configKey]

/-- The fields of a body as its 30 bytes. -/
theorem bodyFields_eq (b : Body) :
    bodyFields b = bytes16 b.key ++ bytes32 b.version ++ bytes32 b.seq ++ bytes16 (nat16 b.length) ++
      [authorCode b.author, kindCode b.kind] ++ bytes16 b.check ++ List.replicate 14 0xFF#8 := rfl

theorem bodyBytes_take (b : Body) : (bodyBytes b).take 30 = bodyFields b := by
  rw [bodyBytes, List.append_assoc, List.take_append_of_le_length bodyFields_length.ge, ← bodyFields_length (b := b), List.take_length]

theorem bodyBytes_check (b : Body) : half16 (bodyBytes b) 30 = crc16 (bodyFields b) := by
  have first := List.getElem?_append_right (l₁ := bodyFields b)
    (l₂ := bytes16 (crc16 (bodyFields b)) ++ (b.payload ++ List.replicate (Config.payloadBytes - b.payload.length) 0xFF#8)) (i := 30)
    (by rw [bodyFields_length])
  have second := List.getElem?_append_right (l₁ := bodyFields b)
    (l₂ := bytes16 (crc16 (bodyFields b)) ++ (b.payload ++ List.replicate (Config.payloadBytes - b.payload.length) 0xFF#8)) (i := 31)
    (by rw [bodyFields_length]; decide)
  rw [bodyFields_length] at first second
  rw [half16, List.getD_eq_getElem?_getD, List.getD_eq_getElem?_getD, bodyBytes, List.append_assoc, first, second]
  exact join16_bytes16 _

theorem bodyBytes_payload (b : Body) : (bodyBytes b).drop 32 = b.payload ++ List.replicate (Config.payloadBytes - b.payload.length) 0xFF#8 := by
  have header : (bodyFields b ++ bytes16 (crc16 (bodyFields b))).length = 32 := by rw [List.length_append, bodyFields_length]; rfl
  rw [bodyBytes, ← header, List.drop_left]

/-- A body's bytes are read back field by field. -/
theorem parseBody_bodyBytes {b : Body} (ok : bodyWellFormed b = true) (length : b.payload.length = b.length) :
    parseBody (bodyBytes b) = some b := by
  obtain ⟨-, -, short, -, -⟩ := (bodyWellFormed_iff b).mp ok
  have key : half16 (bodyBytes b) 0 = b.key := join16_bytes16 b.key
  have version : word32 (bodyBytes b) 2 = b.version := join32_bytes32 b.version
  have seq : word32 (bodyBytes b) 6 = b.seq := join32_bytes32 b.seq
  have size : (half16 (bodyBytes b) 10).toNat = b.length :=
    (congrArg BitVec.toNat (join16_bytes16 (nat16 b.length))).trans (nat16_toNat (by omega))
  have check : half16 (bodyBytes b) 14 = b.check := join16_bytes16 b.check
  have author : authorOf ((bodyBytes b).getD 12 0) = some b.author := authorOf_eq_some.mpr rfl
  have kind : kindOf ((bodyBytes b).getD 13 0) = some b.kind := kindOf_eq_some.mpr rfl
  have payload : ((bodyBytes b).drop 32).take b.length = b.payload := by
    rw [bodyBytes_payload, ← length, List.take_left]
  simp only [parseBody, bodyBytes_take, bodyBytes_check, if_true, author, kind, key, version, seq, size, check, payload, ok]

/-- What a data area holds when it reads as a body (R19). -/
theorem parseBody_eq_some {area : List Byte} {b : Body} (h : parseBody area = some b) :
    crc16 (area.take 30) = half16 area 30 ∧ bodyWellFormed b = true ∧ b.key = half16 area 0 ∧ b.version = word32 area 2 ∧
      b.seq = word32 area 6 ∧ b.length = (half16 area 10).toNat ∧ authorCode b.author = area.getD 12 0 ∧ kindCode b.kind = area.getD 13 0 ∧
      b.check = half16 area 14 ∧ b.payload = (area.drop 32).take b.length := by
  unfold parseBody at h
  split_ifs at h with good
  split at h
  · rename_i a k author kind
    dsimp only at h
    split_ifs at h with ok
    obtain rfl := Option.some.inj h
    exact ⟨good, ok, rfl, rfl, rfl, rfl, (authorOf_eq_some.mp author).symm, (kindOf_eq_some.mp kind).symm, rfl, rfl⟩
  · exact absurd h (by simp)

/-! ## Headers -/

theorem allOnes_iff (bs : List Byte) : allOnes bs = true ↔ ∀ b ∈ bs, b = 0xFF#8 := by
  unfold allOnes
  rw [List.all_eq_true]
  simp only [beq_iff_eq]

theorem headerGood_iff (area : List Byte) :
    headerGood area = true ↔
      word32 area 0 = 0x5A3C96E1#32 ∧ crc16 (area.take 8) = half16 area 8 ∧ ∀ b ∈ area.drop 10, b = 0xFF#8 := by
  unfold headerGood
  rw [Bool.and_eq_true, Bool.and_eq_true, beq_iff_eq, beq_iff_eq, List.all_eq_true, and_assoc]
  simp only [beq_iff_eq]
  rfl

/-- An area of ones holds no header: its first bit is not the signature's. -/
theorem headerGood_of_ones {area : List Byte} (ones : allOnes area = true) : headerGood area = false := by
  cases area with
  | nil => decide
  | cons b bs =>
    obtain rfl : b = 0xFF#8 := (allOnes_iff _).mp ones b List.mem_cons_self
    by_contra good
    have first : (word32 (0xFF#8 :: bs) 0).msb = true := by
      rw [word32, join32, BitVec.msb_append, if_neg (by decide), BitVec.msb_append, if_neg (by decide), List.getD_cons_zero]
      decide
    rw [((headerGood_iff _).mp (by simpa using good)).1] at first
    exact absurd first (by decide)

theorem headerBytes_read {n : Nat} (g : Generation) (small : n < 65536) :
    headerGood (headerBytes g n) = true ∧ half16 (headerBytes g n) 4 = g ∧ (half16 (headerBytes g n) 6).toNat = n := by
  refine ⟨(headerGood_iff _).mpr ⟨join32_bytes32 Config.signature, (join16_bytes16 _).symm, ?_⟩, join16_bytes16 g,
    (congrArg BitVec.toNat (join16_bytes16 (nat16 n))).trans (nat16_toNat small)⟩
  intro b hb
  exact List.eq_of_mem_replicate (show b ∈ List.replicate 502 0xFF#8 from hb)

/-! ## Settings -/

theorem parseSettings_settingsBytes {x : Settings} (ok : x.thresholdOk) : parseSettings (settingsBytes x) = some x := by
  have threshold : (BitVec.ofNat 8 x.threshold).toNat = x.threshold := by
    rw [BitVec.toNat_ofNat]
    exact Nat.mod_eq_of_lt (by have := ok.2; omega)
  have lock : lockOf (lockCode x.mode) = some x.mode := lockOf_eq_some.mpr rfl
  simp only [settingsBytes, parseSettings, guardOf_guardByte, lock, threshold]
  exact if_pos ok

theorem parseSettings_eq_some {bs : List Byte} {x : Settings} (h : parseSettings bs = some x) : x.thresholdOk ∧ bs = settingsBytes x := by
  unfold parseSettings at h
  split at h
  · split at h
    · rename_i ga gb gc gd lm a b c d m
      split_ifs at h with ok
      obtain rfl := Option.some.inj h
      refine ⟨ok, ?_⟩
      simp only [settingsBytes, guardOf_eq_some.mp a, guardOf_eq_some.mp b, guardOf_eq_some.mp c, guardOf_eq_some.mp d,
        lockOf_eq_some.mp m, BitVec.ofNat_toNat, BitVec.setWidth_eq]
    · exact absurd h (by simp)
  · exact absurd h (by simp)

/-! ## How cells and headers read -/

section
variable {cells : List Host.Cell} {pos : Pos} {g : Seg}

theorem dataArea_eq (cells : List Host.Cell) (pos : Pos) :
    dataArea cells pos = (List.range 512).map (fun i => arrayByte cells (cellBase pos + i)) :=
  Memory.readRange_eq

theorem markWord_eq (cells : List Host.Cell) (pos : Pos) (k : MarkKind) :
    markWord cells pos k = arrayByte cells (markBase pos k) ++ arrayByte cells (markBase pos k + 1) := by
  rw [markWord, Memory.readRange_eq]
  rfl

/-- The conditions of a data cell but TORN, by its area and its marks (Table 2-4). -/
theorem cellCond_iff (ones good : Bool) (first second : MarkReading) :
    (cellCond ones good first second = .erased ↔ ones = true ∧ first = .erased ∧ second = .erased) ∧
    (cellCond ones good first second = .allocated ↔ good = true ∧ first = .erased ∧ second = .erased ∧ ¬ ones = true) ∧
    (cellCond ones good first second = .committed ↔ good = true ∧ first = .present ∧ second = .erased) ∧
    (cellCond ones good first second = .superseded ↔ good = true ∧ first = .present ∧ second = .present) := by
  cases ones <;> cases good <;> cases first <;> cases second <;> decide

theorem readData_cond (cells : List Host.Cell) (pos : Pos) :
    (readData cells pos).cond =
      cellCond (allOnes (dataArea cells pos)) (parseBody (dataArea cells pos)).isSome (markReading (markWord cells pos .first))
        (markReading (markWord cells pos .second)) := by
  rw [readData]

theorem readData_payloadGood :
    (readData cells pos).payloadGood = true ↔ ∃ b, parseBody (dataArea cells pos) = some b ∧ crc16 b.payload = b.check := by
  rw [readData]
  dsimp only
  cases parseBody (dataArea cells pos) with
  | none => simp
  | some b => simp

/-- How cell 0 reads, by its area and its marks (Table 2-2). -/
theorem readHeader_iff (cells : List Host.Cell) (g : Seg) :
    ((readHeader cells g).cond = .erased ↔ allOnes (dataArea cells ⟨g, 0⟩) = true ∧ markWord cells ⟨g, 0⟩ .first = Config.markErased ∧
      markWord cells ⟨g, 0⟩ .second = Config.markErased) ∧
    ((readHeader cells g).cond = .valid ↔
      headerGood (dataArea cells ⟨g, 0⟩) = true ∧ markWord cells ⟨g, 0⟩ .second = Config.markErased) ∧
    ((readHeader cells g).cond = .valid → (readHeader cells g).generation = half16 (dataArea cells ⟨g, 0⟩) 4 ∧
      (readHeader cells g).count = (half16 (dataArea cells ⟨g, 0⟩) 6).toNat) := by
  have ones := headerGood_of_ones (area := dataArea cells ⟨g, 0⟩)
  have blank : (allOnes (dataArea cells ⟨g, 0⟩) && !decide (markWord cells ⟨g, 0⟩ .first ≠ Config.markErased) &&
      markWord cells ⟨g, 0⟩ .second == Config.markErased) = true ↔
      allOnes (dataArea cells ⟨g, 0⟩) = true ∧ markWord cells ⟨g, 0⟩ .first = Config.markErased ∧
        markWord cells ⟨g, 0⟩ .second = Config.markErased := by
    simp [and_assoc]
  have good : (headerGood (dataArea cells ⟨g, 0⟩) && markWord cells ⟨g, 0⟩ .second == Config.markErased) = true ↔
      headerGood (dataArea cells ⟨g, 0⟩) = true ∧ markWord cells ⟨g, 0⟩ .second = Config.markErased := by
    simp
  unfold readHeader
  dsimp only
  split_ifs with erased valid
  · exact ⟨⟨fun _ => blank.mp erased, fun _ => rfl⟩,
      ⟨(fun h => nomatch h), fun h => absurd h.1 (by rw [ones (blank.mp erased).1]; decide)⟩, fun h => nomatch h⟩
  · exact ⟨⟨(fun h => nomatch h), fun h => absurd (blank.mpr h) erased⟩, ⟨fun _ => good.mp valid, fun _ => rfl⟩, fun _ => ⟨rfl, rfl⟩⟩
  · exact ⟨⟨(fun h => nomatch h), fun h => absurd (blank.mpr h) erased⟩, ⟨(fun h => nomatch h), fun h => absurd (good.mpr h) valid⟩,
      fun h => nomatch h⟩

end

/-- Settles O60: each layout by its lemma, and the readings by `cellCond_iff` and `readHeader_iff`. -/
theorem layoutsDecodeAsEncoded : Obligations.LayoutsDecodeAsEncoded := by
  refine ⟨fun b ok length => ⟨?_, parseBody_bodyBytes ok length⟩, fun x ok => ⟨rfl, parseSettings_settingsBytes ok⟩,
    fun g n small => headerBytes_read g small, fun x y => ⟨rfl, rfl⟩, fun bs i => ⟨rfl, rfl⟩, fun n => rfl, fun g => rfl,
    ⟨rfl, crc16_append⟩, ⟨rfl, rfl, rfl⟩, fun b => ⟨bodyFields b, bodyFields_eq b, rfl⟩, bodyWellFormed_iff,
    fun area b => parseBody_eq_some, fun g n => ⟨headerFields g n, rfl, rfl⟩, headerGood_iff, fun x => rfl, fun bs x => parseSettings_eq_some,
    ⟨rfl, rfl, fun p => by cases p <;> rfl⟩, fun w => rfl, fun pos => ⟨rfl, rfl, rfl, rfl⟩,
    fun cells pos => ⟨dataArea_eq cells pos, markWord_eq cells pos .first, markWord_eq cells pos .second⟩, fun cells pos => ?_,
    fun cells g => ?_⟩
  · obtain ⟨-, -, short, -, -⟩ := (bodyWellFormed_iff b).mp ok
    have header : (bodyFields b ++ bytes16 (crc16 (bodyFields b))).length = 32 := by rw [List.length_append, bodyFields_length]; rfl
    rw [bodyBytes, List.length_append, header, List.length_append, List.length_replicate, length, Config.payloadBytes]
    omega
  · obtain ⟨erased, allocated, committed, superseded⟩ :=
      cellCond_iff (allOnes (dataArea cells pos)) (parseBody (dataArea cells pos)).isSome (markReading (markWord cells pos .first))
        (markReading (markWord cells pos .second))
    rw [← readData_cond] at erased allocated committed superseded
    rw [Option.isSome_iff_ne_none] at allocated committed superseded
    exact ⟨_, _, allOnes (dataArea cells pos) = true, rfl, rfl, allOnes_iff _, by rw [readData], by rw [readData], readData_payloadGood, erased, allocated, committed,
      superseded⟩
  · obtain ⟨erased, valid, fields⟩ := readHeader_iff cells g
    exact ⟨by rw [readHeader_retired]; exact decide_eq_true_iff, erased.trans (and_congr_left' (allOnes_iff _)), valid, fields⟩

end Sys2Proof.Machine

/-! SUPPORT. The array: what a cut leaves, the bytes after every row, and what the completions of programs and erases leave. -/

namespace Sys2Proof.Machine

section
variable {cells left : List Host.Cell} {pos : Pos} {g : Seg} {gen : Generation} {n a : Nat} {r : Requester} {op : ArrayOp} {k k' : MarkKind}
  {b : Body} {old pattern area : List Byte}

/-! ## Cuts -/

/-- A cut changes no byte outside the operation's part (R38). -/
theorem cutOp_outside (h : op.spares a) : arrayByte (cutOp cells r left op) a = arrayByte cells a := by
  cases op with
  | readCell pos payload => rfl
  | programBody pos b => exact putArea_outside h
  | programHeader g gen count => exact putArea_outside (by rw [cellBase_header]; exact h)
  | programMark pos k => exact putMark_outside h
  | eraseSegment g gen count =>
    rw [cutOp_erase, cutSegment_outside h, putResidues_outside h, erasedSegment_outside h]

theorem attempted_header_length : (attempted (dataArea cells ⟨g, 0⟩) (headerBytes gen n) left).length = Config.dataBytes := by
  rw [attempted_length, dataArea_length, headerBytes_length, min_self]

theorem cutOp_header_bad : (readHeader (cutOp cells r left (.programHeader g gen n)) g).cond = .bad := by
  have area : dataArea (cutOp cells r left (.programHeader g gen n)) ⟨g, 0⟩ =
      badHeader (attempted (dataArea cells ⟨g, 0⟩) (headerBytes gen n) left) :=
    dataArea_putArea (badHeader_length attempted_header_length)
  obtain ⟨notGood, notOnes⟩ := badHeader_bad (area := attempted (dataArea cells ⟨g, 0⟩) (headerBytes gen n) left)
  exact readHeader_bad (by rw [area, notGood]) (by rw [area, notOnes])

theorem kindCode_ne_ones (k : Kind) : kindCode k ≠ 0xFF#8 := by
  cases k <;> decide

/-- The bytes of a body are not all ones: no kind has the code FFh. -/
theorem allOnes_bodyBytes (b : Body) : allOnes (bodyBytes b) = false := by
  by_contra ones
  have mem : kindCode b.kind ∈ bodyBytes b := by
    unfold bodyBytes bodyFields
    simp
  exact kindCode_ne_ones b.kind ((allOnes_iff _).mp (by simpa using ones) _ mem)

/-- What a body program leaves, completed or cut, is not all ones. -/
theorem allOnes_bodyResult {cut : Bool} : allOnes (bodyResult cut old (bodyBytes b) left) = false := by
  unfold bodyResult
  dsimp only
  split_ifs with same residue
  · rw [same, allOnes_bodyBytes]
  · unfold bodyResidue at residue
    rw [Bool.and_eq_true, Bool.not_eq_true'] at residue
    exact residue.1
  · exact allOnes_zeroArea

/-- A cell whose marks read erased and whose area does not is ALLOCATED with a good body, and TORN without one (Table 2-4). -/
theorem readData_unmarked (first : markWord cells pos .first = Config.markErased) (second : markWord cells pos .second = Config.markErased)
    (notOnes : allOnes (dataArea cells pos) = false) :
    (readData cells pos).cond = if (parseBody (dataArea cells pos)).isSome = true then .allocated else .torn := by
  rw [readData_cond, first, second, notOnes]
  cases (parseBody (dataArea cells pos)).isSome <;> rfl

theorem cutOp_body (first : markWord cells pos .first = Config.markErased) (second : markWord cells pos .second = Config.markErased) :
    (readData (cutOp cells r left (.programBody pos b)) pos).cond = .allocated ∨
      (readData (cutOp cells r left (.programBody pos b)) pos).cond = .torn := by
  have area : dataArea (cutOp cells r left (.programBody pos b)) pos = bodyCut (dataArea cells pos) (bodyBytes b) left :=
    dataArea_putArea (bodyResult_length dataArea_length)
  have marks : ∀ k, markWord (cutOp cells r left (.programBody pos b)) pos k = markWord cells pos k := fun k => markWord_putArea
  rw [readData_unmarked (by rw [marks, first]) (by rw [marks, second]) (by rw [area]; exact allOnes_bodyResult)]
  split
  · exact .inl rfl
  · exact .inr rfl

theorem cutOp_mark : markWord (cutOp cells r left (.programMark pos k)) pos k =
    if pos.cell = 0 ∧ markCut (cutMayMark r pos k) (markWord cells pos k) left = Config.markErased then Config.markPresent
    else markCut (cutMayMark r pos k) (markWord cells pos k) left := markWord_putMark

theorem cutMayMark_iff (data : pos.cell ≠ 0) : cutMayMark r pos k = true ↔ r = .engine ∨ (r = .store ∧ k = .second) := by
  cases r <;> cases k <;> simp [cutMayMark, data]

/-- A cut mark program leaves its position present where it was, or where it was erased and may be marked (R29, log entry 9). -/
theorem markCut_present {may : Bool} {w : Half} (was : w ≠ Config.markPresent) (is : markCut may w left = Config.markPresent) :
    w = Config.markErased ∧ may = true := by
  unfold markCut at is
  dsimp only at is
  split_ifs at is with barred
  · exact absurd is was
  · by_contra no
    exact barred ⟨is, no⟩

/-- What a cut leaves of the operation in flight, and the array as it is when none is (R38). -/
def ArrayCtl.flightCut (a : ArrayCtl) (cut : List Host.Cell) : List Host.Cell :=
  a.inFlight.elim a.cells (fun f => cutOp a.cells f.requester cut f.op)

theorem cutArray_eq (a : ArrayCtl) (cut eraseCut : List Host.Cell) :
    cutArray a cut eraseCut = a.erase.elim (a.flightCut cut)
      (fun e => cutOp (a.flightCut cut) .space eraseCut (.eraseSegment e.seg e.generation e.count)) := by
  unfold cutArray ArrayCtl.flightCut
  cases a.inFlight <;> cases a.erase <;> simp only [Option.elim]

end

/-- Settles O25: `cutOp_outside`, and what a cut leaves of each operation. -/
theorem cutLeavesTheRestOfTheArray : Obligations.CutLeavesTheRestOfTheArray := by
  refine ⟨fun cells left r op a => cutOp_outside, fun cells left r g gen count => cutOp_header_bad, fun cells left r g gen count => ?_,
    fun cells left r g => ?_, fun cells left r pos b => cutOp_body, fun cells left r pos k data was is => ?_, fun cells left r pos payload => rfl,
    fun a cut eraseCut => ⟨a.flightCut cut, ?_, ?_, ?_, ?_⟩⟩
  · rw [cutOp_erase]
    exact cutSegment_damaged
  · rw [cutOp_mark]
    split_ifs with erased
    · decide
    · exact fun same => erased ⟨rfl, same⟩
  · rw [cutOp_mark, if_neg (fun h => data h.1)] at is
    obtain ⟨erased, may⟩ := markCut_present was is
    exact ⟨erased, (cutMayMark_iff data).mp may⟩
  · intro f flight
    rw [ArrayCtl.flightCut, flight, Option.elim_some]
  · intro flight
    rw [ArrayCtl.flightCut, flight, Option.elim_none]
  · intro e erase
    rw [cutArray_eq, erase, Option.elim_some]
  · intro erase
    rw [cutArray_eq, erase, Option.elim_none]

/-! ## The bytes after every row -/

section
variable {s t : State} {cells left : List Host.Cell} {pos : Pos} {g : Seg} {gen : Generation} {n i : Nat} {r : Requester} {op : ArrayOp}
  {k k' : MarkKind} {b : Body} {old pattern area : List Byte} {w : Half} {fails : Bool}

/-- The bytes of the array after a row are those of `cellsAfter`. -/
theorem exec_cells {i : Instr} (h : exec i s = .next t) : t.array.cells = s.cellsAfter i := by
  rcases row_kinds i with ⟨p, frame⟩ | inner | line | ⟨p, rfl⟩
  · rw [(exec_frame_leavesAround frame h).1.cells]
    cases i with
    | statusRead | command | resultRead | eventRead | bufferWrite | bufferRead | notifySet | notifyClear | flagsClear | portReset
    | unknownFrameKind => rfl
    | _ => exact absurd frame (by simp [framePort])
  · exact (exec_inner_quiet inner h).cells
  · cases i with
    | resetNLow cut eraseCut =>
      obtain rfl := Host.Outcome.next.inj h
      dsimp only [State.cellsAfter]
      split <;> rfl
    | resetNHigh =>
      obtain rfl := Host.Outcome.next.inj h
      dsimp only
      split <;> rfl
    | powerOn =>
      have h : execPowerOn s = .next t := h
      unfold execPowerOn at h
      split at h
      · exact absurd h (by simp)
      · obtain rfl := Host.Outcome.next.inj h
        dsimp only
        split <;> rfl
    | powerLoss cut eraseCut =>
      have h : execPowerLoss cut eraseCut s = .next t := h
      unfold execPowerLoss at h
      split at h
      · obtain rfl := Host.Outcome.next.inj h
        rfl
      · exact absurd h (by simp)
    | guardEnChange level =>
      obtain rfl := Host.Outcome.next.inj h
      rfl
    | _ => exact Bool.noConfusion line
  · rw [(exec_portResetProceed_leavesAround h).cells]
    rfl

/-! ## Body and header programs -/

theorem exec_bodyProgramDone_cells (h : s.carries r (.programBody pos b)) (next : exec (.bodyProgramDone left) s = .next t) :
    t.array.cells = putArea s.array.cells pos (bodyLeft (dataArea s.array.cells pos) (bodyBytes b) left) := by
  obtain ⟨-, age, flight⟩ := h
  simp only [exec_cells next, State.cellsAfter, flight]

theorem exec_headerProgramDone_cells (h : s.carries r (.programHeader g gen n)) (next : exec (.headerProgramDone left) s = .next t) :
    t.array.cells = putArea s.array.cells ⟨g, 0⟩ (headerLeft (dataArea s.array.cells ⟨g, 0⟩) (headerBytes gen n) left) := by
  obtain ⟨-, age, flight⟩ := h
  simp only [exec_cells next, State.cellsAfter, flight]

theorem exec_markProgramDone_cells (h : s.carries r (.programMark pos k)) (next : exec (.markProgramDone fails) s = .next t) :
    t.array.cells = putMark s.array.cells pos k (markLeft (markWord s.array.cells pos k) fails) := by
  obtain ⟨-, age, flight⟩ := h
  simp only [exec_cells next, State.cellsAfter, flight]

theorem dataArea_bodyLeft :
    dataArea (putArea cells pos (bodyLeft (dataArea cells pos) (bodyBytes b) left)) pos = bodyLeft (dataArea cells pos) (bodyBytes b) left :=
  dataArea_putArea (bodyLeft_length dataArea_length)

/-- A completed body program leaves an unmarked cell ALLOCATED with a payload check that fails, or TORN, unless it verifies (R24, Table 2-5). -/
theorem bodyLeft_failed (first : markWord cells pos .first = Config.markErased) (second : markWord cells pos .second = Config.markErased)
    (fails : dataArea cells pos ≠ bodyBytes b) (area : dataArea cells pos = bodyLeft old (bodyBytes b) left) :
    ((readData cells pos).cond = .allocated ∧ (readData cells pos).payloadGood = false) ∨ (readData cells pos).cond = .torn := by
  rcases bodyLeft_cases old (bodyBytes b) left with same | ⟨notOnes, residue⟩
  · exact absurd (area.trans same) fails
  · rw [← area] at notOnes residue
    rw [readData_unmarked first second notOnes]
    rcases residue with none | ⟨b', body, -, bad⟩
    · exact .inr (by rw [none]; rfl)
    · refine .inl ⟨by rw [body]; rfl, ?_⟩
      by_contra good
      obtain ⟨b'', body', good⟩ := readData_payloadGood.mp (by simpa using good)
      rw [body] at body'
      exact bad (Option.some.inj body' ▸ good)

/-- A body program that verifies leaves an unmarked cell ALLOCATED (R24). -/
theorem bodyBytes_allocated (first : markWord cells pos .first = Config.markErased) (second : markWord cells pos .second = Config.markErased)
    (area : dataArea cells pos = bodyBytes b) (ok : bodyWellFormed b = true) (length : b.payload.length = b.length) :
    (readData cells pos).cond = .allocated := by
  rw [readData_unmarked first second (by rw [area]; exact allOnes_bodyBytes b), area, parseBody_bodyBytes ok length]
  rfl

/-- A cell whose commit mark does not read present is not COMMITTED (Table 2-4). -/
theorem readData_not_committed (unmarked : markWord cells pos .first ≠ Config.markPresent) : (readData cells pos).cond ≠ .committed := by
  rw [readData_cond]
  intro committed
  have present := ((cellCond_iff _ _ _ _).2.2.1.mp committed).2.1
  unfold markReading at present
  split_ifs at present

theorem attempted_getD : (attempted old pattern left).getD i 0 &&& old.getD i 0 = (attempted old pattern left).getD i 0 := by
  simp only [attempted, List.getD_eq_getElem?_getD, List.getElem?_zipWith]
  cases old[i]? with
  | none => cases (overlay left 0 pattern)[i]? <;> exact BitVec.and_self
  | some x =>
    cases (overlay left 0 pattern)[i]? with
    | none => exact BitVec.zero_and
    | some y =>
      show (x &&& y) &&& x = x &&& y
      rw [BitVec.and_comm, ← BitVec.and_assoc, BitVec.and_self]

theorem zeroArea_getD : zeroArea.getD i 0 = 0 := by
  rw [zeroArea, List.getD_eq_getElem?_getD, List.getElem?_replicate]
  split <;> rfl

/-- A program clears bits only (R15). -/
theorem bodyLeft_clears : (bodyLeft old pattern left).getD i 0 &&& old.getD i 0 = (bodyLeft old pattern left).getD i 0 := by
  unfold bodyLeft bodyResult
  dsimp only
  split_ifs
  · exact attempted_getD
  · exact attempted_getD
  · rw [zeroArea_getD]; exact BitVec.zero_and

theorem headerLeft_clears : (headerLeft old pattern left).getD i 0 &&& old.getD i 0 = (headerLeft old pattern left).getD i 0 := by
  unfold headerLeft badHeader
  dsimp only
  split_ifs
  · exact attempted_getD
  · rw [zeroArea_getD]; exact BitVec.zero_and
  · exact attempted_getD

theorem overlay_nil (j : Nat) (bs : List Byte) : overlay [] j bs = bs := by
  induction bs generalizing j with
  | nil => rfl
  | cons b bs ih => rw [overlay, ih]; rfl

/-- An erased area on which nothing was left otherwise takes the requested pattern. -/
theorem attempted_ones (length : pattern.length = 512) : attempted (List.replicate 512 0xFF#8) pattern [] = pattern := by
  have kept : ∀ bs : List Byte, List.zipWith (· &&& ·) (List.replicate bs.length 0xFF#8) bs = bs := fun bs => by
    induction bs with
    | nil => rfl
    | cons b bs ih =>
      rw [List.length_cons, List.replicate_succ, List.zipWith_cons_cons, ih, show 0xFF#8 = BitVec.allOnes 8 from rfl, BitVec.allOnes_and]
  rw [attempted, overlay_nil, ← length, kept]

theorem headerLeft_cases :
    headerLeft old (headerBytes gen n) left = headerBytes gen n ∨
      (headerGood (headerLeft old (headerBytes gen n) left) = false ∧ allOnes (headerLeft old (headerBytes gen n) left) = false) := by
  unfold headerLeft
  dsimp only
  split_ifs with same
  · exact .inl same
  · exact .inr badHeader_bad

theorem headerLeft_length (length : old.length = Config.dataBytes) : (headerLeft old (headerBytes gen n) left).length = Config.dataBytes := by
  have all : (attempted old (headerBytes gen n) left).length = Config.dataBytes := by
    rw [attempted_length, length, headerBytes_length, min_self]
  unfold headerLeft
  dsimp only
  split_ifs
  · exact all
  · exact badHeader_length all

/-! ## Mark programs -/

/-- A mark program that does not leave its position present leaves it as it was (R29). -/
theorem markLeft_failed (fails' : markLeft w fails ≠ Config.markPresent) : markLeft w fails = w := by
  unfold markLeft at *
  split <;> simp_all

theorem markWord_putMark_other (other : k' ≠ k) : markWord (putMark cells pos k w) pos k' = markWord cells pos k' := by
  have apart : ∀ i < 2, arrayByte (putMark cells pos k w) (markBase pos k' + i) = arrayByte cells (markBase pos k' + i) := fun i hi =>
    putMark_outside (by cases k <;> cases k' <;> simp [markBase] at other ⊢; all_goals omega)
  rw [markWord_eq, markWord_eq, apart 1 (by decide)]
  exact congrArg (· ++ _) (apart 0 (by decide))

/-- A mark position written as it was leaves the read of its cell. -/
theorem readData_putMark_self : readData (putMark cells pos k (markWord cells pos k)) pos = readData cells pos := by
  have marks : ∀ k', markWord (putMark cells pos k (markWord cells pos k)) pos k' = markWord cells pos k' := fun k' => by
    by_cases same : k' = k
    · rw [same, markWord_putMark]
    · exact markWord_putMark_other same
  simp only [readData, dataArea_putMark, marks]

theorem markLeft_erased (erased : markReading w = .erased) : markLeft w fails = if fails then Config.markErased else Config.markPresent := by
  have same : w = Config.markErased := by
    unfold markReading at erased
    split_ifs at erased with same
    exact same
  rw [markLeft, erased, same]

theorem markLeft_not_erased (notErased : markReading w ≠ .erased) : markLeft w fails = w := by
  unfold markLeft
  split
  · rfl
  · rfl
  · exact absurd (by assumption) notErased

/-! ## Segment erases -/

theorem segBase_le (c : CellNo) : segBase g ≤ cellBase ⟨g, c⟩ ∧ cellBase ⟨g, c⟩ + Config.cellStride ≤ segBase g + Config.segmentStride := by
  have := c.isLt
  simp only [cellBase, Config.segmentStride, Config.cellStride]
  omega

/-- A cell whose marks' four bytes read ones has marks that read erased. -/
theorem markWord_erased (ones : ∀ i < 516, arrayByte cells (cellBase pos + i) = 0xFF#8) (k : MarkKind) :
    markWord cells pos k = Config.markErased := by
  have bytes : ∃ i < 515, markBase pos k = cellBase pos + i := by
    cases k with
    | first => exact ⟨512, by decide, rfl⟩
    | second => exact ⟨514, by decide, rfl⟩
  obtain ⟨i, inside, base⟩ := bytes
  rw [markWord_eq, base, ones i (by omega), Nat.add_assoc, ones (i + 1) (by omega)]
  rfl

/-- The area and the marks of a data cell of a segment that was cleared and given its header read erased. -/
theorem erasedSegment_data (c : CellNo) (data : c ≠ 0) :
    dataArea (erasedSegment cells g gen n) ⟨g, c⟩ = List.replicate 512 0xFF#8 ∧
      ∀ k, markWord (erasedSegment cells g gen n) ⟨g, c⟩ k = Config.markErased := by
  have position : 1 ≤ c.val := Nat.pos_of_ne_zero fun zero => data (Fin.ext zero)
  have inside := segBase_le (g := g) c
  have ones : ∀ i < 516, arrayByte (erasedSegment cells g gen n) (cellBase ⟨g, c⟩ + i) = 0xFF#8 := fun i hi => by
    have beyond : cellBase ⟨g, 0⟩ + Config.dataBytes ≤ cellBase ⟨g, c⟩ + i := by
      simp only [cellBase, Config.dataBytes, Config.cellStride]
      omega
    rw [erasedSegment, putArea_outside (.inr beyond)]
    refine Memory.clear_inside (by omega) ?_
    have := inside.2
    simp only [Config.cellStride] at this
    omega
  refine ⟨?_, markWord_erased ones⟩
  rw [dataArea_eq, List.map_congr_left fun i hi => ones i (by have := List.mem_range.mp hi; omega), List.map_const', List.length_range]

theorem erasedSegment_header :
    dataArea (erasedSegment cells g gen n) ⟨g, 0⟩ = headerBytes gen n ∧
      ∀ k, markWord (erasedSegment cells g gen n) ⟨g, 0⟩ k = Config.markErased := by
  refine ⟨dataArea_putArea headerBytes_length, fun k => ?_⟩
  have ones : ∀ i < 516, arrayByte (Memory.clear cells (segBase g) Config.segmentStride) (cellBase ⟨g, 0⟩ + i) = 0xFF#8 := fun i hi => by
    rw [cellBase_header]
    refine Memory.clear_inside (by omega) ?_
    simp only [Config.segmentStride]
    omega
  rw [erasedSegment, markWord_putArea]
  exact markWord_erased ones k

theorem readData_erased (area : dataArea cells pos = List.replicate 512 0xFF#8) (marks : ∀ k, markWord cells pos k = Config.markErased) :
    (readData cells pos).cond = .erased := by
  rw [readData_cond, marks, marks, area]
  refine (cellCond_iff _ _ _ _).1.mpr ⟨?_, rfl, rfl⟩
  rw [allOnes_iff]
  exact fun b hb => List.eq_of_mem_replicate hb

theorem readHeader_valid (area : dataArea cells ⟨g, 0⟩ = headerBytes gen n) (marks : ∀ k, markWord cells ⟨g, 0⟩ k = Config.markErased)
    (small : n < 65536) : readHeader cells g = { cond := .valid, generation := gen, count := n, retired := false } := by
  obtain ⟨good, generation, count⟩ := headerBytes_read gen small
  have notOnes : allOnes (headerBytes gen n) = false := by
    by_contra ones
    rw [headerGood_of_ones (by simpa using ones)] at good
    exact Bool.noConfusion good
  simp [readHeader, area, marks, good, generation, count, notOnes]

theorem eraseLeft_verifies (h : eraseVerifies cells g gen n left = true) : eraseLeft cells g gen n left = erasedSegment cells g gen n :=
  if_pos (of_decide_eq_true h)

theorem eraseLeft_fails (h : eraseVerifies cells g gen n left = false) :
    eraseLeft cells g gen n left = badSegment (left.foldl (putResidue g) (erasedSegment cells g gen n)) g :=
  if_neg (of_decide_eq_false h)

end

/-- Settles O55: `exec_cells`, and what each completion leaves in its part. -/
theorem arrayBytesAfterEveryRow : Obligations.ArrayBytesAfterEveryRow := by
  refine ⟨fun i s t => exec_cells, fun s r pos b left carries => ?_, fun s r g gen n left carries => ?_, fun s r pos k fails carries => ?_,
    fun s r pos payload carries => ?_, fun old pattern left i => ⟨bodyLeft_clears, headerLeft_clears⟩, fun pattern length => ?_,
    fun cells pos area k w a => ⟨fun length => dataArea_putArea length, markWord_putMark, putArea_outside, putMark_outside⟩⟩
  · have row : ∃ ok, exec (.bodyProgramDone left) s = .next ((s.afterBody pos b left).deliverBody r pos ok).settle ∧
        (ok = true ↔ s.bodyTakes pos b left) := by
      by_cases takes : s.bodyTakes pos b left
      · exact ⟨true, (exec_bodyProgramDone carries).1 takes, by simp [takes]⟩
      · exact ⟨false, (exec_bodyProgramDone carries).2 takes, by simp [takes]⟩
    obtain ⟨ok, next, verdict⟩ := row
    have cells := exec_bodyProgramDone_cells carries next
    have area : dataArea ((s.afterBody pos b left).deliverBody r pos ok).settle.array.cells pos =
        bodyLeft (dataArea s.array.cells pos) (bodyBytes b) left := by rw [cells, dataArea_bodyLeft]
    have marks : ∀ k, markWord ((s.afterBody pos b left).deliverBody r pos ok).settle.array.cells pos k = markWord s.array.cells pos k :=
      fun k => by rw [cells, markWord_putArea]
    have verifies : ok = true ↔ dataArea ((s.afterBody pos b left).deliverBody r pos ok).settle.array.cells pos = bodyBytes b := by
      rw [area]
      exact verdict
    refine ⟨_, ok, next, rfl, verifies, fun a spared => by rw [cells]; exact putArea_outside spared, fun first second => ⟨?_, ?_⟩, ?_⟩
    · exact fun good => bodyBytes_allocated (by rw [marks, first]) (by rw [marks, second]) (verifies.mp good)
    · exact fun bad => bodyLeft_failed (by rw [marks, first]) (by rw [marks, second]) (fun same => by simp [verifies.mpr same] at bad) area
    · exact fun _ unmarked => readData_not_committed (by rw [marks]; exact unmarked)
  · have row : ∃ t, exec (.headerProgramDone left) s = .next t := by
      by_cases takes : s.headerTakes g gen n left
      · exact ⟨_, (exec_headerProgramDone carries).1 takes⟩
      · exact ⟨_, (exec_headerProgramDone carries).2 takes⟩
    obtain ⟨t, next⟩ := row
    have cells := exec_headerProgramDone_cells carries next
    have area : dataArea t.array.cells ⟨g, 0⟩ = headerLeft (dataArea s.array.cells ⟨g, 0⟩) (headerBytes gen n) left := by
      rw [cells, dataArea_putArea (headerLeft_length dataArea_length)]
    refine ⟨t, next, fun a spared => by rw [cells]; exact putArea_outside (by rw [cellBase_header]; exact spared), ?_⟩
    rcases headerLeft_cases (old := dataArea s.array.cells ⟨g, 0⟩) (gen := gen) (n := n) (left := left) with same | ⟨notGood, notOnes⟩
    · exact .inl (area.trans same)
    · exact .inr (readHeader_bad (by rw [area, notGood]) (by rw [area, notOnes]))
  · have row : ∃ ok, exec (.markProgramDone fails) s = .next ((s.afterMark pos k fails).deliverMark r pos ok).settle ∧
        (ok = true ↔ s.markTakes pos k fails) := by
      by_cases takes : s.markTakes pos k fails
      · exact ⟨true, (exec_markProgramDone carries).1 takes, by simp [takes]⟩
      · exact ⟨false, (exec_markProgramDone carries).2 takes, by simp [takes]⟩
    obtain ⟨ok, next, verdict⟩ := row
    have cells := exec_markProgramDone_cells carries next
    have mark : markWord ((s.afterMark pos k fails).deliverMark r pos ok).settle.array.cells pos k =
        markLeft (markWord s.array.cells pos k) fails := by rw [cells, markWord_putMark]
    have verifies : ok = true ↔ markWord ((s.afterMark pos k fails).deliverMark r pos ok).settle.array.cells pos k = Config.markPresent := by
      rw [mark]
      exact verdict
    have failed : ok = false → markWord ((s.afterMark pos k fails).deliverMark r pos ok).settle.array.cells pos k ≠ Config.markPresent :=
      fun bad same => by simp [verifies.mpr same] at bad
    refine ⟨_, ok, next, rfl, verifies, fun bad => ?_, fun bad first => ?_, fun a spared => by rw [cells]; exact putMark_outside spared,
      fun notErased => by rw [mark, markLeft_not_erased notErased], fun erased => by rw [mark, markLeft_erased erased]⟩
    · rw [cells, markLeft_failed (mark ▸ failed bad), readData_putMark_self]
    · subst first
      exact readData_not_committed (failed bad)
  · have next := exec_cellReadDone carries
    exact ⟨_, next, exec_cells next⟩
  · have taken := attempted_ones length
    exact ⟨by rw [bodyLeft, bodyResult]; exact (if_pos taken).trans taken, by rw [headerLeft]; exact (if_pos taken).trans taken⟩

/-- Settles O56: `exec_cells` for the two completions, and what an erase leaves when it verifies and when it fails. -/
theorem segmentEraseEnds : Obligations.SegmentEraseEnds := by
  refine ⟨fun s r g gen n left carries => ?_, fun s e left run flight erase moves => ?_, fun cells left g gen n => ⟨fun a => eraseLeft_outside,
    fun fails => ?_, fun verifies small => ?_⟩, fun cells g gen n => decide_eq_true rfl⟩
  · have next := exec_storeEraseDone (left := left) carries
    obtain ⟨-, age, flight⟩ := carries
    exact ⟨_, next, by simp only [exec_cells next, State.cellsAfter, flight]⟩
  · have next := exec_reclaimEraseDone (left := left) run flight erase moves
    exact ⟨_, next, by simp only [exec_cells next, State.cellsAfter, flight, erase]⟩
  · rw [eraseLeft_fails fails]
    exact badSegment_notValid
  · rw [eraseLeft_verifies verifies]
    obtain ⟨area, marks⟩ := erasedSegment_header (cells := cells) (g := g) (gen := gen) (n := n)
    refine ⟨readHeader_valid area marks small, fun c data => ?_⟩
    obtain ⟨area, marks⟩ := erasedSegment_data (cells := cells) (g := g) (gen := gen) (n := n) c data
    exact readData_erased area marks

end Sys2Proof.Machine

/-! SUPPORT. Offers of events, the two arbiters, suspension of an erase, and the grants of cells. -/

namespace Sys2Proof.Machine

/-! ## Events (R185) -/

section
variable {u : PortUnit} {e h m : Event} {before after es : List Event}

theorem PortUnit.offer_resetting (resetting : u.state = .resetting) : u.offer e = u := by
  rw [PortUnit.offer, resetting]

theorem mergeInto_found (none : ∀ x ∈ before, x.merge e = none) (merges : h.merge e = some m) :
    mergeInto (before ++ h :: after) e = some (before ++ m :: after) := by
  induction before with
  | nil => simp only [List.nil_append, mergeInto, merges]
  | cons x before ih =>
    have first := none x List.mem_cons_self
    have rest := ih fun y hy => none y (List.mem_cons_of_mem x hy)
    simp only [List.cons_append, mergeInto, first, rest, Option.map_some]

theorem mergeInto_alone (none : ∀ x ∈ es, x.merge e = none) : mergeInto es e = .none := by
  induction es with
  | nil => rfl
  | cons x es ih =>
    have first := none x List.mem_cons_self
    have rest := ih fun y hy => none y (List.mem_cons_of_mem x hy)
    simp only [mergeInto, first, rest, Option.map_none]

theorem PortUnit.offer_merges (active : u.state = .active) (merged : mergeInto u.events e = some es) :
    (u.offer e).events = es ∧ (u.offer e).flags = u.flags := by
  simp only [PortUnit.offer, active, merged, and_self]

theorem PortUnit.offer_waits (active : u.state = .active) (alone : mergeInto u.events e = none) :
    u.offer e =
      if u.events.length < 8 then { u with events := u.events ++ [e] } else { u with flags := u.flags ||| flagEventLost } := by
  simp only [PortUnit.offer, active, alone]
  rfl

/-- Events of different kinds do not merge (Table 10-3). -/
theorem Event.merge_kind {x y : Event} (merges : x.merge y = some m) : (eventBytes x).head? = (eventBytes y).head? := by
  cases x <;> cases y <;> simp only [Event.merge, reduceCtorEq] at merges <;> rfl

end

/-- Settles O59: `PortUnit.offer` in its cases, and Table 10-3 by the definition of a merge. -/
theorem eventsMergeOrWait : Obligations.EventsMergeOrWait := by
  refine ⟨fun u e => PortUnit.offer_resetting, fun u e h m before after active events none merges => ?_, fun u e active none => ?_,
    fun k k' t t' v v' a a' => rfl, fun k k' h h' c c' => rfl, fun st st' g g' => rfl, fun p p' m m' b b' v v' => rfl,
    fun x y m => Event.merge_kind, fun s p e => rfl⟩
  · exact PortUnit.offer_merges active (events ▸ mergeInto_found none merges)
  · rw [PortUnit.offer_waits active (mergeInto_alone none)]
    exact ⟨fun room => if_pos room, fun full => if_neg (Nat.not_lt.mpr full)⟩

/-! ## The port arbiter -/

section
variable {s t : State} {p q : Port} {c : Cmd} {k : ScanCtx} {rest : List Cmd}

theorem State.isOpen_iff (s : State) : s.isOpen = true ↔ s.store.state ≠ .mounting ∧ s.store.state ≠ .formatting := by
  unfold State.isOpen
  cases s.store.state <;> simp

theorem PortUnit.hasWork_iff (u : PortUnit) :
    u.hasWork = true ↔ (∃ c k, u.slot = .parked c k) ∨ (u.slot = .none ∧ u.commands ≠ [] ∧ u.results.length < 4) := by
  unfold PortUnit.hasWork
  cases u.slot with
  | parked c k => simp
  | executing => simp
  | none =>
    rw [Bool.and_eq_true, decide_eq_true_iff]
    simp [Config.resultPlaces]

theorem State.eligible_iff (s : State) (p : Port) :
    s.eligible p = true ↔
      (s.port p).state = .active ∧ s.store.state ≠ .mounting ∧ s.store.state ≠ .formatting ∧
        ((∃ c k, (s.port p).slot = .parked c k) ∨
          ((s.port p).slot = .none ∧ (s.port p).commands ≠ [] ∧ (s.port p).results.length < 4)) := by
  rw [State.eligible, Bool.and_eq_true, Bool.and_eq_true, beq_iff_eq, State.isOpen_iff, PortUnit.hasWork_iff, and_assoc, and_assoc]

theorem State.takePort_parked (slot : (s.port p).slot = .parked c k) :
    s.takePort p = (((s.setPort p { s.port p with slot := .executing }).setWork (.resuming p c k)).setPointer (nextPort p)) := by
  simp only [State.takePort, slot]

theorem State.takePort_queued (slot : (s.port p).slot = .none) (commands : (s.port p).commands = c :: rest) :
    s.takePort p =
      (((s.setPort p { s.port p with slot := .executing, commands := rest }).setWork (.taken p c)).setPointer (nextPort p)) := by
  simp only [State.takePort, slot, commands]

theorem State.select_stands (h : s.engine.work ≠ .idle ∨ ∀ p, s.eligible p = false) : s.select = s := by
  unfold State.select
  rcases h with busy | none
  · rw [if_neg busy]
  · have found : (searchFrom s.engine.pointer).find? s.eligible = Option.none := List.find?_eq_none.mpr fun q _ => by simp [none q]
    rw [found, ite_self]

/-- An IDLE Engine takes the first eligible port from its pointer on (R58). -/
theorem State.select_takes {before after : List Port} (idle : s.engine.work = .idle)
    (search : searchFrom s.engine.pointer = before ++ p :: after) (none : ∀ q ∈ before, s.eligible q = false) (can : s.eligible p = true) :
    s.select = s.takePort p := by
  have skip : before.find? s.eligible = Option.none := List.find?_eq_none.mpr fun q hq => by simp [none q hq]
  have found : (searchFrom s.engine.pointer).find? s.eligible = some p := by
    rw [search, List.find?_append, skip, Option.none_or, List.find?_cons_of_pos can]
  rw [State.select, if_pos idle, found]

theorem mem_searchFrom (p q : Port) : q ∈ searchFrom p := by
  cases p <;> cases q <;> decide

/-- With one eligible port an IDLE Engine takes that one, wherever its pointer stands. -/
theorem State.select_only (idle : s.engine.work = .idle) (can : s.eligible q = true) (others : ∀ x, x ≠ q → s.eligible x = false) :
    s.select = s.takePort q := by
  have found : (searchFrom s.engine.pointer).find? s.eligible = some q := by
    cases search : (searchFrom s.engine.pointer).find? s.eligible with
    | none => exact absurd can (List.find?_eq_none.mp search q (mem_searchFrom _ q))
    | some x =>
      by_cases same : x = q
      · rw [same]
      · have := List.find?_some search
        rw [others x same] at this
        exact Bool.noConfusion this
  rw [State.select, if_pos idle, found]

/-- A command that ends at a RESETTING port leaves it without a current command, and the Engine IDLE (R61). -/
theorem State.endCommand_resetting {r : Result} (resetting : (s.port p).state = .resetting) :
    s.endCommand p r = (s.setPort p { s.port p with slot := .none }).setWork .idle := by
  simp only [State.endCommand, PortUnit.deposit, resetting]

/-- At the end of a command of a RESETTING port the Engine takes the one other port that is eligible, before that port's reset has proceeded (R58, R61). -/
theorem State.endCommand_resetting_selects {r : Result} (resetting : (s.port p).state = .resetting) (other : q ≠ p)
    (calm : (s.endCommand p r).heldDue = false) (can : s.eligible q = true) (alone : ∀ x, x ≠ p → x ≠ q → s.eligible x = false)
    (slot : (s.port q).slot = .none) (commands : (s.port q).commands = c :: rest) :
    (s.endCommand p r).settle.engine.work = .taken q c ∧ ((s.endCommand p r).settle.port p).state = .resetting ∧
      ((s.endCommand p r).settle.port p).slot = .none := by
  have ended := State.endCommand_resetting (r := r) resetting
  have port : ((s.endCommand p r).arbitrate.port p) = { s.port p with slot := .none } := by
    rw [State.arbitrate_port, ended, State.setWork_port, State.setPort_port]
  have ports : ∀ x, x ≠ p → (s.endCommand p r).arbitrate.port x = s.port x := fun x hx => by
    rw [State.arbitrate_port, ended, State.setWork_port, State.setPort_port_other _ _ hx]
  have same : ∀ x, x ≠ p → (s.endCommand p r).arbitrate.eligible x = s.eligible x := fun x hx => by
    rw [State.eligible, ports x hx, State.isOpen, State.arbitrate_store, ended]
    rfl
  have others : ∀ x, x ≠ q → (s.endCommand p r).arbitrate.eligible x = false := fun x hx => by
    by_cases here : x = p
    · subst here
      rw [State.eligible, port, show (PortUnit.state _ == PortState.active) = false by simp [resetting]]
      rfl
    · rw [same x here, alone x here hx]
  have idle : (s.endCommand p r).arbitrate.engine.work = .idle := by
    rw [State.arbitrate_engine, ended]
    rfl
  have settles : (s.endCommand p r).settle = (s.endCommand p r).arbitrate.select := by
    rw [State.settle, calm]
    rfl
  rw [settles, State.select_only idle ((same q other).trans can) others,
    State.takePort_queued (by rw [ports q other, slot]) (by rw [ports q other, commands])]
  refine ⟨rfl, ?_, ?_⟩
  · rw [State.setPointer_port, State.setWork_port, State.setPort_port_other _ _ other.symm, port]
    exact resetting
  · rw [State.setPointer_port, State.setWork_port, State.setPort_port_other _ _ other.symm, port]

/-! ## The array arbiter -/

theorem State.arbitrate_stands (h : s.array.inFlight ≠ none ∨ ∃ e, s.array.erase = some e ∧ e.state ≠ .suspended) : s.arbitrate = s := by
  unfold State.arbitrate
  split
  · rfl
  · rename_i flight erase
    rcases h with busy | ⟨e, there, -⟩
    · exact absurd flight busy
    · rw [erase] at there
      exact absurd there (by simp)
  · rename_i e flight erase
    rcases h with busy | ⟨e', there, moves⟩
    · exact absurd flight busy
    · obtain rfl := Option.some.inj (erase.symm.trans there)
      split
      · exact absurd (by assumption) moves
      · rfl
      · rfl

theorem State.arbitrate_free (flight : s.array.inFlight = none) (erase : s.array.erase = none) : s.arbitrate = s.arbitrateFree := by
  simp only [State.arbitrate, flight, erase]

theorem State.arbitrate_suspended {e : EraseCtx} (flight : s.array.inFlight = none) (erase : s.array.erase = some e)
    (suspended : e.state = .suspended) : s.arbitrate = s.arbitrateSuspended e := by
  simp only [State.arbitrate, flight, erase, suspended]

/-- The Engine's request is granted when no other waits, or the Space Manager's is not urgent (R32, R33). -/
theorem State.arbitrateFree_engine {op : ArrayOp} (store : s.array.waitStore = none) (engine : s.array.waitEngine = some op)
    (first : s.array.waitSpace = none ∨ s.urgent = false) : s.arbitrateFree = s.grantEngine op := by
  cases space : s.array.waitSpace with
  | none => simp only [State.arbitrateFree, store, engine, space]
  | some op' =>
    have calm : s.urgent = false := first.resolve_left (by simp [space])
    simp [State.arbitrateFree, store, engine, space, calm]

/-- The Space Manager's request is granted when no other waits, or it is urgent and the Store Controller's does not wait (R32, R33). -/
theorem State.arbitrateFree_space {op : ArrayOp} (store : s.array.waitStore = none) (space : s.array.waitSpace = some op)
    (first : s.array.waitEngine = none ∨ s.urgent = true) : s.arbitrateFree = s.grantSpace op := by
  cases engine : s.array.waitEngine with
  | none => simp only [State.arbitrateFree, store, engine, space]
  | some op' =>
    have urgent : s.urgent = true := first.resolve_left (by simp [engine])
    simp [State.arbitrateFree, store, engine, space, urgent]

theorem State.grantSpace_program {op : ArrayOp} (noErase : ∀ g gen n, op ≠ .eraseSegment g gen n) :
    s.grantSpace op =
      { s with array := { s.array with waitSpace := none, inFlight := some { requester := .space, op := op, age := 0 } } } := by
  cases op with
  | eraseSegment g gen n => exact absurd rfl (noErase g gen n)
  | _ => rfl

theorem State.urgent_iff (s : State) : s.urgent = true ↔ s.freeCount = 1 ∧ ∃ q, s.space.pass = some q ∧ q.stage = .copying := by
  unfold State.urgent
  cases s.space.pass <;> simp

theorem State.heldDue_iff (s : State) :
    s.heldDue = true ↔
      s.running = true ∧ s.space.held = true ∧ s.store.state ≠ .degraded ∧
        ((s.front ≠ none ∧ s.space.frontFree ≠ []) ∨ 2 ≤ s.freeCount) := by
  simp [State.heldDue, State.canGrant, Option.isSome_iff_ne_none, and_assoc]

end

/-- Settles O58: the arbiters in their cases. -/
theorem arbitersChoose : Obligations.ArbitersChoose := by
  refine ⟨State.eligible_iff, fun s => ⟨fun due => if_pos due, fun calm => if_neg (by simp [calm])⟩, State.heldDue_iff, State.anyResetDue_iff,
    fun s => State.select_stands, fun s p before after idle search none can => ⟨fun c k slot => ?_, fun c rest slot commands => ?_⟩,
    fun s p q r c rest => State.endCommand_resetting_selects, ⟨rfl, rfl, rfl, rfl⟩, fun s => State.arbitrate_stands,
    fun s flight erase => ?_, State.urgent_iff, State.isOpen_iff, ⟨rfl, rfl, rfl, rfl⟩⟩
  · rw [State.select_takes idle search none can, State.takePort_parked slot]
  · rw [State.select_takes idle search none can, State.takePort_queued slot commands]
  · rw [State.arbitrate_free flight erase]
    refine ⟨fun store engine space => ?_, fun op store => ?_, fun op store engine first => State.arbitrateFree_engine store engine first,
      fun op store space first noErase => ?_, fun g gen n store space first => State.arbitrateFree_space store space first⟩
    · simp only [State.arbitrateFree, store, engine, space]
    · simp only [State.arbitrateFree, store]
      rfl
    · rw [State.arbitrateFree_space store space first, State.grantSpace_program noErase]

/-! ## Grants of cells -/

section
variable {s t : State} {p : Port} {c : Cmd} {u : Update} {pos : Pos} {bytes : List Byte} {check : Half} {f : Seg} {cell : CellNo}
  {rest : List CellNo}

/-- A granted cell arrives at an update whose payload is known (R72, R75). -/
theorem State.grantGiven_eq (payload : t.withPayload p c u = { u with payload := some (bytes, check) }) :
    t.grantGiven p c u pos =
      ((t.setWork (.updating p c { u with payload := some (bytes, check), granted := some pos, stage := .body })).bumpSeq).presentEngine
        (.programBody pos
          { key := u.key, version := u.version, seq := t.engine.seq, length := bytes.length, author := u.author, kind := u.kind,
            check := check, payload := bytes }) := by
  rw [State.grantGiven, payload]
  rfl

theorem State.takeFront_eq (front : s.front = some f) (free : s.space.frontFree = cell :: rest) :
    s.takeFront = some (⟨f, cell⟩, (s.setSeg f (s.seg f).grant).setFrontFree rest) := by
  simp only [State.takeFront, front, free]

end

end Sys2Proof.Machine

/-! SUPPORT. Grant requests and held grants. -/

namespace Sys2Proof.Machine

/-! ## The victim and the trigger -/

section
variable {s : State} {g v : Seg}

theorem betterVictim_full {best : Option Seg} (before : ∀ x, best = some x → (s.seg x).state = .full) :
    ∀ x, betterVictim s best g = some x → (s.seg x).state = .full := by
  intro x found
  unfold betterVictim at found
  dsimp only at found
  split at found
  · rename_i eligible
    cases best with
    | none =>
      obtain rfl := Option.some.inj found
      exact eligible.1
    | some b =>
      dsimp only at found
      split at found <;> obtain rfl := Option.some.inj found
      · exact eligible.1
      · exact before _ rfl
  · exact before x found

/-- A victim is a FULL segment (R140). -/
theorem State.victim_full (found : s.victim = some v) : (s.seg v).state = .full := by
  have fold : ∀ (l : List Seg) (best : Option Seg), (∀ x, best = some x → (s.seg x).state = .full) →
      ∀ x, l.foldl (betterVictim s) best = some x → (s.seg x).state = .full := fun l => by
    induction l with
    | nil => exact fun best before => before
    | cons g l ih => exact fun best before => ih _ (betterVictim_full before)
  exact fold allSegs none (fun x h => nomatch h) v found

/-- The trigger leaves the row of a segment that is not FULL. -/
theorem State.trigger_seg (open_ : (s.seg g).state ≠ .full) : s.trigger.seg g = s.seg g := by
  unfold State.trigger
  split
  · split
    · rfl
    · rename_i v found
      split
      · have other : v ≠ g := fun same => open_ (same ▸ State.victim_full found)
        show (s.setSeg v _).seg g = _
        rw [State.seg_setSeg, if_neg other]
      · rw [State.seg, State.degrade_leaves.2.2.2.1]
        rfl
  · rfl

end

/-! ## Grant requests (R72, R73, R136) -/

section
variable {s : State} {p : Port} {c : Cmd} {u : Update} {pos : Pos} {bytes : List Byte} {check : Half} {f : Seg} {cell : CellNo}
  {rest : List CellNo} {e : EraseCtx}

/-- The update of a grant request, before it is decided. -/
def State.asking (s : State) (p : Port) (c : Cmd) (u : Update) : State :=
  s.setWork (.updating p c { u with granted := none, stage := .grantWait })

theorem State.requestGrant_degraded (degraded : s.store.state = .degraded) :
    s.requestGrant p c u =
      (s.asking p c u).endCommand p (c.at_ .readOnly u.key (entryVersion s.engine.dir u.key) 0 (nat16 (u.attempt - 1))) :=
  if_pos degraded

theorem State.requestGrant_front (ready : s.store.state ≠ .degraded) (front : s.front = some f) (free : s.space.frontFree = cell :: rest) :
    s.requestGrant p c u =
      (((s.asking p c u).setSeg f (s.seg f).grant).setFrontFree rest).grantGiven p c { u with granted := none, stage := .grantWait } ⟨f, cell⟩ := by
  have take : (s.asking p c u).takeFront = some (⟨f, cell⟩, ((s.asking p c u).setSeg f (s.seg f).grant).setFrontFree rest) :=
    State.takeFront_eq (s := s.asking p c u) front free
  have ready' : (s.asking p c u).store.state ≠ .degraded := ready
  unfold State.asking at *
  unfold State.requestGrant
  dsimp only
  rw [if_neg ready', take]

theorem State.requestGrant_held (ready : s.store.state ≠ .degraded) (full : s.front = none ∨ s.space.frontFree = []) (few : s.freeCount < 2) :
    s.requestGrant p c u = (s.asking p c u).setHeld true := by
  have take : (s.asking p c u).takeFront = none := State.takeFront_none _ full
  have few' : ¬ 2 ≤ (s.asking p c u).freeCount := Nat.not_le.mpr few
  have ready' : (s.asking p c u).store.state ≠ .degraded := ready
  unfold State.asking at *
  unfold State.requestGrant
  dsimp only
  rw [if_neg ready', take]
  exact if_neg few'

theorem State.requestGrant_opens {t : State} (ready : s.store.state ≠ .degraded) (full : s.front = none ∨ s.space.frontFree = [])
    (many : 2 ≤ s.freeCount) (opens : (s.asking p c u).takeNewFront = some (pos, t)) :
    s.requestGrant p c u = (t.grantGiven p c { u with granted := none, stage := .grantWait } pos).trigger := by
  have take : (s.asking p c u).takeFront = none := State.takeFront_none _ full
  have many' : 2 ≤ (s.asking p c u).freeCount := many
  have ready' : (s.asking p c u).store.state ≠ .degraded := ready
  unfold State.asking at *
  unfold State.requestGrant
  dsimp only
  rw [if_neg ready', take]
  simp only [many', if_true, opens]

theorem State.bumpSeq_eq (s : State) :
    s.bumpSeq = { s with engine := { s.engine with seq := if s.engine.seq = 0xFFFFFFFF#32 then 0xFFFFFFFF#32 else s.engine.seq + 1 } } := by
  rw [State.bumpSeq]
  by_cases last : s.engine.seq = 0xFFFFFFFF#32 <;> simp only [last, if_true, if_false] <;> rfl

end

/-- Settles O32: the grant request in its cases; the payload by `State.withPayload_spec`, the new front by `State.takeNewFront_spec`, which the trigger leaves. -/
theorem grantRequestIsDecided : Obligations.GrantRequestIsDecided := by
  refine ⟨fun s p c u degraded => ⟨_, State.requestGrant_degraded degraded⟩, fun s p c u f cell rest ready front free => ?_,
    fun s p c u => State.requestGrant_held, fun s p c u ok ready none many => ?_, State.bumpSeq_eq,
    fun r => ⟨fun full => ?_, fun n free => ?_⟩, by decide⟩
  · obtain ⟨bytes, check, given, taken, payload⟩ := s.withPayload_spec p c { u with granted := none, stage := .grantWait }
    refine ⟨bytes, check, given, taken, ?_⟩
    rw [State.requestGrant_front ready front free]
    refine (State.grantGiven_eq (payload _ ?_)).trans ?_ <;> rfl
  · obtain ⟨bytes, check, given, taken, payload⟩ := s.withPayload_spec p c { u with granted := .none, stage := .grantWait }
    obtain ⟨g, segs, free, least, rows, opens⟩ := (s.asking p c u).takeNewFront_spec ok (Nat.le_of_succ_le many)
    have granted := State.requestGrant_opens ready none many opens
    rw [State.grantGiven_eq (payload (((s.asking p c u).setSegs segs).setFrontFree dataCells.tail) rfl)] at granted
    have row : segs[g] = { state := .front, erases := (s.seg g).erases, live := 1, dead := 0, free := 30 } := (rows g).trans (if_pos rfl)
    have stands : (s.requestGrant p c u).seg g = segs[g] := by
      rw [granted]
      exact State.trigger_seg (show segs[g].state ≠ .full by simp [row])
    obtain ⟨-, -, waits, -, freeCells⟩ := State.trigger_leaves
      (s := ((((((s.asking p c u).setSegs segs).setFrontFree dataCells.tail).setWork
            (.updating p c { u with payload := some (bytes, check), granted := some ⟨g, 1⟩, stage := .body })).bumpSeq).presentEngine
              (.programBody ⟨g, 1⟩
                { key := u.key, version := u.version, seq := s.engine.seq, length := bytes.length, author := u.author, kind := u.kind,
                  check := check, payload := bytes })))
    refine ⟨g, free, least, ?_, by rw [stands, row], by rw [stands, row], by rw [stands, row], by rw [stands, row], ?_,
      segs, bytes, check, rows, given, taken, granted⟩
    · rw [granted]
      exact (congrArg (Option.map ArrayOp.part) waits).trans rfl
    · rw [granted]
      exact freeCells
  · cases r
    simp_all [SegRow.grant]
  · cases r
    simp_all [SegRow.grant]

/-! ## Rows as their outcomes -/

theorem exec_eraseSuspendBegin (s : State) :
    exec .eraseSuspendBegin s = State.whenDue s.suspendDue (s.setErase (s.array.erase.map EraseCtx.beginSuspension)) := rfl

theorem exec_eraseStop (s : State) :
    exec .eraseStop s = State.whenDue s.stopDue (s.setErase (s.array.erase.map (fun e => { e with state := .suspended }))) := rfl

theorem exec_heldGrantAnswered (s : State) : exec .heldGrantAnswered s = State.whenDue s.heldDue s.answerHeld := rfl

/-! ## Suspension of an erase, and held grants (R35, R36, R136) -/

section
variable {s t : State} {p : Port} {c : Cmd} {u : Update} {pos : Pos} {bytes : List Byte} {check : Half} {f : Seg} {cell : CellNo}
  {rest : List CellNo} {e : EraseCtx}

theorem State.whenDue_true {due : Bool} (h : due = true) : State.whenDue due t = .next t.settle := if_pos h

theorem State.whenDue_false {due : Bool} (h : due ≠ true) : State.whenDue due t = .refused .notDue := if_neg h

theorem State.copyGrant_front (take : s.takeFront = some (pos, t)) : s.copyGrant = some (pos, t) := by
  simp only [State.copyGrant, take]

theorem State.copyGrant_opens (full : s.front = none ∨ s.space.frontFree = []) : s.copyGrant = s.takeNewFront := by
  simp only [State.copyGrant, State.takeFront_none s full]

theorem State.answerHeld_granted (work : s.engine.work = .updating p c u) (grant : (s.setHeld false).copyGrant = some (pos, t)) :
    s.answerHeld = (t.grantGiven p c u pos).trigger := by
  simp only [State.answerHeld, work, grant]

end

/-- Settles O57: an erase's suspension by `State.suspendDue_iff`; a held grant is answered with the cell of `State.copyGrant`. -/
theorem suspensionAndHeldGrants : Obligations.SuspensionAndHeldGrants := by
  refine ⟨fun s e run erase => ⟨fun due => ?_, fun calm => ?_, fun suspending => ?_⟩,
    fun s e flight erase suspended => ⟨fun op waits => ?_, fun calm => ?_⟩, fun s p c u run held ready work ok => ?_⟩
  · rw [exec_eraseSuspendBegin, State.whenDue_true ((State.suspendDue_iff s).mpr ⟨run, e, erase, due⟩), erase]
    rfl
  · refine State.whenDue_false fun due => calm ?_
    obtain ⟨-, e', erase', conditions⟩ := (State.suspendDue_iff s).mp due
    obtain rfl := Option.some.inj (erase.symm.trans erase')
    exact conditions
  · have due : s.stopDue = true := by simp only [State.stopDue, run, erase, suspending]; rfl
    rw [exec_eraseStop, State.whenDue_true due, erase]
    rfl
  · rw [State.arbitrate_suspended flight erase suspended, State.arbitrateSuspended, waits]
    rfl
  · rw [State.arbitrate_suspended flight erase suspended, State.arbitrateSuspended, calm]
  · obtain ⟨bytes, check, given, taken, payload⟩ := s.withPayload_spec p c u
    refine ⟨bytes, check, _, given, taken, fun t pos => rfl, fun f cell rest front free => ?_, fun full many => ?_⟩
    · have due := (State.heldDue_iff s).mpr ⟨run, held, ready, .inl ⟨by simp [front], by simp [free]⟩⟩
      have take := State.takeFront_eq (s := s.setHeld false) front free
      rw [exec_heldGrantAnswered, State.whenDue_true due, State.answerHeld_granted work (State.copyGrant_front take),
        State.grantGiven_eq (payload (((s.setHeld false).setSeg f _).setFrontFree rest) rfl)]
      rfl
    · have due := (State.heldDue_iff s).mpr ⟨run, held, ready, .inr many⟩
      obtain ⟨g, segs, free, least, rows, opens⟩ := (s.setHeld false).takeNewFront_spec ok (Nat.le_of_succ_le many)
      refine ⟨g, segs, free, least, rows, ?_⟩
      rw [exec_heldGrantAnswered, State.whenDue_true due,
        State.answerHeld_granted work ((State.copyGrant_opens (s := s.setHeld false) full).trans opens),
        State.grantGiven_eq (payload (((s.setHeld false).setSegs segs).setFrontFree dataCells.tail) rfl)]
      rfl

end Sys2Proof.Machine

/-! SUPPORT. The rows of the commands, their parameter checks, and what the store state refuses. -/

namespace Sys2Proof.Machine

/-! ## The rows of the commands -/

section
variable {s : State} {p : Port} {c : Cmd} {r : Reason} {key : Key} {go : State}

theorem exec_write (h : s.starts p c) (code : c.code = codeWrite) : exec .write s = .next (s.doWrite p c).settle := State.perform_starts h code
theorem exec_patch (h : s.starts p c) (code : c.code = codePatch) : exec .patch s = .next (s.doPatch p c).settle := State.perform_starts h code
theorem exec_remove (h : s.starts p c) (code : c.code = codeRemove) : exec .remove s = .next (s.doRemove p c).settle := State.perform_starts h code
theorem exec_read (h : s.starts p c) (code : c.code = codeRead) : exec .read s = .next (s.doRead p c).settle := State.perform_starts h code
theorem exec_scan (h : s.starts p c) (code : c.code = codeScan) : exec .scan s = .next (s.doScan p c).settle := State.perform_starts h code
theorem exec_claim (h : s.starts p c) (code : c.code = codeClaim) : exec .claim s = .next (s.doClaim p c).settle := State.perform_starts h code
theorem exec_release (h : s.starts p c) (code : c.code = codeRelease) : exec .release s = .next (s.doRelease p c).settle :=
  State.perform_starts h code
theorem exec_watchSet (h : s.starts p c) (code : c.code = codeWatchSet) : exec .watchSet s = .next (s.doWatchSet p c).settle :=
  State.perform_starts h code
theorem exec_watchClear (h : s.starts p c) (code : c.code = codeWatchClear) : exec .watchClear s = .next (s.doWatchClear p c).settle :=
  State.perform_starts h code
theorem exec_watchList (h : s.starts p c) (code : c.code = codeWatchList) : exec .watchList s = .next (s.doWatchList p c).settle :=
  State.perform_starts h code
theorem exec_guardSet (h : s.starts p c) (code : c.code = codeGuardSet) : exec .guardSet s = .next (s.doGuardSet p c).settle :=
  State.perform_starts h code
theorem exec_guardRead (h : s.starts p c) (code : c.code = codeGuardRead) : exec .guardRead s = .next (s.doGuardRead p c).settle :=
  State.perform_starts h code
theorem exec_reclaim (h : s.starts p c) (code : c.code = codeReclaim) : exec .reclaim s = .next (s.doReclaim p c).settle :=
  State.perform_starts h code
theorem exec_format (h : s.starts p c) (code : c.code = codeFormat) : exec .format s = .next (s.doFormat p c).settle :=
  State.perform_starts h code
theorem exec_storeInfo (h : s.starts p c) (code : c.code = codeStoreInfo) : exec .storeInfo s = .next (s.doStoreInfo p c).settle :=
  State.perform_starts h code

theorem exec_badCommand (h : s.starts p c) (unknown : c.code ∉ knownCodes) : exec .badCommand s = .next (s.doBadCommand p c).settle := by
  obtain ⟨taken, run, open_⟩ := h
  show execBadCommand s = _
  simp only [execBadCommand, taken]
  exact if_pos ⟨unknown, run, open_⟩

/-- A command's parameter check in its two cases (R62, R63). -/
theorem State.checked_of_some {fail : Option Reason} (fails : fail = some r) : s.checked p c fail key go = s.endCommand p (c.ic r key) := by
  rw [fails, State.checked_fail]

theorem State.checked_of_none {fail : Option Reason} (passes : fail = none) : s.checked p c fail key go = go := by
  rw [passes, State.checked_pass]

/-- Each of the nine single-key commands is its parameter check, whose first step is its key, and then what it goes on to do. -/
theorem exec_singleKey (h : s.starts p c) (single : c.code ∈ singleKeyCodes) :
    ∃ (rest : List (Bool × Reason)) (go : State),
      exec (rowOf c.code) s = .next (s.checked p c (firstFail ((keyOk c.key, .badKey) :: rest)) c.key go).settle := by
  simp only [singleKeyCodes, List.mem_cons, List.not_mem_nil, or_false] at single
  rcases single with code | code | code | code | code | code | code | code | code <;> rw [code]
  · exact ⟨_, _, exec_write h code⟩
  · exact ⟨_, _, exec_patch h code⟩
  · exact ⟨_, _, exec_remove h code⟩
  · exact ⟨_, _, exec_read h code⟩
  · exact ⟨_, _, exec_stat h code⟩
  · exact ⟨_, _, exec_claim h code⟩
  · exact ⟨_, _, exec_release h code⟩
  · exact ⟨_, _, exec_watchSet h code⟩
  · exact ⟨_, _, exec_watchClear h code⟩

end

/-- Settles O26: an end of a command by `State.endCommand_eq`; a bad key is the first step of every single-key command. -/
theorem commandsEndAndBadOnesAreRefused : Obligations.CommandsEndAndBadOnesAreRefused := by
  refine ⟨fun s p r => State.endCommand_eq r, fun c x k v n a => ⟨rfl, rfl, rfl⟩, fun s p c h unknown => exec_badCommand h unknown,
    fun s p c h single bad => ?_, ⟨rfl, rfl, rfl, rfl, rfl, rfl, rfl, rfl, rfl, rfl, rfl, rfl, rfl, rfl, rfl, rfl⟩, rfl⟩
  obtain ⟨rest, go, row⟩ := exec_singleKey h single
  rw [row, State.checked_of_some (by rw [firstFail_cons _ _ keyOk_false, if_pos bad])]

/-! ## Parameter checks -/

section
variable (c : Cmd)

theorem checkRead_eq :
    checkRead c =
      (if c.key = 0x0000#16 ∨ c.key = 0xFFFF#16 then some .badKey
      else if (c.byte 8 ≠ 0 ∧ c.byte 8 ≠ 1) ∨ 480 < c.readOffset then some .badField
      else if 2047 < c.readFirst ∨ 2047 < c.readLast then some .badRange
      else none) := by
  have badField : ((c.byte 8 == 0 || c.byte 8 == 1) && decide (c.readOffset ≤ 480)) = false ↔
      (c.byte 8 ≠ 0 ∧ c.byte 8 ≠ 1) ∨ 480 < c.readOffset := by
    simp only [Bool.and_eq_false_iff, Bool.or_eq_false_iff, beq_eq_false_iff_ne, decide_eq_false_iff_not, Nat.not_le]
  have badRange : (decide (c.readFirst < 2048) && decide (c.readLast < 2048)) = false ↔ 2047 < c.readFirst ∨ 2047 < c.readLast := by
    simp only [Bool.and_eq_false_iff, decide_eq_false_iff_not]
    omega
  rw [checkRead, firstFail_cons _ _ keyOk_false, firstFail_cons _ _ badField, firstFail_cons _ _ badRange]
  rfl

theorem Cmd.scanRelation_isSome : c.scanRelation.isSome = false ↔ c.byte 7 = 0 ∨ 4 < c.byte 7 := by
  unfold Cmd.scanRelation
  generalize c.byte 7 = b
  revert b
  decide

theorem checkScan_eq :
    checkScan c =
      (if c.scanHigh < c.scanLow ∨ 479 < c.scanWindow ∨ c.scanWidth = 0 ∨ 16 < c.scanWidth ∨ 480 < c.scanWindow + c.scanWidth ∨
          c.byte 7 = 0 ∨ 4 < c.byte 7 ∨ c.scanLimit = 0 ∨ 64 < c.scanLimit then some .badField
      else if 2047 < c.scanPattern ∨ 2047 < c.scanPattern + c.scanWidth - 1 ∨ 2047 < c.scanOutFirst ∨ 2047 < c.scanOutLast then
        some .badRange
      else none) := by
  have badField : (decide (c.scanLow ≤ c.scanHigh) && decide (c.scanWindow ≤ 479) && decide (1 ≤ c.scanWidth) &&
        decide (c.scanWidth ≤ 16) && decide (c.scanWindow + c.scanWidth ≤ 480) && c.scanRelation.isSome &&
        decide (1 ≤ c.scanLimit) && decide (c.scanLimit ≤ 64)) = false ↔
      c.scanHigh < c.scanLow ∨ 479 < c.scanWindow ∨ c.scanWidth = 0 ∨ 16 < c.scanWidth ∨ 480 < c.scanWindow + c.scanWidth ∨
          c.byte 7 = 0 ∨ 4 < c.byte 7 ∨ c.scanLimit = 0 ∨ 64 < c.scanLimit := by
    simp only [Bool.and_eq_false_iff, Cmd.scanRelation_isSome, decide_eq_false_iff_not, Nat.not_le, BitVec.not_le, Nat.lt_one_iff, or_assoc]
  have badRange : (decide (c.scanPattern < 2048) && decide (c.scanPattern + c.scanWidth - 1 < 2048) &&
        decide (c.scanOutFirst < 2048) && decide (c.scanOutLast < 2048)) = false ↔
      2047 < c.scanPattern ∨ 2047 < c.scanPattern + c.scanWidth - 1 ∨ 2047 < c.scanOutFirst ∨ 2047 < c.scanOutLast := by
    simp only [Bool.and_eq_false_iff, decide_eq_false_iff_not]
    omega
  rw [checkScan, firstFail_cons _ _ badField, firstFail_cons _ _ badRange]
  rfl

theorem checkClaim_eq :
    checkClaim c =
      (if c.key = 0x0000#16 ∨ c.key = 0xFFFF#16 then some .badKey
      else if c.duration = 0 ∨ 60000 < c.duration then some .badField
      else none) := by
  have badField : (decide (1 ≤ c.duration) && decide (c.duration ≤ Config.longestClaim)) = false ↔ c.duration = 0 ∨ 60000 < c.duration := by
    simp only [Bool.and_eq_false_iff, decide_eq_false_iff_not, Nat.not_le, Nat.lt_one_iff]
    rfl
  rw [checkClaim, firstFail_cons _ _ keyOk_false, firstFail_cons _ _ badField]
  rfl

theorem Cmd.triggersOk_false : c.triggersOk = false ↔ c.byte 2 = 0 ∨ 7 < c.byte 2 := by
  unfold Cmd.triggersOk
  generalize c.byte 2 = b
  revert b
  decide

theorem Cmd.selfOk_false : (c.byte 3 == 0 || c.byte 3 == 1) = false ↔ 1 < c.byte 3 := by
  generalize c.byte 3 = b
  revert b
  decide

theorem checkWatchSet_eq :
    checkWatchSet c =
      (if c.key = 0x0000#16 ∨ c.key = 0xFFFF#16 then some .badKey
      else if c.byte 2 = 0 ∨ 7 < c.byte 2 ∨ 1 < c.byte 3 then some .badField
      else none) := by
  have badField : (c.triggersOk && (c.byte 3 == 0 || c.byte 3 == 1)) = false ↔ c.byte 2 = 0 ∨ 7 < c.byte 2 ∨ 1 < c.byte 3 := by
    rw [Bool.and_eq_false_iff, Cmd.triggersOk_false, Cmd.selfOk_false, or_assoc]
  rw [checkWatchSet, firstFail_cons _ _ keyOk_false, firstFail_cons _ _ badField]
  rfl

theorem checkWatchClear_eq :
    checkWatchClear c =
      (if c.key = 0x0000#16 ∨ c.key = 0xFFFF#16 then some .badKey
      else if c.byte 2 = 0 ∨ 7 < c.byte 2 then some .badField
      else none) := by
  rw [checkWatchClear, firstFail_cons _ _ keyOk_false, firstFail_cons _ _ (Cmd.triggersOk_false c)]
  rfl

theorem checkWatchList_eq : checkWatchList c = if 2047 < c.listFirst ∨ 2047 < c.listLast then some .badRange else none := by
  have badRange : (decide (c.listFirst < 2048) && decide (c.listLast < 2048)) = false ↔ 2047 < c.listFirst ∨ 2047 < c.listLast := by
    simp only [Bool.and_eq_false_iff, decide_eq_false_iff_not]
    omega
  exact firstFail_cons _ _ badRange

theorem checkFormat_eq : checkFormat c = if 1 < c.byte 0 ∨ c.threshold < 2 ∨ 16 < c.threshold then some .badField else none := by
  have keepOk : (c.byte 0 == 0 || c.byte 0 == 1) = false ↔ 1 < c.byte 0 := by
    generalize c.byte 0 = b
    revert b
    decide
  refine firstFail_cons _ _ ?_
  rw [Bool.and_eq_false_iff, Bool.and_eq_false_iff, keepOk, decide_eq_false_iff_not, decide_eq_false_iff_not, Nat.not_le, Nat.not_le, or_assoc]

theorem checkStoreInfo_eq : checkStoreInfo c = if 2016 < c.infoOffset then some .badRange else none :=
  firstFail_cons _ _ (by rw [decide_eq_false_iff_not, Nat.not_le])

theorem Cmd.target_none : c.target = none ↔ 3 < c.byte 0 := by
  unfold Cmd.target
  generalize c.byte 0 = b
  revert b
  decide

theorem guardOf_none (b : Byte) : guardOf b = none ↔ b.getLsbD 4 = true ∨ b.getLsbD 5 = true ∨ 9 < b.toNat % 16 := by
  revert b
  decide

/-- Each relation's code (Table 11-1). -/
theorem Cmd.scanRelation_eq :
    (c.scanRelation = some .eq ↔ c.byte 7 = 1) ∧ (c.scanRelation = some .ne ↔ c.byte 7 = 2) ∧ (c.scanRelation = some .le ↔ c.byte 7 = 3) ∧
      (c.scanRelation = some .ge ↔ c.byte 7 = 4) := by
  unfold Cmd.scanRelation
  generalize c.byte 7 = b
  revert b
  decide

/-- Step 1 of a GUARD SET fails when it names no port, no guard or no lock request. -/
theorem checkGuardSet_none : checkGuardSet c = none ↔ c.target ≠ none ∧ c.newGuard ≠ none ∧ c.byte 2 ≤ 4 := by
  have lock : (c.byte 2).toNat < 5 ↔ c.byte 2 ≤ 4 := by bv_omega
  unfold checkGuardSet firstFail
  simp only [firstFail, ite_eq_left_iff, reduceCtorEq, imp_false, not_not, Bool.and_eq_true, decide_eq_true_iff,
    Option.isSome_iff_ne_none, lock, and_assoc]

end

section
variable {s : State} {p t : Port} {c : Cmd} {g : Guard} {r : Reason}

/-- GUARD SET names its port, its guard and its lock request, or ends IC BAD_FIELD (R127). -/
theorem State.doGuardSet_admits (target : c.target = some t) (guard : c.newGuard = some g) (lock : c.byte 2 ≤ 4) :
    s.doGuardSet p c = s.admitGuardSet p c t g := by
  have passes := (checkGuardSet_none c).mpr ⟨by simp [target], by simp [guard], lock⟩
  simp only [State.doGuardSet, passes, target, guard]

theorem State.doGuardSet_refuses (bad : c.target = none ∨ c.newGuard = none ∨ 4 < c.byte 2) :
    s.doGuardSet p c = s.endCommand p (c.result .invalid (reasonCode .badField) Config.configKey s.configVersion 0 0) := by
  unfold State.doGuardSet
  split
  · rename_i t g passes target guard
    obtain ⟨-, -, lock⟩ := (checkGuardSet_none c).mp passes
    rcases bad with noTarget | noGuard | noLock
    · exact absurd (target.symm.trans noTarget) (by simp)
    · exact absurd (guard.symm.trans noGuard) (by simp)
    · exact absurd noLock (BitVec.not_lt.mpr lock)
  · rfl

theorem State.doGuardRead_refuses (bad : c.target = none) : s.doGuardRead p c = s.endCommand p (c.ic .badField Config.noKey) := by
  simp only [State.doGuardRead, bad]

theorem State.doFormat_refuses (fails : checkFormat c = some r) :
    s.doFormat p c = s.endCommand p (c.result .invalid (reasonCode r) Config.noKey (generationField s.store.generation) 0 0) := by
  simp only [State.doFormat, fails]

theorem State.doFormat_checks (passes : checkFormat c = none) : s.doFormat p c = s.formatChecks p c := by
  simp only [State.doFormat, passes]

end

/-- Settles O28: each parameter check as its chain, and each row as its check. -/
theorem otherParametersAreChecked : Obligations.OtherParametersAreChecked := by
  refine ⟨fun c => ⟨checkRead_eq c, checkKey_eq c, checkScan_eq c, checkClaim_eq c, checkWatchSet_eq c, checkWatchClear_eq c,
      checkWatchList_eq c, checkFormat_eq c, checkStoreInfo_eq c, c.target_none, guardOf_none (c.byte 1)⟩,
    fun s p c r h => ⟨fun code fails => ?_, fun code fails => ?_, fun code fails => ?_, fun code fails => ?_, fun code fails => ?_,
      fun code fails => ?_, fun code fails => ?_, fun code fails => ?_, fun code fails => ?_, fun code bad => ?_, fun code bad => ?_,
      fun code fails => ?_⟩,
    fun c => ⟨rfl, rfl, rfl, rfl, rfl, rfl, rfl, rfl, rfl, rfl, rfl, c.scanRelation_eq.1, c.scanRelation_eq.2.1, c.scanRelation_eq.2.2.1,
      c.scanRelation_eq.2.2.2, rfl, ?_, rfl, rfl, fun p => portOf_eq_some, fun g => guardOf_eq_some, rfl, rfl⟩⟩
  · rw [exec_read h code, State.doRead, State.checked_of_some fails]
  · rw [exec_stat h code, State.doStat, State.checked_of_some fails]
  · rw [exec_scan h code, State.doScan, State.checked_of_some fails]
  · rw [exec_claim h code, State.doClaim, State.checked_of_some fails]
  · rw [exec_release h code, State.doRelease, State.checked_of_some fails]
  · rw [exec_watchSet h code, State.doWatchSet, State.checked_of_some fails]
  · rw [exec_watchClear h code, State.doWatchClear, State.checked_of_some fails]
  · rw [exec_watchList h code, State.doWatchList, State.checked_of_some fails]
    rfl
  · rw [exec_storeInfo h code, State.doStoreInfo, State.checked_of_some fails]
    rfl
  · rw [exec_guardSet h code, State.doGuardSet_refuses bad]
    rfl
  · rw [exec_guardRead h code, State.doGuardRead_refuses bad]
    rfl
  · rw [exec_format h code, State.doFormat_refuses fails]
    rfl
  · unfold Cmd.triggers
    generalize c.byte 2 = b
    revert b
    decide

/-! ## What the store state refuses (Table 9-2) -/

section
variable {s : State} {p t : Port} {c : Cmd} {g : Guard} {key : Key} {go : State}

theorem State.formatted_refuses (state : s.store.state = .unformatted) :
    s.formatted p c key go = s.endCommand p (c.at_ .notFormatted key 0 0 0) :=
  if_pos state

theorem State.formatted_passes (state : s.store.state ≠ .unformatted) : s.formatted p c key go = go := if_neg state

theorem State.admitUpdate_unformatted (state : s.store.state = .unformatted) :
    s.admitUpdate p c = s.endCommand p (c.at_ .notFormatted c.key 0 0 0) := by
  simp only [State.admitUpdate, state]

theorem State.admitUpdate_degraded (state : s.store.state = .degraded) :
    s.admitUpdate p c = s.endCommand p (c.at_ .readOnly c.key (s.versionOf c.key) 0 0) := by
  simp only [State.admitUpdate, state]

theorem State.admitGuardSet_unformatted (state : s.store.state = .unformatted) :
    s.admitGuardSet p c t g = s.endCommand p (c.at_ .notFormatted Config.configKey s.configVersion 0 0) := by
  simp only [State.admitGuardSet, state]

theorem State.admitGuardSet_degraded (state : s.store.state = .degraded) :
    s.admitGuardSet p c t g = s.endCommand p (c.at_ .readOnly Config.configKey s.configVersion 0 0) := by
  simp only [State.admitGuardSet, state]

theorem State.doReclaim_unformatted (state : s.store.state = .unformatted) :
    s.doReclaim p c = s.endCommand p (c.at_ .notFormatted Config.noKey 0 0 0) := by
  simp only [State.doReclaim, state]

theorem State.doReclaim_degraded (state : s.store.state = .degraded) :
    s.doReclaim p c = s.endCommand p (c.at_ .readOnly Config.noKey 0 0 0) := by
  simp only [State.doReclaim, state]

end

/-- Settles O29: each command's steps after its parameter check begin with the store state. -/
theorem storeStateRefuses : Obligations.StoreStateRefuses := by
  refine ⟨fun s p c h state => ⟨fun update passes => ?_, fun code passes => ?_, fun code passes => ?_, fun code passes => ?_,
      fun code passes => ?_, fun code passes => ?_, fun code passes => ?_, fun code passes => ?_, fun code passes => ?_,
      fun code target guard lock => ?_, fun code => ?_⟩,
    fun s p c h state => ⟨fun update passes => ?_, fun code target guard lock => ?_, fun code => ?_⟩⟩
  · rw [exec_update h update, State.checked_of_none passes, State.admitUpdate_unformatted state]
  · rw [exec_read h code, State.doRead, State.checked_of_none passes, State.admitRead, if_pos state]
  · rw [exec_stat h code, State.doStat, State.checked_of_none passes, if_pos state]
  · rw [exec_scan h code, State.doScan, State.checked_of_none passes, State.admitScan, if_pos state]
  · rw [exec_claim h code, State.doClaim, State.checked_of_none passes, State.formatted_refuses state]
  · rw [exec_release h code, State.doRelease, State.checked_of_none passes, State.formatted_refuses state]
  · rw [exec_watchSet h code, State.doWatchSet, State.checked_of_none passes, State.formatted_refuses state]
  · rw [exec_watchClear h code, State.doWatchClear, State.checked_of_none passes, State.formatted_refuses state]
  · rw [exec_watchList h code, State.doWatchList, State.checked_of_none passes, State.formatted_refuses state]
    rfl
  · obtain ⟨t, target⟩ := Option.ne_none_iff_exists'.mp target
    obtain ⟨g, guard⟩ := Option.ne_none_iff_exists'.mp guard
    rw [exec_guardSet h code, State.doGuardSet_admits target guard lock, State.admitGuardSet_unformatted state]
    rfl
  · rw [exec_reclaim h code, State.doReclaim_unformatted state]
    rfl
  · rw [exec_update h update, State.checked_of_none passes, State.admitUpdate_degraded state]
  · obtain ⟨t, target⟩ := Option.ne_none_iff_exists'.mp target
    obtain ⟨g, guard⟩ := Option.ne_none_iff_exists'.mp guard
    rw [exec_guardSet h code, State.doGuardSet_admits target guard lock, State.admitGuardSet_degraded state]
    rfl
  · rw [exec_reclaim h code, State.doReclaim_degraded state]
    rfl

end Sys2Proof.Machine

/-! SUPPORT. The update checks in their order, and how an update begins. -/

namespace Sys2Proof.Machine

/-! ## Reading the directory -/

section
variable {d : List Entry} {k : Key} {e : Entry} {s : State}

theorem entryVersion_none (h : lookup d k = none) : entryVersion d k = 0 := by rw [entryVersion, h]

theorem entryVersion_some (h : lookup d k = some e) : entryVersion d k = e.version := by rw [entryVersion, h]

theorem keyState_live : keyState d k = .live ↔ ∃ e, lookup d k = some e ∧ e.state = .live := by
  unfold keyState
  cases lookup d k with
  | none => simp
  | some e => cases state : e.state <;> simp [state]

theorem isPermanent_iff (k : Key) : isPermanent k = true ↔ 0xFF00#16 ≤ k ∧ k ≤ 0xFFFE#16 := by
  have last : k ≠ Config.noKey ↔ k ≤ 0xFFFE#16 := by
    rw [show Config.noKey = 0xFFFF#16 from rfl]
    constructor <;> intro h <;> bv_omega
  rw [isPermanent, Bool.and_eq_true, decide_eq_true_iff, bne_iff_ne, last]

theorem State.lengthOf_eq (s : State) (k : Key) : s.lengthOf k = ((lookup s.engine.dir k).map Entry.length).getD 0 := by
  unfold State.lengthOf
  cases lookup s.engine.dir k <;> rfl

end

/-! ## The condition (R7, Table 1-4) -/

section
variable {c : Cmd} {e : Entry} {entry : Option Entry}

theorem conditionFailure_any (any : c.condKind = 0) : conditionFailure c entry = none := if_pos any

/-- EXPECT on a key with no LIVE entry passes when it expects version 0 (Table 1-4). -/
theorem conditionFailure_absent (expect : c.condKind ≠ 0) :
    conditionFailure c none = if c.expected = 0 then none else some (.versionMismatch, 0) := by
  rw [conditionFailure, if_neg expect]

theorem conditionFailure_gone (expect : c.condKind ≠ 0) (gone : e.state = .gone) :
    conditionFailure c (some e) = if c.expected = 0 then none else some (.versionMismatch, 0) := by
  rw [conditionFailure, if_neg expect, gone]

theorem conditionFailure_live (expect : c.condKind ≠ 0) (live : e.state = .live) :
    conditionFailure c (some e) =
      if c.expected = 0 then some (.exists_, e.version)
      else if c.expected = e.version then none else some (.versionMismatch, e.version) := by
  rw [conditionFailure, if_neg expect, live]

end

/-! ## The steps of Table 4-2 -/

section
variable {s : State} {p q : Port} {c : Cmd} {e : Entry} {r : Result}

theorem State.admitUpdate_guarded (ready : s.store.state = .ready) (protects : guardProtects (s.guardOfPort p) (pageOf c.key) = true) :
    s.admitUpdate p c = s.endGuarded p (c.at_ .guarded c.key (s.versionOf c.key) 0 0) := by
  simp only [State.admitUpdate, ready, protects, if_true]

theorem State.admitUpdate_fails (ready : s.store.state = .ready) (free : guardProtects (s.guardOfPort p) (pageOf c.key) = false)
    (fails : s.failUpdate p c = some r) : s.admitUpdate p c = s.endCommand p r := by
  simp only [State.admitUpdate, ready, free, fails]
  rfl

theorem State.admitUpdate_begins (ready : s.store.state = .ready) (free : guardProtects (s.guardOfPort p) (pageOf c.key) = false)
    (passes : s.failUpdate p c = none) : s.admitUpdate p c = s.beginUpdate p c := by
  simp only [State.admitUpdate, ready, free, passes]
  rfl

theorem State.failPermanent_some (permanent : isPermanent c.key = true) (there : lookup s.engine.dir c.key = some e) (live : e.state = .live) :
    s.failPermanent c = some (c.at_ .permanent c.key e.version 0 0) := by
  rw [State.failPermanent, if_pos ⟨permanent, keyState_live.mpr ⟨e, there, live⟩⟩, State.versionOf, entryVersion_some there]

theorem State.failPermanent_none (may : isPermanent c.key = false ∨ ∀ e, lookup s.engine.dir c.key = some e → e.state = .gone) :
    s.failPermanent c = none := by
  refine if_neg fun ⟨permanent, live⟩ => ?_
  obtain ⟨e, there, live⟩ := keyState_live.mp live
  rcases may with free | gone
  · exact Bool.noConfusion (free.symm.trans permanent)
  · exact EntryState.noConfusion ((gone e there).symm.trans live)

theorem State.failClaimed_some (claimed : s.holderOf c.key = some q) (other : q ≠ p) :
    s.failClaimed p c = some (c.at_ .claimed c.key (s.versionOf c.key) 0 (portHalf q)) := by
  simp only [State.failClaimed, claimed, other, if_false]

theorem State.failClaimed_none (own : ∀ q, s.holderOf c.key = some q → q = p) : s.failClaimed p c = none := by
  unfold State.failClaimed
  cases claimed : s.holderOf c.key with
  | none => rfl
  | some q => exact if_pos (own q claimed)

theorem State.failCondition_some {x : Reason} {v : Version} (fails : conditionFailure c (lookup s.engine.dir c.key) = some (x, v)) :
    s.failCondition c = some (c.at_ x c.key v 0 0) := by
  rw [State.failCondition, fails]
  rfl

theorem State.failCondition_none (passes : conditionFailure c (lookup s.engine.dir c.key) = none) : s.failCondition c = none := by
  rw [State.failCondition, passes]
  rfl

theorem State.failMissing_write (write : c.code = codeWrite) : s.failMissing c = none := if_pos write

theorem State.failMissing_absent (notWrite : c.code ≠ codeWrite) (absent : lookup s.engine.dir c.key = none) :
    s.failMissing c = some (c.at_ .notFound c.key 0 0 0) := by
  simp only [State.failMissing, notWrite, if_false, absent]

theorem State.failMissing_gone (notWrite : c.code ≠ codeWrite) (there : lookup s.engine.dir c.key = some e) (gone : e.state = .gone) :
    s.failMissing c = some (c.at_ .notFound c.key e.version 0 0) := by
  simp only [State.failMissing, notWrite, if_false, there, gone]

theorem State.failMissing_live (notWrite : c.code ≠ codeWrite) (there : lookup s.engine.dir c.key = some e) (live : e.state = .live) :
    s.failMissing c =
      if c.code = codePatch ∧ e.length < c.patchOffset then some (c.at_ .beyondEnd c.key e.version 0 (nat16 e.length)) else none := by
  simp only [State.failMissing, notWrite, if_false, there, live]

/-- An entry meets step 7: the update is a WRITE, or the entry is LIVE and reaches a PATCH's offset. -/
theorem State.failMissing_none (there : lookup s.engine.dir c.key = some e)
    (meets : c.code = codeWrite ∨ (e.state = .live ∧ (c.code = codePatch → c.patchOffset ≤ e.length))) : s.failMissing c = none := by
  by_cases write : c.code = codeWrite
  · exact State.failMissing_write write
  · obtain ⟨live, reaches⟩ := meets.resolve_left write
    rw [State.failMissing_live write there live]
    exact if_neg fun ⟨patch, beyond⟩ => absurd (reaches patch) (Nat.not_le.mpr beyond)

theorem State.failFull_some (absent : lookup s.engine.dir c.key = none) (full : 4095 ≤ masterCount s.engine.dir) :
    s.failFull c = some (c.at_ .directoryFull c.key 0 0 0) :=
  if_pos ⟨by rw [absent]; rfl, full⟩

theorem State.failFull_none (fits : lookup s.engine.dir c.key ≠ none ∨ masterCount s.engine.dir < 4095) : s.failFull c = none := by
  refine if_neg fun ⟨absent, full⟩ => ?_
  rcases fits with there | room
  · exact there (Option.isNone_iff_eq_none.mp absent)
  · exact absurd full (Nat.not_le.mpr room)

/-- The steps from the condition on, once no permanent key and no claim refuses. -/
theorem State.failUpdate_from_condition (may : isPermanent c.key = false ∨ ∀ e, lookup s.engine.dir c.key = some e → e.state = .gone)
    (own : ∀ q, s.holderOf c.key = some q → q = p) :
    s.failUpdate p c = (s.failCondition c).or ((s.failMissing c).or ((s.failFull c).or (s.failVersion c c.key))) := by
  rw [State.failUpdate, State.failPermanent_none may, State.failClaimed_none own, Option.none_or, Option.none_or]

end

/-- Settles O30: `State.failUpdate` is the first failure of its steps, each given in its cases. -/
theorem updateChecksComeInOrder : Obligations.UpdateChecksComeInOrder := by
  refine ⟨fun c => ⟨fun entry => conditionFailure_any, fun expect zero => ⟨?_, fun e => ⟨fun gone => ?_, fun live => ?_⟩⟩,
      fun expect version => ⟨?_, fun e => ⟨fun gone => ?_, fun live same => ?_, fun live other => ?_⟩⟩⟩,
    fun s p c h update passes ready => ⟨fun protects => ?_, fun free => ⟨fun r fails => ?_, fun e permanent there live => ?_,
      fun may => ⟨fun q claimed other => ?_, fun own => ⟨fun x v fails => ?_, fun condition => ?_⟩⟩⟩⟩,
    fun d k => ⟨rfl, entryVersion_none, fun e => entryVersion_some⟩, fun k => ⟨isPermanent_iff k, rfl⟩,
    fun d => List.countP_eq_length_filter.symm, fun s k => ⟨rfl, rfl⟩, fun s p => rfl⟩
  · rw [conditionFailure_absent expect, if_pos zero]
  · rw [conditionFailure_gone expect gone, if_pos zero]
  · rw [conditionFailure_live expect live, if_pos zero]
  · rw [conditionFailure_absent expect, if_neg version]
  · rw [conditionFailure_gone expect gone, if_neg version]
  · rw [conditionFailure_live expect live, if_neg version, if_pos same]
  · rw [conditionFailure_live expect live, if_neg version, if_neg other]
  · rw [exec_update h update, State.checked_of_none passes, State.admitUpdate_guarded ready protects]
    rfl
  · rw [exec_update h update, State.checked_of_none passes, State.admitUpdate_fails ready free fails]
  · rw [State.failUpdate, State.failPermanent_some permanent there live, Option.some_or]
  · rw [State.failUpdate, State.failPermanent_none may, State.failClaimed_some claimed other, Option.none_or, Option.some_or]
    rfl
  · rw [State.failUpdate_from_condition may own, State.failCondition_some fails, Option.some_or]
  · rw [State.failUpdate_from_condition may own, State.failCondition_none condition, Option.none_or]
    refine ⟨fun notWrite => ⟨fun absent => ?_, fun e there => ⟨fun gone => ?_, fun live patch beyond => ?_⟩⟩, fun write absent full => ?_,
      fun e there meets => ?_, fun write absent room => ?_⟩
    · rw [State.failMissing_absent notWrite absent, Option.some_or]
    · rw [State.failMissing_gone notWrite there gone, Option.some_or]
    · rw [State.failMissing_live notWrite there live, if_pos ⟨patch, beyond⟩, Option.some_or]
    · rw [State.failMissing_write write, State.failFull_some absent full, Option.none_or, Option.some_or]
    · rw [State.failMissing_none there meets, State.failFull_none (.inl (by rw [there]; simp)), Option.none_or, Option.none_or,
        State.failVersion, State.versionOf, entryVersion_some there]
      rfl
    · rw [State.failMissing_write write, State.failFull_none (.inr room), Option.none_or, Option.none_or, State.failVersion,
        State.versionOf, entryVersion_none absent]
      rfl

/-! ## The start of an update -/

section
variable {s : State} {p : Port} {c : Cmd} {u : Update} {pos : Pos} {b : Body} {r : CellRead} {k : Key} {v : Version} {old taken : List Byte}
  {offset i : Nat}

theorem CellRead.accept_eq_some : r.accept k v = some b ↔ r.body = some b ∧ b.key = k ∧ b.version = v ∧ r.payloadGood = true := by
  unfold CellRead.accept
  cases body : r.body with
  | none => simp
  | some x =>
    by_cases meets : x.key = k ∧ x.version = v ∧ r.payloadGood = true
    · simp only [meets, and_self, if_true, Option.some.injEq]
      exact ⟨fun same => ⟨same, same ▸ meets.1, same ▸ meets.2.1, trivial⟩, fun h => h.1⟩
    · simp only [meets, if_false, reduceCtorEq, Option.some.injEq, false_iff]
      rintro ⟨rfl, rest⟩
      exact meets rest

/-- A read is not accepted when every body it delivers of the entry's key and version fails its payload check. -/
theorem CellRead.accept_eq_none : r.accept k v = none ↔ ∀ b, r.body = some b → b.key = k → b.version = v → r.payloadGood = false := by
  simp only [Option.eq_none_iff_forall_ne_some, ne_eq, CellRead.accept_eq_some, not_and, Bool.not_eq_true]

/-- The completion of a PATCH's read of the old payload (R82). -/
theorem exec_cellReadDone_updating (h : s.carries .engine (.readCell pos true)) (work : s.engine.work = .updating p c u) :
    exec .cellReadDone s = .next ((s.setInFlight none).patchOldRead p c u (readData s.array.cells pos)).settle := by
  have delivered : (s.setInFlight none).deliverRead .engine pos true =
      (s.setInFlight none).patchOldRead p c u (readData s.array.cells pos) := by
    simp only [State.deliverRead, State.engineRead, readFor, State.setInFlight_engine, State.setInFlight_array, work, if_true]
  rw [exec_cellReadDone h, delivered]

theorem State.patchOldRead_accepts (accepted : r.accept u.key (s.versionOf u.key) = some b) :
    s.patchOldRead p c u r = s.requestGrant p c { u with old := b.payload } := by
  simp only [State.patchOldRead, accepted]

theorem State.patchOldRead_fails (fails : r.accept u.key (s.versionOf u.key) = none) :
    s.patchOldRead p c u r = s.endCommand p (c.at_ .dataCheck u.key (s.versionOf u.key) 0 (nat16 (s.lengthOf u.key))) := by
  simp only [State.patchOldRead, fails]

theorem State.beginUpdate_requests (notPatch : c.code ≠ codePatch) : s.beginUpdate p c = s.requestGrant p c (s.newUpdate p c) :=
  if_neg notPatch

theorem State.beginUpdate_patch {e : Entry} (patch : c.code = codePatch) (there : lookup s.engine.dir c.key = some e) :
    s.beginUpdate p c =
      (s.setWork (.updating p c { s.newUpdate p c with stage := .oldRead })).presentEngine (.readCell e.cell true) := by
  simp only [State.beginUpdate, patch, if_true, there]

theorem patchPayload_length (within : offset ≤ old.length) :
    (patchPayload old offset taken).length = max old.length (offset + taken.length) := by
  simp only [patchPayload, List.length_append, List.length_take, List.length_drop]
  omega

/-- The bytes of a patched payload: the taken ones from the offset on, the old ones before and beyond them (R83). -/
theorem patchPayload_getD (within : offset ≤ old.length) (i : Nat) :
    (patchPayload old offset taken).getD i 0 =
      if offset ≤ i ∧ i < offset + taken.length then taken.getD (i - offset) 0 else old.getD i 0 := by
  have front : (old.take offset).length = offset := by rw [List.length_take]; omega
  simp only [patchPayload, List.append_assoc, List.getD_eq_getElem?_getD]
  rcases Nat.lt_or_ge i offset with before | after
  · rw [if_neg (by omega), List.getElem?_append_left (by omega), List.getElem?_take_of_lt before]
  · rw [List.getElem?_append_right (by omega), front]
    rcases Nat.lt_or_ge i (offset + taken.length) with inside | beyond
    · rw [if_pos ⟨after, inside⟩, List.getElem?_append_left (by omega)]
    · rw [if_neg (by omega), List.getElem?_append_right (by omega), List.getElem?_drop,
        show offset + taken.length + (i - offset - taken.length) = i by omega]

end

/-- Settles O31: an update that passes its checks presents its first request, and a PATCH's read is accepted or not. -/
theorem updatesBegin : Obligations.UpdatesBegin := by
  refine ⟨fun s p c h update passes ready free goes => ?_, fun s p c u pos carries work => ⟨fun b body key version good => ?_, fun bad => ?_⟩,
    fun old taken offset within => ⟨patchPayload_length within, fun i _ => patchPayload_getD within i⟩, fun s k => ⟨rfl, s.lengthOf_eq k⟩⟩
  · have row := exec_update h update
    rw [State.checked_of_none passes, State.admitUpdate_begins ready free goes] at row
    refine ⟨fun write => ?_, fun remove => ?_, fun e patch there => ?_⟩
    · rw [State.beginUpdate_requests (by rw [write]; decide), State.newUpdate, write] at row
      exact row
    · rw [State.beginUpdate_requests (by rw [remove]; decide), State.newUpdate, remove] at row
      exact row
    · rw [State.beginUpdate_patch patch there, State.newUpdate, patch, State.nextVersion, State.versionOf, entryVersion_some there,
        State.retryOf, there] at row
      exact row
  · rw [exec_cellReadDone_updating carries work, State.patchOldRead_accepts (s := s.setInFlight none) (CellRead.accept_of body key version good)]
  · rw [exec_cellReadDone_updating carries work, State.patchOldRead_fails (s := s.setInFlight none) (CellRead.accept_eq_none.mpr bad)]
    rfl

end Sys2Proof.Machine

/-! SUPPORT. The outcomes of an update's programs: attempts, the commit and its report, and the supersede marks. -/

namespace Sys2Proof.Machine

/-! ## Counts of dead cells (R135, R138) -/

section
variable {s : State} {pos : Pos} {row : SegRow}

theorem SegState.counted_iff (st : SegState) : st.counted = true ↔ st = .front ∨ st = .full ∨ st = .victim := by
  cases st <;> simp [SegState.counted]

/-- A cell that dies moves from its segment's live count to the dead one, where counts are kept (Table 8-2). -/
theorem SegRow.die_eq (row : SegRow) :
    row.die = if (row.state = .front ∨ row.state = .full ∨ row.state = .victim) ∧ 1 ≤ row.live then
      { row with live := row.live - 1, dead := row.dead + 1 } else row := by
  unfold SegRow.die
  by_cases counted : row.state.counted = true
  · rw [if_pos counted]
    cases live : row.live with
    | zero => exact (if_neg (by simp)).symm
    | succ n => exact (if_pos ⟨(SegState.counted_iff _).mp counted, Nat.succ_pos n⟩).symm
  · rw [if_neg counted, if_neg (fun h => counted ((SegState.counted_iff _).mpr h.1))]

theorem State.reportDead_dir (s : State) (pos : Pos) : (s.reportDead pos).engine.dir = s.engine.dir :=
  State.trigger_leaves.1

end

/-! ## Deliveries to an update -/

section
variable {s : State} {p : Port} {c : Cmd} {u : Update} {pos : Pos} {ok : Bool}

theorem State.deliverBody_updating (work : s.engine.work = .updating p c u) : s.deliverBody .engine pos ok = s.updateBody p c u pos ok := by
  simp only [State.deliverBody, work]

theorem State.deliverMark_updating (work : s.engine.work = .updating p c u) : s.deliverMark .engine pos ok = s.updateMark p c u pos ok := by
  simp only [State.deliverMark, work]

theorem State.updateMark_commit (stage : u.stage = .commitMark) : s.updateMark p c u pos ok = s.updateCommitMark p c u pos ok := by
  simp only [State.updateMark, stage]

theorem State.updateMark_supersede (stage : u.stage = .supersede) : s.updateMark p c u pos ok = s.updateSuperseded p c u pos ok := by
  simp only [State.updateMark, stage]

theorem State.updateMark_retry (stage : u.stage = .retryMark) : s.updateMark p c u pos ok = s.updateRetried p c u pos ok := by
  simp only [State.updateMark, stage]

theorem State.attemptFailed_again (more : u.attempt < 3) :
    s.attemptFailed p c u pos = (s.reportDead pos).requestGrant p c { u with attempt := u.attempt + 1 } := by
  rw [State.attemptFailed]
  exact if_pos more

/-- The third failed attempt ends the update with its key's entry as it was (R77). -/
theorem State.attemptFailed_last (last : 3 ≤ u.attempt) :
    s.attemptFailed p c u pos =
      (s.reportDead pos).endCommand p (c.at_ .programFail u.key (entryVersion s.engine.dir u.key) 0 3) := by
  rw [State.attemptFailed]
  refine (if_neg (Nat.not_lt.mpr last)).trans ?_
  rw [State.endProgramFail, State.versionOf, State.reportDead_dir]

end

/-- Settles O33: the outcome of the program is delivered to the update; a failed attempt by `State.attemptFailed` in its two cases. -/
theorem updateProgramsEnd : Obligations.UpdateProgramsEnd := by
  refine ⟨fun s p c u pos b left carries work => ⟨s.afterBody pos b left, rfl, fun takes => ?_, fun fails => ⟨fun more => ?_, fun last => ?_⟩⟩,
    fun s p c u pos fails carries work stage failed => ⟨s.afterMark pos .first fails, ?_, fun more => ?_, fun last => ?_⟩,
    fun s pos => ⟨?_, s.reportDead_dir pos, State.trigger_leaves.2.1⟩, fun s pos => ?_⟩
  · rw [(exec_bodyProgramDone carries).1 takes, State.deliverBody_updating (s := s.afterBody pos b left) work]
    rfl
  · rw [(exec_bodyProgramDone carries).2 fails, State.deliverBody_updating (s := s.afterBody pos b left) work]
    exact congrArg (fun t => Host.Outcome.next (State.settle t)) (State.attemptFailed_again more)
  · rw [(exec_bodyProgramDone carries).2 fails, State.deliverBody_updating (s := s.afterBody pos b left) work]
    exact congrArg (fun t => Host.Outcome.next (State.settle t)) (State.attemptFailed_last last)
  · rfl
  · rw [(exec_markProgramDone carries).2 failed, State.deliverMark_updating (s := s.afterMark pos .first fails) work,
      State.updateMark_commit stage]
    exact congrArg (fun t => Host.Outcome.next (State.settle t)) (State.attemptFailed_again more)
  · rw [(exec_markProgramDone carries).2 failed, State.deliverMark_updating (s := s.afterMark pos .first fails) work,
      State.updateMark_commit stage]
    exact congrArg (fun t => Host.Outcome.next (State.settle t)) (State.attemptFailed_last last)
  · rw [State.reportDead, State.countDead, SegRow.die_eq]
  · rw [State.countDead, SegRow.die_eq]

/-! ## The directory after a commit -/

section
variable {d : List Entry} {e : Entry} {k : Key}

theorem lookup_putEntry_same (d : List Entry) (e : Entry) : lookup (putEntry d e) e.key = some e := by
  induction d with
  | nil => simp [putEntry, lookup]
  | cons x d ih =>
    unfold putEntry
    split_ifs with same lower
    · simp [lookup]
    · simp [lookup]
    · rw [lookup, List.find?_cons_of_neg (by simpa using same)]
      exact ih

theorem lookup_putEntry_other (d : List Entry) (other : k ≠ e.key) : lookup (putEntry d e) k = lookup d k := by
  have skip : ∀ rest, lookup (e :: rest) k = lookup rest k := fun rest =>
    List.find?_cons_of_neg (by simpa using other.symm)
  induction d with
  | nil => exact skip []
  | cons x d ih =>
    unfold putEntry
    split_ifs with same lower
    · rw [skip, lookup, lookup, List.find?_cons_of_neg (by simpa [same] using other.symm)]
    · rw [skip]
    · by_cases here : x.key = k
      · rw [lookup, lookup, List.find?_cons_of_pos (by simpa using here), List.find?_cons_of_pos (by simpa using here)]
      · rw [lookup, lookup, List.find?_cons_of_neg (by simpa using here), List.find?_cons_of_neg (by simpa using here)]
        exact ih

theorem keyState_none (absent : lookup d k = none) : keyState d k = .absent := by rw [keyState, absent]

theorem keyState_some (there : lookup d k = some e) : keyState d k = if e.state = .live then .live else .gone := by
  rw [keyState, there]
  cases state : e.state <;> simp [state]

theorem entryStateOf_eq (kind : Kind) : entryStateOf kind = if kind = .tombstone then .gone else .live := by
  cases kind <;> rfl

theorem keyStateOf_entryStateOf (kind : Kind) : keyStateOf (entryStateOf kind) = if kind = .tombstone then .gone else .live := by
  cases kind <;> rfl

theorem committedEntry_eq (old : Option Entry) (b : Body) (pos : Pos) :
    committedEntry old b pos =
      { key := b.key, state := if b.kind = .tombstone then .gone else .live, cell := pos, version := b.version, length := b.length,
        author := b.author, stale := (old.map Entry.stale).getD 0, retry := old.bind Entry.retry, movePending := false } := by
  unfold committedEntry
  rw [entryStateOf_eq]
  cases old <;> rfl

end

/-! ## The commit report (R119, R120) -/

section
variable {s : State} {p q : Port} {u : PortUnit} {k : Key} {t : Triggers} {v : Version} {a : Author} {ws : List Watch} {w : Watch}

/-- A fold over ports that acts at each port on that port alone acts once at every port of the list. -/
theorem foldl_port {f : State → Port → State} {g : Port → PortUnit → PortUnit} {inv : State → Prop}
    (keeps : ∀ s p, inv s → inv (f s p)) (acts : ∀ s p q, inv s → (f s p).port q = if q = p then g q (s.port q) else s.port q)
    {l : List Port} (nodup : l.Nodup) (start : inv s) (q : Port) :
    (l.foldl f s).port q = if q ∈ l then g q (s.port q) else s.port q := by
  induction l generalizing s with
  | nil => simp
  | cons p l ih =>
    obtain ⟨notIn, nodup⟩ := List.nodup_cons.mp nodup
    rw [List.foldl_cons, ih nodup (keeps s p start), acts s p q start]
    by_cases here : q = p
    · subst here
      simp [notIn]
    · simp [here]

theorem allPorts_nodup : allPorts.Nodup := by decide

/-- What a commit report does at one port, by its watch list (R120). -/
def PortUnit.reported (u : PortUnit) (ws : List Watch) (k : Key) (t : Triggers) (v : Version) (a : Author) (p : Port) : PortUnit :=
  match ws.find? (fun w => w.key == k) with
  | some w => if w.triggers &&& t ≠ 0 ∧ (a ≠ .port p ∨ w.self = true) then u.offer (.watchHit k t v a) else u
  | none => u

theorem PortUnit.reported_hit (watch : ws.find? (fun w => w.key == k) = some w) (fires : w.triggers &&& t ≠ 0)
    (counts : a ≠ .port p ∨ w.self = true) : u.reported ws k t v a p = u.offer (.watchHit k t v a) := by
  simp only [PortUnit.reported, watch]
  exact if_pos ⟨fires, counts⟩

theorem PortUnit.reported_silent
    (silent : ∀ w, ws.find? (fun w => w.key == k) = some w → w.triggers &&& t = 0 ∨ (a = .port p ∧ w.self = false)) :
    u.reported ws k t v a p = u := by
  unfold PortUnit.reported
  cases watch : ws.find? (fun w => w.key == k) with
  | none => rfl
  | some w =>
    refine if_neg fun ⟨fires, counts⟩ => ?_
    rcases silent w watch with quiet | ⟨own, noSelf⟩
    · exact fires quiet
    · rcases counts with other | self
      · exact other own
      · exact Bool.noConfusion (noSelf.symm.trans self)

theorem State.offerWatch_port (s : State) (k : Key) (t : Triggers) (v : Version) (a : Author) (p q : Port) :
    (s.offerWatch k t v a p).port q = if q = p then (s.port q).reported (s.coord.watches.get q) k t v a q else s.port q := by
  unfold State.offerWatch PortUnit.reported
  by_cases here : q = p
  · subst here
    rw [if_pos rfl]
    cases (s.coord.watches.get q).find? (fun w => w.key == k) with
    | none => rfl
    | some w =>
      dsimp only
      split
      · exact State.setPort_port ..
      · rfl
  · rw [if_neg here]
    cases (s.coord.watches.get p).find? (fun w => w.key == k) with
    | none => rfl
    | some w =>
      dsimp only
      split
      · exact State.setPort_port_other _ _ here
      · rfl

theorem State.offerWatch_coord (s : State) (k : Key) (t : Triggers) (v : Version) (a : Author) (p : Port) :
    (s.offerWatch k t v a p).coord = s.coord := by
  unfold State.offerWatch
  split
  · split <;> rfl
  · rfl

theorem State.reportCommit_port (s : State) (k : Key) (before after : KeyState) (v : Version) (a : Author) (q : Port) :
    (s.reportCommit k before after v a).port q =
      (s.port q).reported (s.coord.watches.get q) k (firedTrigger before after) v a q := by
  have fold := foldl_port (s := s) (f := fun s p => s.offerWatch k (firedTrigger before after) v a p)
    (g := fun q u => u.reported (s.coord.watches.get q) k (firedTrigger before after) v a q) (inv := fun t => t.coord = s.coord)
    (fun t p same => (State.offerWatch_coord ..).trans same)
    (fun t p q same => by rw [State.offerWatch_port, same]) allPorts_nodup rfl q
  rw [if_pos (mem_allPorts q)] at fold
  exact fold

end

section
variable {s : State} {p : Port} {c : Cmd} {u : Update} {pos : Pos} {b : Body} {e : Entry} {k : Key}

theorem State.commitBody_dir (s : State) (b : Body) (pos : Pos) :
    (s.commitBody b pos).engine.dir = putEntry s.engine.dir (committedEntry (lookup s.engine.dir b.key) b pos) := by
  unfold State.commitBody
  dsimp only
  rw [State.reportCommit_ports]
  rfl

theorem State.commitBody_port (s : State) (b : Body) (pos : Pos) (q : Port) :
    (s.commitBody b pos).port q =
      (s.port q).reported (s.coord.watches.get q) b.key
        (firedTrigger (keyState s.engine.dir b.key) (if b.kind = .tombstone then .gone else .live)) b.version b.author q := by
  unfold State.commitBody
  dsimp only
  rw [State.reportCommit_port, keyStateOf_entryStateOf]
  rfl

theorem State.lookup_commitBody (s : State) (b : Body) (pos : Pos) :
    lookup (s.commitBody b pos).engine.dir b.key = some (committedEntry (lookup s.engine.dir b.key) b pos) := by
  rw [State.commitBody_dir]
  exact lookup_putEntry_same _ _

theorem State.commitBody_eq (s : State) (b : Body) (pos : Pos) :
    s.commitBody b pos =
      ({ s with ports := (s.commitBody b pos).ports }).setDir (putEntry s.engine.dir (committedEntry (lookup s.engine.dir b.key) b pos)) := by
  unfold State.commitBody
  dsimp only
  rw [State.reportCommit_ports]
  rfl

theorem State.retryStep_none (none : (lookup s.engine.dir u.key).bind (fun e => e.retry) = none) :
    s.retryStep p c u = s.finishUpdate p c u := by
  simp only [State.retryStep, none]

/-- After its commit an update presents the supersede mark of the cell its key's entry named before it (R44). -/
theorem State.updateCommitted_supersedes (kind : u.kind ≠ .config) (there : lookup s.engine.dir u.key = some e) :
    s.updateCommitted p c u pos =
      ((s.commitBody (u.body s.engine.seq) pos).setWork (.updating p c { u with stage := .supersede })).presentEngine
        (.programMark e.cell .second) := by
  simp only [State.updateCommitted, there, kind, if_false, Option.map_some]

/-- The entry that a key's first commit creates has no retry cell (R43). -/
theorem State.commitBody_noRetry (absent : lookup s.engine.dir u.key = none) :
    (lookup (s.commitBody (u.body s.engine.seq) pos).engine.dir u.key).bind (fun e => e.retry) = none := by
  rw [show u.key = (u.body s.engine.seq).key from rfl, State.lookup_commitBody, committedEntry_eq,
    show lookup s.engine.dir (u.body s.engine.seq).key = none from absent]
  rfl

/-- A key's first update ends with its commit: there is no cell to supersede and no retry cell (R45, R78). -/
theorem State.updateCommitted_finishes (kind : u.kind ≠ .config) (absent : lookup s.engine.dir u.key = none) :
    s.updateCommitted p c u pos = (s.commitBody (u.body s.engine.seq) pos).finishUpdate p c u := by
  simp only [State.updateCommitted, absent, kind, if_false, Option.map_none]
  exact State.retryStep_none (State.commitBody_noRetry absent)

theorem Update.bytes_eq (u : Update) : u.bytes = (u.payload.map Prod.fst).getD [] := by
  unfold Update.bytes
  cases u.payload <;> rfl

theorem Update.check_eq (u : Update) : u.check = (u.payload.map Prod.snd).getD (crc16 []) := by
  unfold Update.check
  cases u.payload <;> rfl

end

/-- Settles O34: the commit mark's outcome is `State.updateCommitted`; the directory by `putEntry`, the report port by port. -/
theorem commitChangesTheDirectory : Obligations.CommitChangesTheDirectory := by
  refine ⟨fun s p c u pos fails carries work stage kind takes => ⟨_, rfl, fun e there => ?_, fun absent => ?_⟩, fun s b pos => ?_,
    fun s b pos k other => ?_, fun s b pos q => ⟨fun w watch fires counts => ?_, fun silent => ?_⟩, rfl, rfl, rfl, rfl,
    fun d k => ⟨keyState_none, fun e => keyState_some⟩, fun s b pos => ⟨_, _, s.commitBody_eq b pos⟩, fun u seq => ⟨?_, u.bytes_eq⟩⟩
  · rw [(exec_markProgramDone carries).1 takes, State.deliverMark_updating (s := s.afterMark pos .first fails) work,
      State.updateMark_commit stage, State.updateCommitMark, if_pos rfl,
      State.updateCommitted_supersedes (s := s.afterMark pos .first fails) kind there, State.afterMark, takes]
    rfl
  · rw [(exec_markProgramDone carries).1 takes, State.deliverMark_updating (s := s.afterMark pos .first fails) work,
      State.updateMark_commit stage, State.updateCommitMark, if_pos rfl,
      State.updateCommitted_finishes (s := s.afterMark pos .first fails) kind absent, State.afterMark, takes]
    rfl
  · rw [State.lookup_commitBody, committedEntry_eq]
  · rw [State.commitBody_dir]
    exact lookup_putEntry_other _ other
  · rw [State.commitBody_port, PortUnit.reported_hit watch fires counts]
  · rw [State.commitBody_port, PortUnit.reported_silent silent]
  · rw [Update.body, u.check_eq]

/-! ## Supersede marks (R44, R45, R138, R145) -/

section
variable {s : State} {p : Port} {c : Cmd} {u : Update} {pos r : Pos} {ok : Bool} {key : Key} {q : Pass} {m : Move}

theorem Entry.markFailed_eq (e : Entry) (pos : Pos) :
    e.markFailed pos = { e with stale := e.stale + 1, retry := some (e.retry.getD pos) } := by
  unfold Entry.markFailed
  cases e.retry <;> rfl

theorem mapEntry_markFailed (d : List Entry) (k : Key) (pos : Pos) :
    mapEntry d k (fun e => e.markFailed pos) =
      d.map (fun e => if e.key = k then { e with stale := e.stale + 1, retry := some (e.retry.getD pos) } else e) := by
  refine List.map_congr_left fun e _ => ?_
  simp only [Entry.markFailed_eq]

theorem mapEntry_retried (d : List Entry) (k : Key) (pos : Pos) :
    mapEntry d k (fun e => e.retried pos) =
      d.map (fun e => if e.key = k ∧ e.retry = some pos then { e with stale := e.stale - 1, retry := none } else e) := by
  refine List.map_congr_left fun e _ => ?_
  unfold Entry.retried
  by_cases here : e.key = k <;> simp [here]

theorem SegState.underReclaim_false (st : SegState) : st.underReclaim = false ↔ st ≠ .victim ∧ st ≠ .erasing := by
  cases st <;> simp [SegState.underReclaim]

theorem State.retryStep_retries (retry : (lookup s.engine.dir u.key).bind Entry.retry = some r) (before : u.retryAtStart = some r)
    (notVictim : (s.seg r.seg).state ≠ .victim) (notErasing : (s.seg r.seg).state ≠ .erasing) :
    s.retryStep p c u = (s.setWork (.updating p c { u with stage := .retryMark })).presentEngine (.programMark r .second) := by
  have calm := (SegState.underReclaim_false _).mpr ⟨notVictim, notErasing⟩
  unfold State.retryStep
  rw [show ((lookup s.engine.dir u.key).bind fun e => e.retry) = some r from retry]
  exact if_pos ⟨before, calm⟩

theorem State.retryStep_finishes
    (no : ∀ r, (lookup s.engine.dir u.key).bind Entry.retry = some r →
      u.retryAtStart ≠ some r ∨ (s.seg r.seg).state = .victim ∨ (s.seg r.seg).state = .erasing) :
    s.retryStep p c u = s.finishUpdate p c u := by
  unfold State.retryStep
  cases retry : (lookup s.engine.dir u.key).bind fun e => e.retry with
  | none => rfl
  | some r =>
    refine if_neg fun ⟨before, calm⟩ => ?_
    obtain ⟨notVictim, notErasing⟩ := (SegState.underReclaim_false _).mp calm
    rcases no r retry with other | victim | erasing
    · exact other before
    · exact notVictim victim
    · exact notErasing erasing

theorem State.reportSuperseded_idle {done : Bool} (idle : s.space.pass = none) : s.reportSuperseded pos key done = s.reportDead pos := by
  rw [State.reportSuperseded, State.reportDead, idle]
  congr 1
  rw [Option.map_none, ← idle]
  rfl

theorem State.reportSuperseded_pass (pass : s.space.pass = some q) {done : Bool} :
    s.reportSuperseded pos key done = ((s.countDead pos).setPass (some (q.supersedeReport pos key done))).trigger := by
  rw [State.reportSuperseded, pass]
  rfl

/-- A supersede report changes the pass in its noted cells alone (R145). -/
theorem Pass.supersedeReport_noted (q : Pass) (pos : Pos) (key : Key) (done : Bool) :
    q.supersedeReport pos key done = { q with noted := (q.supersedeReport pos key done).noted } := by
  unfold Pass.supersedeReport Pass.unnote Pass.note
  split_ifs <;> rfl

theorem Pass.supersedeReport_elsewhere (elsewhere : pos.seg ≠ q.victim) {done : Bool} : q.supersedeReport pos key done = q :=
  if_neg elsewhere

theorem Pass.supersedeReport_done (here : pos.seg = q.victim) :
    (q.supersedeReport pos key true).noted = q.noted.filter (fun n => n.1 != pos.cell) := by
  rw [Pass.supersedeReport, if_pos here]
  rfl

theorem Pass.supersedeReport_failed (here : pos.seg = q.victim) :
    q.supersedeReport pos key false = if q.hasRead pos.cell then q.note pos.cell key else q := by
  rw [Pass.supersedeReport, if_pos here]
  rfl

theorem Pass.hasRead_true {cell : CellNo}
    (read : q.stage = .erasing ∨ (q.stage = .copying ∧ (cell < q.cursor ∨ (cell = q.cursor ∧ q.awaits ≠ .victimRead)))) :
    q.hasRead cell = true := by
  unfold Pass.hasRead
  rcases read with stage | ⟨stage, before⟩ <;> simp only [stage, Bool.or_eq_true, Bool.and_eq_true, decide_eq_true_iff, beq_iff_eq, bne_iff_ne]
  exact before

theorem Pass.hasRead_false {cell : CellNo}
    (unread : q.stage = .select ∨ (q.stage = .copying ∧ (q.cursor < cell ∨ (cell = q.cursor ∧ q.awaits = .victimRead)))) :
    q.hasRead cell = false := by
  unfold Pass.hasRead
  rcases unread with stage | ⟨stage, after | ⟨here, reading⟩⟩ <;> simp only [stage]
  · simp [not_lt.mpr (le_of_lt after), (ne_of_gt after)]
  · simp [here, reading]

theorem Pass.note_noted {cell : CellNo} :
    (q.note cell key).noted = if q.noted.any (fun n => n.1 == cell) then q.noted else q.noted ++ [(cell, key)] := by
  unfold Pass.note
  split_ifs <;> rfl

end

/-- Settles O35: the outcome of a supersede mark at the entry, at the pending move, and at the pass's noted cells. -/
theorem supersedeOutcomesAreRecorded : Obligations.SupersedeOutcomesAreRecorded := by
  refine ⟨fun s p c u pos fails carries work stage => ?_, fun s p c u => ⟨fun r => State.retryStep_retries, State.retryStep_finishes⟩,
    fun s p c u pos fails carries work stage => ?_, fun s pos key done => State.reportSuperseded_idle, fun s pos key done q pass => ?_⟩
  · by_cases takes : s.markTakes pos .second fails
    · refine ⟨_, s.engine.dir, rfl, ?_, fun _ => rfl, fun failed => absurd takes failed⟩
      rw [(exec_markProgramDone carries).1 takes, State.deliverMark_updating (s := s.afterMark pos .second fails) work,
        State.updateMark_supersede stage]
      simp only [State.updateSuperseded, if_true, show markLeft (markWord s.array.cells pos .second) fails = Config.markPresent from takes,
        decide_true, State.afterMark]
      rfl
    · refine ⟨_, mapEntry s.engine.dir u.key (fun e => e.markFailed pos), rfl, ?_, fun took => absurd took takes,
        fun _ => mapEntry_markFailed _ _ _⟩
      have fails' : ¬ markLeft (markWord s.array.cells pos .second) fails = Config.markPresent := takes
      rw [(exec_markProgramDone carries).2 takes, State.deliverMark_updating (s := s.afterMark pos .second fails) work,
        State.updateMark_supersede stage]
      simp only [State.updateSuperseded, Bool.false_eq_true, if_false, fails', decide_false, State.afterMark]
      rfl
  · by_cases takes : s.markTakes pos .second fails
    · refine ⟨((s.afterMark pos .second fails).setDir (mapEntry s.engine.dir u.key (fun e => e.retried pos))).setMove
          (s.engine.move.map (fun m => m.overtake pos true)), ?_, rfl, fun failed => absurd takes failed,
        fun _ => by rw [mapEntry_retried]; rfl⟩
      rw [(exec_markProgramDone carries).1 takes, State.deliverMark_updating (s := s.afterMark pos .second fails) work,
        State.updateMark_retry stage, State.updateRetried]
      rfl
    · refine ⟨s.afterMark pos .second fails, ?_, rfl, fun _ => rfl, fun took => absurd took takes⟩
      rw [(exec_markProgramDone carries).2 takes, State.deliverMark_updating (s := s.afterMark pos .second fails) work,
        State.updateMark_retry stage, State.updateRetried]
      rfl
  · refine ⟨(q.supersedeReport pos key done).noted, ?_, rfl, fun elsewhere => ?_, fun here isDone => ?_, fun here failed => ⟨fun read => ?_, fun unread => ?_⟩⟩
    · rw [State.reportSuperseded_pass pass, ← Pass.supersedeReport_noted]
    · rw [Pass.supersedeReport_elsewhere elsewhere]
    · rw [isDone, Pass.supersedeReport_done here]
    · rw [failed, Pass.supersedeReport_failed here, if_pos (Pass.hasRead_true read), Pass.note_noted]
    · rw [failed, Pass.supersedeReport_failed here, Pass.hasRead_false unread]
      rfl

end Sys2Proof.Machine

/-! SUPPORT. A READ's admission, claims, and watches. -/

namespace Sys2Proof.Machine

/-! ## The admission of a READ (R85, R86) -/

section
variable {s : State} {p : Port} {c : Cmd} {e : Entry} {k : Key} {v : Version} {len : Nat} {r : CellRead}

theorem State.liveEntry_none (no : ∀ e, lookup s.engine.dir k = some e → e.state = .gone) : s.liveEntry k = none := by
  unfold State.liveEntry
  cases there : lookup s.engine.dir k with
  | none => rfl
  | some e => simp only [no e there]

theorem State.liveEntry_some (there : lookup s.engine.dir k = some e) (live : e.state = .live) : s.liveEntry k = some e := by
  simp only [State.liveEntry, there, live]

theorem State.admitRead_notFound (formatted : s.store.state ≠ .unformatted) (none : s.liveEntry c.key = none) :
    s.admitRead p c = s.endCommand p (c.at_ .notFound c.key 0 0 0) := by
  rw [State.admitRead, if_neg formatted, none]

theorem State.admitRead_found (formatted : s.store.state ≠ .unformatted) (found : s.liveEntry c.key = some e) :
    s.admitRead p c =
      if e.length < c.readOffset then s.endCommand p (c.result .invalid (reasonCode .badField) c.key 0 0 (nat16 e.length))
      else (s.setWork (.reading p c e.version e.length)).presentEngine (.readCell e.cell true) := by
  rw [State.admitRead, if_neg formatted, found]

theorem State.readDone_fails (fails : r.accept c.key v = none) :
    s.readDone p c v len r = s.endCommand p (c.at_ .dataCheck c.key v 0 (nat16 len)) := by
  simp only [State.readDone, fails]

end

/-- Settles O36: a READ by its key's LIVE entry, and its completed read by the acceptance test. -/
theorem readIsAdmittedOrRefused : Obligations.ReadIsAdmittedOrRefused := by
  refine ⟨fun s p c h code passes formatted => ⟨fun gone => ?_, fun e there live => ⟨fun beyond => ?_, fun within => ?_⟩⟩,
    fun s p c v len pos carries work bad => ?_⟩
  · rw [exec_read h code, State.doRead, State.checked_of_none passes, State.admitRead_notFound formatted (State.liveEntry_none gone)]
  · rw [exec_read h code, State.doRead, State.checked_of_none passes, State.admitRead_found formatted (State.liveEntry_some there live),
      if_pos beyond]
    rfl
  · rw [exec_read h code, State.doRead, State.checked_of_none passes, State.admitRead_found formatted (State.liveEntry_some there live),
      if_neg (Nat.not_lt.mpr within)]
  · rw [exec_cellReadDone_reading carries work, State.readDone_fails (CellRead.accept_eq_none.mpr bad)]

/-! ## Claims (R105 to R111) -/

section
variable {s : State} {p : Port} {c : Cmd} {x : Claim} {cs : List Claim} {k : Key}

theorem find_putClaim_same (cs : List Claim) (x : Claim) : (putClaim cs x).find? (fun y => y.key == x.key) = some x := by
  induction cs with
  | nil => simp [putClaim]
  | cons y cs ih =>
    unfold putClaim
    split_ifs with same lower
    · simp
    · simp
    · rw [List.find?_cons_of_neg (by simpa using same)]
      exact ih

theorem find_putClaim_other (cs : List Claim) (other : k ≠ x.key) :
    (putClaim cs x).find? (fun y => y.key == k) = cs.find? (fun y => y.key == k) := by
  have skip : ∀ rest : List Claim, (x :: rest).find? (fun y => y.key == k) = rest.find? (fun y => y.key == k) := fun rest =>
    List.find?_cons_of_neg (by simpa using other.symm)
  induction cs with
  | nil => exact skip []
  | cons y cs ih =>
    unfold putClaim
    split_ifs with same lower
    · rw [skip, List.find?_cons_of_neg (by simpa [same] using other.symm)]
    · rw [skip]
    · by_cases here : y.key = k
      · rw [List.find?_cons_of_pos (by simpa using here), List.find?_cons_of_pos (by simpa using here)]
      · rw [List.find?_cons_of_neg (by simpa using here), List.find?_cons_of_neg (by simpa using here)]
        exact ih

theorem State.claimRequest_own (claim : s.claimOn c.key = some x) (own : x.holder = p) :
    s.claimRequest p c = s.grantClaim p c .renewed := by
  simp only [State.claimRequest, claim, own, if_true]

theorem State.claimRequest_busy (claim : s.claimOn c.key = some x) (other : x.holder ≠ p) :
    s.claimRequest p c =
      s.endCommand p (c.at_ .claimBusy c.key (s.versionOf c.key) (nat16 x.remainingMs) (portHalf x.holder)) := by
  simp only [State.claimRequest, claim, other, if_false]

theorem State.claimRequest_free (claim : s.claimOn c.key = none) :
    s.claimRequest p c =
      if 16 ≤ s.coord.claims.length ∨ 8 ≤ claimsOf s.coord.claims p then
        s.endCommand p (c.at_ .claimFull c.key (s.versionOf c.key) (nat16 (s.share p)) (nat16 s.coord.claims.length))
      else s.grantClaim p c .created := by
  simp only [State.claimRequest, claim]
  rfl

theorem State.releaseRequest_own (claim : s.claimOn c.key = some x) (own : x.holder = p) :
    s.releaseRequest p c =
      (s.setClaims (dropClaim s.coord.claims c.key)).endCommand p
        (c.nt .done c.key (s.versionOf c.key) (nat16 x.remainingMs) (nat16 ((s.setClaims (dropClaim s.coord.claims c.key)).share p))) := by
  simp only [State.releaseRequest, claim, own, if_true]
  rfl

theorem State.releaseRequest_other (claim : s.claimOn c.key = some x) (other : x.holder ≠ p) :
    s.releaseRequest p c = s.endCommand p (c.at_ .notHolder c.key (s.versionOf c.key) 0 (portHalf x.holder)) := by
  simp only [State.releaseRequest, claim, other, if_false]

theorem State.releaseRequest_none (claim : s.claimOn c.key = none) :
    s.releaseRequest p c = s.endCommand p (c.at_ .notHolder c.key (s.versionOf c.key) 0 Config.noneHalf) := by
  simp only [State.releaseRequest, claim]

theorem exec_claimExpiry (run : s.running = true) (claim : s.claimOn k = some x) (elapsed : x.remaining = 0) :
    exec (.claimExpiry k) s = .next (s.expire x).settle := by
  show execClaimExpiry k s = _
  simp only [execClaimExpiry, claim]
  exact if_pos ⟨run, elapsed⟩

end

/-- Settles O41: a claim and a release request by the claim on the key, an expiry by its row. -/
theorem claimsAreDecided : Obligations.ClaimsAreDecided := by
  refine ⟨fun s p c h code passes formatted => ?_, fun s p c h code passes formatted => ⟨fun x claim own => ?_, fun x claim other => ?_, fun claim => ?_⟩,
    fun s k x run claim elapsed => exec_claimExpiry run claim elapsed, fun cs x => ⟨find_putClaim_same cs x, fun k => find_putClaim_other cs⟩,
    fun x left => ?_, fun x elapsed => ?_, fun p => by cases p <;> rfl⟩
  · have row : exec .claim s = .next (s.claimRequest p c).settle := by
      rw [exec_claim h code, State.doClaim, State.checked_of_none passes, State.formatted_passes formatted]
    refine ⟨_, rfl, fun x claim own => ?_, fun x claim other => ?_, fun claim => ⟨fun full => ?_, fun room share => ?_⟩⟩
    · rw [row, State.claimRequest_own claim own]
      rfl
    · rw [row, State.claimRequest_busy claim other]
      rfl
    · rw [row, State.claimRequest_free claim, if_pos full]
      rfl
    · rw [row, State.claimRequest_free claim, if_neg (not_or.mpr ⟨Nat.not_le.mpr room, Nat.not_le.mpr share⟩)]
      rfl
  · rw [exec_release h code, State.doRelease, State.checked_of_none passes, State.formatted_passes formatted,
      State.releaseRequest_own claim own]
    rfl
  · rw [exec_release h code, State.doRelease, State.checked_of_none passes, State.formatted_passes formatted,
      State.releaseRequest_other claim other]
    rfl
  · rw [exec_release h code, State.doRelease, State.checked_of_none passes, State.formatted_passes formatted,
      State.releaseRequest_none claim]
    rfl
  · rw [Claim.remainingMs]
    omega
  · rw [Claim.remainingMs, elapsed]
    rfl

/-! ## Watches (R115 to R118) -/

section
variable {s : State} {p : Port} {c : Cmd} {w : Watch} {ws : List Watch} {k : Key}

theorem watchOf_putWatch_same (ws : List Watch) (w : Watch) : watchOf (putWatch ws w) w.key = some w := by
  induction ws with
  | nil => simp [putWatch, watchOf]
  | cons x ws ih =>
    unfold putWatch
    split_ifs with same lower
    · simp [watchOf]
    · simp [watchOf]
    · rw [watchOf, List.find?_cons_of_neg (by simpa using same)]
      exact ih

theorem watchOf_putWatch_other (ws : List Watch) (other : k ≠ w.key) : watchOf (putWatch ws w) k = watchOf ws k := by
  have skip : ∀ rest, watchOf (w :: rest) k = watchOf rest k := fun rest => List.find?_cons_of_neg (by simpa using other.symm)
  induction ws with
  | nil => exact skip []
  | cons x ws ih =>
    unfold putWatch
    split_ifs with same lower
    · rw [skip, watchOf, watchOf, List.find?_cons_of_neg (by simpa [same] using other.symm)]
    · rw [skip]
    · by_cases here : x.key = k
      · rw [watchOf, watchOf, List.find?_cons_of_pos (by simpa using here), List.find?_cons_of_pos (by simpa using here)]
      · rw [watchOf, watchOf, List.find?_cons_of_neg (by simpa using here), List.find?_cons_of_neg (by simpa using here)]
        exact ih

theorem State.watchSetRequest_present (watch : watchOf (s.coord.watches.get p) c.key = some w) :
    s.watchSetRequest p c = s.setWatch p c w.triggers := by
  simp only [State.watchSetRequest, watch]

theorem State.watchSetRequest_absent (watch : watchOf (s.coord.watches.get p) c.key = none) :
    s.watchSetRequest p c =
      if (s.coord.watches.get p).length < 8 then s.setWatch p c 0
      else s.endCommand p (c.at_ .watchFull c.key (s.versionOf c.key) 0 (watchAux 0 (s.coord.watches.get p).length)) := by
  simp only [State.watchSetRequest, watch]
  rfl

/-- A new entry in a port's list has the triggers asked for, all of them new (R116). -/
theorem State.setWatch_new (s : State) (p : Port) (c : Cmd) :
    s.setWatch p c 0 =
      (s.setWatches p (putWatch (s.coord.watches.get p) { key := c.key, triggers := 0 ||| c.triggers, self := c.selfFlag })).endCommand p
        (c.nt .done c.key (s.versionOf c.key) (nat16 (triggerCount c.triggers))
          (watchAux (watchByte c.triggers c.selfFlag)
            ((s.setWatches p (putWatch (s.coord.watches.get p)
              { key := c.key, triggers := 0 ||| c.triggers, self := c.selfFlag })).coord.watches.get p).length)) := by
  have allNew : c.triggers &&& ~~~(0 : Triggers) = c.triggers := (BitVec.and_allOnes : c.triggers &&& BitVec.allOnes 3 = c.triggers)
  have asked : (0 : Triggers) ||| c.triggers = c.triggers := BitVec.zero_or
  simp only [State.setWatch, allNew, asked]
  rfl

theorem clearWatch_absent {t : Triggers} (watch : watchOf ws k = none) : clearWatch ws k t = ws := by
  simp only [clearWatch, watch]

theorem clearWatch_present {t : Triggers} (watch : watchOf ws k = some w) :
    clearWatch ws k t =
      if w.triggers &&& ~~~t = 0 then ws.filter (fun x => x.key != k) else putWatch ws { w with triggers := w.triggers &&& ~~~t } := by
  simp only [clearWatch, watch]
  rfl

theorem clearedCount_eq (ws : List Watch) (k : Key) (t : Triggers) :
    clearedCount ws k t = ((watchOf ws k).map (fun w => triggerCount (w.triggers &&& t))).getD 0 := by
  unfold clearedCount
  cases watchOf ws k <;> rfl

theorem watchByteOf_eq (ws : List Watch) (k : Key) :
    watchByteOf ws k = ((watchOf ws k).map (fun w => watchByte w.triggers w.self)).getD 0 := by
  unfold watchByteOf
  cases watchOf ws k <;> rfl

theorem watchByte_toNat (t : Triggers) (self : Bool) : (watchByte t self).toNat = t.toNat + (if self then 128 else 0) := by
  revert t self
  decide

theorem triggerCount_eq (t : Triggers) :
    triggerCount t = (if t.getLsbD 0 then 1 else 0) + (if t.getLsbD 1 then 1 else 0) + (if t.getLsbD 2 then 1 else 0) := by
  revert t
  decide

theorem watchAux_toNat (b : Byte) {n : Nat} (small : n < 256) : (watchAux b n).toNat = 256 * b.toNat + n := by
  rw [watchAux, BitVec.toNat_append, BitVec.toNat_ofNat, Nat.mod_eq_of_lt small, ← Nat.shiftLeft_add_eq_or_of_lt small, Nat.shiftLeft_eq]
  omega

end

/-- Settles O42: each watch command by its key's entry in the port's list. -/
theorem watchCommandsKeepTheList : Obligations.WatchCommandsKeepTheList := by
  refine ⟨fun s p c h code passes formatted => ?_, fun s p c h code passes formatted => ?_, fun s p c h code passes formatted => ?_,
    fun ws w => ⟨watchOf_putWatch_same ws w, fun k => watchOf_putWatch_other ws⟩, watchByte_toNat, fun ws k => rfl, triggerCount_eq,
    fun b n => watchAux_toNat b⟩
  · have row : exec .watchSet s = .next (s.watchSetRequest p c).settle := by
      rw [exec_watchSet h code, State.doWatchSet, State.checked_of_none passes, State.formatted_passes formatted]
    refine ⟨_, fun old => rfl, fun w watch => ?_, fun watch => ⟨fun room => ?_, fun full => ?_⟩⟩
    · rw [row, State.watchSetRequest_present watch]
      rfl
    · rw [row, State.watchSetRequest_absent watch, if_pos room, State.setWatch_new]
      rfl
    · rw [row, State.watchSetRequest_absent watch, if_neg (Nat.not_lt.mpr full)]
      rfl
  · refine ⟨clearWatch (s.coord.watches.get p) c.key c.triggers, clearWatch_absent, fun w => clearWatch_present, ?_⟩
    rw [exec_watchClear h code, State.doWatchClear, State.checked_of_none passes, State.formatted_passes formatted, State.watchClearRequest,
      clearedCount_eq, watchByteOf_eq]
    rfl
  · refine ⟨_, rfl, ?_⟩
    rw [exec_watchList h code, State.doWatchList, State.checked_of_none passes, State.formatted_passes formatted]
    rfl

end Sys2Proof.Machine

/-! SUPPORT. Guards, the lock check, and GUARD SET. -/

namespace Sys2Proof.Machine

/-! ## The protected set (R122) -/

section
variable {g : Guard} {s : State} {p t : Port} {c : Cmd}

theorem guardProtects_eq (g : Guard) (page : Byte) :
    guardProtects g page =
      (g.complement ^^
        (if g.size.val = 0 then false
        else if g.size.val = 9 then true
        else if g.upper then decide (256 - 2 ^ (g.size.val - 1) ≤ page.toNat) else decide (page.toNat < 2 ^ (g.size.val - 1)))) := by
  have below := page.isLt
  rw [guardProtects, guardPages, Bool.bne_eq_xor, Bool.xor_comm]
  congr 1
  by_cases zero : g.size.val = 0
  · cases g.upper <;> simp [zero]
    omega
  · by_cases nine : g.size.val = 9
    · cases g.upper <;> simp [nine]
      omega
    · simp only [zero, nine, if_false]

/-- A guard that protects neither the lowest nor the highest page has an empty set (Table 7-1). -/
theorem guardProtects_ends :
    guardProtects g 0 = false → guardProtects g 255 = false → (g.size.val = 0 ∧ g.complement = false) ∨ (g.size.val = 9 ∧ g.complement = true) := by
  have all : ∀ (upper complement : Bool) (size : Fin 10),
      guardProtects { upper := upper, size := size, complement := complement } 0 = false →
      guardProtects { upper := upper, size := size, complement := complement } 255 = false →
      (size.val = 0 ∧ complement = false) ∨ (size.val = 9 ∧ complement = true) := by decide
  exact all g.upper g.complement g.size

theorem guard_protects_nothing_iff (g : Guard) :
    (∀ page, guardProtects g page = false) ↔ (g.size.val = 0 ∧ g.complement = false) ∨ (g.size.val = 9 ∧ g.complement = true) := by
  refine ⟨fun none => guardProtects_ends (none 0) (none 255), fun empty page => ?_⟩
  rw [guardProtects_eq]
  rcases empty with ⟨size, complement⟩ | ⟨size, complement⟩ <;> simp [size, complement]

theorem guardEmpty_iff (g : Guard) :
    guardEmpty g = true ↔ (g.size.val = 0 ∧ g.complement = false) ∨ (g.size.val = 9 ∧ g.complement = true) := by
  simp only [guardEmpty, Bool.or_eq_true, Bool.and_eq_true, beq_iff_eq, Bool.not_eq_true', Fin.ext_iff]
  rfl

/-! ## GUARD READ, and the lock check (R124, R133) -/

theorem GuardUnit.modeInForce_eq (g : GuardUnit) : g.modeInForce = if g.standing = .unreadable then .fixed else g.settings.mode := by
  unfold GuardUnit.modeInForce
  cases g.standing <;> rfl

/-- The subfields of a GUARD READ's count (Table 11-7). -/
theorem State.guardCount_toNat (s : State) :
    s.guardCount.toNat =
      (lockCode s.guard.modeInForce).toNat * 16384 + (if s.guard.session then 8192 else 0) + (if s.pins.guardEn then 4096 else 0) +
        (standingCode s.guard.standing).toNat := by
  have high : ∀ (m : LockMode) (a b : Bool),
      ((lockCode m <<< 6) ||| (if a then 0x20#8 else 0) ||| (if b then 0x10#8 else 0)).toNat =
        (lockCode m).toNat * 64 + (if a then 32 else 0) + (if b then 16 else 0) := fun m => by
    cases m <;> decide
  have low : (standingCode s.guard.standing).toNat < 2 ^ 8 := (standingCode _).isLt
  rw [State.guardCount, BitVec.toNat_append, ← Nat.shiftLeft_add_eq_or_of_lt low, Nat.shiftLeft_eq, high]
  split_ifs <;> omega

theorem State.doGuardRead_reports (target : c.target = some t) : s.doGuardRead p c = s.endCommand p (s.guardResult c t) := by
  simp only [State.doGuardRead, target]

theorem guardByte_fields (g : Guard) :
    (guardByte g).getLsbD 7 = g.upper ∧ (guardByte g).getLsbD 6 = g.complement ∧ (guardByte g).getLsbD 5 = false ∧
      (guardByte g).getLsbD 4 = false ∧ (guardByte g).toNat % 16 = g.size.val := by
  have all : ∀ (upper complement : Bool) (size : Fin 10),
      (guardByte { upper := upper, size := size, complement := complement }).getLsbD 7 = upper ∧
      (guardByte { upper := upper, size := size, complement := complement }).getLsbD 6 = complement ∧
      (guardByte { upper := upper, size := size, complement := complement }).getLsbD 5 = false ∧
      (guardByte { upper := upper, size := size, complement := complement }).getLsbD 4 = false ∧
      (guardByte { upper := upper, size := size, complement := complement }).toNat % 16 = size.val := by decide
  exact all g.upper g.complement g.size

end

/-- Settles O43: the protected set by its size code, the emptiness of a guard from its lowest and highest page. -/
theorem guardsAndTheLockCheck : Obligations.GuardsAndTheLockCheck := by
  refine ⟨guardProtects_eq, guard_protects_nothing_iff, fun s p => (guardEmpty_iff _).trans (guard_protects_nothing_iff _).symm,
    fun s p t c h code target => ⟨s.guardCount, ?_, s.guardCount_toNat⟩, fun s level => rfl, fun s => rfl, GuardUnit.modeInForce_eq,
    guardByte_fields, rfl, rfl, rfl, rfl, rfl, rfl⟩
  rw [exec_guardRead h code, State.doGuardRead_reports target]
  rfl

/-! ## GUARD SET (R127 to R129) -/

section
variable {s : State} {p t : Port} {c : Cmd} {g : Guard} {u : Update} {pos : Pos} {e : Entry} {x : Settings} {aux : Half}

theorem State.admitGuardSet_ready (ready : s.store.state = .ready) : s.admitGuardSet p c t g = s.guardSetReady p c t g := by
  simp only [State.admitGuardSet, ready]

theorem State.guardSetReady_guarded (guarded : s.unguarded p = false) :
    s.guardSetReady p c t g = s.endGuarded p (c.at_ .guarded Config.configKey s.configVersion 0 0) :=
  if_pos guarded

theorem State.guardSetReady_locked (free : s.unguarded p = true) (locked : s.lockCheck = some aux) :
    s.guardSetReady p c t g = s.endCommand p (c.at_ .locked Config.configKey s.configVersion 0 aux) := by
  rw [State.guardSetReady, if_neg (by simp [free]), locked]

theorem State.guardSetReady_exhausted (free : s.unguarded p = true) (unlocked : s.lockCheck = none)
    (last : s.versionOf Config.configKey = Config.lastVersion) :
    s.guardSetReady p c t g = s.endCommand p (c.at_ .versionExhausted Config.configKey (s.versionOf Config.configKey) 0 0) := by
  rw [State.guardSetReady, if_neg (by simp [free]), unlocked]
  simp only [State.failVersion, last, if_true]

theorem State.guardSetReady_writes (free : s.unguarded p = true) (unlocked : s.lockCheck = none)
    (more : s.versionOf Config.configKey ≠ Config.lastVersion) :
    s.guardSetReady p c t g =
      s.requestGrant p c (s.newConfigUpdate p (s.guard.settings.change t g (c.lockMode s.guard.settings.mode))) := by
  rw [State.guardSetReady, if_neg (by simp [free]), unlocked]
  simp only [State.failVersion, more, if_false]

/-- The ports offered GUARD_CHANGED (Table 7-6). -/
theorem mem_guardRecipients {issuing target q : Port} {modeChanged : Bool} :
    q ∈ guardRecipients issuing target modeChanged ↔ if modeChanged then q ≠ issuing else target ≠ issuing ∧ q = target := by
  unfold guardRecipients
  cases modeChanged with
  | true => simp
  | false => by_cases same : target = issuing <;> simp [same]

theorem guardRecipients_nodup (issuing target : Port) (modeChanged : Bool) : (guardRecipients issuing target modeChanged).Nodup := by
  unfold guardRecipients
  split_ifs
  · exact allPorts_nodup.filter _
  · exact List.nodup_nil
  · exact List.nodup_singleton _

/-- Offers of one event to some ports are made to the ports alone. -/
theorem foldl_offer_ports (l : List Port) (s : State) (e : Event) :
    l.foldl (fun s q => s.offer q e) s = { s with ports := (l.foldl (fun s q => s.offer q e) s).ports } := by
  induction l generalizing s with
  | nil => rfl
  | cons p l ih =>
    rw [List.foldl_cons, ih]
    rfl

theorem foldl_offer_port {l : List Port} (nodup : l.Nodup) (s : State) (e : Event) (q : Port) :
    (l.foldl (fun s q => s.offer q e) s).port q = if q ∈ l then (s.port q).offer e else s.port q :=
  foldl_port (f := fun s q => s.offer q e) (g := fun _ u => u.offer e) (inv := fun _ => True) (fun _ _ _ => trivial)
    (fun s p q _ => by
      by_cases here : q = p
      · subst here
        rw [if_pos rfl]
        exact State.setPort_port ..
      · rw [if_neg here]
        exact State.setPort_port_other _ _ here)
    nodup trivial q

/-- The Guard Unit once a GUARD SET has committed: the record it wrote, and the session lock it asks for (R129). -/
def GuardUnit.afterSet (g : GuardUnit) (c : Cmd) (u : Update) : GuardUnit :=
  { g.adopt u.bytes .loaded with session := (g.adopt u.bytes .loaded).session || c.lockSession }

theorem GuardUnit.afterSet_eq {g : GuardUnit} (parses : parseSettings u.bytes = some x) :
    g.afterSet c u = { settings := x, standing := .loaded, session := g.session || c.lockSession } := by
  simp only [GuardUnit.afterSet, GuardUnit.adopt, parses]

/-- The event of a GUARD SET's commit (R132). -/
def GuardUnit.changeEvent (g : GuardUnit) (t : Port) (v : Version) : Event := .guardChanged t g.modeInForce g.session v

theorem State.adoptGuardSet_target (target : c.target = some t) :
    s.adoptGuardSet p c u =
      (guardRecipients p t (s.guard.settings.mode != (s.guard.afterSet c u).settings.mode || c.lockSession)).foldl
        (fun m q => m.offer q ((s.guard.afterSet c u).changeEvent t u.version)) (s.setGuard (s.guard.afterSet c u)) := by
  simp only [State.adoptGuardSet, target]
  rfl

theorem State.adoptGuardSet_eq (s : State) (p : Port) (c : Cmd) (u : Update) :
    s.adoptGuardSet p c u = ({ s with ports := (s.adoptGuardSet p c u).ports }).setGuard (s.guard.afterSet c u) := by
  cases target : c.target with
  | none =>
    simp only [State.adoptGuardSet, target]
    rfl
  | some t =>
    rw [State.adoptGuardSet_target target, foldl_offer_ports]
    rfl

/-- GUARD_CHANGED goes to every port but the issuing one when the lock changes, and else to the target if it is another port (Table 7-6). -/
theorem State.adoptGuardSet_port (target : c.target = some t) (parses : parseSettings u.bytes = some x) (q : Port) :
    (s.adoptGuardSet p c u).port q =
      if (if s.guard.settings.mode ≠ x.mode ∨ c.byte 2 = 4 then q ≠ p else t ≠ p ∧ q = t) then
        (s.port q).offer (.guardChanged t x.mode (s.guard.session || c.byte 2 == 4) u.version)
      else s.port q := by
  have changed : (s.guard.settings.mode != x.mode || c.lockSession) = true ↔ s.guard.settings.mode ≠ x.mode ∨ c.byte 2 = 4 := by
    rw [Cmd.lockSession, Bool.or_eq_true, bne_iff_ne, beq_iff_eq]
  rw [State.adoptGuardSet_target target, GuardUnit.afterSet_eq parses, foldl_offer_port (guardRecipients_nodup ..)]
  simp only [mem_guardRecipients, changed]
  rfl

theorem State.retryStep_dir {s' : State} (dir : s'.engine.dir = s.engine.dir) (none : (lookup s.engine.dir u.key).bind (fun e => e.retry) = none) :
    s'.retryStep p c u = s'.finishUpdate p c u :=
  State.retryStep_none (by rw [dir, none])

theorem State.updateCommitted_config_supersedes (kind : u.kind = .config) (there : lookup s.engine.dir u.key = some e) :
    s.updateCommitted p c u pos =
      (((s.commitBody (u.body s.engine.seq) pos).adoptGuardSet p c u).setWork (.updating p c { u with stage := .supersede })).presentEngine
        (.programMark e.cell .second) := by
  simp only [State.updateCommitted, there, kind, if_true, Option.map_some]

theorem State.updateCommitted_config_finishes (kind : u.kind = .config) (absent : lookup s.engine.dir u.key = none) :
    s.updateCommitted p c u pos = ((s.commitBody (u.body s.engine.seq) pos).adoptGuardSet p c u).finishUpdate p c u := by
  have dir : ((s.commitBody (u.body s.engine.seq) pos).adoptGuardSet p c u).engine.dir = (s.commitBody (u.body s.engine.seq) pos).engine.dir := by
    rw [State.adoptGuardSet_eq]
    rfl
  simp only [State.updateCommitted, absent, kind, if_true, Option.map_none]
  exact State.retryStep_dir dir (State.commitBody_noRetry absent)

end

/-- Settles O44: GUARD SET in the order of Table 7-4; at its commit the Guard Unit adopts the record and `foldl_offer_port` gives each port's offer. -/
theorem guardSetIsDecided : Obligations.GuardSetIsDecided := by
  refine ⟨fun s p t c g h code target guard lock ready => ?_, fun s p t c u x target parses => ⟨?_, ?_, ?_, State.adoptGuardSet_port target parses⟩,
    fun s p c u pos fails carries work stage kind takes => ⟨_, rfl, fun e there => ?_, fun absent => ?_⟩, fun s => rfl,
    fun s p c u => ⟨_, _, s.adoptGuardSet_eq p c u⟩⟩
  · have row : exec .guardSet s = .next (s.guardSetReady p c t g).settle := by
      rw [exec_guardSet h code, State.doGuardSet_admits target guard lock, State.admitGuardSet_ready ready]
    refine ⟨fun guarded => ?_, fun free => ⟨fun aux locked => ?_, fun unlocked => ⟨fun last => ?_, fun more => ?_⟩⟩⟩
    · rw [row, State.guardSetReady_guarded guarded]
      rfl
    · rw [row, State.guardSetReady_locked free locked]
      rfl
    · rw [row, State.guardSetReady_exhausted free unlocked last, State.versionOf]
      rw [show entryVersion s.engine.dir Config.configKey = 0xFFFFFFFF#32 from last]
      rfl
    · refine ⟨s.guard.settings.change t g (c.lockMode s.guard.settings.mode), rfl, rfl, rfl, ?_⟩
      rw [row, State.guardSetReady_writes free unlocked more]
      rfl
  · rw [State.adoptGuardSet_eq, GuardUnit.afterSet_eq parses]
    rfl
  · rw [State.adoptGuardSet_eq]
    rfl
  · rw [State.adoptGuardSet_eq]
    rfl
  · rw [(exec_markProgramDone carries).1 takes, State.deliverMark_updating (s := s.afterMark pos .first fails) work,
      State.updateMark_commit stage, State.updateCommitMark, if_pos rfl,
      State.updateCommitted_config_supersedes (s := s.afterMark pos .first fails) kind there, State.afterMark, takes]
    rfl
  · rw [(exec_markProgramDone carries).1 takes, State.deliverMark_updating (s := s.afterMark pos .first fails) work,
      State.updateMark_commit stage, State.updateCommitMark, if_pos rfl,
      State.updateCommitted_config_finishes (s := s.afterMark pos .first fails) kind absent, State.afterMark, takes]
    rfl

end Sys2Proof.Machine

/-! SUPPORT. The victim of a pass, RECLAIM and STORE INFO. -/

namespace Sys2Proof.Machine

/-! ## The victim (R140) -/

section
variable {s : State} {g h v : Seg} {l : List Seg}

/-- A segment that may be the victim: FULL, with a dead cell (R140). -/
def State.reclaimable (s : State) (g : Seg) : Prop := (s.seg g).state = .full ∧ 1 ≤ (s.seg g).dead

/-- The order of R140 between two reclaimable segments: more dead cells, then the lower erase count, then the lower number. -/
def State.preferred (s : State) (v g : Seg) : Prop :=
  (s.seg g).dead < (s.seg v).dead ∨
    ((s.seg g).dead = (s.seg v).dead ∧ ((s.seg v).erases < (s.seg g).erases ∨ ((s.seg v).erases = (s.seg g).erases ∧ v ≤ g)))

/-- A choice from some segments: none when none is reclaimable, and else one that the order of R140 puts before every other. -/
def State.Chooses (s : State) (l : List Seg) : Option Seg → Prop
  | none => ∀ g ∈ l, ¬ s.reclaimable g
  | some v => v ∈ l ∧ s.reclaimable v ∧ ∀ g ∈ l, s.reclaimable g → s.preferred v g

theorem betterVictim_skip {best : Option Seg} (no : ¬ s.reclaimable g) : betterVictim s best g = best := if_neg no

theorem betterVictim_first (may : s.reclaimable g) : betterVictim s none g = some g := if_pos may

theorem betterVictim_next {b : Seg} (may : s.reclaimable g) :
    betterVictim s (some b) g =
      if (s.seg b).dead < (s.seg g).dead ∨ ((s.seg b).dead = (s.seg g).dead ∧ (s.seg g).erases < (s.seg b).erases) then some g else some b :=
  if_pos may

theorem State.preferred_trans {a b c : Seg} (ab : s.preferred a b) (bc : s.preferred b c) : s.preferred a c := by
  unfold State.preferred at *
  rw [Fin.le_def] at *
  omega

theorem State.preferred_refl (v : Seg) : s.preferred v v := .inr ⟨rfl, .inr ⟨rfl, le_rfl⟩⟩

/-- One more segment, above those chosen from, keeps the choice. -/
theorem State.Chooses.snoc {best : Option Seg} (chosen : s.Chooses l best) (above : ∀ x ∈ l, x < g) :
    s.Chooses (l ++ [g]) (betterVictim s best g) := by
  by_cases may : s.reclaimable g
  · cases best with
    | none =>
      rw [betterVictim_first may]
      refine ⟨by simp, may, fun x member eligible => ?_⟩
      rcases List.mem_append.mp member with before | here
      · exact absurd eligible (chosen x before)
      · rw [List.mem_singleton.mp here]
        exact State.preferred_refl g
    | some b =>
      obtain ⟨inside, reclaimable, first⟩ := chosen
      rw [betterVictim_next may]
      split_ifs with better
      · have beats : s.preferred g b := by unfold State.preferred; omega
        refine ⟨by simp, may, fun x member eligible => ?_⟩
        rcases List.mem_append.mp member with before | here
        · exact State.preferred_trans beats (first x before eligible)
        · rw [List.mem_singleton.mp here]
          exact State.preferred_refl g
      · have lower := Fin.lt_def.mp (above b inside)
        have stays : s.preferred b g := by
          unfold State.preferred
          rw [Fin.le_def]
          omega
        refine ⟨List.mem_append_left _ inside, reclaimable, fun x member eligible => ?_⟩
        rcases List.mem_append.mp member with before | here
        · exact first x before eligible
        · rw [List.mem_singleton.mp here]
          exact stays
  · rw [betterVictim_skip may]
    have same : ∀ x ∈ l ++ [g], s.reclaimable x → x ∈ l := fun x member eligible => by
      rcases List.mem_append.mp member with before | here
      · exact before
      · exact absurd (List.mem_singleton.mp here ▸ eligible) may
    cases best with
    | none => exact fun x member eligible => chosen x (same x member eligible) eligible
    | some b =>
      obtain ⟨inside, reclaimable, first⟩ := chosen
      exact ⟨List.mem_append_left _ inside, reclaimable, fun x member eligible => first x (same x member eligible) eligible⟩

theorem State.chooses_foldl (sorted : l.Pairwise (· < ·)) : s.Chooses l (l.foldl (betterVictim s) none) := by
  induction l using List.reverseRecOn with
  | nil => exact fun g member => absurd member List.not_mem_nil
  | append_singleton l g ih =>
    obtain ⟨before, -, above⟩ := List.pairwise_append.mp sorted
    rw [List.foldl_append]
    exact (ih before).snoc fun x member => above x member g (List.mem_singleton_self g)

theorem State.chooses_victim (s : State) : s.Chooses allSegs s.victim := State.chooses_foldl allSegs_sorted

theorem mem_allSegs (g : Seg) : g ∈ allSegs := List.mem_finRange g

theorem State.victim_none (s : State) : s.victim = none ↔ ∀ g, (s.seg g).state = .full → (s.seg g).dead = 0 := by
  have chooses := s.chooses_victim
  constructor
  · intro none g full
    rw [none] at chooses
    exact Nat.eq_zero_of_not_pos fun dead => chooses g (mem_allSegs g) ⟨full, dead⟩
  · intro no
    cases found : s.victim with
    | none => rfl
    | some v =>
      rw [found] at chooses
      obtain ⟨-, ⟨full, dead⟩, -⟩ := chooses
      exact absurd (no v full) (Nat.pos_iff_ne_zero.mp dead)

theorem State.victim_some (found : s.victim = some v) : s.reclaimable v ∧ ∀ g, s.reclaimable g → s.preferred v g := by
  have chooses := s.chooses_victim
  rw [found] at chooses
  obtain ⟨-, reclaimable, first⟩ := chooses
  exact ⟨reclaimable, fun g => first g (mem_allSegs g)⟩

end

/-! ## RECLAIM (R150) -/

section
variable {s : State} {p : Port} {c : Cmd} {v : Seg}

theorem State.doReclaim_ready (ready : s.store.state = .ready) : s.doReclaim p c = s.reclaimReady p c := by
  simp only [State.doReclaim, ready]

theorem State.reclaimReady_running (running : s.space.pass ≠ none) : s.reclaimReady p c = s.endCommand p (c.noPass 0xFF01#16) := by
  obtain ⟨q, pass⟩ := Option.ne_none_iff_exists'.mp running
  simp only [State.reclaimReady, pass]

theorem State.reclaimReady_noVictim (idle : s.space.pass = none) (none : s.victim = none) :
    s.reclaimReady p c = s.endCommand p (c.noPass 0xFF02#16) := by
  simp only [State.reclaimReady, idle, none]

theorem State.reclaimReady_victim (idle : s.space.pass = none) (found : s.victim = some v) :
    s.reclaimReady p c =
      if s.passFits v then (s.startPass v).endCommand p (c.nt .done Config.noKey 0 (nat16 v.val) (nat16 (s.seg v).live))
      else s.degrade.endCommand p (c.noPass 0xFF03#16) := by
  simp only [State.reclaimReady, idle, found]

theorem State.passFits_iff : s.passFits v = true ↔ (s.seg v).live ≤ s.space.frontFree.length + 31 * s.freeCount := decide_eq_true_iff

end

/-! ## The counts of STORE INFO (R170) -/

section
variable {s : State} {l : List Nat} {g : Seg} {n : Nat}

theorem foldl_min_le (l : List Nat) (a : Nat) : l.foldl min a ≤ a ∧ ∀ x ∈ l, l.foldl min a ≤ x := by
  induction l generalizing a with
  | nil => simp
  | cons y l ih =>
    obtain ⟨start, rest⟩ := ih (min a y)
    rw [List.foldl_cons]
    refine ⟨start.trans (min_le_left a y), fun x member => ?_⟩
    rcases List.mem_cons.mp member with rfl | later
    · exact start.trans (min_le_right a x)
    · exact rest x later

theorem foldl_min_mem (l : List Nat) (a : Nat) : l.foldl min a = a ∨ l.foldl min a ∈ l := by
  induction l generalizing a with
  | nil => exact .inl rfl
  | cons y l ih =>
    rw [List.foldl_cons]
    rcases ih (min a y) with here | later
    · rcases min_choice a y with left | right
      · exact .inl (here.trans left)
      · exact .inr (List.mem_cons.mpr (.inl (here.trans right)))
    · exact .inr (List.mem_cons_of_mem y later)

theorem le_foldl_max (l : List Nat) (a : Nat) : a ≤ l.foldl max a ∧ ∀ x ∈ l, x ≤ l.foldl max a := by
  induction l generalizing a with
  | nil => simp
  | cons y l ih =>
    obtain ⟨start, rest⟩ := ih (max a y)
    rw [List.foldl_cons]
    refine ⟨(le_max_left a y).trans start, fun x member => ?_⟩
    rcases List.mem_cons.mp member with rfl | later
    · exact (le_max_right a x).trans start
    · exact rest x later

theorem foldl_max_mem (l : List Nat) (a : Nat) : l.foldl max a = a ∨ l.foldl max a ∈ l := by
  induction l generalizing a with
  | nil => exact .inl rfl
  | cons y l ih =>
    rw [List.foldl_cons]
    rcases ih (max a y) with here | later
    · rcases max_choice a y with left | right
      · exact .inl (here.trans left)
      · exact .inr (List.mem_cons.mpr (.inl (here.trans right)))
    · exact .inr (List.mem_cons_of_mem y later)

theorem lowest_le (member : n ∈ l) : lowest l ≤ n := by
  cases l with
  | nil => exact absurd member List.not_mem_nil
  | cons x xs =>
    obtain ⟨start, rest⟩ := foldl_min_le xs x
    rcases List.mem_cons.mp member with rfl | later
    · exact start
    · exact rest n later

theorem lowest_mem (some : l ≠ []) : lowest l ∈ l := by
  cases l with
  | nil => exact absurd rfl some
  | cons x xs =>
    rcases foldl_min_mem xs x with first | later
    · exact List.mem_cons.mpr (.inl first)
    · exact List.mem_cons_of_mem x later

theorem le_highest (member : n ∈ l) : n ≤ highest l := (le_foldl_max l 0).2 n member

theorem highest_mem (some : l ≠ []) : highest l ∈ l := by
  rcases foldl_max_mem l 0 with zero | member
  · obtain ⟨x, member⟩ := List.exists_mem_of_ne_nil l some
    have : x = highest l := by
      have := le_highest member
      rw [highest, zero] at this ⊢
      omega
    exact this ▸ member
  · exact member

theorem SegRow.known_iff (r : SegRow) : r.known = true ↔ r.state ≠ .retired ∧ r.state ≠ .unknown ∧ r.state ≠ .unlisted := by
  rw [SegRow.known, Bool.and_eq_true, Bool.and_eq_true, bne_iff_ne, bne_iff_ne, bne_iff_ne, and_assoc]

theorem State.mem_knownCounts : n ∈ s.knownCounts ↔ ∃ g, (s.seg g).known = true ∧ (s.seg g).erases = n := by
  simp only [State.knownCounts, segRows_toList, List.mem_map, List.mem_filter, List.mem_finRange, true_and]
  constructor
  · rintro ⟨r, ⟨⟨g, rfl⟩, known⟩, erases⟩
    exact ⟨g, known, erases⟩
  · rintro ⟨g, known, erases⟩
    exact ⟨s.seg g, ⟨⟨g, rfl⟩, known⟩, erases⟩

theorem State.front_state (front : s.front = some g) : (s.seg g).state = .front := by
  have here := List.find?_some (show allSegs.find? (fun g => (s.seg g).state == .front) = some g from front)
  exact beq_iff_eq.mp here

theorem State.front_none (none : s.front = none) (g : Seg) : (s.seg g).state ≠ .front := fun here =>
  List.find?_eq_none.mp none g (mem_allSegs g) (beq_iff_eq.mpr here)

/-- The fields of the STORE INFO block at their offsets (Table 11-9). -/
theorem State.infoBlock_fields (s : State) :
    s.infoBlock.getD 0 0 = storeCode s.store.state ∧ s.infoBlock.getD 1 0 = stageCode s.space.pass ∧
      half16 s.infoBlock 2 = s.store.generation ∧ half16 s.infoBlock 4 = nat16 (s.countEntries .live) ∧
      half16 s.infoBlock 6 = nat16 (s.countEntries .gone) ∧ half16 s.infoBlock 8 = nat16 s.freeCount ∧
      half16 s.infoBlock 10 = nat16 (s.countSegs .full) ∧ half16 s.infoBlock 12 = nat16 (s.countSegs .retired) ∧
      half16 s.infoBlock 14 = segHalf s.shownFront ∧ half16 s.infoBlock 16 = segHalf (s.space.pass.map Pass.victim) ∧
      half16 s.infoBlock 18 = nat16 (lowest s.knownCounts) ∧ half16 s.infoBlock 20 = nat16 (highest s.knownCounts) ∧
      word32 s.infoBlock 22 = s.engine.seq ∧ s.infoBlock.getD 26 0 = BitVec.ofNat 8 s.guard.settings.threshold ∧
      s.infoBlock.drop 27 = [0, 0, 0, 0, 0] := by
  rw [State.infoBlock]
  generalize nat16 (s.countEntries .live) = live, nat16 (s.countEntries .gone) = gone, nat16 s.freeCount = free,
    nat16 (s.countSegs .full) = full, nat16 (s.countSegs .retired) = retired, segHalf s.shownFront = front,
    nat16 (lowest s.knownCounts) = low, nat16 (highest s.knownCounts) = high
  simp only [bytes16, bytes32, List.cons_append, List.nil_append]
  exact ⟨rfl, rfl, join16_bytes16 s.store.generation, join16_bytes16 live, join16_bytes16 gone, join16_bytes16 free, join16_bytes16 full,
    join16_bytes16 retired, join16_bytes16 front, join16_bytes16 _, join16_bytes16 low, join16_bytes16 high, join32_bytes32 s.engine.seq,
    rfl, rfl⟩

theorem segHalf_toNat (g : Seg) : (segHalf (some g)).toNat = g.val := nat16_toNat (g.isLt.trans (by decide))

end

/-- Settles O45: RECLAIM in its cases with the victim of R140, and the STORE INFO block field by field. -/
theorem reclaimAndStoreInfo : Obligations.ReclaimAndStoreInfo := by
  refine ⟨fun s p c h code ready => ?_, fun s => ⟨s.victim_none, fun v found => ?_⟩, fun s p c h code within => ?_,
    fun s => ⟨rfl, fun g => State.front_state, State.front_none⟩, fun s => ⟨fun g => (s.seg g).known = true, fun g => SegRow.known_iff _, ?_⟩,
    fun s st => ⟨rfl, rfl, rfl⟩, fun s x => rfl, ⟨rfl, fun q => rfl⟩, rfl, segHalf_toNat⟩
  · have row : exec .reclaim s = .next (s.reclaimReady p c).settle := by rw [exec_reclaim h code, State.doReclaim_ready ready]
    refine ⟨fun running => ?_, fun idle none => ?_, fun v idle found => ⟨fun tooMany => ?_, fun fits => ?_⟩⟩
    · rw [row, State.reclaimReady_running running]
      rfl
    · rw [row, State.reclaimReady_noVictim idle none]
      rfl
    · rw [row, State.reclaimReady_victim idle found, if_neg fun fits => Nat.not_le.mpr tooMany (State.passFits_iff.mp fits)]
      rfl
    · rw [row, State.reclaimReady_victim idle found, if_pos (State.passFits_iff.mpr fits)]
      rfl
  · obtain ⟨⟨full, dead⟩, first⟩ := State.victim_some found
    exact ⟨full, dead, fun g gFull gDead => first g ⟨gFull, gDead⟩⟩
  · have passes : checkStoreInfo c = none := by rw [checkStoreInfo_eq, if_neg (Nat.not_lt.mpr within)]
    refine ⟨s.infoBlock, rfl, ?_, s.infoBlock_fields⟩
    rw [exec_storeInfo h code, State.doStoreInfo, State.checked_of_none passes]
    rfl
  · refine ⟨fun noneKnown => ?_, fun ⟨g, known⟩ => ?_, fun g known => ⟨lowest_le (State.mem_knownCounts.mpr ⟨g, known, rfl⟩),
      le_highest (State.mem_knownCounts.mpr ⟨g, known, rfl⟩)⟩⟩
    · have empty : s.knownCounts = [] := List.eq_nil_iff_forall_not_mem.mpr fun n member =>
        let ⟨g, known, _⟩ := State.mem_knownCounts.mp member
        noneKnown g known
      rw [empty]
      exact ⟨rfl, rfl⟩
    · have some : s.knownCounts ≠ [] := List.ne_nil_of_mem (State.mem_knownCounts.mpr ⟨g, known, rfl⟩)
      exact ⟨State.mem_knownCounts.mp (lowest_mem some), State.mem_knownCounts.mp (highest_mem some)⟩

end Sys2Proof.Machine

/-! SUPPORT. FORMAT's checks and its acceptance. -/

namespace Sys2Proof.Machine

/-! ## Offers and parked scans at one port -/

section
variable {u : PortUnit} {s : State} {p q : Port} {e : Event} {es : List Event} {sl : Slot} {rs : List Result}

/-- What an offer leaves of a port; its flags stand. -/
theorem PortUnit.offer_rest (u : PortUnit) (e : Event) :
    (u.offer e).commands = u.commands ∧ (u.offer e).buffer = u.buffer ∧ (u.offer e).flags &&& u.flags = u.flags ∧
      (u.offer e).enables = u.enables ∧ (u.offer e).state = u.state ∧ (u.offer e).slot = u.slot ∧ (u.offer e).results = u.results := by
  cases state : u.state with
  | resetting =>
    rw [PortUnit.offer_resetting state]
    exact ⟨rfl, rfl, BitVec.and_self, rfl, state, rfl, rfl⟩
  | active =>
    cases merge : mergeInto u.events e with
    | some es =>
      simp only [PortUnit.offer, state, merge]
      exact ⟨trivial, trivial, BitVec.and_self, trivial, trivial, trivial, trivial⟩
    | none =>
      rw [PortUnit.offer_waits state merge]
      split_ifs
      · exact ⟨rfl, rfl, BitVec.and_self, rfl, state, rfl, rfl⟩
      · exact ⟨rfl, rfl, BitVec.or_and_self' _ _, rfl, state, rfl, rfl⟩

theorem PortUnit.offers_rest (es : List Event) (u : PortUnit) :
    (es.foldl PortUnit.offer u).commands = u.commands ∧ (es.foldl PortUnit.offer u).buffer = u.buffer ∧
      (es.foldl PortUnit.offer u).flags &&& u.flags = u.flags ∧ (es.foldl PortUnit.offer u).enables = u.enables := by
  induction es generalizing u with
  | nil => exact ⟨rfl, rfl, BitVec.and_self, rfl⟩
  | cons e es ih =>
    obtain ⟨commands, buffer, flags, enables, -⟩ := u.offer_rest e
    obtain ⟨commands', buffer', flags', enables'⟩ := ih (u.offer e)
    refine ⟨commands'.trans commands, buffer'.trans buffer, ?_, enables'.trans enables⟩
    rw [List.foldl_cons]
    calc _ = (es.foldl PortUnit.offer (u.offer e)).flags &&& ((u.offer e).flags &&& u.flags) := by rw [flags]
      _ = (u.offer e).flags &&& u.flags := by rw [← BitVec.and_assoc, flags']
      _ = u.flags := flags

/-- A port with its slot and its results replaced. -/
def PortUnit.withEnd (u : PortUnit) (sl : Slot) (rs : List Result) : PortUnit := { u with slot := sl, results := rs }

/-- An offer neither reads nor changes the slot and the results. -/
theorem PortUnit.offer_withEnd (u : PortUnit) (e : Event) : (u.withEnd sl rs).offer e = (u.offer e).withEnd sl rs := by
  obtain ⟨state, frame, dataOut, buffer, commands, slot, results, events, flags, enables⟩ := u
  cases state with
  | resetting => rfl
  | active =>
    simp only [PortUnit.withEnd, PortUnit.offer]
    cases mergeInto events e with
    | some es => rfl
    | none =>
      by_cases room : events.length < Config.eventPlaces <;> simp only [room, if_true, if_false]

theorem PortUnit.offers_withEnd (es : List Event) (u : PortUnit) :
    es.foldl PortUnit.offer (u.withEnd sl rs) = (es.foldl PortUnit.offer u).withEnd sl rs := by
  induction es generalizing u with
  | nil => rfl
  | cons e es ih => rw [List.foldl_cons, List.foldl_cons, PortUnit.offer_withEnd, ih]

/-- A port whose parked scan has ended AX STATE_CHANGED (R101). -/
def PortUnit.scanEnded (u : PortUnit) : PortUnit :=
  match u.slot with
  | .parked c k => u.deposit (k.result c .abandoned .stateChanged)
  | _ => u

theorem PortUnit.deposit_eq (u : PortUnit) (r : Result) :
    u.deposit r = u.withEnd .none (if u.state = .active then u.results ++ [r] else u.results) := by
  unfold PortUnit.deposit PortUnit.withEnd
  cases u.state <;> simp

theorem PortUnit.scanEnded_eq (u : PortUnit) : ∃ sl rs, u.scanEnded = u.withEnd sl rs := by
  unfold PortUnit.scanEnded
  split
  · exact ⟨_, _, u.deposit_eq _⟩
  · exact ⟨u.slot, u.results, rfl⟩

theorem PortUnit.scanEnded_parked {c : Cmd} {k : ScanCtx} (parked : u.slot = .parked c k) (active : u.state = .active) :
    u.scanEnded = u.withEnd .none (u.results ++ [k.result c .abandoned .stateChanged]) := by
  unfold PortUnit.scanEnded
  rw [parked]
  exact (u.deposit_eq _).trans (by rw [if_pos active])

/-! ## Offers and parked scans of all ports -/

theorem State.enterStore_port (s : State) (st : StoreState) (q : Port) :
    (s.enterStore st).port q = (s.port q).offer (.storeState st s.store.generation) := by
  have offers := foldl_offer_port allPorts_nodup (s.setStoreState st) (.storeState st s.store.generation) q
  rw [if_pos (mem_allPorts q)] at offers
  exact offers

theorem State.enterStore_ports (s : State) (st : StoreState) :
    s.enterStore st = { s with ports := (s.enterStore st).ports, store := { s.store with state := st } } :=
  foldl_offer_ports allPorts (s.setStoreState st) (.storeState st s.store.generation)

theorem State.endParked_port (s : State) (p q : Port) : (s.endParked p).port q = if q = p then (s.port q).scanEnded else s.port q := by
  unfold State.endParked PortUnit.scanEnded
  by_cases here : q = p
  · subst here
    rw [if_pos rfl]
    cases (s.port q).slot with
    | parked c k => exact State.setPort_port ..
    | none => rfl
    | executing => rfl
  · rw [if_neg here]
    cases (s.port p).slot with
    | parked c k => exact State.setPort_port_other _ _ here
    | none => rfl
    | executing => rfl

theorem State.endParked_ports (s : State) (p : Port) : s.endParked p = { s with ports := (s.endParked p).ports } := by
  unfold State.endParked
  split <;> rfl

/-- A fold that changes the ports alone at every step changes the ports alone. -/
theorem foldl_ports {α : Type} {f : State → α → State} (only : ∀ s x, f s x = { s with ports := (f s x).ports }) (l : List α) (s : State) :
    l.foldl f s = { s with ports := (l.foldl f s).ports } := by
  induction l generalizing s with
  | nil => rfl
  | cons x l ih =>
    rw [List.foldl_cons, ih, only s x]

/-- The CLAIM_LOST events that a list of claims gives a port, in the order of the list (R114). -/
def lossEvents (cs : List Claim) (q : Port) (cause : LossCause) : List Event :=
  (cs.filter (fun x => x.holder == q)).map (fun x => Event.claimLost x.key q cause)

theorem foldl_offerLoss_port (cs : List Claim) (cause : LossCause) (s : State) (q : Port) :
    (cs.foldl (fun s x => s.offerLoss cause x) s).port q = (lossEvents cs q cause).foldl PortUnit.offer (s.port q) := by
  induction cs generalizing s with
  | nil => rfl
  | cons x cs ih =>
    rw [List.foldl_cons, ih]
    by_cases here : x.holder = q
    · subst here
      rw [lossEvents, lossEvents, List.filter_cons_of_pos (by simp), List.map_cons, List.foldl_cons]
      congr 1
      exact State.setPort_port ..
    · rw [lossEvents, lossEvents, List.filter_cons_of_neg (by simpa using here)]
      congr 1
      exact State.setPort_port_other _ _ (Ne.symm here)

theorem State.endScansAndClaims_port (s : State) (q : Port) :
    s.endScansAndClaims.port q = (lossEvents s.coord.claims q .format).foldl PortUnit.offer (s.port q).scanEnded := by
  have scans : (allPorts.foldl State.endParked s).port q = (s.port q).scanEnded := by
    have fold := foldl_port (s := s) (f := State.endParked) (g := fun _ u => u.scanEnded) (inv := fun _ => True) (fun _ _ _ => trivial)
      (fun s p q _ => s.endParked_port p q) allPorts_nodup trivial q
    rwa [if_pos (mem_allPorts q)] at fold
  have claims : (allPorts.foldl State.endParked s).coord.claims = s.coord.claims := by
    rw [foldl_ports State.endParked_ports]
  rw [State.endScansAndClaims, foldl_offerLoss_port, claims]
  exact congrArg (fun u => (lossEvents s.coord.claims q .format).foldl PortUnit.offer u) scans

theorem State.endScansAndClaims_eq (s : State) :
    s.endScansAndClaims = { s with ports := s.endScansAndClaims.ports, coord := { s.coord with claims := [] } } := by
  rw [State.endScansAndClaims, foldl_ports (fun s x => rfl), foldl_ports State.endParked_ports]
  rfl

end

/-! ## The acceptance (R166) -/

section
variable {s t : State} {p q : Port} {c : Cmd} {g h : Seg} {x : Pass}

theorem State.formatAbandon_idle (idle : s.space.pass = none) : s.formatAbandon = s := by
  simp only [State.formatAbandon, idle]

theorem State.formatAbandon_pass (pass : s.space.pass = some x) :
    s.formatAbandon =
      if (s.seg x.victim).state = .victim then (s.withdrawSpace.setPass none).setSegState x.victim .full else s.withdrawSpace.setPass none := by
  simp only [State.formatAbandon, pass]
  rfl

/-- What an abandoned pass leaves: all but the waiting request, the pass and its victim's row (R146). -/
theorem State.formatAbandon_eq (s : State) :
    s.formatAbandon =
      { s with
        space := { s.space with pass := none, segs := s.formatAbandon.space.segs }
        array := { s.array with waitSpace := if s.space.pass = none then s.array.waitSpace else none } } := by
  cases pass : s.space.pass with
  | none =>
    rw [State.formatAbandon_idle pass, if_pos rfl, ← pass]
  | some x =>
    rw [State.formatAbandon_pass pass, if_neg (Option.some_ne_none x)]
    by_cases victim : (s.seg x.victim).state = .victim
    · rw [if_pos victim]
      rfl
    · rw [if_neg victim]
      rfl

theorem State.formatAbandon_victim (pass : s.space.pass = some x) (victim : (s.seg x.victim).state = .victim) :
    s.formatAbandon.seg x.victim = { s.seg x.victim with state := .full } := by
  rw [State.formatAbandon_pass pass, if_pos victim, State.setSegState, State.seg_setSeg, if_pos rfl]
  rfl

theorem State.formatAbandon_other (other : ∀ q, s.space.pass = some q → q.victim = h → (s.seg h).state ≠ .victim) :
    s.formatAbandon.seg h = s.seg h := by
  cases pass : s.space.pass with
  | none => rw [State.formatAbandon_idle pass]
  | some x =>
    rw [State.formatAbandon_pass pass]
    split_ifs with victim
    · rw [State.setSegState, State.seg_setSeg, if_neg fun here => other x pass here (here ▸ victim)]
      rfl
    · rfl

/-- An abandoned pass leaves which segments are retired, and every erase count. -/
theorem State.formatAbandon_row (s : State) (h : Seg) :
    ((s.formatAbandon.seg h).state = .retired ↔ (s.seg h).state = .retired) ∧ (s.formatAbandon.seg h).erases = (s.seg h).erases := by
  by_cases abandoned : ∃ x, s.space.pass = some x ∧ x.victim = h ∧ (s.seg h).state = .victim
  · obtain ⟨x, pass, rfl, victim⟩ := abandoned
    rw [State.formatAbandon_victim pass victim, victim]
    simp
  · rw [State.formatAbandon_other fun x pass here victim => abandoned ⟨x, pass, here, victim⟩]
    exact ⟨Iff.rfl, rfl⟩

/-- The machine as an accepted FORMAT leaves it before its first request (R166). -/
def State.cleared (s : State) (p : Port) (c : Cmd) : State :=
  let t := ((s.setWork (.formatting p c)).enterStore .formatting).endScansAndClaims.formatAbandon
  (((t.setDir []).setMove none).setGeneration (t.store.generation + 1)).setFrontFree []

/-- The events that the acceptance gives a port: STORE_STATE, then CLAIM_LOST for each of its claims (R114, R154). -/
def State.formatOffers (s : State) (q : Port) : PortUnit :=
  (lossEvents s.coord.claims q .format).foldl PortUnit.offer ((s.port q).offer (.storeState .formatting s.store.generation))

theorem State.cleared_port (s : State) (p : Port) (c : Cmd) (q : Port) :
    (s.cleared p c).port q =
      (lossEvents s.coord.claims q .format).foldl PortUnit.offer
        ((s.port q).offer (.storeState .formatting s.store.generation)).scanEnded := by
  have start := ((s.setWork (.formatting p c)).enterStore .formatting).endScansAndClaims_port q
  rw [State.enterStore_port] at start
  have abandon := ((s.setWork (.formatting p c)).enterStore .formatting).endScansAndClaims.formatAbandon_eq
  rw [State.cleared, abandon]
  exact start

/-- The other parts of the machine once a FORMAT is accepted. -/
theorem State.cleared_eq (s : State) (p : Port) (c : Cmd) :
    s.cleared p c =
      { s with
        ports := (s.cleared p c).ports
        engine := { s.engine with work := .formatting p c, dir := [], move := none }
        coord := { s.coord with claims := [] }
        space := { s.space with pass := none, segs := s.formatAbandon.space.segs, frontFree := [] }
        array := { s.array with waitSpace := if s.space.pass = none then s.array.waitSpace else none }
        store := { s.store with state := .formatting, generation := s.store.generation + 1 } } := by
  have segs : ∀ t : State, t.space = s.space → t.formatAbandon.space.segs = s.formatAbandon.space.segs := fun t same => by
    cases pass : s.space.pass with
    | none => rw [State.formatAbandon_idle pass, State.formatAbandon_idle (same ▸ pass), same]
    | some x =>
      rw [State.formatAbandon_pass pass, State.formatAbandon_pass (same ▸ pass), State.seg, State.seg, same]
      split_ifs
      · simp only [State.setSegState, State.setSeg, State.seg, State.setPass, State.withdrawSpace, State.setSegs, same]
      · show t.space.segs = s.space.segs
        rw [same]
  have start := ((s.setWork (.formatting p c)).enterStore .formatting).endScansAndClaims_eq
  have abandon := ((s.setWork (.formatting p c)).enterStore .formatting).endScansAndClaims.formatAbandon_eq
  rw [segs _ (by rw [start, State.enterStore_ports]; rfl)] at abandon
  have ports : (s.cleared p c).ports = ((s.setWork (.formatting p c)).enterStore .formatting).endScansAndClaims.ports := by
    rw [State.cleared, abandon]
    rfl
  rw [ports, State.cleared, abandon]
  generalize ((s.setWork (.formatting p c)).enterStore .formatting).endScansAndClaims.ports = ports at start ⊢
  rw [start, State.enterStore_ports]
  rfl

theorem State.acceptFormat_eq (s : State) (p : Port) (c : Cmd) : s.acceptFormat p c = (s.cleared p c).formatErases 0 [] := rfl

theorem State.cleared_parts (s : State) (p : Port) (c : Cmd) :
    (s.cleared p c).store.state = .formatting ∧ (s.cleared p c).store.generation = s.store.generation + 1 ∧
      (s.cleared p c).engine = { s.engine with work := .formatting p c, dir := [], move := none } ∧
      (s.cleared p c).coord = { s.coord with claims := [] } ∧ (s.cleared p c).guard = s.guard ∧
      (s.cleared p c).array = { s.array with waitSpace := if s.space.pass = none then s.array.waitSpace else none } ∧
      (s.cleared p c).space.pass = none ∧ (s.cleared p c).space.frontFree = [] := by
  rw [State.cleared_eq]
  exact ⟨rfl, rfl, rfl, rfl, rfl, rfl, rfl, rfl⟩

theorem State.cleared_seg (s : State) (p : Port) (c : Cmd) (h : Seg) : (s.cleared p c).seg h = s.formatAbandon.seg h := by
  rw [State.seg, State.cleared_eq]
  rfl

/-- The accepted port is the port after its events but for its slot and its results; a parked scan has ended there (R101). -/
theorem State.cleared_port_end (s : State) (p : Port) (c : Cmd) (q : Port) :
    ∃ sl rs, (s.cleared p c).port q = (s.formatOffers q).withEnd sl rs ∧
      ∀ x k, (s.port q).slot = .parked x k → (s.port q).state = .active →
        sl = .none ∧ rs = (s.port q).results ++ [k.result x .abandoned .stateChanged] := by
  obtain ⟨-, -, -, -, state, slot, results⟩ := (s.port q).offer_rest (.storeState .formatting s.store.generation)
  by_cases parked : ∃ x k, (s.port q).slot = .parked x k ∧ (s.port q).state = .active
  · obtain ⟨x, k, parked, active⟩ := parked
    refine ⟨.none, (s.port q).results ++ [k.result x .abandoned .stateChanged], ?_, fun x' k' parked' _ => ?_⟩
    · rw [State.cleared_port, PortUnit.scanEnded_parked (slot.trans parked) (state.trans active), PortUnit.offers_withEnd, results]
      rfl
    · obtain ⟨rfl, rfl⟩ := Slot.parked.inj (parked.symm.trans parked')
      exact ⟨rfl, rfl⟩
  · obtain ⟨sl, rs, ended⟩ := ((s.port q).offer (.storeState .formatting s.store.generation)).scanEnded_eq
    refine ⟨sl, rs, ?_, fun x k isParked active => absurd ⟨x, k, isParked, active⟩ parked⟩
    rw [State.cleared_port, ended, PortUnit.offers_withEnd]
    rfl

/-- The end of a command changes at most the slot and the results of a port. -/
theorem State.endCommand_port_end (s : State) (p : Port) (r : Result) (q : Port) : ∃ sl rs, (s.endCommand p r).port q = (s.port q).withEnd sl rs := by
  by_cases here : q = p
  · subst here
    refine ⟨_, _, Eq.trans ?_ ((s.port q).deposit_eq r)⟩
    rw [State.endCommand, State.setWork_port, State.setPort_port]
  · refine ⟨(s.port q).slot, (s.port q).results, ?_⟩
    rw [State.endCommand, State.setWork_port, State.setPort_port_other _ _ here]
    rfl

/-- What the events of the acceptance leave of a port. -/
theorem State.formatOffers_rest (s : State) (q : Port) :
    (s.formatOffers q).commands = (s.port q).commands ∧ (s.formatOffers q).buffer = (s.port q).buffer ∧
      (s.formatOffers q).flags &&& (s.port q).flags = (s.port q).flags ∧ (s.formatOffers q).enables = (s.port q).enables :=
  PortUnit.offers_rest (.storeState .formatting s.store.generation :: lossEvents s.coord.claims q .format) (s.port q)

end

/-! ## The erases (R167) -/

section
variable {s : State} {p : Port} {c : Cmd} {n : Nat} {g : Seg} {rest : List Seg}

theorem State.formatErases_owes (s : State) (n : Nat) (g : Seg) (rest : List Seg) :
    s.formatErases n (g :: rest) = (s.setProgress (.formatting (.retireMark g n rest))).presentStore (.programMark ⟨g, 0⟩ .first) := rfl

theorem State.formatErases_next (above : n ≤ g.val) (usable : (s.seg g).state ≠ .retired)
    (first : ∀ h : Seg, n ≤ h.val → h < g → (s.seg h).state = .retired) :
    s.formatErases n [] =
      (s.setProgress (.formatting (.erase g []))).presentStore (.eraseSegment g s.store.generation ((s.seg g).erases + 1)) := by
  have found : s.erasableFrom n = some g := allSegs_find_first (by simp [above, usable]) fun h lower => by
    by_cases reached : n ≤ h.val
    · simp [first h reached lower]
    · simp [reached]
  simp only [State.formatErases, found]
  rfl

theorem State.formatErases_writes (none : ∀ g : Seg, n ≤ g.val → (s.seg g).state = .retired) : s.formatErases n [] = s.formatWrite 1 := by
  have found : s.erasableFrom n = .none := allSegs_find_none fun h => by
    by_cases reached : n ≤ h.val
    · simp [none h reached]
    · simp [reached]
  simp only [State.formatErases, found]

theorem State.bestFree_none (none : ∀ g, (s.seg g).state ≠ .free) : s.bestFree = .none := by
  cases found : s.bestFree with
  | none => rfl
  | some g =>
    have fold := betterFree_fold s allSegs .none allSegs_sorted (fun x h => nomatch h)
    rw [show allSegs.foldl (betterFree s) .none = some g from found] at fold
    exact absurd fold.1 (none g)

/-- With no front and no FREE segment there is no cell to grant. -/
theorem State.copyGrant_none (full : s.front = none ∨ s.space.frontFree = []) (none : ∀ g, (s.seg g).state ≠ .free) : s.copyGrant = .none := by
  rw [State.copyGrant_opens full, State.takeNewFront, State.bestFree_none none]

theorem State.formatWrite_none (grant : s.copyGrant = none) : s.formatWrite n = s.formatFailed 0 := by
  simp only [State.formatWrite, grant]

theorem State.endFormat_eq {r : Cmd → Result} (work : s.engine.work = .formatting p c) : s.endFormat r = s.endCommand p (r c) := by
  simp only [State.endFormat, State.formatCmd, work]

/-- A FORMAT that fails: the default guards, UNFORMATTED, and its result (R168). -/
theorem State.formatFailed_eq (work : s.engine.work = .formatting p c) (aux : Half) :
    s.formatFailed aux =
      ((((s.setGuard { settings := Settings.default, standing := .defaulted, session := s.guard.session }).setProgress .none).enterStore
        .unformatted).endCommand p (c.at_ .programFail 0xFFFF#16 (generationField s.store.generation) 0 aux)) := by
  rw [State.formatFailed, State.endFormat_eq (p := p) (c := c) (by exact work)]
  rfl

end

/-! ## The checks (Table 9-6) -/

section
variable {s : State} {p : Port} {c : Cmd} {aux : Half} {e : Entry} {rest : List Entry}

theorem State.formatChecks_guarded (guarded : s.unguarded p = false) :
    s.formatChecks p c = s.endGuarded p (c.at_ .guarded Config.noKey (generationField s.store.generation) 0 0) :=
  if_pos guarded

theorem State.formatChecks_locked (free : s.unguarded p = true) (locked : s.lockCheck = some aux) :
    s.formatChecks p c = s.endCommand p (c.at_ .locked Config.noKey (generationField s.store.generation) 0 aux) := by
  simp only [State.formatChecks, free, locked]
  rfl

theorem State.formatChecks_permanent (free : s.unguarded p = true) (unlocked : s.lockCheck = none)
    (permanent : livePermanent s.engine.dir = e :: rest) :
    s.formatChecks p c =
      s.endCommand p (c.at_ .permanent e.key (generationField s.store.generation) (nat16 (rest.length + 1)) 0) := by
  simp only [State.formatChecks, free, unlocked, permanent]
  rfl

theorem State.formatChecks_last (free : s.unguarded p = true) (unlocked : s.lockCheck = none) (clear : livePermanent s.engine.dir = []) :
    s.formatChecks p c =
      if s.store.generation = 0xFFFF#16 then
        s.endCommand p (c.at_ .generationExhausted Config.noKey (generationField s.store.generation) 0 0)
      else s.acceptFormat p c := by
  simp only [State.formatChecks, free, unlocked, clear]
  rfl

/-- An accepted FORMAT with a usable segment: it awaits the erase of the lowest one. -/
theorem State.acceptFormat_erases {g : Seg} (usable : (s.seg g).state ≠ .retired) (first : ∀ h, h < g → (s.seg h).state = .retired) :
    s.acceptFormat p c =
      ((s.cleared p c).setProgress (.formatting (.erase g []))).presentStore
        (.eraseSegment g (s.store.generation + 1) ((s.seg g).erases + 1)) := by
  have row : ∀ h, (((s.cleared p c).seg h).state = .retired ↔ (s.seg h).state = .retired) ∧ ((s.cleared p c).seg h).erases = (s.seg h).erases :=
    fun h => by
      rw [State.cleared_seg]
      exact s.formatAbandon_row h
  have generation : (s.cleared p c).store.generation = s.store.generation + 1 := by rw [State.cleared_eq]
  rw [State.acceptFormat_eq, State.formatErases_next (Nat.zero_le g.val) ((row g).1.not.mpr usable) fun h _ lower => (row h).1.mpr (first h lower),
    (row g).2, generation]

/-- An accepted FORMAT with every segment retired fails at its configuration write, which finds no cell (R168). -/
theorem State.acceptFormat_fails (retired : ∀ g, (s.seg g).state = .retired) : s.acceptFormat p c = (s.cleared p c).formatFailed 0 := by
  have row : ∀ h, ((s.cleared p c).seg h).state = .retired := fun h => by
    rw [State.cleared_seg]
    exact (s.formatAbandon_row h).1.mpr (retired h)
  have free : (s.cleared p c).space.frontFree = [] := by rw [State.cleared_eq]
  rw [State.acceptFormat_eq, State.formatErases_writes fun g _ => row g,
    State.formatWrite_none (State.copyGrant_none (.inr free) fun g => by rw [row g]; decide)]

end

/-- Settles O46: FORMAT's checks in the order of Table 9-6, and its acceptance as `State.cleared` with its first request. -/
theorem formatIsDecided : Obligations.FormatIsDecided := by
  intro s p c h code passes
  have row : exec .format s = .next (s.formatChecks p c).settle := by rw [exec_format h code, State.doFormat_checks passes]
  refine ⟨fun guarded => ?_, fun free => ⟨fun aux locked => ?_, fun unlocked => ⟨fun e rest permanent => ?_, fun clear =>
    ⟨fun last => ?_, fun more => ⟨fun g first usable => ?_, fun retired => ?_⟩⟩⟩⟩⟩
  · rw [row, State.formatChecks_guarded guarded]
    rfl
  · rw [row, State.formatChecks_locked free locked]
    rfl
  · rw [row, State.formatChecks_permanent free unlocked permanent]
  · rw [row, State.formatChecks_last free unlocked clear, if_pos last]
    rfl
  · rw [row, State.formatChecks_last free unlocked clear, if_neg more, State.acceptFormat_erases usable first]
    obtain ⟨state, generation, engine, coord, guard, array, pass, frontFree⟩ := s.cleared_parts p c
    have port := s.cleared_port_end p c
    have seg := s.cleared_seg p c
    generalize s.cleared p c = d at *
    refine ⟨_, rfl, state, (congrArg Engine.work engine :), rfl, generation, (congrArg Engine.dir engine :), (congrArg Engine.move engine :),
      (congrArg Coord.claims coord :), (congrArg Coord.watches coord :), pass, guard, (congrArg ArrayCtl.cells array :), (congrArg Engine.seq engine :),
      fun q => ?_, fun q => ⟨_, rfl, ?_⟩, fun q running => (congrArg ArrayCtl.waitSpace array :).trans (if_neg (by simp [running])),
      fun idle => (congrArg ArrayCtl.waitSpace array :).trans (if_pos idle), (congrArg ArrayCtl.inFlight array :), (congrArg ArrayCtl.erase array :),
      frontFree, fun q running victim => (seg q.victim).trans (State.formatAbandon_victim running victim),
      fun h other => (seg h).trans (State.formatAbandon_other other), fun q x k parked active => ?_⟩
    · obtain ⟨sl, rs, port, -⟩ := port q
      show (d.port q).commands = _ ∧ (d.port q).buffer = _ ∧ (d.port q).flags &&& _ = _ ∧
        (d.port q).enables = _
      rw [port]
      exact s.formatOffers_rest q
    · obtain ⟨sl, rs, port, -⟩ := port q
      show (d.port q).events = _ ∧ (d.port q).flags = _ ∧ (d.port q).frame = _
      rw [port]
      exact ⟨rfl, rfl, rfl⟩
    · obtain ⟨sl, rs, port, ended⟩ := port q
      obtain ⟨rfl, rfl⟩ := ended x k parked active
      show (d.port q).slot = _ ∧ (d.port q).results = _
      rw [port]
      exact ⟨rfl, rfl⟩
  · rw [row, State.formatChecks_last free unlocked clear, if_neg more, State.acceptFormat_fails retired]
    obtain ⟨state, generation, engine, coord, guard, array, pass, frontFree⟩ := s.cleared_parts p c
    have port := s.cleared_port_end p c
    generalize s.cleared p c = d at *
    rw [State.formatFailed_eq (congrArg Engine.work engine)]
    refine ⟨_, rfl, rfl, rfl, (congrArg Engine.dir engine :), ?_, (congrArg ArrayCtl.cells array :), (congrArg Coord.claims coord :), generation,
      fun q => ⟨_, rfl, ?_⟩⟩
    · rw [guard]
      rfl
    · obtain ⟨sl, rs, port, -⟩ := port q
      obtain ⟨sl', rs', ended⟩ := ((((d.setGuard
        { settings := Settings.default, standing := .defaulted, session := d.guard.session }).setProgress .none).enterStore
          .unformatted)).endCommand_port_end p
            (c.at_ .programFail 0xFFFF#16 (generationField d.store.generation) 0 0) q
      rw [ended, State.enterStore_port]
      show ((d.port q).offer (.storeState .unformatted d.store.generation)).events = _ ∧
        ((d.port q).offer (.storeState .unformatted d.store.generation)).flags = _ ∧
        ((d.port q).offer (.storeState .unformatted d.store.generation)).frame = _
      rw [port, generation, PortUnit.offer_withEnd]
      exact ⟨rfl, rfl, rfl⟩

end Sys2Proof.Machine

/-! SUPPORT. FORMAT's erases, its configuration write, and its end. -/

namespace Sys2Proof.Machine

/-! ## Deliveries to FORMAT -/

section
variable {s t : State} {p : Port} {c : Cmd} {n : Nat} {g h : Seg} {rest owes : List Seg} {pos : Pos} {ok : Bool} {f : FormatAwaits}

theorem State.deliverMark_formatting (progress : s.store.progress = .formatting f) : s.deliverMark .store pos ok = s.formatMark f ok := by
  simp only [State.deliverMark, progress]

theorem State.deliverBody_formatting (progress : s.store.progress = .formatting f) : s.deliverBody .store pos ok = s.formatBodyDone f ok := by
  simp only [State.deliverBody, progress]

theorem State.deliverErase_formatting (progress : s.store.progress = .formatting f) : s.deliverErase n ok = s.formatErase f n ok := by
  simp only [State.deliverErase, progress]

theorem State.deliverReclaimErase_noPass (pass : s.space.pass = none) : s.deliverReclaimErase g n ok = s.formatAfterReclaim g n ok := by
  simp only [State.deliverReclaimErase, pass]

theorem State.formatErased_eq (s : State) (g : Seg) (owes : List Seg) (n : Nat) (ok : Bool) :
    s.formatErased g owes n ok = (s.withErased g n ok).formatErases (g.val + 1) (owes ++ if ok = true ∧ n < 50000 then [] else [g]) := by
  rw [← State.owesMark_withErased]
  rfl

/-- A reclaim erase that ends during FORMAT is recorded; FORMAT's request for the same segment gives way to its next one (R146, log entry 19). -/
theorem State.formatAfterReclaim_eq (progress : s.store.progress = .formatting (.erase h owes)) :
    s.formatAfterReclaim g n ok =
      if h = g then (s.withErased g n ok).formatErases 0 (if ok = true ∧ n < 50000 then [] else [g])
      else (s.withErased g n ok).setProgress (.formatting (.erase h (if ok = true ∧ n < 50000 then [] else [g]))) := by
  have progress' : (s.withErased g n ok).store.progress = .formatting (.erase h owes) := progress
  rw [← State.owesMark_withErased (s := s), State.formatAfterReclaim]
  simp only [State.recordErase_eq, progress']

end

/-! ## The configuration write (R168) -/

section
variable {s t : State} {p : Port} {c : Cmd} {n : Nat} {pos : Pos} {x : Settings}

/-- A FORMAT's end when its configuration write fails, by the command of the port that issued it (R168). -/
def State.formatFails (p : Port) (c : Cmd) (t : State) (aux : Half) : State :=
  ((((t.setGuard { settings := Settings.default, standing := .defaulted, session := t.guard.session }).setProgress .none).enterStore
    .unformatted).endCommand p (c.at_ .programFail 0xFFFF#16 (generationField t.store.generation) 0 aux))

theorem Cmd.formatSettings_eq (c : Cmd) (old : Settings) :
    c.formatSettings old =
      { guards := if c.byte 0 = 0 then old.guards else Settings.default.guards
        mode := if c.byte 0 = 0 then old.mode else .opened
        threshold := c.threshold } := by
  rw [Cmd.formatSettings, Cmd.keepGuards]
  simp only [beq_iff_eq]
  rfl

theorem State.formatBody_eq (work : s.engine.work = .formatting p c) : s.formatBody = configBody (.port p) (c.formatSettings s.guard.settings) := by
  simp only [State.formatBody, State.formatCmd, work]

theorem State.formatWrite_granted (grant : s.copyGrant = some (pos, t)) :
    s.formatWrite n =
      (t.bumpSeq).formatNext (.configBody pos n) (.programBody pos { s.formatBody with seq := t.engine.seq }) := by
  simp only [State.formatWrite, grant]

theorem State.formatWriteFailed_again (more : n < 3) : s.formatWriteFailed pos n = (s.countDead pos).formatWrite (n + 1) := by
  rw [State.formatWriteFailed]
  exact if_pos more

theorem State.formatWriteFailed_last (last : 3 ≤ n) : s.formatWriteFailed pos n = (s.countDead pos).formatFailed 3 := by
  rw [State.formatWriteFailed]
  exact if_neg (Nat.not_lt.mpr last)

/-- The end of FORMAT's configuration commit: the record adopted, and the store READY or DEGRADED by the usable count (R168). -/
theorem State.formatCommitted_eq (work : s.engine.work = .formatting p c) (settings : x = c.formatSettings s.guard.settings) (ok : x.thresholdOk) :
    s.formatCommitted pos n =
      ((((((s.commitBody (configBody (.port p) x) pos).setGuard { settings := x, standing := .loaded, session := s.guard.session }).setProgress
        .none).enterStore (if s.usableCount < 136 then .degraded else .ready)).endCommand p
          (c.nt .done 0xFFFF#16 (generationField s.store.generation) (nat16 s.usableCount) (nat16 n))).trigger) := by
  have body : s.formatBody = configBody (.port p) x := by rw [State.formatBody_eq work, settings]
  obtain ⟨store, guard, space, -, -, -, work', -, -⟩ := s.commitBody_leaves (configBody (.port p) x) pos
  have parses : parseSettings (configBody (.port p) x).payload = some x := parseSettings_settingsBytes ok
  have adopted : s.guard.adopt (configBody (.port p) x).payload .loaded = { settings := x, standing := .loaded, session := s.guard.session } := by
    simp only [GuardUnit.adopt, parses]
  rw [State.formatCommitted, body]
  generalize s.commitBody (configBody (.port p) x) pos = d at *
  have usable : ((d.setGuard { settings := x, standing := .loaded, session := s.guard.session }).setProgress .none).usableCount = s.usableCount :=
    congrArg (fun space : Space => 256 - space.segs.toList.countP (fun r => r.state == .retired)) space
  have generation : ((d.setGuard { settings := x, standing := .loaded, session := s.guard.session }).setProgress .none).store.generation =
      s.store.generation := (congrArg Store.generation store :)
  rw [guard, adopted, State.formatDone, usable, ← generation]
  simp only [State.endFormat, State.formatCmd, State.enterStore_engine, State.setProgress_engine, State.setGuard_engine, work'.trans work]
  rfl

end

/-- Settles O47: each completion is delivered to what FORMAT awaits, and FORMAT goes on, writes its record, or ends. -/
theorem formatEnds : Obligations.FormatEnds := by
  refine ⟨fun s n => ⟨s.formatErases_owes n, fun g => State.formatErases_next, State.formatErases_writes⟩,
    fun s g gen n owes left carries progress => ⟨_, rfl, fun erased counts => ?_, fun retires => ?_⟩,
    fun s g n owes fails carries progress => ?_, fun s e h owes left run flight erase moves pass progress => ?_,
    fun s t p c n pos work grant => ⟨c.formatSettings s.guard.settings, c.formatSettings_eq s.guard.settings, ?_⟩, fun s p c work => ?_, fun author x => rfl⟩
  · rw [exec_storeEraseDone carries, State.deliverErase_formatting (s := s.afterErase g gen n left) progress, State.formatErase,
      State.formatErased_eq, if_pos ⟨erased, counts⟩, List.append_nil]
  · rw [exec_storeEraseDone carries, State.deliverErase_formatting (s := s.afterErase g gen n left) progress, State.formatErase,
      State.formatErased_eq, if_neg (by rintro ⟨erased, counts⟩; simp [erased] at retires; omega)]
  · by_cases takes : s.markTakes ⟨g, 0⟩ .first fails
    · rw [(exec_markProgramDone carries).1 takes, State.deliverMark_formatting (s := s.afterMark ⟨g, 0⟩ .first fails) progress]
      rfl
    · rw [(exec_markProgramDone carries).2 takes, State.deliverMark_formatting (s := s.afterMark ⟨g, 0⟩ .first fails) progress]
      rfl
  · refine ⟨_, if eraseVerifies s.array.cells e.seg e.generation e.count left = true ∧ e.count < 50000 then [] else [e.seg], rfl,
      fun erased counts => if_pos ⟨erased, counts⟩, fun retires => if_neg ?_, fun same => ?_, fun other => ?_⟩
    · rintro ⟨erased, counts⟩
      simp [erased] at retires
      omega
    · rw [exec_reclaimEraseDone run flight erase moves, State.deliverReclaimErase_noPass (s := s.afterReclaimErase e left) pass,
        State.formatAfterReclaim_eq (s := s.afterReclaimErase e left) progress, if_pos same]
    · rw [exec_reclaimEraseDone run flight erase moves, State.deliverReclaimErase_noPass (s := s.afterReclaimErase e left) pass,
        State.formatAfterReclaim_eq (s := s.afterReclaimErase e left) progress, if_neg other]
  · rw [State.formatWrite_granted grant, State.formatBody_eq work]
    rw [show t.engine.seq = s.engine.seq by rw [State.copyGrant_space grant]]
    rfl
  · refine ⟨State.formatFails p c, fun t aux => rfl, fun n none => ?_, fun n pos b left carries progress => ⟨fun takes => ?_, fun fails => ⟨fun more => ?_, fun last => ?_⟩⟩,
      fun n pos fails carries progress => ⟨fun failed => ⟨fun more => ?_, fun last => ?_⟩, fun x settings takes ok => ?_⟩⟩
    · rw [State.formatWrite_none none]
      exact State.formatFailed_eq work 0
    · rw [(exec_bodyProgramDone carries).1 takes, State.deliverBody_formatting (s := s.afterBody pos b left) progress]
      rfl
    · rw [(exec_bodyProgramDone carries).2 fails, State.deliverBody_formatting (s := s.afterBody pos b left) progress]
      exact congrArg (fun t => Host.Outcome.next (State.settle t)) (State.formatWriteFailed_again more)
    · rw [(exec_bodyProgramDone carries).2 fails, State.deliverBody_formatting (s := s.afterBody pos b left) progress]
      exact congrArg (fun t => Host.Outcome.next (State.settle t))
        ((State.formatWriteFailed_last last).trans (State.formatFailed_eq (s := (s.afterBody pos b left).countDead pos) work 3))
    · rw [(exec_markProgramDone carries).2 failed, State.deliverMark_formatting (s := s.afterMark pos .first fails) progress]
      exact congrArg (fun t => Host.Outcome.next (State.settle t)) (State.formatWriteFailed_again more)
    · rw [(exec_markProgramDone carries).2 failed, State.deliverMark_formatting (s := s.afterMark pos .first fails) progress]
      exact congrArg (fun t => Host.Outcome.next (State.settle t))
        ((State.formatWriteFailed_last last).trans (State.formatFailed_eq (s := (s.afterMark pos .first fails).countDead pos) work 3))
    · rw [(exec_markProgramDone carries).1 takes, State.deliverMark_formatting (s := s.afterMark pos .first fails) progress]
      exact congrArg (fun t => Host.Outcome.next (State.settle t))
        (State.formatCommitted_eq (s := s.afterMark pos .first fails) work (settings.trans (c.formatSettings_eq s.guard.settings).symm) ok)

end Sys2Proof.Machine

/-! SUPPORT. The reclaim pass: how it goes on, the read of a victim cell, its programs and its erase. -/

namespace Sys2Proof.Machine

/-! ## How a pass goes on (R141, R143, R146, R147) -/

section
variable {s t : State} {q : Pass} {b : Body} {pos : Pos} {v : Seg} {p : Port} {c : Cmd} {u : Update}

theorem State.advance_next (s : State) (q : Pass) (h : q.cursor.val + 1 < 32) :
    s.advance q =
      (s.setPass (some { q with cursor := ⟨q.cursor.val + 1, h⟩, image := none, attempt := 1, awaits := .victimRead })).presentSpace
        (.readCell ⟨q.victim, ⟨q.cursor.val + 1, h⟩⟩ true) := by
  rw [State.advance, dif_pos h]
  rfl

/-- After the read of a victim cell the next cell is read in COPYING (R140, R141). -/
theorem State.advance_copying (s : State) (q : Pass) (noted : List (CellNo × Key)) (h : q.cursor.val + 1 < 32) :
    s.advance { q with stage := .copying, attempt := 1, noted := noted } =
      (s.setPass
        (some { victim := q.victim, stage := .copying, cursor := ⟨q.cursor.val + 1, h⟩, image := none, attempt := 1, noted := noted,
                awaits := .victimRead })).presentSpace (.readCell ⟨q.victim, ⟨q.cursor.val + 1, h⟩⟩ true) :=
  s.advance_next { q with stage := .copying, attempt := 1, noted := noted } h

theorem State.segmentClear_iff (s : State) (g : Seg) :
    s.segmentClear g = true ↔ (∀ e ∈ s.engine.dir, e.cell.seg ≠ g) ∧ s.engine.move = none := by
  rw [State.segmentClear, Bool.and_eq_true, List.all_eq_true, Option.isNone_iff_eq_none]
  simp only [bne_iff_ne]

theorem State.advance_last (last : q.cursor = 31) :
    s.advance q = if s.segmentClear q.victim then s.requestErase q else s.readVictim { q with cursor := 1 } := by
  rw [State.advance, dif_neg (by rw [last]; decide)]

theorem State.startCopy_granted (grant : s.copyGrant = some (pos, t)) :
    s.startCopy q b =
      ((t.setPass (some { q with image := some b, awaits := .copyBody pos })).bumpSeq).presentSpace
        (.programBody pos { b with seq := s.engine.seq }) := by
  have seq : (t.setPass (some { q with image := some b, awaits := .copyBody pos })).engine.seq = s.engine.seq := by
    rw [State.copyGrant_space grant]
    rfl
  simp only [State.startCopy, grant]
  rw [← seq]
  rfl

theorem State.startCopy_noCell (grant : s.copyGrant = none) :
    s.startCopy q b = ((s.setSeg q.victim { s.seg q.victim with state := .full }).setPass none).trigger := by
  simp only [State.startCopy, grant]
  rfl

theorem State.copyFailed_again (more : q.attempt < 3) : s.copyFailed q b = s.startCopy { q with attempt := q.attempt + 1 } b := by
  rw [State.copyFailed]
  exact if_pos more

theorem State.copyFailed_last (last : 3 ≤ q.attempt) : s.copyFailed q b = s.abandonFailed q := by
  rw [State.copyFailed]
  exact if_neg (Nat.not_lt.mpr last)

/-- The degrade signal and the trigger of an abandoned pass come in one of their two orders (log entry 13). -/
theorem State.abandonFailed_order (s : State) (q : Pass) :
    s.abandonFailed q = (s.abandon q).degrade.trigger ∨ s.abandonFailed q = (s.abandon q).trigger.degrade := by
  unfold State.abandonFailed
  split_ifs
  · exact .inl rfl
  · exact .inr rfl

theorem State.bestFree_none_of_count (none : s.freeCount = 0) : ∀ g, (s.seg g).state ≠ .free := by
  intro g free
  have counted := List.countP_eq_zero.mp (show s.space.segs.toList.countP (fun r => r.state == .free) = 0 from none) (s.seg g)
    (by rw [segRows_toList]; exact List.mem_map.mpr ⟨g, List.mem_finRange g, rfl⟩)
  exact counted (beq_iff_eq.mpr free)

theorem State.trigger_quietly (not : ¬ (s.store.state = .ready ∧ s.space.pass = none ∧ s.freeCount ≤ s.guard.settings.threshold ∧ s.heldDue = false)) :
    s.trigger = s :=
  if_neg not

/-- The trigger where it holds: with a victim a pass starts if its live cells fit, and else the store degrades (R139, R140). -/
theorem State.trigger_holds (ready : s.store.state = .ready) (idle : s.space.pass = none) (low : s.freeCount ≤ s.guard.settings.threshold)
    (notDue : s.heldDue = false) :
    (s.victim = none → s.trigger = s) ∧
      ∀ v, s.victim = some v → s.trigger = if s.passFits v then s.startPass v else s.degrade := by
  have holds : s.trigger = match s.victim with
      | none => s
      | some v => if s.passFits v then s.startPass v else s.degrade := if_pos ⟨ready, idle, low, notDue⟩
  refine ⟨fun none => ?_, fun v found => ?_⟩
  · rw [holds, none]
  · rw [holds, found]

theorem State.degrade_notReady (other : s.store.state ≠ .ready) : s.degrade = s := by
  unfold State.degrade
  cases state : s.store.state with
  | ready => exact absurd state other
  | _ => rfl

theorem State.degrade_ready (ready : s.store.state = .ready) : s.degrade = (s.enterStore .degraded).refuseHeld := by
  simp only [State.degrade, ready]

theorem State.refuseHeld_idle (held : s.space.held = false) : s.refuseHeld = s := by
  simp only [State.refuseHeld, held]
  rfl

theorem State.refuseHeld_updating (held : s.space.held = true) (work : s.engine.work = .updating p c u) :
    s.refuseHeld = (s.setHeld false).endReadOnly p c u := by
  simp only [State.refuseHeld, held, work, if_true]

end

/-- Settles O50: each step of a pass in its cases; a new front's cell by `State.takeNewFront_spec`. -/
theorem passGoesOn : Obligations.PassGoesOn := by
  refine ⟨fun s q => ⟨s.advance_next q, fun last named idle => ?_, fun last busy => ?_⟩, fun s f cell rest front free => ?_,
    fun s ok full some => ?_, fun s full none => ?_, fun s t q b pos => State.startCopy_granted, fun s q b => State.startCopy_noCell,
    fun s q b => ⟨State.copyFailed_again, fun last => ⟨_, rfl, ?_⟩⟩, fun s => ⟨State.trigger_quietly, fun ready idle low notDue => ?_⟩,
    fun s => ⟨State.degrade_notReady, fun ready held => ?_, fun p c u ready held work => ?_⟩,
    fun s st => ⟨fun p => s.enterStore_port st p, rfl, rfl, rfl, rfl, rfl, rfl⟩⟩
  · rw [State.advance_last last, if_pos ((s.segmentClear_iff _).mpr ⟨named, idle⟩)]
    rfl
  · have unclear : ¬ s.segmentClear q.victim = true := fun clear => by
      obtain ⟨none, idle⟩ := (s.segmentClear_iff _).mp clear
      rcases busy with ⟨e, member, here⟩ | move
      · exact none e member here
      · exact move idle
    rw [State.advance_last last, if_neg unclear]
    rfl
  · exact State.copyGrant_front (State.takeFront_eq front free)
  · obtain ⟨g, segs, free, least, rows, opens⟩ := s.takeNewFront_spec ok (Nat.pos_of_ne_zero some)
    refine ⟨g, _, (State.copyGrant_opens full).trans opens, free, least, rfl, (rows g).trans (if_pos rfl), fun h other => (rows h).trans (if_neg other)⟩
  · exact State.copyGrant_none full (State.bestFree_none_of_count none)
  · rw [State.copyFailed_last last]
    exact s.abandonFailed_order q
  · obtain ⟨noVictim, victim⟩ := State.trigger_holds ready idle low notDue
    refine ⟨noVictim, fun v found => ⟨fun fits => ?_, fun tooMany => ?_⟩⟩
    · rw [victim v found, if_pos (State.passFits_iff.mpr fits)]
      rfl
    · rw [victim v found, if_neg fun fits => Nat.not_le.mpr tooMany (State.passFits_iff.mp fits)]
  · rw [State.degrade_ready ready]
    exact State.refuseHeld_idle held
  · rw [State.degrade_ready ready, State.refuseHeld_updating (s := s.enterStore .degraded) held work]
    rfl

/-! ## The read of a victim cell (R141, R142) -/

section
variable {s : State} {q : Pass} {e : Entry} {r : CellRead} {pos : Pos} {b : Body} {payload ok : Bool}

theorem State.deliverRead_pass (pass : s.space.pass = some q) (awaits : q.awaits = .victimRead) :
    s.deliverRead .space pos true = s.victimRead q (readData s.array.cells pos) := by
  simp only [State.deliverRead, State.spaceRead, readFor, pass, awaits, if_true]

theorem State.victimRead_named (named : namedBy s.engine.dir q.cell = some e) :
    s.victimRead q r = s.handleNamed { q with stage := .copying, attempt := 1 } e r := by
  have named' : namedBy s.engine.dir (Pass.cell { q with stage := .copying, attempt := 1 }) = some e := named
  simp only [State.victimRead, named']

theorem State.victimRead_unnamed (unnamed : namedBy s.engine.dir q.cell = none) :
    s.victimRead q r = s.handleUnnamed { q with stage := .copying, attempt := 1 } r := by
  have unnamed' : namedBy s.engine.dir (Pass.cell { q with stage := .copying, attempt := 1 }) = none := unnamed
  simp only [State.victimRead, unnamed']

theorem State.handleUnnamed_committed (committed : r.cond = .committed) (body : r.body = some b) :
    s.handleUnnamed q r = s.advance (q.note q.cursor b.key) := by
  simp only [State.handleUnnamed, committed, body]

theorem State.handleUnnamed_other (other : r.cond ≠ .committed) : s.handleUnnamed q r = s.advance q := by
  unfold State.handleUnnamed
  split
  · exact absurd (by assumption) other
  · rfl

theorem readData_committed {cells : List Host.Cell} (committed : (readData cells pos).cond = .committed) :
    ∃ b, (readData cells pos).body = some b := by
  rw [readData_cond] at committed
  obtain ⟨-, -, good, -⟩ := cellCond_iff (allOnes (dataArea cells pos)) (parseBody (dataArea cells pos)).isSome
    (markReading (markWord cells pos .first)) (markReading (markWord cells pos .second))
  obtain ⟨b, body⟩ := Option.isSome_iff_exists.mp (good.mp committed).1
  exact ⟨b, by simp only [readData, body]⟩

theorem Pass.note_eq (q : Pass) (cell : CellNo) (k : Key) : q.note cell k = { q with noted := (q.note cell k).noted } := by
  unfold Pass.note
  split_ifs <;> rfl

/-- A COMMITTED victim cell that no entry names is noted, and the pass goes on (R141, R145). -/
theorem State.handleUnnamed_notes (committed : r.cond = .committed) (body : r.body = some b) :
    s.handleUnnamed { q with stage := .copying, attempt := 1 } r =
      s.advance { q with
        stage := .copying
        attempt := 1
        noted := if q.noted.any (fun n => n.1 == q.cursor) then q.noted else q.noted ++ [(q.cursor, b.key)] } := by
  rw [State.handleUnnamed_committed committed body, Pass.note_eq, Pass.note_noted]

theorem copyImage_body (body : r.body = some b) : copyImage e r = b := by
  simp only [copyImage, body]

theorem entryKind_eq (e : Entry) :
    entryKind e = if e.key = 0x0000#16 then .config else if e.state = .live then .data else .tombstone := by
  rw [entryKind]
  cases e.state <;> rfl

/-- A copy of a cell whose body is not good is rebuilt from the entry, with a check that fails (R142). -/
theorem copyImage_rebuilt (body : r.body = none) :
    copyImage e r =
      { key := e.key, version := e.version, seq := 0, length := e.length, author := e.author, kind := entryKind e,
        check := ~~~(crc16 (r.area.take e.length)), payload := r.area.take e.length } := by
  simp only [copyImage, body]

theorem State.handleNamed_drops (drops : e.state = .gone ∧ e.stale = 0 ∧ e.key ≠ 0x0000#16) :
    s.handleNamed q e r =
      (s.setPass (some { q with image := some (copyImage e r), awaits := .dropMark })).presentSpace (.programMark q.cell .second) := by
  rw [State.handleNamed]
  exact if_pos drops

theorem State.handleNamed_copies (copies : ¬ (e.state = .gone ∧ e.stale = 0 ∧ e.key ≠ 0x0000#16)) :
    s.handleNamed q e r = s.startCopy q (copyImage e r) := by
  rw [State.handleNamed]
  exact if_neg copies

theorem namedBy_none {d : List Entry} (none : ∀ e ∈ d, e.cell ≠ pos) : namedBy d pos = .none :=
  List.find?_eq_none.mpr fun e member => by simpa using none e member

end

/-! ## The erase report (R47) -/

section
variable {s : State} {q : Pass} {g : Seg} {n : Nat} {ok : Bool}

/-- An entry after an erase report: one item for each time its key is in the report. -/
def Entry.afterReport (e : Entry) (g : Seg) (keys : List Key) : Entry :=
  { e with stale := e.stale - keys.count e.key, retry := if e.key ∈ keys ∧ e.retry.map Pos.seg = some g then none else e.retry }

theorem Entry.reportErased_eq (e : Entry) (g : Seg) :
    e.reportErased g = { e with stale := e.stale - 1, retry := if e.retry.map Pos.seg = some g then none else e.retry } := by
  unfold Entry.reportErased
  cases retry : e.retry with
  | none => rfl
  | some r => simp

theorem Entry.afterReport_cons (e : Entry) (g : Seg) (k : Key) (keys : List Key) :
    (if e.key = k then e.reportErased g else e).afterReport g keys = e.afterReport g (k :: keys) := by
  by_cases here : e.key = k
  · subst here
    rw [if_pos rfl, Entry.reportErased_eq, Entry.afterReport, Entry.afterReport, List.count_cons_self]
    by_cases inSegment : e.retry.map Pos.seg = some g
    · simp [inSegment, Nat.sub_sub, Nat.add_comm]
    · simp [inSegment, Nat.sub_sub, Nat.add_comm]
  · rw [if_neg here, Entry.afterReport, Entry.afterReport, List.count_cons_of_ne (Ne.symm here)]
    simp [here]

theorem eraseReport_eq (d : List Entry) (g : Seg) (keys : List Key) : eraseReport d g keys = d.map (fun e => e.afterReport g keys) := by
  induction keys generalizing d with
  | nil =>
    refine (List.map_id'' (fun e => ?_) d).symm
    simp [Entry.afterReport]
  | cons k keys ih =>
    have step : eraseReport d g (k :: keys) = eraseReport (mapEntry d k (fun e => e.reportErased g)) g keys := rfl
    rw [step, ih, mapEntry, List.map_map]
    exact List.map_congr_left fun e _ => e.afterReport_cons g k keys

theorem eraseReport_noted (d : List Entry) (g : Seg) (noted : List (CellNo × Key)) :
    eraseReport d g (noted.map (fun n => n.2)) =
      d.map (fun x =>
        { x with
          stale := x.stale - noted.countP (fun n => n.2 == x.key)
          retry := if (∃ n ∈ noted, n.2 = x.key) ∧ x.retry.map Pos.seg = some g then none else x.retry }) := by
  rw [eraseReport_eq]
  refine List.map_congr_left fun e _ => ?_
  rw [Entry.afterReport, List.count, List.countP_map]
  simp only [List.mem_map]
  rfl

theorem State.deliverReclaimErase_pass (pass : s.space.pass = some q) : s.deliverReclaimErase g n ok = s.eraseDone q g n ok := by
  simp only [State.deliverReclaimErase, pass]

/-- The end of a pass's erase, by what it makes of the segment (R148, R149). -/
theorem State.eraseDone_eq (s : State) (q : Pass) (g : Seg) (n : Nat) (ok : Bool) :
    s.eraseDone q g n ok =
      if ok = true ∧ n < 50000 then
        ((((s.withErased g n ok).setDir (eraseReport s.engine.dir g (q.noted.map (fun n => n.2)))).setPass none).trigger)
      else
        ((((s.withErased g n ok).setDir (eraseReport s.engine.dir g (q.noted.map (fun n => n.2)))).setPass
          (some { q with noted := [], awaits := .retiredMark })).degradeIfWorn).presentSpace (.programMark ⟨g, 0⟩ .first) := by
  have state : (((s.withErased g n ok).setDir (eraseReport s.engine.dir g (q.noted.map (fun n => n.2)))).seg g).state =
      if ok = true ∧ n < 50000 then .free else .retired := s.withErased_seg g n ok
  by_cases free : ok = true ∧ n < 50000
  · rw [if_pos free] at state ⊢
    exact if_pos state
  · rw [if_neg free] at state ⊢
    exact if_neg (by rw [State.recordErase_eq]; exact fun h => SegState.noConfusion (state.symm.trans h))

end

/-- Settles O48: the read of a victim cell by the naming query, and the erase's end by `State.eraseDone_eq` with the erase report as one map. -/
theorem reclaimPassAdvances : Obligations.ReclaimPassAdvances := by
  refine ⟨fun s q pos carries pass awaits here => ?_, fun s q e left run flight erase moves pass => ?_, fun d pos => rfl⟩
  · obtain rfl : pos = q.cell := here
    have row : exec .cellReadDone s = .next ((s.setInFlight none).victimRead q (readData s.array.cells q.cell)).settle := by
      rw [exec_cellReadDone carries, State.deliverRead_pass (s := s.setInFlight none) pass awaits]
      rfl
    refine ⟨fun unnamed => ?_, fun e named => ⟨copyImage e (readData s.array.cells q.cell), fun r body => copyImage_body body, fun body => ?_,
      fun drops => ?_, fun copies => ⟨?_, fun f cell rest front free => ?_⟩⟩⟩
    · rw [row, State.victimRead_unnamed (s := s.setInFlight none) (namedBy_none unnamed)]
      by_cases committed : (readData s.array.cells q.cell).cond = .committed
      · obtain ⟨b, body⟩ := readData_committed committed
        rw [State.handleUnnamed_notes committed body]
        exact ⟨_, fun other => absurd committed other, fun _ => ⟨b, body, rfl⟩, rfl, fun h => congrArg (fun t => Host.Outcome.next (State.settle t)) (State.advance_copying (s.setInFlight none) q _ h)⟩
      · rw [State.handleUnnamed_other committed]
        exact ⟨q.noted, fun _ => rfl, fun is => absurd is committed, rfl, fun h => congrArg (fun t => Host.Outcome.next (State.settle t)) (State.advance_copying (s.setInFlight none) q _ h)⟩
    · rw [copyImage_rebuilt body]
      exact ⟨rfl, rfl, rfl, rfl, entryKind_eq e, rfl, rfl⟩
    · rw [row, State.victimRead_named (s := s.setInFlight none) named, State.handleNamed_drops drops]
      rfl
    · rw [row, State.victimRead_named (s := s.setInFlight none) named, State.handleNamed_copies copies]
    · rw [row, State.victimRead_named (s := s.setInFlight none) named, State.handleNamed_copies copies,
        State.startCopy_granted (State.copyGrant_front (State.takeFront_eq (s := s.setInFlight none) front free))]
      rfl
  · refine ⟨_, rfl, fun erased counts => ?_, fun retires => ⟨_, rfl, ?_⟩⟩
    · rw [exec_reclaimEraseDone run flight erase moves, State.deliverReclaimErase_pass (s := s.afterReclaimErase e left) pass,
        State.eraseDone_eq, if_pos ⟨erased, counts⟩, eraseReport_noted]
      rfl
    · rw [exec_reclaimEraseDone run flight erase moves, State.deliverReclaimErase_pass (s := s.afterReclaimErase e left) pass,
        State.eraseDone_eq, if_neg (by rintro ⟨erased, counts⟩; simp [erased] at retires; omega), eraseReport_noted]
      rfl

/-! ## The pass's programs (R49, R50, R143, R144) -/

section
variable {s : State} {q : Pass} {b : Body} {copy pos : Pos} {m : Move} {e : Entry} {ok : Bool} {d : List Entry}

theorem State.deliverBody_pass (pass : s.space.pass = some q) (awaits : q.awaits = .copyBody copy) (image : q.image = some b) :
    s.deliverBody .space pos ok = s.copyBodyDone q b copy ok := by
  simp only [State.deliverBody, pass, State.passBody, awaits, image]

theorem State.deliverMark_copy (pass : s.space.pass = some q) (awaits : q.awaits = .copyCommit copy) (image : q.image = some b) :
    s.deliverMark .space pos ok = s.copyCommitDone q b copy ok := by
  simp only [State.deliverMark, pass, State.passMark, awaits, image]

theorem State.deliverMark_drop (pass : s.space.pass = some q) (awaits : q.awaits = .dropMark) (image : q.image = some b) :
    s.deliverMark .space pos ok = s.dropMarkDone q b ok := by
  simp only [State.deliverMark, pass, State.passMark, awaits, image]

theorem State.deliverMark_retired (pass : s.space.pass = some q) (awaits : q.awaits = .retiredMark) :
    s.deliverMark .space pos ok = s.endPass := by
  simp only [State.deliverMark, pass, State.passMark, awaits]

theorem State.acceptsMove_of (there : lookup s.engine.dir b.key = some e) (cell : e.cell = pos) (version : e.version = b.version) :
    s.acceptsMove b pos = true := by
  simp [State.acceptsMove, there, cell, version]

theorem State.acceptsMove_false (no : ∀ e, lookup s.engine.dir b.key = some e → e.cell ≠ pos ∨ e.version ≠ b.version) :
    s.acceptsMove b pos = false := by
  unfold State.acceptsMove
  cases there : lookup s.engine.dir b.key with
  | none => rfl
  | some e => rcases no e there with cell | version <;> simp [*]

theorem State.copyBodyDone_refused (refused : s.acceptsMove b q.cell = false) : s.copyBodyDone q b copy true = (s.countDead copy).advance q := by
  simp only [State.copyBodyDone, refused, if_true]
  rfl

theorem State.copyBodyDone_accepted (accepted : s.acceptsMove b q.cell = true) :
    s.copyBodyDone q b copy true =
      ((s.acceptMove b q.cell copy).setPass (some { q with awaits := .copyCommit copy })).presentSpace (.programMark copy .first) := by
  simp only [State.copyBodyDone, accepted, if_true]

/-- A move answered RESOLVED: the victim cell is dead and noted (R50, R145). -/
theorem State.copyCommitDone_resolved (move : s.engine.move = some m) (resolves : s.resolveMove m ok = (d, false)) :
    s.copyCommitDone q b copy ok = (((s.setDir d).setMove none).countDead q.cell).advance (q.note q.cursor b.key) := by
  simp only [State.copyCommitDone, move, resolves]
  rfl

/-- A move answered REVERTED: the copy is dead and the attempt has failed (R50, R143). -/
theorem State.copyCommitDone_reverted (move : s.engine.move = some m) (reverts : s.resolveMove m ok = (d, true)) :
    s.copyCommitDone q b copy ok = (((s.setDir d).setMove none).countDead copy).copyFailed q b := by
  simp only [State.copyCommitDone, move, reverts]
  rfl

theorem mapEntry_settleMove (d : List Entry) (m : Move) :
    mapEntry d m.key (fun e => e.settleMove m.copy) =
      d.map (fun e => if e.key = m.key ∧ e.cell = m.copy then { e with movePending := false } else e) := by
  refine List.map_congr_left fun e _ => ?_
  unfold Entry.settleMove
  by_cases here : e.key = m.key <;> simp [here]

theorem State.resolveMove_done_free (calm : m.overtaken = .none) :
    s.resolveMove m true = (mapEntry s.engine.dir m.key (fun e => e.settleMove m.copy), false) := by
  simp only [State.resolveMove, calm, if_true]

theorem State.resolveMove_done_overtaken (overtaken : m.overtaken ≠ .none) : s.resolveMove m true = (s.engine.dir, false) := by
  unfold State.resolveMove
  cases is : m.overtaken with
  | none => exact absurd is overtaken
  | _ => rfl

theorem State.resolveMove_failed_marked (marked : m.overtaken = .marked) : s.resolveMove m false = (s.engine.dir, false) := by
  simp only [State.resolveMove, marked]
  rfl

theorem State.resolveMove_failed_unmarked (unmarked : m.overtaken = .unmarked) :
    s.resolveMove m false = (mapEntry s.engine.dir m.key (fun e => e.uncount m.copy), false) := by
  simp only [State.resolveMove, unmarked]
  rfl

theorem State.resolveMove_failed_free (calm : m.overtaken = .none) :
    s.resolveMove m false =
      if s.stillNamed m then (mapEntry s.engine.dir m.key (fun e => e.revert m), true) else (s.engine.dir, false) := by
  simp only [State.resolveMove, calm]
  rfl

theorem State.stillNamed_of (there : lookup s.engine.dir m.key = some e) (cell : e.cell = m.copy) : s.stillNamed m = true := by
  simp [State.stillNamed, there, cell]

theorem State.stillNamed_false (no : ∀ e, lookup s.engine.dir m.key = some e → e.cell ≠ m.copy) : s.stillNamed m = false := by
  unfold State.stillNamed
  cases there : lookup s.engine.dir m.key with
  | none => rfl
  | some e => simp [no e there]

theorem State.acceptsDrop_of (there : lookup s.engine.dir b.key = some e) (gone : e.state = .gone) (cell : e.cell = pos) (stale : e.stale = 0) :
    s.acceptsDrop b.key pos = true := by
  simp [State.acceptsDrop, there, gone, cell, stale]

theorem State.acceptsDrop_false (no : ∀ e, lookup s.engine.dir b.key = some e → e.state ≠ .gone ∨ e.cell ≠ pos ∨ e.stale ≠ 0) :
    s.acceptsDrop b.key pos = false := by
  unfold State.acceptsDrop
  cases there : lookup s.engine.dir b.key with
  | none => rfl
  | some e => rcases no e there with state | cell | stale <;> simp [*]

theorem State.dropMarkDone_drops (accepted : s.acceptsDrop b.key q.cell = true) :
    s.dropMarkDone q b true = ((s.setDir (dropEntry s.engine.dir b.key)).countDead q.cell).advance q := by
  rw [State.dropMarkDone, if_pos ⟨rfl, accepted⟩]

theorem State.dropMarkDone_failed : s.dropMarkDone q b false = s.startCopy { q with attempt := 1 } b := by
  rw [State.dropMarkDone, if_neg (fun h => Bool.noConfusion h.1), if_neg (fun h => Bool.noConfusion h.1)]

theorem State.dropMarkDone_kept (kept : s.acceptsDrop b.key q.cell = false) :
    s.dropMarkDone q b true =
      if q.noted.any (fun n => n.1 == q.cursor) = true then
        (s.setDir (mapEntry s.engine.dir b.key (fun e => e.uncount q.cell))).startCopy { q.unnote q.cursor with attempt := 1 } b
      else s.startCopy { q with attempt := 1 } b := by
  rw [State.dropMarkDone, if_neg (by simp [kept])]
  simp only [true_and]

theorem Pass.noted_any (q : Pass) (cell : CellNo) : q.noted.any (fun n => n.1 == cell) = true ↔ ∃ n ∈ q.noted, n.1 = cell := by
  simp only [List.any_eq_true, beq_iff_eq]

end

/-- Settles O49: each program's outcome is delivered to the pass; Table 3-3 by `State.resolveMove` in its cases. -/
theorem passProgramsEnd : Obligations.PassProgramsEnd := by
  refine ⟨fun s q b image copy left carries pass awaits holds => ⟨_, rfl, fun fails => ?_, fun takes refused => ?_, fun e takes there cell version => ?_⟩,
    fun s q image copy m fails carries pass awaits holds move => ?_, fun s q b fails carries pass awaits holds => ⟨_, rfl, fun e takes there gone cell stale => ?_,
      fun failed => ?_, fun takes kept => ⟨fun unnoted => ?_, fun noted => ?_⟩⟩, fun s q g fails carries pass awaits => ?_⟩
  · rw [(exec_bodyProgramDone carries).2 fails, State.deliverBody_pass (s := s.afterBody copy b left) pass awaits holds]
    rfl
  · rw [(exec_bodyProgramDone carries).1 takes, State.deliverBody_pass (s := s.afterBody copy b left) pass awaits holds,
      State.copyBodyDone_refused (s := s.afterBody copy b left) (State.acceptsMove_false refused)]
  · rw [(exec_bodyProgramDone carries).1 takes, State.deliverBody_pass (s := s.afterBody copy b left) pass awaits holds,
      State.copyBodyDone_accepted (s := s.afterBody copy b left) (State.acceptsMove_of there cell version)]
    rfl
  · have done : ∀ ok, (s.afterMark copy .first fails).deliverMark .space copy ok = (s.afterMark copy .first fails).copyCommitDone q image copy ok :=
      fun ok => State.deliverMark_copy (s := s.afterMark copy .first fails) pass awaits holds
    have resolves : ∀ {d : List Entry} {ok : Bool}, (s.afterMark copy .first fails).resolveMove m ok = (d, false) →
        (s.afterMark copy .first fails).copyCommitDone q image copy ok =
          ((((s.afterMark copy .first fails).setDir d).setMove none).countDead ⟨q.victim, q.cursor⟩).advance
            { q with noted := if q.noted.any (fun n => n.1 == q.cursor) then q.noted else q.noted ++ [(q.cursor, image.key)] } := fun h => by
      rw [State.copyCommitDone_resolved (s := s.afterMark copy .first fails) move h, Pass.note_eq, Pass.note_noted]
      rfl
    refine ⟨_, fun d => rfl, fun takes calm => ?_, fun takes overtaken => ?_, fun failed marked => ?_, fun failed unmarked => ?_,
      fun failed calm elsewhere => ?_, fun e failed calm there cell => ?_⟩
    · rw [(exec_markProgramDone carries).1 takes, done, resolves (State.resolveMove_done_free calm), ← mapEntry_settleMove]
      rfl
    · rw [(exec_markProgramDone carries).1 takes, done, resolves (State.resolveMove_done_overtaken overtaken)]
      rfl
    · rw [(exec_markProgramDone carries).2 failed, done, resolves (State.resolveMove_failed_marked marked)]
      rfl
    · rw [(exec_markProgramDone carries).2 failed, done, resolves (State.resolveMove_failed_unmarked unmarked)]
      rfl
    · rw [(exec_markProgramDone carries).2 failed, done, resolves ((State.resolveMove_failed_free calm).trans
        (if_neg (by rw [State.stillNamed_false (s := s.afterMark copy .first fails) elsewhere]; exact Bool.false_ne_true)))]
      rfl
    · rw [(exec_markProgramDone carries).2 failed, done,
        State.copyCommitDone_reverted (s := s.afterMark copy .first fails) move ((State.resolveMove_failed_free calm).trans
          (if_pos (State.stillNamed_of (s := s.afterMark copy .first fails) there cell)))]
      rfl
  · rw [(exec_markProgramDone carries).1 takes, State.deliverMark_drop (s := s.afterMark _ .second fails) pass awaits holds,
      State.dropMarkDone_drops (s := s.afterMark _ .second fails) (State.acceptsDrop_of there gone cell stale)]
    rfl
  · rw [(exec_markProgramDone carries).2 failed, State.deliverMark_drop (s := s.afterMark _ .second fails) pass awaits holds,
      State.dropMarkDone_failed]
  · rw [(exec_markProgramDone carries).1 takes, State.deliverMark_drop (s := s.afterMark _ .second fails) pass awaits holds,
      State.dropMarkDone_kept (s := s.afterMark _ .second fails) (State.acceptsDrop_false kept),
      if_neg fun any => by
        obtain ⟨n, member, here⟩ := (q.noted_any q.cursor).mp any
        exact unnoted n member here]
  · rw [(exec_markProgramDone carries).1 takes, State.deliverMark_drop (s := s.afterMark _ .second fails) pass awaits holds,
      State.dropMarkDone_kept (s := s.afterMark _ .second fails) (State.acceptsDrop_false kept), if_pos ((q.noted_any q.cursor).mpr noted)]
    rfl
  · by_cases takes : s.markTakes ⟨g, 0⟩ .first fails
    · rw [(exec_markProgramDone carries).1 takes, State.deliverMark_retired (s := s.afterMark ⟨g, 0⟩ .first fails) pass awaits]
      rfl
    · rw [(exec_markProgramDone carries).2 takes, State.deliverMark_retired (s := s.afterMark ⟨g, 0⟩ .first fails) pass awaits]
      rfl

end Sys2Proof.Machine

/-! SUPPORT. A scan's search of the directory, its slices, and the reads of its examinations. -/

namespace Sys2Proof.Machine

/-! ## The search of the directory -/

section
variable {k : ScanCtx} {e : Entry} {d pre post : List Entry} {resetting others : Bool} {x : ScanStep}

theorem ScanCtx.visits_iff : k.visits e = true ↔ k.cursor ≤ e.key ∧ e.state = .live ∧ e.key ≠ 0x0000#16 := by
  simp only [ScanCtx.visits, Bool.and_eq_true, decide_eq_true_eq, beq_iff_eq, bne_iff_ne, and_assoc]
  rfl

theorem ScanCtx.not_visits_of_key_lt (below : e.key < k.cursor) : k.visits e = false :=
  Bool.eq_false_iff.mpr fun visited => absurd (ScanCtx.visits_iff.mp visited).1 (BitVec.not_le.mpr below)

theorem scanSearch_cons_skips (skips : k.visits e = false) : scanSearch resetting others (e :: d) k = scanSearch resetting others d k := by
  rw [scanSearch]
  simp only [skips, Bool.false_eq_true, if_false]

/-- Entries that a scan does not visit take no part in its search. -/
theorem scanSearch_append_skips (skips : ∀ y ∈ pre, k.visits y = false) :
    scanSearch resetting others (pre ++ post) k = scanSearch resetting others post k := by
  induction pre with
  | nil => rfl
  | cons y pre ih =>
    rw [List.cons_append, scanSearch_cons_skips (skips y List.mem_cons_self), ih fun z there => skips z (List.mem_cons_of_mem _ there)]

theorem scanSearch_cons_beyond (visited : k.visits e = true) (beyond : k.high < e.key) :
    scanSearch resetting others (e :: d) k = .finish .rangeEnd k := by
  rw [scanSearch]
  simp only [visited, if_true, beyond]

theorem scanSearch_cons_examines (visited : k.visits e = true) (within : e.key ≤ k.high) (long : k.windowOffset + k.width ≤ e.length) :
    scanSearch resetting others (e :: d) k = .examine { k with cursor := e.key + 1 } e := by
  rw [scanSearch]
  simp only [visited, if_true, BitVec.not_lt.mpr within, if_false, Nat.not_lt.mpr long, nextKey]

/-- The context after an entry that is too short for the window (R93). -/
def ScanCtx.afterShort (k : ScanCtx) (e : Entry) : ScanCtx :=
  { k with cursor := e.key + 1, short := k.short + 1, examined := k.examined + 1, slice := k.slice + 1 }

theorem scanSearch_cons_short (visited : k.visits e = true) (within : e.key ≤ k.high) (short : e.length < k.windowOffset + k.width) :
    scanSearch resetting others (e :: d) k =
      ((k.afterShort e).afterExam resetting others).getD (scanSearch resetting others d (k.afterShort e).nextSlice) := by
  rw [scanSearch]
  simp only [visited, if_true, BitVec.not_lt.mpr within, if_false, short]
  show (match (k.afterShort e).afterExam resetting others with
    | some step => step
    | none => scanSearch resetting others d (k.afterShort e).nextSlice) = _
  cases (k.afterShort e).afterExam resetting others <;> rfl

/-- With no entry to visit up to the high key, a search ends RANGE_END: an entry it visits lies beyond the high key. -/
theorem scanSearch_rangeEnd (none_ : ∀ y ∈ d, k.visits y = true → k.high < y.key) : scanSearch resetting others d k = .finish .rangeEnd k := by
  induction d with
  | nil => rfl
  | cons y d ih =>
    cases visited : k.visits y with
    | true => exact scanSearch_cons_beyond visited (none_ y List.mem_cons_self visited)
    | false => rw [scanSearch_cons_skips visited, ih fun z there => none_ z (List.mem_cons_of_mem _ there)]

theorem ScanCtx.nextSlice_cursor : k.nextSlice.cursor = k.cursor := by
  unfold ScanCtx.nextSlice
  split <;> rfl

/-- The keys before an entry of an ordered directory are below its own. -/
theorem DirOk.key_lt_of_append (ordered : DirOk (pre ++ e :: post)) {y : Entry} (there : y ∈ pre) : y.key < e.key :=
  (List.pairwise_append.mp ordered).2.2 y there e List.mem_cons_self

/-- A key other than FFFFh is below the one that follows it. -/
theorem Key.lt_next {a : Key} (notLast : a ≠ 0xFFFF#16) : a < a + 1 := by
  bv_omega

/-- A search from a cursor above an entry's key passes the entry and all before it. -/
theorem scanSearch_from_above (ordered : DirOk (pre ++ e :: post)) (above : e.key < k.cursor) :
    scanSearch resetting others (pre ++ e :: post) k = scanSearch resetting others post k := by
  have skips : ∀ y ∈ pre, k.visits y = false := fun y there =>
    ScanCtx.not_visits_of_key_lt (BitVec.lt_trans (ordered.key_lt_of_append there) above)
  rw [scanSearch_append_skips skips, scanSearch_cons_skips (ScanCtx.not_visits_of_key_lt above)]

end

/-! ## The parking point, and what a scan asks of the ports -/

section
variable {s : State} {p : Port} {c : Cmd} {k : ScanCtx} {resetting others : Bool}

theorem ScanCtx.afterExam_eq :
    k.afterExam resetting others =
      if k.matched = k.limit then some (.finish .limit k)
      else if k.outLast < k.outPos + 1 then some (.finish .bufferEnd k)
      else if k.slice < 8 then none
      else if resetting = true then some .drop
      else if others = true then some (.park { k with slice := 0 })
      else none := rfl

theorem State.isResetting_iff : s.isResetting p = true ↔ (s.port p).state = .resetting := beq_iff_eq

theorem State.othersEligible_iff : s.othersEligible p = true ↔ ∃ q, q ≠ p ∧ s.eligible q = true := by
  simp only [State.othersEligible, List.any_eq_true, Bool.and_eq_true, bne_iff_ne, mem_allPorts, true_and]

theorem State.scanOn_of_some {x : ScanStep} (next : k.afterExam (s.isResetting p) (s.othersEligible p) = some x) :
    s.scanOn p c k = s.takeScanStep p c x := by
  unfold State.scanOn
  rw [next]

theorem State.scanOn_of_none (next : k.afterExam (s.isResetting p) (s.othersEligible p) = none) :
    s.scanOn p c k = s.searchOn p c k.nextSlice := by
  unfold State.scanOn
  rw [next]

end

/-! ## The rows of a scan -/

section
variable {s : State} {p : Port} {c : Cmd} {k : ScanCtx} {key : Key} {v : Version} {pos : Pos} {r : CellRead} {b : Body}

/-- A SCAN whose parameter check passes names one of the four relations. -/
theorem Cmd.scanRelation_of_checkScan (passes : checkScan c = none) : ∃ r, c.scanRelation = some r := by
  refine Option.isSome_iff_exists.mp (Bool.of_not_eq_false fun absent => ?_)
  have code := (Cmd.scanRelation_isSome c).mp absent
  rw [checkScan_eq, if_pos (by tauto)] at passes
  exact absurd passes (by simp)

theorem exec_scan_begins {x : Relation} (h : s.starts p c) (code : c.code = codeScan) (passes : checkScan c = none)
    (formatted : s.store.state ≠ .unformatted) (relation : c.scanRelation = some x) :
    exec .scan s = .next (s.beginScan p c (s.newScan p c x)).settle := by
  rw [exec_scan h code, State.doScan, State.checked_of_none passes, State.admitScan, if_neg formatted, relation]

/-- The result of a scan that ends before its first search. -/
theorem State.newScan_result {x : Relation} : (s.newScan p c x).result c .normal .bufferEnd = c.nt .bufferEnd c.scanLow 0 0 0 := by
  have zero : nat16 0 ++ nat16 0 = (0 : Version) := by decide
  simp only [ScanCtx.result, ScanCtx.resumeKey, State.newScan, zero, Cmd.nt, reduceCtorEq, if_false]
  rfl

theorem exec_scanResume (work : s.engine.work = .resuming p c k) (run : s.running = true) (open_ : s.isOpen = true) :
    exec .scanResume s = .next (s.searchOn p c k).settle := by
  show execScanResume s = _
  simp only [execScanResume, work]
  exact if_pos ⟨run, open_⟩

/-- The completion of the read of an examination (R93). -/
theorem exec_cellReadDone_scanning (h : s.carries .engine (.readCell pos true)) (work : s.engine.work = .scanning p c k key v) :
    exec .cellReadDone s = .next ((s.setInFlight none).scanRead p c k key v (readData s.array.cells pos)).settle := by
  have delivered : (s.setInFlight none).deliverRead .engine pos true =
      (s.setInFlight none).scanRead p c k key v (readData s.array.cells pos) := by
    simp only [State.deliverRead, State.engineRead, readFor, State.setInFlight_engine, State.setInFlight_array, work, if_true]
  rw [exec_cellReadDone h, delivered]

theorem State.scanRead_fails (fails : r.accept key v = none) :
    s.scanRead p c k key v r =
      s.scanOn p c { k with examined := k.examined + 1, slice := k.slice + 1, checkFailed := k.checkFailed + 1 } := by
  simp only [State.scanRead, fails]
  rfl

theorem State.scanRead_passes (accepted : r.accept key v = some b)
    (unrelated : k.relation.holds ((b.payload.drop k.windowOffset).take k.width) k.pattern = false) :
    s.scanRead p c k key v r = s.scanOn p c { k with examined := k.examined + 1, slice := k.slice + 1 } := by
  simp only [State.scanRead, accepted]
  exact if_neg (by rw [Bool.not_eq_true]; exact unrelated)

theorem State.scanRead_matches (accepted : r.accept key v = some b)
    (related : k.relation.holds ((b.payload.drop k.windowOffset).take k.width) k.pattern = true) :
    s.scanRead p c k key v r =
      (s.storeBuffer p k.outPos (bytes16 key)).scanOn p c
        { k with examined := k.examined + 1, slice := k.slice + 1, outPos := k.outPos + 2, matched := k.matched + 1 } := by
  simp only [State.scanRead, accepted]
  exact if_pos related

end

/-! ## The relations -/

section
variable {w x : List Byte}

theorem Relation.eq_holds : Relation.eq.holds w x = true ↔ beNat w = beNat x := beq_iff_eq

theorem Relation.ne_holds : Relation.ne.holds w x = true ↔ beNat w ≠ beNat x := bne_iff_ne

theorem Relation.le_holds : Relation.le.holds w x = true ↔ beNat w ≤ beNat x := decide_eq_true_iff

theorem Relation.ge_holds : Relation.ge.holds w x = true ↔ beNat x ≤ beNat w := decide_eq_true_iff

theorem beNat_append_singleton (bs : List Byte) (b : Byte) : beNat (bs ++ [b]) = 256 * beNat bs + b.toNat := by
  rw [beNat, List.foldl_append, Nat.mul_comm]
  rfl

end

/-- Settles O39: the first entry that a search visits splits the ordered directory, and a search from above its key passes it. -/
theorem scanVisitsTheDirectory : Obligations.ScanVisitsTheDirectory := by
  refine ⟨fun s p c h code passes formatted => ?_, fun s p c k work run open_ => exec_scanResume work run open_, fun s p c k => rfl,
    fun resetting others d k gone ordered => ?_, fun resetting others d k e ordered there low high notConfig notLast live first => ?_,
    fun k resetting others => ScanCtx.afterExam_eq, fun k => rfl, fun s p => ⟨State.isResetting_iff, State.othersEligible_iff⟩⟩
  · obtain ⟨x, relation⟩ := Cmd.scanRelation_of_checkScan passes
    have row := exec_scan_begins h code passes formatted relation
    refine ⟨s.newScan p c x, relation, rfl, fun noRoom => ?_, fun room => ?_⟩
    · rw [row, State.beginScan, if_pos (show (s.newScan p c x).outLast < (s.newScan p c x).outPos + 1 from noRoom), State.newScan_result]
    · rw [row, State.beginScan, if_neg (show ¬ (s.newScan p c x).outLast < (s.newScan p c x).outPos + 1 from Nat.not_lt.mpr room)]
  · refine scanSearch_rangeEnd fun y there visited => BitVec.not_le.mp fun within => ?_
    obtain ⟨above, live, notConfig⟩ := ScanCtx.visits_iff.mp visited
    rw [gone y there above within notConfig] at live
    exact absurd live (by decide)
  · have visited : k.visits e = true := ScanCtx.visits_iff.mpr ⟨low, live, notConfig⟩
    obtain ⟨pre, post, rfl⟩ := List.append_of_mem there
    have skips : ∀ y ∈ pre, k.visits y = false := fun y inPre => Bool.eq_false_iff.mpr fun seen => by
      obtain ⟨above, yLive, yNotConfig⟩ := ScanCtx.visits_iff.mp seen
      rcases first y (List.mem_append_left _ inPre) above (ordered.key_lt_of_append inPre) with config | gone
      · exact yNotConfig config
      · rw [gone] at yLive
        exact absurd yLive (by decide)
    rw [scanSearch_append_skips skips]
    refine ⟨fun long => scanSearch_cons_examines visited high long, fun short => ⟨k.afterShort e, rfl, fun x next => ?_, fun next => ?_⟩⟩
    · rw [scanSearch_cons_short visited high short, next, Option.getD_some]
    · have above : e.key < (k.afterShort e).nextSlice.cursor := by
        rw [ScanCtx.nextSlice_cursor]
        exact Key.lt_next notLast
      rw [scanSearch_cons_short visited high short, next, Option.getD_none, scanSearch_from_above ordered above]

/-- Settles O40: the completion of an examination's read in its three cases, and what each step of a scan does. -/
theorem scanExaminesWhatItReads : Obligations.ScanExaminesWhatItReads := by
  refine ⟨fun s p c k key v pos carries work => ?_,
    fun w x => ⟨Relation.eq_holds, Relation.ne_holds, Relation.le_holds, Relation.ge_holds⟩, fun s p c r k => rfl, fun s p c k e => rfl,
    fun s p c k => ⟨rfl, rfl⟩, fun s p c k => ⟨fun x => State.scanOn_of_some, State.scanOn_of_none⟩,
    fun r key v b => CellRead.accept_eq_some, rfl, beNat_append_singleton⟩
  have row := exec_cellReadDone_scanning carries work
  refine ⟨fun fails => ?_, fun b accepted => ⟨fun unrelated => ?_, fun related => ?_⟩⟩
  · rw [row, State.scanRead_fails fails]
  · rw [row, State.scanRead_passes accepted unrelated]
  · rw [row, State.scanRead_matches accepted related]
    rfl

end Sys2Proof.Machine

/-! SUPPORT. Mount's deliveries, the steps of Table 9-4 up to its repairs, and what a handover ends with. -/

namespace Sys2Proof.Machine

/-! ## Deliveries to mount -/

section
variable {s : State} {m : Mount} {pos : Pos} {payload ok : Bool} {n : Nat} {g x : Seg}

theorem State.deliverRead_mounting (progress : s.store.progress = .mounting m) : s.deliverRead .store pos payload = s.mountRead m := by
  simp only [State.deliverRead, State.storeRead, progress]

theorem State.deliverBody_mounting (progress : s.store.progress = .mounting m) : s.deliverBody .store pos ok = s.mountBody m ok := by
  simp only [State.deliverBody, progress]

theorem State.deliverHeader_mounting (progress : s.store.progress = .mounting m) : s.deliverHeader ok = s.mountHeader m ok := by
  simp only [State.deliverHeader, progress]

theorem State.deliverMark_mounting (progress : s.store.progress = .mounting m) : s.deliverMark .store pos ok = s.mountMark m ok := by
  simp only [State.deliverMark, progress]

theorem State.deliverErase_mounting (progress : s.store.progress = .mounting m) : s.deliverErase n ok = s.mountErase m n ok := by
  simp only [State.deliverErase, progress]

/-- A read of mount, delivered to what mount awaits. -/
theorem exec_cellReadDone_mounting (h : s.carries .store (.readCell pos payload)) (progress : s.store.progress = .mounting m) :
    exec .cellReadDone s = .next ((s.setInFlight none).mountRead m).settle := by
  rw [exec_cellReadDone h, State.deliverRead_mounting (s := s.setInFlight none) progress]

theorem State.mountRead_header (awaits : m.awaits = .header g) : s.mountRead m = s.mountHeaderRead m g (readHeader s.array.cells g) := by
  simp only [State.mountRead, awaits]

theorem State.mountRead_blankCell (awaits : m.awaits = .blankCell pos) : s.mountRead m = s.mountBlankRead m pos (readData s.array.cells pos) := by
  simp only [State.mountRead, awaits]

theorem State.mountRead_config {e : Entry} (awaits : m.awaits = .configRead) (there : lookup s.engine.dir 0x0000#16 = some e) :
    s.mountRead m = s.mountConfigRead (readData s.array.cells e.cell) := by
  simp only [State.mountRead, awaits, Config.configKey, there]

end

/-! ## Step 1: the headers -/

section
variable {s : State} {m : Mount} {pos : Pos} {g : Seg} {r : HeaderRead} {c : CellRead} {cls : SegClass}

theorem State.mountHeaders_next (more : m.classes.length < 256) :
    s.mountHeaders m = (s.setProgress (.mounting { m with awaits := .header ⟨m.classes.length, more⟩ })).presentStore
      (.readCell ⟨⟨m.classes.length, more⟩, 0⟩ false) :=
  dif_pos more

theorem State.mountHeaders_last (all : 256 ≤ m.classes.length) : s.mountHeaders m = s.mountClassified m := dif_neg (Nat.not_lt.mpr all)

/-- A header that classes its segment by itself (Table 9-5). -/
theorem State.mountHeaderRead_classes
    (row : (r.retired = true ∧ cls = .retired r.count) ∨
      (r.retired = false ∧ r.cond = .valid ∧ r.count ≠ 50000 ∧ cls = .valid r.generation r.count) ∨
      (r.retired = false ∧ r.cond = .bad ∧ cls = .damaged)) :
    s.mountHeaderRead m g r = s.mountHeaders (m.class cls) := by
  unfold State.mountHeaderRead
  rcases row with ⟨retired, rfl⟩ | ⟨usable, valid, young, rfl⟩ | ⟨usable, bad, rfl⟩
  · rw [if_pos retired]
  · have notWorn : r.count ≠ Config.endurance := young
    simp only [usable, Bool.false_eq_true, if_false, valid, notWorn]
  · simp only [usable, Bool.false_eq_true, if_false, bad]

theorem State.mountHeaderRead_worn (usable : r.retired = false) (valid : r.cond = .valid) (worn : r.count = 50000) :
    s.mountHeaderRead m g r = s.mountNext (m.class (.retired 50000)) (.wornMark g) (.programMark ⟨g, 0⟩ .first) := by
  have atEndurance : r.count = Config.endurance := worn
  rw [State.mountHeaderRead, if_neg (by rw [usable]; decide), valid]
  dsimp only
  rw [if_pos atEndurance, worn]

theorem State.mountHeaderRead_erased (usable : r.retired = false) (erased : r.cond = .erased) :
    s.mountHeaderRead m g r = s.mountNext m (.blankCell ⟨g, 1⟩) (.readCell ⟨g, 1⟩ true) := by
  rw [State.mountHeaderRead, if_neg (by rw [usable]; decide), erased]

/-- The header of the next segment is read when a header has classed its segment, and step 1 ends after the last. -/
theorem State.mountHeaders_class (place : m.classes.length = g.val) :
    (∀ h : g.val + 1 < 256, s.mountHeaders (m.class cls) =
      (s.setProgress (.mounting { m with classes := m.classes ++ [cls], awaits := .header ⟨g.val + 1, h⟩ })).presentStore
        (.readCell ⟨⟨g.val + 1, h⟩, 0⟩ false)) ∧
    (g.val = 255 → s.mountHeaders (m.class cls) = s.mountClassified { m with classes := m.classes ++ [cls] }) := by
  have length : (m.class cls).classes.length = g.val + 1 := by rw [Mount.class, List.length_append, place, List.length_singleton]
  refine ⟨fun more => ?_, fun last => State.mountHeaders_last (by omega)⟩
  rw [State.mountHeaders_next (m := m.class cls) (by omega)]
  have same : (⟨(m.class cls).classes.length, length ▸ more⟩ : Seg) = ⟨g.val + 1, more⟩ := Fin.ext length
  rw [same]
  rfl

theorem topWith_eq (top : Nat) (b : Option Body) : topWith top b = (b.map (fun b => max top b.seq.toNat)).getD top := by
  cases b <;> rfl

/-- The step of mount that follows a data cell of a segment whose header reads ERASED. -/
theorem State.mountBlankRead_erased (erased : c.cond = .erased) :
    (∀ h : pos.cell.val + 1 < 32, s.mountBlankRead m pos c =
      s.mountNext { m with topSeq := topWith m.topSeq c.body } (.blankCell ⟨pos.seg, ⟨pos.cell.val + 1, h⟩⟩)
        (.readCell ⟨pos.seg, ⟨pos.cell.val + 1, h⟩⟩ true)) ∧
    (pos.cell = 31 → s.mountBlankRead m pos c =
      s.mountHeaders (Mount.class { m with topSeq := topWith m.topSeq c.body } .blank)) := by
  rw [State.mountBlankRead, if_pos erased]
  exact ⟨fun more => dif_pos more, fun last => dif_neg (by rw [last]; decide)⟩

theorem State.mountBlankRead_written (written : c.cond ≠ .erased) :
    s.mountBlankRead m pos c = s.mountHeaders (Mount.class { m with topSeq := topWith m.topSeq c.body } .damaged) := by
  rw [State.mountBlankRead, if_neg written]

end

/-! ## Classes of the segments -/

section
variable {s : State} {m : Mount} {g : Seg} {gen : Generation}

theorem Mount.classOf_eq_iff {c : SegClass} (known : c ≠ .damaged) : m.classOf g = c ↔ m.classes[g.val]? = some c := by
  rw [Mount.classOf, Option.getD_eq_iff]
  exact ⟨fun h => h.resolve_right fun none => known none.2.symm, .inl⟩

theorem Mount.no_valids (none : ∀ gen n, SegClass.valid gen n ∉ m.classes) : m.valids = [] :=
  List.eq_nil_iff_forall_not_mem.mpr fun x there => none x.1 x.2 (Mount.mem_valids.mp there)

theorem Mount.valids_ne_nil {n : Nat} (valid : SegClass.valid gen n ∈ m.classes) : m.valids.isEmpty = false := by
  rw [List.isEmpty_eq_false_iff]
  exact List.ne_nil_of_mem (Mount.mem_valids.mpr valid)

/-- The generation of mount is one of a VALID segment, and the highest of theirs (R157). -/
theorem Mount.topGeneration_spec (valid : ∃ gen n, SegClass.valid gen n ∈ m.classes) :
    (∃ n, SegClass.valid m.topGeneration n ∈ m.classes) ∧ ∀ h n, SegClass.valid h n ∈ m.classes → h ≤ m.topGeneration := by
  obtain ⟨reached, -, above⟩ := topGen_fold m.valids 0
  have above' : ∀ h n, SegClass.valid h n ∈ m.classes → h ≤ m.topGeneration := fun h n there => above (h, n) (Mount.mem_valids.mpr there)
  refine ⟨?_, above'⟩
  rcases reached with zero | ⟨⟨h, n⟩, there, same⟩
  · obtain ⟨gen, n, there⟩ := valid
    have top : m.topGeneration = 0 := zero
    have least : gen = m.topGeneration := by
      have := above' gen n there
      rw [top] at this ⊢
      exact BitVec.le_zero_iff.mp this
    exact ⟨n, least ▸ there⟩
  · have same : h = m.topGeneration := same
    exact ⟨n, same ▸ Mount.mem_valids.mp there⟩

/-- H is the erase count of a VALID segment of the generation, and the highest of theirs (R157). -/
theorem Mount.topCount_spec (valid : ∃ n, SegClass.valid gen n ∈ m.classes) :
    SegClass.valid gen (m.topCount gen) ∈ m.classes ∧ ∀ n, SegClass.valid gen n ∈ m.classes → n ≤ m.topCount gen := by
  obtain ⟨reached, -, above⟩ := topCount_fold gen m.valids 0
  have above' : ∀ n, SegClass.valid gen n ∈ m.classes → n ≤ m.topCount gen := fun n there => above (gen, n) (Mount.mem_valids.mpr there) rfl
  refine ⟨?_, above'⟩
  rcases reached with zero | ⟨⟨h, n⟩, there, rfl, same⟩
  · obtain ⟨n, there⟩ := valid
    have top : m.topCount gen = 0 := zero
    have least : n = m.topCount gen := by have := above' n there; omega
    exact least ▸ there
  · have same : n = m.topCount h := same
    exact same ▸ Mount.mem_valids.mp there

theorem Mount.repairs_sorted : (m.repairs gen).Pairwise (· < ·) := allSegs_sorted.filter _

theorem Mount.mem_repairs (all : m.classes.length = 256) :
    g ∈ m.repairs gen ↔ m.classes[g.val]? = some .damaged ∨ ∃ h n, m.classes[g.val]? = some (.valid h n) ∧ h ≠ gen := by
  rw [Mount.repairs, List.mem_filter, Mount.classOf_all all g]
  cases m.classOf g <;> simp [mem_allSegs]

/-- Step 1 ends with a VALID segment: the generation, H and the repair erases (R157). -/
theorem State.mountClassified_valid {n : Nat} (valid : SegClass.valid gen n ∈ m.classes) :
    s.mountClassified m =
      (s.setGeneration m.topGeneration).mountBlanks { m with high := m.topCount m.topGeneration, erases := m.repairs m.topGeneration } := by
  rw [State.mountClassified, if_neg (by rw [Mount.valids_ne_nil valid]; decide)]

theorem State.mountClassified_nothing (none : ∀ gen n, SegClass.valid gen n ∉ m.classes) : s.mountClassified m = s.mountNothing m := by
  rw [State.mountClassified, if_pos (by rw [Mount.no_valids none]; rfl)]

theorem Mount.bareRow_retired {n : Nat} (retired : m.classes[g.val]? = some (.retired n)) :
    m.bareRow g = { state := .retired, erases := n, live := 0, dead := 0, free := 0 } := by
  simp only [Mount.bareRow, Mount.classOf_of retired]

theorem Mount.bareRow_other (other : ∀ n, m.classes[g.val]? ≠ some (.retired n)) :
    m.bareRow g = { state := .unknown, erases := 0, live := 0, dead := 0, free := 0 } := by
  have notRetired : ∀ n, m.classOf g ≠ .retired n := fun n is => other n ((Mount.classOf_eq_iff (by simp)).mp is)
  unfold Mount.bareRow
  split
  next n is => exact absurd is (notRetired n)
  next => rfl

theorem seqAfter_toNat (n : Nat) : (seqAfter n).toNat = min (n + 1) 0xFFFFFFFF := by
  unfold seqAfter
  split
  · rw [Nat.min_eq_right (by omega)]
    rfl
  · rw [BitVec.toNat_ofNat, Nat.mod_eq_of_lt (by omega), Nat.min_eq_left (by omega)]

end

/-! ## The handover and the configuration -/

section
variable {s : State} {p : Port} {r : CellRead} {b : Body} {x : Settings}

/-- What the degrade signal and the trigger keep of the Store Controller and the Guard Unit: all but the step from READY to DEGRADED. -/
def KeepsOpen (s t : State) : Prop :=
  t.guard = s.guard ∧ t.store.progress = s.store.progress ∧ (t.store.state = s.store.state ∨ t.store.state = .degraded)

theorem State.refuseHeld_store : s.refuseHeld.store = s.store ∧ s.refuseHeld.guard = s.guard := by
  unfold State.refuseHeld
  split
  · split <;> exact ⟨rfl, rfl⟩
  · exact ⟨rfl, rfl⟩

theorem State.enterStore_store (st : StoreState) : (s.enterStore st).store = { s.store with state := st } := by rw [State.enterStore_ports]

theorem State.degrade_keepsOpen : KeepsOpen s s.degrade := by
  by_cases ready : s.store.state = .ready
  · obtain ⟨store, guard⟩ := State.refuseHeld_store (s := s.enterStore .degraded)
    rw [State.degrade_ready ready]
    exact ⟨guard, by rw [store, State.enterStore_store], .inr (by rw [store, State.enterStore_store])⟩
  · rw [State.degrade_notReady ready]
    exact ⟨rfl, rfl, .inl rfl⟩

theorem State.trigger_keepsOpen : KeepsOpen s s.trigger := by
  unfold State.trigger
  split
  · cases s.victim with
    | none => exact ⟨rfl, rfl, .inl rfl⟩
    | some v =>
      show KeepsOpen s (if s.passFits v then s.startPass v else s.degrade)
      split
      · exact ⟨rfl, rfl, .inl rfl⟩
      · exact State.degrade_keepsOpen
  · exact ⟨rfl, rfl, .inl rfl⟩

/-- The directory limited and the table counted against it, at the end of mount (R159, R163). -/
def State.handedOver (s : State) : State := ((s.setDir (limitDir s.engine.dir)).countTable).setProgress .none

/-- Whether the limit of the directory removed keys (R163). -/
def State.removesKeys (s : State) : Bool := decide ((limitDir s.engine.dir).length < s.engine.dir.length)

theorem State.mountHandover_eq (s : State) :
    s.mountHandover =
      if s.handedOver.degradeCause s.removesKeys then s.handedOver.enterStore .degraded else (s.handedOver.enterStore .ready).trigger := rfl

theorem State.handedOver_parts (s : State) :
    s.handedOver.guard = s.guard ∧ s.handedOver.store = { s.store with progress := .none } ∧ s.handedOver.engine.dir = limitDir s.engine.dir :=
  ⟨rfl, rfl, rfl⟩

/-- The end of mount: the Guard Unit stands, and an UNREADABLE configuration degrades the store (R163). -/
theorem State.mountHandover_ends :
    s.mountHandover.guard = s.guard ∧ s.mountHandover.store.progress = .none ∧
      (s.mountHandover.store.state = .ready ∨ s.mountHandover.store.state = .degraded) ∧
      (s.guard.standing = .unreadable → s.mountHandover.store.state = .degraded) := by
  obtain ⟨guard, store, -⟩ := s.handedOver_parts
  rw [State.mountHandover_eq]
  generalize s.handedOver = t at *
  by_cases cause : t.degradeCause s.removesKeys = true
  · rw [if_pos cause, State.enterStore_guard, State.enterStore_store, store]
    exact ⟨guard, rfl, .inr rfl, fun _ => rfl⟩
  · obtain ⟨sameGuard, progress, state⟩ := State.trigger_keepsOpen (s := t.enterStore .ready)
    rw [State.enterStore_store, store] at progress state
    rw [if_neg cause]
    refine ⟨sameGuard.trans guard, progress, state, fun unreadable => absurd ?_ cause⟩
    rw [State.degradeCause, guard, unreadable]
    simp

theorem readableConfig_some (body : r.body = some b) (kind : b.kind = .config) (good : r.payloadGood = true) (length : b.length = 6)
    (parses : parseSettings b.payload = some x) : readableConfig r = some x := by
  simp only [readableConfig, body, kind, good, length, and_self, if_true, parses]

theorem readableConfig_none
    (bad : ∀ b, r.body = some b → b.kind ≠ .config ∨ r.payloadGood = false ∨ b.length ≠ 6 ∨ parseSettings b.payload = none) :
    readableConfig r = none := by
  unfold readableConfig
  cases body : r.body with
  | none => rfl
  | some b =>
    show (if b.kind = .config ∧ r.payloadGood = true ∧ b.length = 6 then parseSettings b.payload else none) = none
    split
    next readable =>
      obtain ⟨kind, good, length⟩ := readable
      rcases bad b body with other | failed | long | unparsed
      · exact absurd kind other
      · rw [good] at failed
        exact absurd failed (by decide)
      · exact absurd length long
      · exact unparsed
    next => rfl

theorem State.mountConfigRead_some (readable : readableConfig r = some x) :
    s.mountConfigRead r = (s.setGuard { s.guard with settings := x, standing := .loaded }).mountHandover := by
  rw [State.mountConfigRead, readable]

theorem State.mountConfigRead_none (unreadable : readableConfig r = none) :
    s.mountConfigRead r = (s.setGuard { s.guard with settings := Settings.closed, standing := .unreadable }).mountHandover := by
  rw [State.mountConfigRead, unreadable]

/-- A mount that finds no VALID segment ends UNFORMATTED (R156). -/
theorem State.mountNothing_ends (s : State) (m : Mount) :
    (s.mountNothing m).store = { s.store with state := .unformatted, progress := .none } ∧
      (s.mountNothing m).engine.dir = s.engine.dir ∧ (s.mountNothing m).guard = s.guard := by
  rw [State.mountNothing, State.enterStore_store, State.enterStore_engine, State.enterStore_guard]
  generalize Vector.ofFn (fun g : Fin 256 => m.bareRow g) = segs
  exact ⟨rfl, rfl, rfl⟩

/-- Under the closed settings every page is protected from every port (Table 7-5). -/
theorem Settings.closed_protects (p : Port) (page : Byte) : guardProtects (Settings.closed.guards.get p) page = true := by
  have all : Settings.closed.guards.get p = { upper := false, size := 9, complement := false } := by cases p <;> rfl
  have below : page.toNat < guardPages 9 := page.isLt
  rw [all]
  simp only [guardProtects, Bool.false_eq_true, if_false, below, decide_true]
  rfl

end

/-- Settles O51: each read of mount is delivered to what mount awaits, and the last one ends in its handover. -/
theorem mountAdvances : Obligations.MountAdvances := by
  refine ⟨fun s m g carries progress awaits place => ⟨fun c row => ?_, fun usable valid worn => ?_, fun usable erased => ?_⟩,
    fun s m pos carries progress awaits => ⟨_, rfl, fun erased => ?_, fun written => ?_⟩, fun s m none => ?_,
    fun s m e carries progress awaits there => ⟨fun b x body kind good length parses => ?_, fun bad => ?_⟩⟩
  · have classed : exec .cellReadDone s = .next ((s.setInFlight none).mountHeaders (m.class c)).settle := by
      rw [exec_cellReadDone_mounting carries progress, State.mountRead_header awaits]
      exact congrArg (fun t => Host.Outcome.next (State.settle t)) (State.mountHeaderRead_classes row)
    obtain ⟨goesOn, ends⟩ := State.mountHeaders_class (s := s.setInFlight none) (cls := c) place
    refine ⟨fun more => by rw [classed, goesOn more], fun last => by rw [classed, ends last], fun last noValid => ?_⟩
    have nothing := State.mountClassified_nothing (s := s.setInFlight none) (m := { m with classes := m.classes ++ [c] })
      fun gen n there => noValid _ there gen n rfl
    obtain ⟨store, dir, guard⟩ := (s.setInFlight none).mountNothing_ends { m with classes := m.classes ++ [c] }
    exact ⟨_, by rw [classed, ends last, nothing], by rw [store], by rw [store], by rw [store]; rfl, dir, guard⟩
  · rw [exec_cellReadDone_mounting carries progress, State.mountRead_header awaits]
    exact congrArg (fun t => Host.Outcome.next (State.settle t)) (State.mountHeaderRead_worn usable valid worn)
  · rw [exec_cellReadDone_mounting carries progress, State.mountRead_header awaits]
    exact congrArg (fun t => Host.Outcome.next (State.settle t)) (State.mountHeaderRead_erased usable erased)
  · obtain ⟨goesOn, ends⟩ := State.mountBlankRead_erased (s := s.setInFlight none) (m := m) (pos := pos) erased
    rw [exec_cellReadDone_mounting carries progress, State.mountRead_blankCell awaits, ← topWith_eq]
    exact ⟨fun more => congrArg (fun t => Host.Outcome.next (State.settle t)) (goesOn more),
      fun last => congrArg (fun t => Host.Outcome.next (State.settle t)) (ends last)⟩
  · rw [exec_cellReadDone_mounting carries progress, State.mountRead_blankCell awaits, ← topWith_eq]
    exact congrArg (fun t => Host.Outcome.next (State.settle t)) (State.mountBlankRead_written written)
  · refine ⟨Vector.ofFn fun g : Fin 256 => m.bareRow g, seqAfter m.topSeq, fun g n retired => ?_, fun g other => ?_, seqAfter_toNat _, ?_⟩
    · rw [Fin.getElem_fin, Vector.getElem_ofFn, Mount.bareRow_retired retired]
    · rw [Fin.getElem_fin, Vector.getElem_ofFn, Mount.bareRow_other other]
    · rw [State.mountClassified_nothing none]
      rfl
  · obtain ⟨guard, ended, state, -⟩ := State.mountHandover_ends
      (s := (s.setInFlight none).setGuard { (s.setInFlight none).guard with settings := x, standing := .loaded })
    refine ⟨_, ?_, ended, state, guard⟩
    rw [exec_cellReadDone_mounting carries progress, State.mountRead_config (s := s.setInFlight none) awaits there]
    exact congrArg (fun t => Host.Outcome.next (State.settle t))
      (State.mountConfigRead_some (readableConfig_some body kind good length parses))
  · obtain ⟨guard, ended, -, state⟩ := State.mountHandover_ends
      (s := (s.setInFlight none).setGuard { (s.setInFlight none).guard with settings := Settings.closed, standing := .unreadable })
    refine ⟨_, ?_, ended, state rfl, by rw [guard]; rfl, by rw [guard]; rfl, by rw [guard]; rfl, fun p page => ?_⟩
    · rw [exec_cellReadDone_mounting carries progress, State.mountRead_config (s := s.setInFlight none) awaits there]
      exact congrArg (fun t => Host.Outcome.next (State.settle t)) (State.mountConfigRead_none (readableConfig_none bad))
    · rw [State.guardOfPort, guard]
      exact Settings.closed_protects p page

end Sys2Proof.Machine

/-! SUPPORT. Mount's blank headers, its repair marks and erases, and where its later steps begin. -/

namespace Sys2Proof.Machine

/-! ## Where mount goes on -/

section
variable {s : State} {m : Mount} {g x : Seg} {k : Key} {pos : Pos} {n : Nat} {rest : List Seg} {ok : Bool}

theorem State.mountBlanks_next (blank : m.classes[g.val]? = some .blank) (first : ∀ h : Seg, h < g → m.classes[h.val]? ≠ some .blank) :
    s.mountBlanks m = s.mountNext m (.blankHeader g) (.programHeader g s.store.generation m.high) := by
  have found : allSegs.find? (fun g => m.classOf g == .blank) = some g :=
    allSegs_find_first (beq_iff_eq.mpr (Mount.classOf_of blank)) fun h below =>
      beq_eq_false_iff_ne.mpr fun is => first h below ((Mount.classOf_eq_iff (by decide)).mp is)
  rw [State.mountBlanks, found]

theorem State.mountBlanks_last (none : ∀ g : Seg, m.classes[g.val]? ≠ some .blank) :
    s.mountBlanks m = s.mountReadFrom { m with topSeq := 0 } 0 := by
  have notFound : allSegs.find? (fun g => m.classOf g == .blank) = .none :=
    allSegs_find_none fun h => beq_eq_false_iff_ne.mpr fun is => none h ((Mount.classOf_eq_iff (by decide)).mp is)
  rw [State.mountBlanks, notFound]

theorem State.mountTargets_cons {rest : List (Key × Pos)} (targets : m.targets = (k, pos) :: rest) :
    s.mountTargets m = s.mountNext m .repairMark (.programMark pos .second) := by
  rw [State.mountTargets, targets]

theorem State.mountTargets_nil (targets : m.targets = []) : s.mountTargets m = s.mountErases m := by
  rw [State.mountTargets, targets]

theorem State.mountErases_cons (erases : m.erases = g :: rest) :
    s.mountErases m = s.mountNext m .repairErase (.eraseSegment g s.store.generation (m.repairCount g)) := by
  rw [State.mountErases, erases]

theorem State.mountErases_nil (erases : m.erases = []) : s.mountErases m = s.mountConfig m := by
  rw [State.mountErases, erases]

theorem Mount.repairCount_valid {h : Generation} (valid : m.classes[g.val]? = some (.valid h n)) : m.repairCount g = n + 1 := by
  rw [Mount.repairCount, Mount.classOf_of valid]

theorem Mount.repairCount_damaged (damaged : m.classes[g.val]? = some .damaged) : m.repairCount g = m.high := by
  rw [Mount.repairCount, Mount.classOf_of damaged]

theorem State.mountConfig_some {e : Entry} (there : lookup s.engine.dir 0x0000#16 = some e) :
    s.mountConfig m = s.mountNext m .configRead (.readCell e.cell true) := by
  simp only [State.mountConfig, Config.configKey, there]

theorem State.mountConfig_none (absent : lookup s.engine.dir 0x0000#16 = none) : s.mountConfig m = s.mountWriteDefaults m 1 := by
  simp only [State.mountConfig, Config.configKey, absent]

end

/-! ## The outcomes of its programs and erases -/

section
variable {s : State} {m : Mount} {g x : Seg} {k : Key} {pos : Pos} {n : Nat} {gen : Generation} {rest : List Seg} {ok fails : Bool}
  {left : List Host.Cell}

theorem State.mountHeader_blank (awaits : m.awaits = .blankHeader g) : s.mountHeader m ok = s.mountHeaderDone m g ok := by
  simp only [State.mountHeader, awaits]

/-- The outcome of a retired mark is ignored: mount goes on as it would without (R156, R157, R161). -/
theorem State.mountMark_retired :
    (m.awaits = .wornMark x → s.mountMark m ok = s.mountHeaders m) ∧ (m.awaits = .blankMark x → s.mountMark m ok = s.mountBlanks m) ∧
      (m.awaits = .repairRetire x → s.mountMark m ok = s.mountErases m) := by
  refine ⟨fun awaits => ?_, fun awaits => ?_, fun awaits => ?_⟩ <;> simp only [State.mountMark, awaits]

/-- The completion of a mark program of mount. -/
theorem exec_markProgramDone_mounting {kind : MarkKind} (h : s.carries .store (.programMark pos kind)) (progress : s.store.progress = .mounting m) :
    (s.markTakes pos kind fails → exec (.markProgramDone fails) s = .next ((s.afterMark pos kind fails).mountMark m true).settle) ∧
    (¬ s.markTakes pos kind fails → exec (.markProgramDone fails) s = .next ((s.afterMark pos kind fails).mountMark m false).settle) := by
  have delivers (ok : Bool) := State.deliverMark_mounting (s := s.afterMark pos kind fails) (pos := pos) (ok := ok) progress
  exact ⟨fun takes => by rw [(exec_markProgramDone h).1 takes, delivers], fun not => by rw [(exec_markProgramDone h).2 not, delivers]⟩

theorem State.mountMarked_cons {rest : List (Key × Pos)} (awaits : m.awaits = .repairMark) (targets : m.targets = (k, pos) :: rest) :
    s.mountMark m true = s.mountTargets { m with targets := rest } ∧
    s.mountMark m false =
      (s.setDir (s.engine.dir.map (fun e =>
        if e.key = k then { e with stale := e.stale + 1, retry := some (e.retry.getD pos) } else e))).mountTargets { m with targets := rest } := by
  simp only [State.mountMark, awaits, State.mountMarked, targets, mapEntry_markFailed, if_true, Bool.false_eq_true, if_false, and_self]

/-- The outcome of a repair erase: the next one, or the retired mark of a segment that is now RETIRED (R161). -/
theorem State.mountErase_repair (awaits : m.awaits = .repairErase) (erases : m.erases = g :: rest) :
    s.mountErase m n ok =
      if ok = true ∧ n < 50000 then (s.withErased g n ok).mountErases { m with erases := rest }
      else (s.withErased g n ok).mountNext { m with erases := rest } (.repairRetire g) (.programMark ⟨g, 0⟩ .first) := by
  have state : ((s.withErased g n ok).seg g).state = .free ↔ ok = true ∧ n < 50000 := by
    rw [State.withErased_seg]
    split <;> simp_all
  simp only [State.mountErase, awaits, State.mountErased, erases, State.recordErase_eq, state]

end

/-- Settles O52: mount's second step by the folds over its VALID segments, and its repairs by what each completion is delivered to. -/
theorem mountRepairsTheArray : Obligations.MountRepairsTheArray := by
  refine ⟨fun s m valid all => ?_, fun s m => ⟨fun g => State.mountBlanks_next, State.mountBlanks_last⟩,
    fun s m g gen n left carries progress awaits => ⟨fun takes => ?_, fun fails => ?_⟩, fun s m g x fails carries progress => ?_,
    fun s m => ⟨State.mountHeaders_next, State.mountHeaders_last, fun k pos rest => State.mountTargets_cons, State.mountTargets_nil,
      fun g rest erases => ⟨fun h n valid => ?_, fun damaged => ?_⟩, fun e erases there => ?_, fun erases absent => ?_⟩,
    fun s m k pos rest fails carries progress awaits targets => ?_, fun s m g gen n rest left carries progress awaits erases => ?_⟩
  · obtain ⟨⟨n, top⟩, highest⟩ := Mount.topGeneration_spec valid
    obtain ⟨counted, most⟩ := Mount.topCount_spec ⟨n, top⟩
    exact ⟨m.topGeneration, m.topCount m.topGeneration, m.repairs m.topGeneration, ⟨n, top⟩, highest, counted, most, Mount.repairs_sorted,
      fun g => Mount.mem_repairs all, State.mountClassified_valid top⟩
  · rw [(exec_headerProgramDone carries).1 takes, State.deliverHeader_mounting (s := s.afterHeader g gen n left) progress,
      State.mountHeader_blank awaits]
    rfl
  · rw [(exec_headerProgramDone carries).2 fails, State.deliverHeader_mounting (s := s.afterHeader g gen n left) progress,
      State.mountHeader_blank awaits]
    rfl
  · obtain ⟨done, failed⟩ := exec_markProgramDone_mounting (fails := fails) carries progress
    have ignored : ∃ ok, exec (.markProgramDone fails) s = .next ((s.afterMark ⟨g, 0⟩ .first fails).mountMark m ok).settle :=
      (Classical.em _).elim (fun takes => ⟨true, done takes⟩) (fun not => ⟨false, failed not⟩)
    obtain ⟨ok, row⟩ := ignored
    obtain ⟨worn, blank, retired⟩ := State.mountMark_retired (s := s.afterMark ⟨g, 0⟩ .first fails) (m := m) (x := x) (ok := ok)
    rw [row]
    exact ⟨fun awaits => by rw [worn awaits], fun awaits => by rw [blank awaits], fun awaits => by rw [retired awaits]⟩
  · rw [State.mountErases_cons erases, Mount.repairCount_valid valid]
    rfl
  · rw [State.mountErases_cons erases, Mount.repairCount_damaged damaged]
    rfl
  · rw [State.mountErases_nil erases, State.mountConfig_some there]
    rfl
  · rw [State.mountErases_nil erases, State.mountConfig_none absent]
  · obtain ⟨marked, failed⟩ := State.mountMarked_cons (s := s.afterMark pos .second fails) awaits targets
    refine ⟨fun takes => by rw [(exec_markProgramDone_mounting carries progress).1 takes, marked], fun not => ?_⟩
    rw [(exec_markProgramDone_mounting carries progress).2 not, failed]
    rfl
  · have outcome := State.mountErase_repair (s := s.afterErase g gen n left) (n := n) (ok := eraseVerifies s.array.cells g gen n left) awaits erases
    rw [exec_storeEraseDone carries, State.deliverErase_mounting (s := s.afterErase g gen n left) progress, outcome]
    refine ⟨_, rfl, fun erased young => by rw [if_pos ⟨erased, young⟩], fun retires => ?_⟩
    rw [if_neg (by rintro ⟨erased, young⟩; simp [erased] at retires; omega)]
    rfl

end Sys2Proof.Machine

/-! SUPPORT. Mount's defaults write, its end in UNFORMATTED, and the handover's directory, table and closing state. -/

namespace Sys2Proof.Machine

/-! ## The defaults write (R162) -/

section
variable {s t : State} {m : Mount} {n : Nat} {pos : Pos} {ok : Bool}

theorem State.mountWriteDefaults_granted (grant : s.copyGrant = some (pos, t)) :
    s.mountWriteDefaults m n =
      (t.bumpSeq).mountNext m (.configBody pos n) (.programBody pos { configBody .internal Settings.default with seq := s.engine.seq }) := by
  have seq : t.engine.seq = s.engine.seq := by rw [State.copyGrant_space grant]
  simp only [State.mountWriteDefaults, grant, seq]

theorem State.mountWriteDefaults_noCell (none : s.copyGrant = none) : s.mountWriteDefaults m n = s.mountUnformatted := by
  simp only [State.mountWriteDefaults, none]

theorem State.mountBody_config (awaits : m.awaits = .configBody pos n) :
    s.mountBody m true = s.mountNext m (.configMark pos n) (.programMark pos .first) ∧
      s.mountBody m false = s.mountDefaultsFailed m pos n := by
  simp only [State.mountBody, awaits, if_true, Bool.false_eq_true, if_false, and_self]

theorem State.mountMark_config (awaits : m.awaits = .configMark pos n) :
    s.mountMark m true = s.mountConfigCommitted pos ∧ s.mountMark m false = s.mountDefaultsFailed m pos n := by
  simp only [State.mountMark, awaits, if_true, Bool.false_eq_true, if_false, and_self]

/-- A failed attempt is followed by the next one, up to three (R162). -/
theorem State.mountDefaultsFailed_eq :
    (n < 3 → s.mountDefaultsFailed m pos n = (s.countDead pos).mountWriteDefaults m (n + 1)) ∧
      (3 ≤ n → s.mountDefaultsFailed m pos n = (s.countDead pos).mountUnformatted) :=
  ⟨fun more => if_pos more, fun last => if_neg (Nat.not_lt.mpr last)⟩

theorem configBody_withSeq (author : Author) (x : Settings) (n : SeqNo) :
    { configBody author x with seq := n } =
      { key := 0x0000#16, version := 1, seq := n, length := 6, author := author, kind := .config, check := crc16 (settingsBytes x),
        payload := settingsBytes x } := rfl

theorem Settings.default_thresholdOk : Settings.default.thresholdOk := ⟨by decide, by decide⟩

/-- The defaults, once committed, are adopted with standing DEFAULTED (R162, R43). -/
theorem State.mountConfigCommitted_eq (s : State) (pos : Pos) :
    s.mountConfigCommitted pos =
      ((s.commitBody (configBody .internal Settings.default) pos).setGuard
        { settings := Settings.default, standing := .defaulted, session := s.guard.session }).mountHandover := by
  obtain ⟨-, guard, -⟩ := s.commitBody_leaves (configBody .internal Settings.default) pos
  have parses : parseSettings (configBody .internal Settings.default).payload = some Settings.default :=
    parseSettings_settingsBytes Settings.default_thresholdOk
  have adopted : s.guard.adopt (configBody .internal Settings.default).payload .defaulted =
      { settings := Settings.default, standing := .defaulted, session := s.guard.session } := by
    simp only [GuardUnit.adopt, parses]
  rw [State.mountConfigCommitted, guard, adopted]

end

/-! ## The table's counts (R159) -/

section
variable {s : State} {d : List Entry} {free : Nat} {g : Seg} {row : SegRow}

/-- The segment table counted against a directory. -/
def State.countedAgainst (s : State) (d : List Entry) : Vector SegRow 256 :=
  Vector.ofFn fun g : Fin 256 => countRow d s.space.frontFree.length g (s.seg g)

theorem State.countedAgainst_row : (s.countedAgainst d)[g] = countRow d s.space.frontFree.length g (s.seg g) := by
  rw [State.countedAgainst, Fin.getElem_fin, Vector.getElem_ofFn]

theorem countRow_keeps : (countRow d free g row).state = row.state ∧ (countRow d free g row).erases = row.erases := by
  unfold countRow
  dsimp only
  split <;> exact ⟨by simp_all, rfl⟩

theorem countRow_front (front : row.state = .front) :
    (countRow d free g row).live = d.countP (fun e => e.cell.seg == g) ∧ (countRow d free g row).free = free ∧
      (countRow d free g row).dead = 31 - (countRow d free g row).live - (countRow d free g row).free := by
  simp only [countRow, front, and_self]

theorem countRow_full (full : row.state = .full) :
    (countRow d free g row).live = d.countP (fun e => e.cell.seg == g) ∧ (countRow d free g row).free = 0 ∧
      (countRow d free g row).dead = 31 - (countRow d free g row).live := by
  simp only [countRow, full, and_self]

/-- The counts change no segment's state, and so not the number of usable ones. -/
theorem State.setSegs_countedAgainst_usableCount : (s.setSegs (s.countedAgainst d)).usableCount = s.usableCount := by
  have states : (s.countedAgainst d).toList.countP (fun r => r.state == .retired) = s.space.segs.toList.countP (fun r => r.state == .retired) := by
    rw [segRows_toList, segRows_toList, List.countP_map, List.countP_map]
    refine List.countP_congr fun g _ => ?_
    rw [Function.comp_apply, Function.comp_apply, State.countedAgainst_row, countRow_keeps.1]
    rfl
  exact congrArg (256 - ·) states

theorem State.handedOver_eq (s : State) :
    s.handedOver = ((s.setDir (limitDir s.engine.dir)).setSegs (s.countedAgainst (limitDir s.engine.dir))).setProgress .none := rfl

theorem State.handedOver_usableCount : s.handedOver.usableCount = s.usableCount :=
  State.setSegs_countedAgainst_usableCount (s := s) (d := limitDir s.engine.dir)

theorem State.mountUnformatted_eq (s : State) :
    s.mountUnformatted =
      ((((s.setDir []).setGuard { settings := Settings.default, standing := .defaulted, session := s.guard.session }).setSegs
        (s.countedAgainst [])).setProgress .none).enterStore .unformatted := rfl

end

/-! ## The closing state (R163) -/

section
variable {s : State}

/-- The limit of the directory removes keys exactly when more than 4,095 entries are not the configuration entry. -/
theorem State.removesKeys_iff (ordered : DirectoryOk s) : s.removesKeys = true ↔ 4095 < masterCount s.engine.dir := by
  rw [State.removesKeys, decide_eq_true_eq]
  rcases Nat.lt_or_ge 4095 (masterCount s.engine.dir) with big | small
  · obtain ⟨count, kept, -⟩ := limitDir_spec ordered big
    refine iff_of_true (Nat.lt_of_le_of_ne kept.length_le fun same => ?_) big
    rw [kept.eq_of_length same] at count
    omega
  · rw [limitDir_small small]
    exact iff_of_false (Nat.lt_irrefl _) (Nat.not_lt.mpr small)

theorem State.mountHandover_degraded (ordered : DirectoryOk s)
    (cause : s.usableCount < 136 ∨ s.guard.standing = .unreadable ∨ 4095 < masterCount s.engine.dir) :
    s.mountHandover = s.handedOver.enterStore .degraded := by
  obtain ⟨guard, -⟩ := s.handedOver_parts
  rw [State.mountHandover_eq, if_pos]
  rw [State.degradeCause, State.handedOver_usableCount, guard, Bool.or_eq_true, Bool.or_eq_true, decide_eq_true_eq, beq_iff_eq,
    State.removesKeys_iff ordered, or_assoc]
  exact cause

theorem State.mountHandover_ready (ordered : DirectoryOk s) (usable : 136 ≤ s.usableCount) (readable : s.guard.standing ≠ .unreadable)
    (fits : masterCount s.engine.dir ≤ 4095) : s.mountHandover = (s.handedOver.enterStore .ready).trigger := by
  obtain ⟨guard, -⟩ := s.handedOver_parts
  rw [State.mountHandover_eq, if_neg]
  rw [State.degradeCause, State.handedOver_usableCount, guard, Bool.or_eq_true, Bool.or_eq_true, decide_eq_true_eq, beq_iff_eq,
    State.removesKeys_iff ordered, or_assoc]
  rintro (few | unreadable | big)
  · exact absurd few (Nat.not_lt.mpr usable)
  · exact readable unreadable
  · exact absurd big (Nat.not_lt.mpr fits)

end

/-- Settles O54: each attempt of the defaults' write, and the handover by the limit of the directory and the counts of the table. -/
theorem mountCloses : Obligations.MountCloses := by
  refine ⟨fun s t m n pos grant => ⟨_, State.mountWriteDefaults_granted grant, configBody_withSeq ..⟩, fun s m n => State.mountWriteDefaults_noCell,
    fun s m n pos b left carries progress awaits => ?_, fun s m n pos fails carries progress awaits => ?_, fun s => ?_, fun s ordered => ?_⟩
  · obtain ⟨marks, failed⟩ := State.mountBody_config (s := s.afterBody pos b left) awaits
    obtain ⟨again, gives_up⟩ := State.mountDefaultsFailed_eq (s := s.afterBody pos b left) (m := m) (pos := pos) (n := n)
    have delivers (ok : Bool) := State.deliverBody_mounting (s := s.afterBody pos b left) (pos := pos) (ok := ok) progress
    refine ⟨fun takes => ?_, fun not => ?_⟩
    · rw [(exec_bodyProgramDone carries).1 takes, delivers, marks]
      rfl
    · rw [(exec_bodyProgramDone carries).2 not, delivers, failed]
      exact ⟨fun more => by rw [again more], fun last => by rw [gives_up last]⟩
  · obtain ⟨commits, failed⟩ := State.mountMark_config (s := s.afterMark pos .first fails) awaits
    obtain ⟨again, gives_up⟩ := State.mountDefaultsFailed_eq (s := s.afterMark pos .first fails) (m := m) (pos := pos) (n := n)
    refine ⟨fun takes => ?_, fun not => ?_⟩
    · rw [(exec_markProgramDone_mounting carries progress).1 takes, commits, State.mountConfigCommitted_eq]
      rfl
    · rw [(exec_markProgramDone_mounting carries progress).2 not, failed]
      exact ⟨fun more => by rw [again more], fun last => by rw [gives_up last]⟩
  · refine ⟨s.countedAgainst [], fun g => ?_, s.mountUnformatted_eq⟩
    rw [State.countedAgainst_row]
    exact countRow_keeps
  · refine ⟨limitDir s.engine.dir, s.countedAgainst (limitDir s.engine.dir), s.handedOver, s.handedOver_eq, limitDir_small,
      limitDir_spec ordered, fun g => ?_, State.mountHandover_degraded ordered, State.mountHandover_ready ordered⟩
    rw [State.countedAgainst_row]
    exact ⟨countRow_keeps.1, countRow_keeps.2, countRow_front, countRow_full⟩

end Sys2Proof.Machine

/-! SUPPORT. Mount's third and fourth steps: the data cells kept, the current cell of each key, the repair targets, and the segment table with its front. -/

namespace Sys2Proof.Machine

/-! ## The reads of step 3 -/

section
variable {s : State} {m : Mount} {g : Seg} {pos : Pos} {r : CellRead} {b : Body} {n count : Nat}

theorem State.mountRead_dataCell (awaits : m.awaits = .dataCell pos) :
    s.mountRead m = s.mountDataRead m pos (readFor s.array.cells pos false) := by
  simp only [State.mountRead, awaits]

/-- What mount has read once a data cell has been read: the cell is kept unless it reads ERASED (R158). -/
def Mount.withData (m : Mount) (pos : Pos) (r : CellRead) : Mount :=
  { m with
    topSeq := topWith m.topSeq r.body
    found := if r.cond = .erased then m.found else m.found ++ [{ pos := pos, cond := r.cond, body := r.body }] }

theorem State.mountDataRead_eq :
    (∀ h : pos.cell.val + 1 < 32, s.mountDataRead m pos r =
      s.mountNext (m.withData pos r) (.dataCell ⟨pos.seg, ⟨pos.cell.val + 1, h⟩⟩) (.readCell ⟨pos.seg, ⟨pos.cell.val + 1, h⟩⟩ false)) ∧
    (pos.cell = 31 → s.mountDataRead m pos r = s.mountReadFrom (m.withData pos r) (pos.seg.val + 1)) := by
  have kept : (if r.cond = .erased then { m with topSeq := topWith m.topSeq r.body }
      else { m with topSeq := topWith m.topSeq r.body, found := m.found ++ [{ pos := pos, cond := r.cond, body := r.body }] }) =
      m.withData pos r := by
    unfold Mount.withData
    split <;> rfl
  rw [State.mountDataRead]
  dsimp only
  rw [kept]
  exact ⟨fun more => dif_pos more, fun last => dif_neg (by rw [last]; decide)⟩

/-- The payload that a header-only read leaves out plays no part in what mount keeps. -/
theorem Mount.withData_headerOnly (m : Mount) (pos : Pos) (r : CellRead) :
    m.withData pos r.headerOnly =
      { m with
        topSeq := (r.body.map (fun b => max m.topSeq b.seq.toNat)).getD m.topSeq
        found := if r.cond = .erased then m.found
          else m.found ++ [{ pos := pos, cond := r.cond, body := r.body.map (fun b => { b with payload := [] }) }] } := by
  rw [Mount.withData, topWith_eq, CellRead.headerOnly, Option.map_map]
  rfl

theorem State.mountReadFrom_next (above : n ≤ g.val) (current : m.classes[g.val]? = some (.valid s.store.generation count))
    (first : ∀ h : Seg, n ≤ h.val → h < g → ∀ x, m.classes[h.val]? ≠ some (.valid s.store.generation x)) :
    s.mountReadFrom m n = s.mountNext m (.dataCell ⟨g, 1⟩) (.readCell ⟨g, 1⟩ false) := by
  have found : m.currentFrom s.store.generation n = some g := by
    refine allSegs_find_first ?_ fun h below => Bool.eq_false_iff.mpr fun sought => ?_
    · rw [Bool.and_eq_true, decide_eq_true_eq, Mount.isCurrent_iff]
      exact ⟨above, count, current⟩
    · rw [Bool.and_eq_true, decide_eq_true_eq, Mount.isCurrent_iff] at sought
      obtain ⟨from_, x, is⟩ := sought
      exact first h from_ below x is
  rw [State.mountReadFrom, found]

theorem State.mountReadFrom_last (none : ∀ g : Seg, n ≤ g.val → ∀ x, m.classes[g.val]? ≠ some (.valid s.store.generation x)) :
    s.mountReadFrom m n = s.mountChoose m := by
  have notFound : m.currentFrom s.store.generation n = .none := by
    refine allSegs_find_none fun h => Bool.eq_false_iff.mpr fun sought => ?_
    rw [Bool.and_eq_true, decide_eq_true_eq, Mount.isCurrent_iff] at sought
    obtain ⟨from_, x, is⟩ := sought
    exact none h from_ x is
  rw [State.mountReadFrom, notFound]

theorem Mount.mem_committed : (pos, b) ∈ m.committed ↔ { pos := pos, cond := .committed, body := some b } ∈ m.found := by
  unfold Mount.committed
  rw [List.mem_filterMap]
  constructor
  · rintro ⟨⟨at_, cond, body⟩, there, is⟩
    cases cond <;> cases body <;> simp at is
    obtain ⟨rfl, rfl⟩ := is
    exact there
  · exact fun there => ⟨_, there, rfl⟩

end

/-! ## The current cells and the repair targets (R158) -/

section
variable {cs : List (Pos × Body)} {k : Key} {e : Entry} {x y : Pos × Body} {pos : Pos}

theorem copyRank_inj (same : copyRank x = copyRank y) : x.2.version = y.2.version ∧ x.2.seq = y.2.seq ∧ x.1 = y.1 := by
  unfold copyRank at same
  have := posRank_lt x.1
  have := posRank_lt y.1
  have := x.2.seq.isLt
  have := y.2.seq.isLt
  exact ⟨BitVec.eq_of_toNat_eq (by omega), BitVec.eq_of_toNat_eq (by omega), posRank_inj (by omega)⟩

/-- The order among the cells of a key, where one does not give way to another. -/
theorem losesTo_false (key : y.2.key = x.2.key) (stays : losesTo x y = false) :
    y.2.version < x.2.version ∨ (y.2.version = x.2.version ∧
      (y.2.seq < x.2.seq ∨ (y.2.seq = x.2.seq ∧ (y.1 = x.1 ∨ y.1.seg < x.1.seg ∨ (y.1.seg = x.1.seg ∧ y.1.cell < x.1.cell))))) := by
  have below : copyRank y ≤ copyRank x := Nat.le_of_not_lt fun above => by
    rw [losesTo_rank.mpr ⟨key.symm, above⟩] at stays
    exact absurd stays (by decide)
  rcases Nat.lt_or_eq_of_le below with less | same
  · obtain ⟨-, version | ⟨version, seq | ⟨seq, place⟩⟩⟩ := losesTo_iff.mp (losesTo_rank.mpr ⟨key, less⟩)
    · exact .inl version
    · exact .inr ⟨version, .inl seq⟩
    · exact .inr ⟨version, .inr ⟨seq, .inr place⟩⟩
  · obtain ⟨version, seq, place⟩ := copyRank_inj same
    exact .inr ⟨version, .inr ⟨seq, .inl place⟩⟩

theorem mem_currentCells : x ∈ currentCells cs ↔ x ∈ cs ∧ ∀ y ∈ cs, losesTo x y = false := by
  simp only [currentCells, List.mem_filter, Bool.not_eq_true', List.any_eq_false, Bool.not_eq_true]

/-- An entry that mount builds is that of a current cell of its key. -/
theorem lookup_buildDir_some (there : lookup (buildDir cs) k = some e) : ∃ x ∈ currentCells cs, x.2.key = k ∧ e = committedEntry none x.2 x.1 :=
  ((lookup_putAll (currentCells cs) [] k).1 e there).resolve_left (by rintro ⟨⟩)

theorem lookup_buildDir_none : lookup (buildDir cs) k = none ↔ ∀ x ∈ cs, x.2.key ≠ k := by
  constructor
  · intro absent x there key
    obtain ⟨y, current, same⟩ := exists_current cs x there
    exact ((lookup_putAll (currentCells cs) [] k).2 absent).2 y current (same.trans key)
  · refine fun none => Option.eq_none_iff_forall_ne_some.mpr fun e there => ?_
    obtain ⟨x, current, key, -⟩ := lookup_buildDir_some there
    exact none x (mem_currentCells.mp current).1 key

theorem mem_repairTargets : (k, pos) ∈ repairTargets cs ↔ ∃ x ∈ cs, x.1 = pos ∧ x.2.key = k ∧ ∃ y ∈ cs, losesTo x y = true := by
  simp only [repairTargets, List.mem_insertionSort, List.mem_map, List.mem_filter, List.any_eq_true, Prod.mk.injEq]
  constructor
  · rintro ⟨x, ⟨there, loses⟩, key, place⟩
    exact ⟨x, there, place, key, loses⟩
  · rintro ⟨x, there, place, key, loses⟩
    exact ⟨x, ⟨there, loses⟩, key, place⟩

theorem repairTargets_sorted (ordered : cs.Pairwise (fun x y => x.1.before y.1 = true)) :
    (repairTargets cs).Pairwise (fun x y => x.1 < y.1 ∨ (x.1 = y.1 ∧ x.2.before y.2 = true)) :=
  sortByKey_stable _ (List.pairwise_map.mpr (ordered.filter _))

end

/-! ## The segment table and its front (R159) -/

section
variable {s : State} {m : Mount} {gen h : Generation} {g f : Seg} {n : Nat} {c : CellNo} {front : Option Seg}

/-- A row with no counts, as mount's step 4 makes it. -/
def SegRow.uncounted (st : SegState) (n : Nat) : SegRow := { state := st, erases := n, live := 0, dead := 0, free := 0 }

theorem Mount.row_retired (is : m.classes[g.val]? = some (.retired n)) : m.row gen front g = .uncounted .retired n := by
  rw [Mount.row, Mount.classOf_of is]
  rfl

theorem Mount.row_fresh (is : m.classes[g.val]? = some .fresh) : m.row gen front g = .uncounted .free m.high := by
  rw [Mount.row, Mount.classOf_of is]
  rfl

theorem Mount.row_damaged (is : m.classes[g.val]? = some .damaged) : m.row gen front g = .uncounted .erasing 0 := by
  rw [Mount.row, Mount.classOf_of is]
  rfl

theorem Mount.row_older (is : m.classes[g.val]? = some (.valid h n)) (older : h ≠ gen) : m.row gen front g = .uncounted .erasing n := by
  rw [Mount.row, Mount.classOf_of is]
  exact if_neg older

theorem Mount.row_current (is : m.classes[g.val]? = some (.valid gen n)) :
    m.row gen front g = .uncounted (if front = some g then .front else if (m.foundIn g).length = 0 then .free else .full) n := by
  rw [Mount.row, Mount.classOf_of is]
  simp only [if_true, List.isEmpty_iff, List.length_eq_zero_iff]
  split
  · rfl
  · split <;> rfl

theorem Mount.used_eq (m : Mount) (g : Seg) : (m.foundIn g).length = m.found.countP (fun f => f.pos.seg == g) :=
  List.countP_eq_length_filter.symm

/-- The segment table of mount's step 4. -/
def Mount.table (m : Mount) (gen : Generation) : Vector SegRow 256 := Vector.ofFn fun g : Fin 256 => m.row gen (m.chooseFront gen) g

/-- The free cells of the front that mount chooses. -/
def Mount.frontCells (m : Mount) (gen : Generation) : List CellNo :=
  match m.chooseFront gen with
  | some g => m.erasedIn g
  | none => []

theorem State.mountTable_eq (s : State) (m : Mount) :
    s.mountTable m = ((s.setSegs (m.table s.store.generation)).setFrontFree (m.frontCells s.store.generation)).mountTargets m := rfl

theorem Mount.table_row : (m.table gen)[g] = m.row gen (m.chooseFront gen) g := by
  rw [Mount.table, Fin.getElem_fin, Vector.getElem_ofFn]

theorem Mount.table_oneFront : OneFront (m.table gen) := OneFront.ofFn _ fun _ front => Mount.row_front front

theorem Mount.frontCells_some (chosen : m.chooseFront gen = some g) : m.frontCells gen = m.erasedIn g := by
  rw [Mount.frontCells, chosen]

theorem Mount.frontCells_none (none : m.chooseFront gen = none) : m.frontCells gen = [] := by
  rw [Mount.frontCells, none]

theorem Mount.frontCells_ok : FreeCellsOk (m.frontCells gen) := by
  cases chosen : m.chooseFront gen with
  | none => exact Mount.frontCells_none chosen ▸ noCells_ok
  | some g => exact Mount.frontCells_some chosen ▸ Mount.erasedIn_ok g

theorem Mount.mem_erasedIn : c ∈ m.erasedIn g ↔ c ≠ 0 ∧ ∀ f ∈ m.found, f.pos ≠ ⟨g, c⟩ := by
  simp only [Mount.erasedIn, List.mem_filter, mem_dataCells, List.all_eq_true, Mount.mem_foundIn, bne_iff_ne, and_imp]
  refine and_congr_right fun _ => forall₂_congr fun f _ => ⟨fun apart is => ?_, fun apart seg cell => ?_⟩
  · exact apart (by rw [is]) (by rw [is])
  · exact apart (by rw [← seg, ← cell])

/-- The front that mount chooses is partly filled, and its row is the FRONT one. -/
theorem Mount.chosen_front (chosen : m.chooseFront gen = some f) : m.partly gen f = true ∧ ((m.table gen)[f]).state = .front := by
  have partly := (m.chooseFront_spec gen).1 f chosen |>.1
  obtain ⟨⟨n, current⟩, -⟩ := Mount.partly_iff.mp partly
  exact ⟨partly, by rw [Mount.table_row, Mount.row_current current, if_pos chosen]; rfl⟩

theorem Mount.chosen_of_front (front : ((m.table gen)[g]).state = .front) : m.chooseFront gen = some g := by
  rw [Mount.table_row] at front
  exact Mount.row_front front

theorem Mount.exists_front (partly : m.partly gen g = true) : ∃ f, m.chooseFront gen = some f := by
  refine Option.isSome_iff_exists.mp (Option.isSome_iff_ne_none.mpr fun none => ?_)
  rw [(m.chooseFront_spec gen).2 none g] at partly
  exact absurd partly (by decide)

/-- The rows of the current segments: by the number of their cells found. -/
theorem Mount.table_current (current : m.classes[g.val]? = some (.valid gen n)) :
    ((m.foundIn g).length = 0 → (m.table gen)[g] = .uncounted .free n) ∧
    (31 ≤ (m.foundIn g).length → (m.table gen)[g] = .uncounted .full n) ∧
    (1 ≤ (m.foundIn g).length → (m.foundIn g).length < 31 →
      (m.table gen)[g] = .uncounted .front n ∨ (m.table gen)[g] = .uncounted .full n) := by
  have notChosen (whole : ¬ (1 ≤ (m.foundIn g).length ∧ (m.foundIn g).length < 31)) : m.chooseFront gen ≠ some g := fun chosen =>
    whole (Mount.partly_iff.mp (Mount.chosen_front chosen).1).2
  rw [Mount.table_row, Mount.row_current current]
  refine ⟨fun empty => ?_, fun filled => ?_, fun some_ few => ?_⟩
  · rw [if_neg (notChosen (by omega)), if_pos empty]
  · rw [if_neg (notChosen (by omega)), if_neg (by omega)]
  · by_cases chosen : m.chooseFront gen = some g
    · exact .inl (by rw [if_pos chosen])
    · exact .inr (by rw [if_neg chosen, if_neg (by omega)])

/-- The highest sequence number among a segment's good bodies, and none when it holds none. -/
theorem Mount.topIn_spec (m : Mount) (g : Seg) :
    (∀ n, m.topIn g = some n →
      (∀ f ∈ m.found, f.pos.seg = g → ∀ b, f.body = some b → b.seq.toNat ≤ n) ∧
      ∃ f ∈ m.found, f.pos.seg = g ∧ ∃ b, f.body = some b ∧ n = b.seq.toNat) ∧
    (m.topIn g = none → ∀ f ∈ m.found, f.pos.seg = g → f.body = none) := by
  obtain ⟨some_, none_⟩ := topSeq_fold (m.foundIn g) none
  refine ⟨fun n top => ?_, fun top f there seg => (none_ top).2 f (Mount.mem_foundIn.mpr ⟨there, seg⟩)⟩
  obtain ⟨-, highest, reached⟩ := some_ n top
  obtain ⟨f, there, b, body, is⟩ := reached.resolve_left (by rintro ⟨⟩)
  obtain ⟨inFound, seg⟩ := Mount.mem_foundIn.mp there
  exact ⟨fun f there seg => highest f (Mount.mem_foundIn.mpr ⟨there, seg⟩), f, inFound, seg, b, body, is⟩

theorem Mount.Fits.seq_le {g h : Seg} (fits : m.Fits g h) {f : Found} {b : Body} (there : f ∈ m.found) (seg : f.pos.seg = h)
    (body : f.body = some b) : ∃ f' ∈ m.found, f'.pos.seg = g ∧ ∃ b', f'.body = some b' ∧ b.seq ≤ b'.seq := by
  obtain ⟨someH, noneH⟩ := m.topIn_spec h
  obtain ⟨someG, -⟩ := m.topIn_spec g
  unfold Mount.Fits at fits
  cases topH : m.topIn h with
  | none =>
    rw [noneH topH f there seg] at body
    cases body
  | some y =>
    cases topG : m.topIn g with
    | none => simp [topH, topG] at fits
    | some x =>
      simp only [topH, topG] at fits
      obtain ⟨f', there', seg', b', body', is⟩ := (someG x topG).2
      exact ⟨f', there', seg', b', body', BitVec.le_def.mpr (is ▸ ((someH y topH).1 f there seg b body).trans fits)⟩

theorem Mount.Fits.le_of_bodiless {g h : Seg} (fits : m.Fits g h) (none_ : ∀ f ∈ m.found, f.pos.seg = g → f.body = none) : g ≤ h := by
  obtain ⟨someG, -⟩ := m.topIn_spec g
  unfold Mount.Fits at fits
  cases topG : m.topIn g with
  | some x =>
    obtain ⟨f, there, seg, b, body, -⟩ := (someG x topG).2
    rw [none_ f there seg] at body
    cases body
  | none =>
    cases topH : m.topIn h with
    | some y => simp [topH, topG] at fits
    | none => simpa only [topH, topG] using fits

/-- What mount's choice of the front makes of it (R159). -/
theorem Mount.front_spec (front : ((m.table gen)[g]).state = .front) :
    (∀ c : CellNo, c ∈ m.frontCells gen ↔ c ≠ 0 ∧ ∀ f ∈ m.found, f.pos ≠ ⟨g, c⟩) ∧
    (∀ (h : Seg) (x : Nat) (f : Found) (b : Body), m.classes[h.val]? = some (.valid gen x) → (m.foundIn h).length < 31 →
      f ∈ m.found → f.pos.seg = h → f.body = some b →
      ∃ f' ∈ m.found, f'.pos.seg = g ∧ ∃ b', f'.body = some b' ∧ b.seq ≤ b'.seq) ∧
    ((∀ f ∈ m.found, f.pos.seg = g → f.body = none) →
      ∀ (h : Seg) (x : Nat), m.classes[h.val]? = some (.valid gen x) → 1 ≤ (m.foundIn h).length → (m.foundIn h).length < 31 → g ≤ h) := by
  have chosen := Mount.chosen_of_front front
  have fits := ((m.chooseFront_spec gen).1 g chosen).2
  refine ⟨fun c => ?_, fun h x f b current few there seg body => ?_, fun bodiless h x current some_ few => ?_⟩
  · rw [Mount.frontCells_some chosen, Mount.mem_erasedIn]
  · have some_ : 1 ≤ (m.foundIn h).length := List.length_pos_of_mem (Mount.mem_foundIn.mpr ⟨there, seg⟩)
    exact (fits h (Mount.partly_iff.mpr ⟨⟨x, current⟩, some_, few⟩)).seq_le there seg body
  · exact (fits h (Mount.partly_iff.mpr ⟨⟨x, current⟩, some_, few⟩)).le_of_bodiless bodiless

theorem Mount.frontCells_of_noFront (none : ∀ h : Seg, ((m.table gen)[h]).state ≠ .front) : m.frontCells gen = [] := by
  cases chosen : m.chooseFront gen with
  | none => exact Mount.frontCells_none chosen
  | some f => exact absurd (Mount.chosen_front chosen).2 (none f)

end

/-- Settles O53: the current cell of a key by its rank among the key's cells, and the front by the order of R159. -/
theorem mountChoosesTheCurrentCells : Obligations.MountChoosesTheCurrentCells := by
  refine ⟨fun s m pos carries progress awaits => ⟨_, rfl, ?_⟩,
    fun s m n => ⟨fun g count => State.mountReadFrom_next, fun none => State.mountReadFrom_last none⟩, fun m pos b => Mount.mem_committed,
    seqAfter_toNat, buildDir_ok, fun cs k => lookup_buildDir_none, fun cs k e there => ?_, fun cs k pos => ?_, fun cs ordered => ?_,
    fun s m => ⟨m.table s.store.generation, m.frontCells s.store.generation, fun g => (m.foundIn g).length, SegRow.uncounted, m.used_eq,
      fun st n => rfl, s.mountTable_eq m, Mount.table_oneFront, Mount.frontCells_ok, fun g n is => ?_, fun g is => ?_, fun g is => ?_,
      fun g h n is older => ?_, fun g n is => ?_, Mount.frontCells_of_noFront⟩⟩
  · obtain ⟨goesOn, ends⟩ :=
      State.mountDataRead_eq (s := s.setInFlight none) (m := m) (pos := pos) (r := (readData s.array.cells pos).headerOnly)
    rw [Mount.withData_headerOnly] at goesOn ends
    rw [exec_cellReadDone_mounting carries progress, State.mountRead_dataCell awaits]
    exact ⟨fun more => congrArg (fun t => Host.Outcome.next (State.settle t)) (goesOn more),
      fun last => congrArg (fun t => Host.Outcome.next (State.settle t)) (ends last)⟩
  · obtain ⟨x, current, key, rfl⟩ := lookup_buildDir_some there
    obtain ⟨inCells, stays⟩ := mem_currentCells.mp current
    refine ⟨x, inCells, key, ?_, fun y other sameKey => losesTo_false (sameKey.trans key.symm) (stays y other)⟩
    rw [committedEntry_eq, key]
    rfl
  · rw [mem_repairTargets]
    refine exists_congr fun x => and_congr_right fun _ => and_congr_right fun _ => and_congr_right fun key => exists_congr fun y => ?_
    rw [losesTo_iff, key, eq_comm (a := k)]
  · have before := repairTargets_sorted (ordered.imp Pos.before_iff.mpr)
    exact before.imp fun h => h.imp_right fun ⟨key, place⟩ => ⟨key, Pos.before_iff.mp place⟩
  · rw [Mount.table_row, Mount.row_retired is]
  · rw [Mount.table_row, Mount.row_fresh is]
  · rw [Mount.table_row, Mount.row_damaged is]
  · rw [Mount.table_row, Mount.row_older is older]
  · obtain ⟨empty, filled, between⟩ := Mount.table_current is
    refine ⟨empty, filled, fun some_ few => ⟨between some_ few, ?_, Mount.front_spec⟩⟩
    obtain ⟨f, chosen⟩ := Mount.exists_front (Mount.partly_iff.mpr ⟨⟨n, is⟩, some_, few⟩)
    exact ⟨f, (Mount.chosen_front chosen).2⟩

end Sys2Proof.Machine
